-- ==== Sys2Proof/Word.lean ====
section
/-! DEFINITION. The byte of a configuration program, the only word type of this hardware: every stored
value of the block is a mathematical integer of a stated width (`00_scope.md` R12, R14), kept as `Int`. -/

namespace Sys2Proof

/-- One byte of a configuration program (the selector of `30_encoding.md` R56 is one byte). -/
abbrev Byte := BitVec 8

end Sys2Proof
end

