-- ==== Sys2Proof/Syntax.lean ====
section
/-! DEFINITION. The operations of the block, one constructor per row of the operation table
(`30_encoding.md` R56), with the parameters and operands of that table in its order.

A parameter is written down before anything has checked it: a format may have a negative bit count, a
rate may be 0. Such terms are legal syntax and are refused when they are executed, with the
`ConfigError` of `60_exceptions.md` R262. Structural numbers are therefore `Int`. -/

namespace Sys2Proof

/-- A fixed-point format `(i, f, s)` as written (`00_scope.md` R11, `40_fixed_point.md` R70). -/
structure FormatParam where
  i : Int
  f : Int
  signed : Bool
deriving DecidableEq, Repr

/-- A fixed-point operand `<raw : (i, f, s)>` as written (`00_scope.md` R14, `30_encoding.md` R58). -/
structure ValueParam where
  raw : Int
  fmt : FormatParam
deriving DecidableEq, Repr

/-- A complex operand `(re, im)`, both lanes of one format (`41_complex.md` R100). -/
structure ComplexParam where
  re : Int
  im : Int
  fmt : FormatParam
deriving DecidableEq, Repr

/-- A rounding policy as written: the one member of the enumeration, or any other policy name, which is
refused (`40_fixed_point.md` R81). -/
inductive Rounding
  | truncate
  | other (policy : Nat)
deriving DecidableEq, Repr

/-- The implementation of a delay line as written (`42_stream_skid_delay.md` R133): only the shift
register is specified, `fifo` is named and refused. -/
inductive DelayImpl
  | shiftRegister
  | fifo
deriving DecidableEq, Repr

/-- The two variants of the twiddle rotation (`45_fft_stages.md` R213, R215). -/
inductive TwVariant
  | direct
  | threeMult
deriving DecidableEq, Repr

/-- What an entry of a delay line carries beside its payload (`30_encoding.md` R55). -/
inductive EntryKind
  /-- a bare payload, always valid (the comb's delay) -/
  | bare
  /-- `(payload, valid)` -/
  | flagged
  /-- `(payload, valid, tag)` (the butterfly's feedback delay) -/
  | tagged
deriving DecidableEq, Repr

/-- The entry type of a `Delay` (`42_stream_skid_delay.md` R130): its record kind and its payload. -/
structure EntryTypeParam where
  kind : EntryKind
  fmt : FormatParam
  lanes : Int
deriving DecidableEq, Repr

/-- One lane of a `PipeReg`'s combinational function as written (`42_stream_skid_delay.md` R132): the lanes of
the incoming payload, constants, the operations of `40_fixed_point.md`, of which those of `41_complex.md`
are composed lane by lane (R100), and a multiplexer ("muxed outputs", `00_scope.md` R6). That a function
is written so is the model's choice; every function between payload types can be (assumption log entry
11). -/
inductive LaneExprParam
  /-- the real lane of the incoming payload -/
  | inRe
  /-- its imaginary lane -/
  | inIm
  | const (v : ValueParam)
  | add (a b : LaneExprParam)
  | sub (a b : LaneExprParam)
  | mul (a b : LaneExprParam)
  | reshape (a : LaneExprParam) (fmt : FormatParam) (rounding : Rounding)
  | rshift (a : LaneExprParam) (n : Int)
  | neg (a : LaneExprParam)
  /-- `b` where bit `bit` of `s` is 1, `a` where it is 0 -/
  | select (s : LaneExprParam) (bit : Nat) (a b : LaneExprParam)
deriving DecidableEq, Repr

/-- A combinational function as written: its lanes, one or two. -/
structure CombFnParam where
  re : LaneExprParam
  im : Option LaneExprParam
deriving DecidableEq, Repr

/-- The combinational function `g` of a `PipeReg` with its input payload type, the "identity when omitted"
(`42_stream_skid_delay.md` R132). -/
structure PipeFnParam where
  fmt : FormatParam
  lanes : Int
  g : Option CombFnParam
deriving DecidableEq, Repr

/-- The operations, stages and builders of the block: one constructor per row of
`spec/opcode_table.json`, in the table's order. -/
inductive Instr
  | fixedPointConst (fmt : FormatParam) (raw : Int)
  | add (a b : ValueParam)
  | sub (a b : ValueParam)
  | mul (a b : ValueParam)
  | reshape (v : ValueParam) (newFormat : FormatParam) (rounding : Rounding)
  | rshift (v : ValueParam) (n : Int)
  | neg (v : ValueParam)
  | complex (re im : ValueParam)
  | cAdd (x y : ComplexParam)
  | cSub (x y : ComplexParam)
  | cMul (x y : ComplexParam)
  | cMul3 (x t : ComplexParam)
  | cScale (x : ComplexParam) (k : ValueParam)
  | cRshift (x : ComplexParam) (n : Int)
  | cReshape (x : ComplexParam) (fmt : FormatParam) (rounding : Rounding)
  | cMulnegj (x : ComplexParam)
  | skidBuffer (fmt : FormatParam) (lanes : Int)
  | delay (depth : Int) (entry : EntryTypeParam) (impl : DelayImpl)
  | streamDelay (depth : Int) (fmt : FormatParam) (lanes : Int) (impl : DelayImpl)
  | pipeReg (g : PipeFnParam)
  | integrator (wIn w lanes : Int)
  | comb (wIn m : Int) (wOut : Option Int) (lanes : Int)
  | upsampler (r w lanes : Int)
  | downsampler (r w lanes : Int)
  | requant (k wIn wOut lanes : Int)
  | cicGrowth (n r m : Int)
  | cicTruncation (n r m wIn : Int) (widthOut : Option Int)
  | cicUpsamplingFilter (n r m : Int) (fmtIn : FormatParam) (lanes : Int) (widthOut : Option Int) (outFmt : Option FormatParam)
  | cicDownsamplingFilter (n r m : Int) (fmtIn : FormatParam) (lanes : Int) (widthOut : Option Int) (outFmt : Option FormatParam)
  | sdfRadix2Stage (n : Int) (fmtIn : FormatParam)
  | r22TwiddleStage (n : Int) (fmt : FormatParam)
  | twiddleStageDirect (n : Int) (fmt twFmt : FormatParam)
  | twiddleStageThreeMult (n : Int) (fmt twFmt : FormatParam)
  | twiddleTable (n : Int) (twFmt : FormatParam)
  | serialBitExchange (j k : Int) (fmt : FormatParam) (lanes : Int)
  | serialBitReversal (n : Int) (fmt : FormatParam) (lanes : Int)
  | serialFFT (n : Int) (fmtIn : FormatParam) (bitrev : Bool) (twFmt : FormatParam) (variant : TwVariant) (skid : Bool)
deriving DecidableEq, Repr

end Sys2Proof
end

