-- ==== Sys2Proof/Decode.lean ====
section
/-! DEFINITION. Reading and writing an operation as bytes. The first byte is the selector of
`30_encoding.md` R56; the spec gives the operands no bits ("they have no run-time encoding", R52), so the
operand bytes after it are the model's own (assumption log entry 1): every number a little-endian
base-128 numeral, seven bits a byte, the top bit set on every byte but the last, shortest form only; a
signed number folded to a natural one (0, -1, 1, -2, ... to 0, 1, 2, 3, ...) after its offset is taken
off, where the offset is the least legal value of a width, rate, size or lane count. Operand bytes of
zero are therefore a legal operation of every row. -/

namespace Sys2Proof

/-- Why bytes are no operation. -/
inductive DecodeError
  /-- the first byte is no selector of the table (`30_encoding.md` R57) -/
  | noSuchOperation (selector : Nat)
  /-- the bytes end inside an operand -/
  | truncated
  /-- a numeral is longer than it need be -/
  | notShortest
  /-- a choice byte names none of the choices -/
  | badChoice
deriving DecidableEq, Repr

/-- A reader of an operand: what it read and the bytes after it. -/
abbrev Reader (α : Type) := List Byte → Except DecodeError (α × List Byte)

def Reader.pure {α : Type} (a : α) : Reader α := fun bs => .ok (a, bs)

def Reader.fail {α : Type} (e : DecodeError) : Reader α := fun _ => .error e

def Reader.bind {α β : Type} (p : Reader α) (k : α → Reader β) : Reader β := fun bs =>
  match p bs with
  | .ok (a, rest) => k a rest
  | .error e => .error e

/-! ### Numbers -/

/-- A natural number as a base-128 numeral; `fuel` bounds the number of digits. -/
def putNatFuel : (fuel n : Nat) → List Byte
  | 0, n => [BitVec.ofNat 8 n]
  | fuel + 1, n =>
    if n < 128 then [BitVec.ofNat 8 n]
    else BitVec.ofNat 8 (n % 128 + 128) :: putNatFuel fuel (n / 128)

def putNat (n : Nat) : List Byte := putNatFuel n n

def readNat : Reader Nat
  | [] => .error .truncated
  | b :: bs =>
    if b.toNat < 128 then .ok (b.toNat, bs)
    else
      match readNat bs with
      | .ok (n, rest) => if n = 0 then .error .notShortest else .ok (b.toNat - 128 + 128 * n, rest)
      | .error e => .error e

/-- `0, -1, 1, -2, ...` to `0, 1, 2, 3, ...`. -/
def foldInt (x : Int) : Nat := if 0 ≤ x then 2 * x.toNat else 2 * (-x).toNat - 1

def unfoldInt (n : Nat) : Int := if n % 2 = 0 then ((n / 2 : Nat) : Int) else -((n / 2 + 1 : Nat) : Int)

def putInt (offset x : Int) : List Byte := putNat (foldInt (x - offset))

def readInt (offset : Int) : Reader Int := readNat.bind fun n => .pure (unfoldInt n + offset)

/-! ### Choices and lists -/

def putChoice (n : Nat) : List Byte := [BitVec.ofNat 8 n]

def readByte : Reader Nat
  | [] => .error .truncated
  | b :: bs => .ok (b.toNat, bs)

def putBool (b : Bool) : List Byte := putChoice (if b then 1 else 0)

def readBool : Reader Bool := readByte.bind fun n =>
  match n with
  | 0 => .pure false
  | 1 => .pure true
  | _ => .fail .badChoice

def putOption {α : Type} (put : α → List Byte) : Option α → List Byte
  | none => putChoice 0
  | some a => putChoice 1 ++ put a

def readOption {α : Type} (read : Reader α) : Reader (Option α) := readByte.bind fun n =>
  match n with
  | 0 => .pure none
  | 1 => read.bind fun a => .pure (some a)
  | _ => .fail .badChoice

def putAll {α : Type} (put : α → List Byte) : List α → List Byte
  | [] => []
  | a :: as => put a ++ putAll put as

def readAll {α : Type} (read : Reader α) : Nat → Reader (List α)
  | 0 => .pure []
  | n + 1 => read.bind fun a => (readAll read n).bind fun as => .pure (a :: as)

def putList {α : Type} (put : α → List Byte) (as : List α) : List Byte := putNat as.length ++ putAll put as

def readList {α : Type} (read : Reader α) : Reader (List α) := readNat.bind fun n => readAll read n

/-! ### Operand records -/

/-- Signed is the choice 0, unsigned the choice 1; `i` is written from 2 on. -/
def putFormat (p : FormatParam) : List Byte := putInt 2 p.i ++ putInt 0 p.f ++ putBool (!p.signed)

def readFormat : Reader FormatParam :=
  (readInt 2).bind fun i => (readInt 0).bind fun f => readBool.bind fun u => .pure ⟨i, f, !u⟩

def putValue (v : ValueParam) : List Byte := putInt 0 v.raw ++ putFormat v.fmt

def readValue : Reader ValueParam :=
  (readInt 0).bind fun raw => readFormat.bind fun fmt => .pure ⟨raw, fmt⟩

def putComplex (x : ComplexParam) : List Byte := putInt 0 x.re ++ putInt 0 x.im ++ putFormat x.fmt

def readComplex : Reader ComplexParam :=
  (readInt 0).bind fun re => (readInt 0).bind fun im => readFormat.bind fun fmt => .pure ⟨re, im, fmt⟩

def putRounding : Rounding → List Byte
  | .truncate => putNat 0
  | .other policy => putNat (policy + 1)

def readRounding : Reader Rounding := readNat.bind fun n =>
  match n with
  | 0 => .pure .truncate
  | policy + 1 => .pure (.other policy)

def putImpl : DelayImpl → List Byte
  | .shiftRegister => putChoice 0
  | .fifo => putChoice 1

def readImpl : Reader DelayImpl := readByte.bind fun n =>
  match n with
  | 0 => .pure .shiftRegister
  | 1 => .pure .fifo
  | _ => .fail .badChoice

def putVariant : TwVariant → List Byte
  | .direct => putChoice 0
  | .threeMult => putChoice 1

def readVariant : Reader TwVariant := readByte.bind fun n =>
  match n with
  | 0 => .pure .direct
  | 1 => .pure .threeMult
  | _ => .fail .badChoice

def putKind : EntryKind → List Byte
  | .bare => putChoice 0
  | .flagged => putChoice 1
  | .tagged => putChoice 2

def readKind : Reader EntryKind := readByte.bind fun n =>
  match n with
  | 0 => .pure .bare
  | 1 => .pure .flagged
  | 2 => .pure .tagged
  | _ => .fail .badChoice

def putEntryType (e : EntryTypeParam) : List Byte := putKind e.kind ++ putFormat e.fmt ++ putInt 1 e.lanes

def readEntryType : Reader EntryTypeParam :=
  readKind.bind fun kind => readFormat.bind fun fmt => (readInt 1).bind fun lanes => .pure ⟨kind, fmt, lanes⟩

/-- An expression: a choice byte, then the parts from left to right. -/
def putLaneExpr : LaneExprParam → List Byte
  | .inRe => putChoice 0
  | .inIm => putChoice 1
  | .const v => putChoice 2 ++ putValue v
  | .add a b => putChoice 3 ++ (putLaneExpr a ++ putLaneExpr b)
  | .sub a b => putChoice 4 ++ (putLaneExpr a ++ putLaneExpr b)
  | .mul a b => putChoice 5 ++ (putLaneExpr a ++ putLaneExpr b)
  | .reshape a fmt rounding => putChoice 6 ++ (putLaneExpr a ++ (putFormat fmt ++ putRounding rounding))
  | .rshift a n => putChoice 7 ++ (putLaneExpr a ++ putInt 0 n)
  | .neg a => putChoice 8 ++ putLaneExpr a
  | .select s bit a b => putChoice 9 ++ (putLaneExpr s ++ (putNat bit ++ (putLaneExpr a ++ putLaneExpr b)))

/-- An expression with at most `fuel` parts below one another. -/
def readLaneExprFuel : (fuel : Nat) → Reader LaneExprParam
  | 0 => .fail .truncated
  | fuel + 1 => readByte.bind fun n =>
    match n with
    | 0 => .pure .inRe
    | 1 => .pure .inIm
    | 2 => readValue.bind fun v => .pure (.const v)
    | 3 => (readLaneExprFuel fuel).bind fun a => (readLaneExprFuel fuel).bind fun b => .pure (.add a b)
    | 4 => (readLaneExprFuel fuel).bind fun a => (readLaneExprFuel fuel).bind fun b => .pure (.sub a b)
    | 5 => (readLaneExprFuel fuel).bind fun a => (readLaneExprFuel fuel).bind fun b => .pure (.mul a b)
    | 6 => (readLaneExprFuel fuel).bind fun a => readFormat.bind fun fmt => readRounding.bind fun rounding =>
        .pure (.reshape a fmt rounding)
    | 7 => (readLaneExprFuel fuel).bind fun a => (readInt 0).bind fun k => .pure (.rshift a k)
    | 8 => (readLaneExprFuel fuel).bind fun a => .pure (.neg a)
    | 9 => (readLaneExprFuel fuel).bind fun s => readNat.bind fun bit => (readLaneExprFuel fuel).bind fun a =>
        (readLaneExprFuel fuel).bind fun b => .pure (.select s bit a b)
    | _ => .fail .badChoice

/-- Every part of an expression takes a byte, so the bytes that are there bound the parts. -/
def readLaneExpr : Reader LaneExprParam := fun bs => readLaneExprFuel bs.length bs

def putCombFn (c : CombFnParam) : List Byte := putLaneExpr c.re ++ putOption putLaneExpr c.im

def readCombFn : Reader CombFnParam :=
  readLaneExpr.bind fun re => (readOption readLaneExpr).bind fun im => .pure ⟨re, im⟩

def putPipeFn (g : PipeFnParam) : List Byte := putFormat g.fmt ++ (putInt 1 g.lanes ++ putOption putCombFn g.g)

def readPipeFn : Reader PipeFnParam :=
  readFormat.bind fun fmt => (readInt 1).bind fun lanes => (readOption readCombFn).bind fun g => .pure ⟨fmt, lanes, g⟩

/-! ### Operand lists that several rows share -/

def readTwoValues (k : ValueParam → ValueParam → Instr) : Reader Instr :=
  readValue.bind fun a => readValue.bind fun b => .pure (k a b)

def readTwoComplex (k : ComplexParam → ComplexParam → Instr) : Reader Instr :=
  readComplex.bind fun x => readComplex.bind fun y => .pure (k x y)

/-- Three numbers that are at least 1 where they are legal. -/
def readThree (k : Int → Int → Int → Instr) : Reader Instr :=
  (readInt 1).bind fun a => (readInt 1).bind fun b => (readInt 1).bind fun c => .pure (k a b c)

def putThree (a b c : Int) : List Byte := putInt 1 a ++ putInt 1 b ++ putInt 1 c

def readFilter (k : Int → Int → Int → FormatParam → Int → Option Int → Option FormatParam → Instr) : Reader Instr :=
  (readInt 1).bind fun n => (readInt 1).bind fun r => (readInt 1).bind fun m => readFormat.bind fun fmt =>
    (readInt 1).bind fun lanes => (readOption (readInt 1)).bind fun w => (readOption readFormat).bind fun o =>
      .pure (k n r m fmt lanes w o)

def putFilter (n r m : Int) (fmt : FormatParam) (lanes : Int) (w : Option Int) (o : Option FormatParam) : List Byte :=
  putThree n r m ++ putFormat fmt ++ putInt 1 lanes ++ putOption (putInt 1) w ++ putOption putFormat o

def readTwiddle (k : Int → FormatParam → FormatParam → Instr) : Reader Instr :=
  (readInt 4).bind fun n => readFormat.bind fun fmt => readFormat.bind fun tw => .pure (k n fmt tw)

def readSized (k : Int → FormatParam → Instr) : Reader Instr :=
  (readInt 4).bind fun n => readFormat.bind fun fmt => .pure (k n fmt)

/-! ### Operations -/

/-- The operands of the operation a selector names (`30_encoding.md` R56). -/
def readOperands (selector : Nat) : Reader Instr :=
  match selector with
  | 0x00 => readFormat.bind fun fmt => (readInt 0).bind fun raw => .pure (.fixedPointConst fmt raw)
  | 0x01 => readTwoValues .add
  | 0x02 => readTwoValues .sub
  | 0x03 => readTwoValues .mul
  | 0x04 => readValue.bind fun v => readFormat.bind fun fmt => readRounding.bind fun r => .pure (.reshape v fmt r)
  | 0x05 => readValue.bind fun v => (readInt 0).bind fun n => .pure (.rshift v n)
  | 0x06 => readValue.bind fun v => .pure (.neg v)
  | 0x10 => readTwoValues .complex
  | 0x11 => readTwoComplex .cAdd
  | 0x12 => readTwoComplex .cSub
  | 0x13 => readTwoComplex .cMul
  | 0x14 => readTwoComplex .cMul3
  | 0x15 => readComplex.bind fun x => readValue.bind fun k => .pure (.cScale x k)
  | 0x16 => readComplex.bind fun x => (readInt 0).bind fun n => .pure (.cRshift x n)
  | 0x17 => readComplex.bind fun x => readFormat.bind fun fmt => readRounding.bind fun r => .pure (.cReshape x fmt r)
  | 0x18 => readComplex.bind fun x => .pure (.cMulnegj x)
  | 0x20 => readFormat.bind fun fmt => (readInt 1).bind fun lanes => .pure (.skidBuffer fmt lanes)
  | 0x21 => (readInt 0).bind fun depth => readEntryType.bind fun e => readImpl.bind fun impl => .pure (.delay depth e impl)
  | 0x22 => (readInt 0).bind fun depth => readFormat.bind fun fmt => (readInt 1).bind fun lanes =>
      readImpl.bind fun impl => .pure (.streamDelay depth fmt lanes impl)
  | 0x23 => readPipeFn.bind fun g => .pure (.pipeReg g)
  | 0x30 => readThree .integrator
  | 0x31 => (readInt 1).bind fun wIn => (readInt 1).bind fun m => (readOption (readInt 1)).bind fun wOut =>
      (readInt 1).bind fun lanes => .pure (.comb wIn m wOut lanes)
  | 0x32 => readThree .upsampler
  | 0x33 => readThree .downsampler
  | 0x34 => (readInt 0).bind fun k => readThree (.requant k)
  | 0x38 => readThree .cicGrowth
  | 0x39 => (readInt 1).bind fun n => (readInt 1).bind fun r => (readInt 1).bind fun m => (readInt 1).bind fun wIn =>
      (readOption (readInt 1)).bind fun w => .pure (.cicTruncation n r m wIn w)
  | 0x3A => readFilter .cicUpsamplingFilter
  | 0x3B => readFilter .cicDownsamplingFilter
  | 0x40 => readSized .sdfRadix2Stage
  | 0x41 => readSized .r22TwiddleStage
  | 0x42 => readTwiddle .twiddleStageDirect
  | 0x43 => readTwiddle .twiddleStageThreeMult
  | 0x44 => readSized .twiddleTable
  | 0x50 => (readInt 1).bind fun j => (readInt 0).bind fun k => readFormat.bind fun fmt => (readInt 1).bind fun lanes =>
      .pure (.serialBitExchange j k fmt lanes)
  | 0x51 => (readInt 4).bind fun n => readFormat.bind fun fmt => (readInt 1).bind fun lanes =>
      .pure (.serialBitReversal n fmt lanes)
  | 0x60 => (readInt 4).bind fun n => readFormat.bind fun fmt => readBool.bind fun bitrev => readFormat.bind fun tw =>
      readVariant.bind fun variant => readBool.bind fun skid => .pure (.serialFFT n fmt bitrev tw variant skid)
  | n => .fail (.noSuchOperation n)

/-- The operation at the head of a byte string, and the bytes after it; total on any bytes. -/
def decode : Reader Instr
  | [] => .error .truncated
  | selector :: rest => readOperands selector.toNat rest

/-- The selector of an operation (`30_encoding.md` R56). -/
def selector : Instr → Nat
  | .fixedPointConst _ _ => 0x00
  | .add _ _ => 0x01
  | .sub _ _ => 0x02
  | .mul _ _ => 0x03
  | .reshape _ _ _ => 0x04
  | .rshift _ _ => 0x05
  | .neg _ => 0x06
  | .complex _ _ => 0x10
  | .cAdd _ _ => 0x11
  | .cSub _ _ => 0x12
  | .cMul _ _ => 0x13
  | .cMul3 _ _ => 0x14
  | .cScale _ _ => 0x15
  | .cRshift _ _ => 0x16
  | .cReshape _ _ _ => 0x17
  | .cMulnegj _ => 0x18
  | .skidBuffer _ _ => 0x20
  | .delay _ _ _ => 0x21
  | .streamDelay _ _ _ _ => 0x22
  | .pipeReg _ => 0x23
  | .integrator _ _ _ => 0x30
  | .comb _ _ _ _ => 0x31
  | .upsampler _ _ _ => 0x32
  | .downsampler _ _ _ => 0x33
  | .requant _ _ _ _ => 0x34
  | .cicGrowth _ _ _ => 0x38
  | .cicTruncation _ _ _ _ _ => 0x39
  | .cicUpsamplingFilter _ _ _ _ _ _ _ => 0x3A
  | .cicDownsamplingFilter _ _ _ _ _ _ _ => 0x3B
  | .sdfRadix2Stage _ _ => 0x40
  | .r22TwiddleStage _ _ => 0x41
  | .twiddleStageDirect _ _ _ => 0x42
  | .twiddleStageThreeMult _ _ _ => 0x43
  | .twiddleTable _ _ => 0x44
  | .serialBitExchange _ _ _ _ => 0x50
  | .serialBitReversal _ _ _ => 0x51
  | .serialFFT _ _ _ _ _ _ => 0x60

/-- The operand bytes of an operation, in the order of `30_encoding.md` R56. -/
def putOperands : Instr → List Byte
  | .fixedPointConst fmt raw => putFormat fmt ++ putInt 0 raw
  | .add a b => putValue a ++ putValue b
  | .sub a b => putValue a ++ putValue b
  | .mul a b => putValue a ++ putValue b
  | .reshape v fmt r => putValue v ++ putFormat fmt ++ putRounding r
  | .rshift v n => putValue v ++ putInt 0 n
  | .neg v => putValue v
  | .complex re im => putValue re ++ putValue im
  | .cAdd x y => putComplex x ++ putComplex y
  | .cSub x y => putComplex x ++ putComplex y
  | .cMul x y => putComplex x ++ putComplex y
  | .cMul3 x t => putComplex x ++ putComplex t
  | .cScale x k => putComplex x ++ putValue k
  | .cRshift x n => putComplex x ++ putInt 0 n
  | .cReshape x fmt r => putComplex x ++ putFormat fmt ++ putRounding r
  | .cMulnegj x => putComplex x
  | .skidBuffer fmt lanes => putFormat fmt ++ putInt 1 lanes
  | .delay depth e impl => putInt 0 depth ++ putEntryType e ++ putImpl impl
  | .streamDelay depth fmt lanes impl => putInt 0 depth ++ putFormat fmt ++ putInt 1 lanes ++ putImpl impl
  | .pipeReg g => putPipeFn g
  | .integrator wIn w lanes => putThree wIn w lanes
  | .comb wIn m wOut lanes => putInt 1 wIn ++ putInt 1 m ++ putOption (putInt 1) wOut ++ putInt 1 lanes
  | .upsampler r w lanes => putThree r w lanes
  | .downsampler r w lanes => putThree r w lanes
  | .requant k wIn wOut lanes => putInt 0 k ++ putThree wIn wOut lanes
  | .cicGrowth n r m => putThree n r m
  | .cicTruncation n r m wIn w => putThree n r m ++ putInt 1 wIn ++ putOption (putInt 1) w
  | .cicUpsamplingFilter n r m fmt lanes w o => putFilter n r m fmt lanes w o
  | .cicDownsamplingFilter n r m fmt lanes w o => putFilter n r m fmt lanes w o
  | .sdfRadix2Stage n fmt => putInt 4 n ++ putFormat fmt
  | .r22TwiddleStage n fmt => putInt 4 n ++ putFormat fmt
  | .twiddleStageDirect n fmt tw => putInt 4 n ++ putFormat fmt ++ putFormat tw
  | .twiddleStageThreeMult n fmt tw => putInt 4 n ++ putFormat fmt ++ putFormat tw
  | .twiddleTable n tw => putInt 4 n ++ putFormat tw
  | .serialBitExchange j k fmt lanes => putInt 1 j ++ putInt 0 k ++ putFormat fmt ++ putInt 1 lanes
  | .serialBitReversal n fmt lanes => putInt 4 n ++ putFormat fmt ++ putInt 1 lanes
  | .serialFFT n fmt bitrev tw variant skid =>
    putInt 4 n ++ putFormat fmt ++ putBool bitrev ++ putFormat tw ++ putVariant variant ++ putBool skid

/-- The bytes of an operation: its selector, then its operands. -/
def encode (i : Instr) : List Byte := BitVec.ofNat 8 (selector i) :: putOperands i

/-! ### Words of the operation table -/

/-- More operand bytes than any operation has whose operand bytes are all zero. -/
def operandPadding : Nat := 32

/-- The bytes of a table word of `nbits` bits, lowest byte first, followed by operand bytes of zero. -/
def tableBytes (nbits w : Nat) : List Byte :=
  (List.range (nbits / 8)).map (fun k => BitVec.ofNat 8 (w / 256 ^ k)) ++ List.replicate operandPadding 0

/-- The operation the decoder reads from a table word. -/
def decodeTableWord (nbits w : Nat) : Option Instr :=
  match decode (tableBytes nbits w) with
  | .ok (i, _) => some i
  | .error _ => none

/-- The bytes of exactly the operation at the head of a table word: its selector and as many operand bytes
of zero as it takes (all the bytes, where they are no operation). -/
def fetchBytes (nbits w : Nat) : List Byte :=
  let bytes := tableBytes nbits w
  match decode bytes with
  | .ok (_, rest) => bytes.take (bytes.length - rest.length)
  | .error _ => bytes

end Sys2Proof
end

