-- ==== Sys2Proof/Config.lean ====
section
/-! DEFINITION. What the spec leaves open and no instruction parameter carries: the payload of a link, or
of a delay slot, whose `valid` is 0. The two OPEN parameters of `92_eei_decisions.md` (`tw_fmt`, D34, and
`cic_out_fmt`, D23) are operands of the instructions that use them, so they are not here. -/

namespace Sys2Proof.Config

/-- The free value of an undefined payload (`00_scope.md` R18, `93_implementation_defined.md` U1: "any
value, fresh per tick and per link"): lane `lane` of what the draw site `site` shows at tick `tick`. It
has no body, so nothing can be proved of the value (assumption log entry 4). -/
opaque undefLane : (tick : Nat) → (site : Nat) → (lane : Nat) → Int

end Sys2Proof.Config
end

