-- ==== Sys2Proof/Machine/Arith.lean ====
section
/-! DEFINITION. The integer functions the spec's notation names (`00_scope.md` R12, R13): wrapping, the
two shifts on mathematical integers, `clog2`, powers of two, binomial coefficients, and the search that
rounds a cosine exactly (`45_fft_stages.md` R212). Nothing here reads a state. -/

namespace Sys2Proof.Machine

/-- `2^n` as an integer (`00_scope.md` R12). -/
def pow2 (n : Nat) : Int := ((2 ^ n : Nat) : Int)

/-- `wrap_u(W, x) = x mod 2^W` (`00_scope.md` R13). -/
def wrapU (w : Nat) (x : Int) : Int := x % pow2 w

/-- `wrap_s(W, x) = ((x + 2^(W-1)) mod 2^W) - 2^(W-1)`, for `W >= 1` (`00_scope.md` R13). -/
def wrapS (w : Nat) (x : Int) : Int := (x + pow2 (w - 1)) % pow2 w - pow2 (w - 1)

/-- `x << n` on a mathematical integer (`00_scope.md` R12). -/
def shl (x : Int) (n : Nat) : Int := x * pow2 n

/-- `x >> n = floor(x / 2^n)` on a mathematical integer (`00_scope.md` R12). -/
def ashr (x : Int) (n : Nat) : Int := x / pow2 n

/-- `clog2(x)` of a natural number `x >= 1`: the least `k` with `2^k >= x` (`00_scope.md` R12); the
exact integer form U7 asks for. -/
def clog2 (x : Nat) : Nat := if x ≤ 1 then 0 else Nat.log2 (x - 1) + 1

/-- `clog2(p / q)` of a fraction that is at least 1: the least `k >= 0` with `2^k * q >= p`
(`44_cic_sizing_filters.md` R171, second form of the growth). -/
def clog2Ratio (p q : Nat) : Nat := clog2 ((p + q - 1) / q)

/-- Whether a natural number is a power of two. -/
def isPow2 (n : Nat) : Bool := n == 2 ^ Nat.log2 n && n != 0

/-- `k!`. -/
def factorial : Nat → Nat
  | 0 => 1
  | k + 1 => (k + 1) * factorial k

/-- `n * (n-1) * ... * (n-k+1)`. -/
def fallingProduct (n : Nat) : Nat → Nat
  | 0 => 1
  | k + 1 => (n - k) * fallingProduct n k

/-- `C(n, k)`, "0 when `k < 0` or `k > n`" (`44_cic_sizing_filters.md` R176). -/
def binom (n k : Nat) : Nat :=
  if k > n then 0
  else
    let j := min k (n - k)
    fallingProduct n j / factorial j

/-- The sum of `f 0, ..., f n`. -/
def sumTo (f : Nat → Int) : Nat → Int
  | 0 => f 0
  | n + 1 => sumTo f n + f (n + 1)

/-- Whether `cos(2*pi*e/2^l)` is at least 0, by the quadrant of `e`. -/
def cosNonneg (l e : Nat) : Bool :=
  let n := 2 ^ l
  let r := e % n
  4 * r ≤ n || 3 * n ≤ 4 * r

/-- How `cos(2*pi*e/2^l)` compares with the fraction `a / 2^m`, decided in exact integers: the doubling
formula `cos(2x) = 2*cos(x)^2 - 1` turns the comparison into one for `2^(l-1)`, until the angle is a
whole turn. -/
def cosCompare : (l e : Nat) → (a : Int) → (m : Nat) → Ordering
  | 0, _, a, m => compare (pow2 m) a
  | l + 1, e, a, m =>
    if cosNonneg (l + 1) e then
      if a < 0 then .gt else cosCompare l e (2 * (a * a) - pow2 (2 * m)) (2 * m)
    else
      if 0 ≤ a then .lt else (cosCompare l e (2 * (a * a) - pow2 (2 * m)) (2 * m)).swap

/-- The largest `t`, of the form `t0 + k` with `0 <= k < 2^b`, for which the monotone test holds, found
one bit at a time from the top. -/
def searchBits (test : Int → Bool) : (b : Nat) → (t : Int) → Int
  | 0, t => t
  | b + 1, t => searchBits test b (if test (t + pow2 b) then t + pow2 b else t)

/-- `floor(cos(2*pi*e/2^l) * 2^f + 1/2)`: the real number `cos(2*pi*e/2^l)` as the stored integer of a
constant with `f` fraction bits (`40_fixed_point.md` R72, `45_fft_stages.md` R212). An integer `r` is at
most that number exactly when the cosine is at least `(2r - 1) / 2^(f+1)`. -/
def roundedCos (l e f : Nat) : Int :=
  searchBits (fun r => cosCompare l e (2 * r - 1) (f + 1) != .lt) (f + 2) (-(pow2 f))

end Sys2Proof.Machine
end

