-- ==== Sys2Proof/Machine/State.lean ====
section
/-! DEFINITION. The state of the machine, plain data: every register `10_state.md` gives the block, stage
by stage (R20 to R33), the pipeline those stages form, and the model's own fields (the configuration
program, the environment's drive, the boundary trace, the last result), which INVENTORY.md lists apart.
The block has no addressable memory (`20_memory.md` R40), so State holds none.

Types here are the checked ones: bit counts and structural numbers are natural numbers, a stored integer
is a mathematical `Int` (`00_scope.md` R12, R14). -/

namespace Sys2Proof.Machine

/-! ### Values -/

/-- A legal fixed-point format `(integer_bits, fraction_bits, signed)` (`40_fixed_point.md` R70). -/
structure Fmt where
  i : Nat
  f : Nat
  signed : Bool
deriving DecidableEq, Repr

/-- A fixed-point value `<raw : (i, f, s)>` (`40_fixed_point.md` R71). -/
structure Fx where
  raw : Int
  fmt : Fmt
deriving DecidableEq, Repr

/-- A complex value: two lanes of one format (`41_complex.md` R100). -/
structure Cx where
  re : Int
  im : Int
  fmt : Fmt
deriving DecidableEq, Repr

/-- The payload of a link: stored integers of its lanes, the format being the link's
(`30_encoding.md` R53). A real (1-lane) payload has `im = 0` (assumption log entry 15). -/
structure Payload where
  re : Int
  im : Int
deriving DecidableEq, Repr

/-- All-zero lanes (`10_state.md` R34). -/
def Payload.zero : Payload := ⟨0, 0⟩

/-- The fixed payload format and lane count of a link (`42_stream_skid_delay.md` R121). -/
structure LinkFmt where
  fmt : Fmt
  lanes : Nat
deriving DecidableEq, Repr

/-- The forward signals of a link in one tick (`30_encoding.md` R54). -/
structure Fwd where
  valid : Bool
  payload : Payload
deriving DecidableEq, Repr

/-! ### Storage of the stages -/

/-- A delay-line entry `(payload, valid)` (`30_encoding.md` R55). -/
structure Slot where
  payload : Payload
  valid : Bool
deriving DecidableEq, Repr

/-- The reset entry of a delay line: `valid = 0`, zero payload (`10_state.md` R23, R32). -/
def Slot.empty : Slot := ⟨Payload.zero, false⟩

/-- An entry `(payload, valid, tag)` of a butterfly's feedback delay: `tag` false = written in feed mode,
true = written in combine mode (`30_encoding.md` R55). -/
structure TaggedEntry where
  payload : Payload
  valid : Bool
  tag : Bool
deriving DecidableEq, Repr

/-- The reset entry of a feedback delay (`10_state.md` R29). -/
def TaggedEntry.empty : TaggedEntry := ⟨Payload.zero, false, false⟩

/-- The registers `v`, `p` of a one-slot pipeline register (`10_state.md` R24). -/
structure PipeSlot (α : Type) where
  v : Bool
  p : α
deriving DecidableEq, Repr

/-- The record of substage 1 of a `THREE_MULT` twiddle stage (`45_fft_stages.md` R215), stored integers
in the formats of `41_complex.md` R105. -/
structure SumRecord where
  b : Int
  tc : Int
  td : Int
  u1 : Int
  u2 : Int
  u3 : Int
deriving DecidableEq, Repr

def SumRecord.zero : SumRecord := ⟨0, 0, 0, 0, 0, 0⟩

/-- The record of substage 2 of a `THREE_MULT` twiddle stage (`45_fft_stages.md` R215). -/
structure ProductRecord where
  p1 : Int
  p2 : Int
  p3 : Int
deriving DecidableEq, Repr

def ProductRecord.zero : ProductRecord := ⟨0, 0, 0⟩

/-- One lane of a `PipeReg`'s function, checked (`42_stream_skid_delay.md` R132). -/
inductive LaneExpr
  | inRe
  | inIm
  | const (v : Fx)
  | add (a b : LaneExpr)
  | sub (a b : LaneExpr)
  | mul (a b : LaneExpr)
  | reshape (a : LaneExpr) (fmt : Fmt)
  | rshift (a : LaneExpr) (n : Nat)
  | neg (a : LaneExpr)
  | select (s : LaneExpr) (bit : Nat) (a b : LaneExpr)
deriving DecidableEq, Repr

/-- A combinational function, checked: its lanes, one or two. -/
structure CombFn where
  re : LaneExpr
  im : Option LaneExpr
deriving DecidableEq, Repr

/-- The combinational function `g` of a `PipeReg`, the identity where there is none, with the payload types
it maps between. -/
structure PipeFn where
  inLink : LinkFmt
  g : Option CombFn
  outLink : LinkFmt
deriving DecidableEq, Repr

/-- A stage instance: its structural parameters, fixed at construction (`00_scope.md` R9), and its
registers (`10_state.md` R21 to R33). A delay line's list has the newest slot `D[0]` first; a size `n` is
held as its logarithm, `n = 2^log`. -/
inductive Stage
  /-- R21: `armed`, `buf` -/
  | skidBuffer (link : LinkFmt) (armed : Bool) (buf : Payload)
  /-- R23: the slots -/
  | streamDelay (depth : Nat) (link : LinkFmt) (d : List Slot)
  /-- R24: `v`, `p` -/
  | pipeReg (g : PipeFn) (reg : PipeSlot Payload)
  /-- R25: `acc` -/
  | integrator (inLink outLink : LinkFmt) (acc : Payload)
  /-- R26: the history -/
  | comb (inLink outLink : LinkFmt) (m : Nat) (d : List Payload)
  /-- R27: `c` -/
  | upsampler (r : Nat) (link : LinkFmt) (c : Nat)
  /-- R28: `c` -/
  | downsampler (r : Nat) (link : LinkFmt) (c : Nat)
  /-- R33: no state -/
  | requant (k : Nat) (inLink outLink : LinkFmt)
  /-- R29: `c`, the feedback delay -/
  | sdfRadix2 (log : Nat) (fmtIn : Fmt) (c : Nat) (d : List TaggedEntry)
  /-- R30: `c` -/
  | r22Twiddle (log : Nat) (fmt : Fmt) (c : Nat)
  /-- R31: `c` -/
  | twiddleDirect (log : Nat) (fmt twFmt : Fmt) (table : List Payload) (c : Nat)
  /-- R31: `c` and the three substages -/
  | twiddleThreeMult (log : Nat) (fmt twFmt : Fmt) (table : List Payload) (c : Nat)
      (s1 : PipeSlot SumRecord) (s2 : PipeSlot ProductRecord) (s3 : PipeSlot Payload)
  /-- R32: `c`, the delay -/
  | bitExchange (j k : Nat) (link : LinkFmt) (c : Nat) (d : List Slot)
deriving DecidableEq, Repr

/-- The unit that has been built: a linear chain of stages in stream order behind one input link
(`00_scope.md` R8, `10_state.md` R33). An empty chain is a wire (`46_bit_reversal.md` R236). -/
structure Pipeline where
  inLink : LinkFmt
  stages : List Stage
deriving DecidableEq, Repr

/-- The entry type of a free-standing `Delay` (`42_stream_skid_delay.md` R130). -/
structure EntryType where
  kind : EntryKind
  link : LinkFmt
deriving DecidableEq, Repr

/-- A `Delay` built by its own row of the operation table: slots `D[0 .. n-1]`, newest first
(`10_state.md` R22). An entry of a kind without `valid` or `tag` holds the constants that
`EntryType.normalize` gives them. -/
structure DelayUnit where
  entry : EntryType
  depth : Nat
  d : List TaggedEntry
deriving DecidableEq, Repr

/-! ### The environment and what it sees -/

/-- What the environment drives on the ports of one free-standing `Delay` in one tick
(`42_stream_skid_delay.md` R130): the enable and the entry. -/
structure DelayDrive where
  en : Bool
  entry : TaggedEntry
deriving DecidableEq, Repr

/-- What the environment drives in one tick: `valid` and `payload` of the first link, `ready` of the last
one (`00_scope.md` R6), and the ports of the free-standing delays, in the order they were built. -/
structure EnvTick where
  valid : Bool
  payload : Payload
  ready : Bool
  delays : List DelayDrive
deriving DecidableEq, Repr

/-- The three signals of a link in one tick (`30_encoding.md` R54). -/
structure LinkSignals where
  valid : Bool
  payload : Payload
  ready : Bool
deriving DecidableEq, Repr

/-- The boundary signals of one tick (`00_scope.md` R10): the first input link and the last output
link. -/
structure BoundaryTick where
  input : LinkSignals
  output : LinkSignals
deriving DecidableEq, Repr

/-- What one tick showed the environment: the boundary of the pipeline, if one was built, and `e_out` of
every free-standing delay. -/
structure TickRecord where
  boundary : Option BoundaryTick
  delayOut : List TaggedEntry
deriving DecidableEq, Repr

/-! ### Results of operations and build-time functions -/

/-- What `cic_truncation` computes (`44_cic_sizing_filters.md` R175 to R179), each list over the stages
`j = 1 ... 2N`. -/
structure Truncation where
  fullWidth : Nat
  bLast : Nat
  /-- `F_j^2` (R176) -/
  noise : List Nat
  /-- `k_j` (R177) -/
  k : List Nat
  /-- `Bcalc_j` (R177) -/
  bCalc : List Nat
  /-- `B_j` (R178) -/
  b : List Nat
  /-- `Bc_j` (R179) -/
  bc : List Nat
  /-- `s_j` (R179) -/
  shifts : List Nat
  sOut : Nat
  /-- `W_j` (R179) -/
  widths : List Nat
  widthOut : Nat
deriving DecidableEq, Repr

/-- What the last `OP` or `BUILD` row produced. -/
inductive Result
  /-- no operation has produced a value yet -/
  | none
  | value (v : Fx)
  | complex (x : Cx)
  /-- `growth(1), ..., growth(2N)` -/
  | growth (g : List Nat)
  | truncation (t : Truncation)
  /-- `T[0], ..., T[n-1]` -/
  | table (t : List Cx)
deriving DecidableEq, Repr

/-! ### The state -/

/-- The state of the machine. -/
structure State where
  /-- MODEL: the bytes of the configuration program not yet executed (assumption log entry 2) -/
  program : List Byte
  /-- the unit built so far, `none` before any construction (`60_exceptions.md` R261) -/
  pipeline : Option Pipeline
  /-- MODEL: the free-standing `Delay` units, in the order they were built (assumption log entry 7) -/
  delays : List DelayUnit
  /-- MODEL: what the environment will drive, the next tick first (assumption log entry 5) -/
  env : List EnvTick
  /-- MODEL: how many ticks have happened since reset -/
  ticks : Nat
  /-- MODEL: what every tick since reset showed, the newest first (assumption log entry 16) -/
  trace : List TickRecord
  /-- MODEL: the value of the last `OP` or `BUILD` row (assumption log entry 6) -/
  result : Result
deriving DecidableEq, Repr

/-- The machine right after reset: tick 0, nothing built, nothing loaded (`10_state.md` R34: a unit's
registers get their reset values when the unit is constructed). -/
def State.reset : State where
  program := []
  pipeline := none
  delays := []
  env := []
  ticks := 0
  trace := []
  result := .none

def State.setProgram (s : State) (p : List Byte) : State := { s with program := p }

def State.setPipeline (s : State) (p : Pipeline) : State := { s with pipeline := some p }

def State.setDelays (s : State) (d : List DelayUnit) : State := { s with delays := d }

def State.setEnv (s : State) (e : List EnvTick) : State := { s with env := e }

def State.setResult (s : State) (r : Result) : State := { s with result := r }

/-! ### How a step can stop -/

/-- The configuration errors (`60_exceptions.md` R262). -/
inductive ConfigError
  | badFormat
  | constOutOfRange
  | unknownRounding
  | badShift
  | malformedComplex
  | unsignedPayload
  | badLanes
  | formatMismatch
  | badDepth
  | unsupportedDelayImpl
  | badOrder
  | badRate
  | badDelay
  | badWidth
  | notPowerOfTwo
  | badBitPositions
deriving DecidableEq, Repr

/-- Why a step stops with a fault. -/
inductive Fault
  /-- Raised by the construction of a unit, or by an operation built with illegal parameters
  (`60_exceptions.md` R260, R261): "fail fast with a descriptive configuration error at construction
  time". Safe: the spec says that no unit exists then and that no tick follows. -/
  | configError (kind : ConfigError)
deriving DecidableEq, Repr

/-- Why a step has no meaning. -/
inductive Refusal
  /-- Raised by an arm of `exec` whose instruction has no meaning yet. Safe: the model stops. No arm
  raises it. -/
  | notModelled (mnemonic : String)
  /-- Raised by `step` when the program's next byte is no selector of the table: "no such operation"
  (`30_encoding.md` R57, U18). Safe: it "cannot arise in hardware". -/
  | noSuchOperation (selector : Nat)
  /-- Raised by `step` when the bytes after a selector are no operand list of that operation. Safe: the
  operand bytes are the model's own encoding (assumption log entry 1). -/
  | malformedOperands
  /-- Raised by a construction attempted after ticks have begun: "there is no dynamic
  creation/destruction during operation" (`00_scope.md` R9). Safe: the model stops (assumption log
  entry 8). -/
  | constructionAfterStart
deriving DecidableEq, Repr

end Sys2Proof.Machine
end

