-- ==== Sys2Proof/Machine/Operands.lean ====
section
/-! DEFINITION. Every operand form: the check of each parameter, in the order `60_exceptions.md` R263 asks
for, from its written form to a checked one (`60_exceptions.md` R262); and the width, range and wrap of a
format, the lanes of a payload (`00_scope.md` R13, `30_encoding.md` R51 to R55). -/

namespace Sys2Proof.Machine

/-- What the construction of a unit, or of an operation, from its parameters gives (`60_exceptions.md`
R261). -/
abbrev Build (α : Type) := Except ConfigError α

/-! ### Formats -/

/-- "Total width = integer_bits+fraction_bits" (`40_fixed_point.md` R70). -/
def Fmt.width (p : Fmt) : Nat := p.i + p.f

/-- `wrap(fmt, x)` (`00_scope.md` R13). -/
def Fmt.wrap (p : Fmt) (x : Int) : Int := if p.signed then wrapS p.width x else wrapU p.width x

/-- The least element of `range(fmt)` (`00_scope.md` R13). -/
def Fmt.least (p : Fmt) : Int := if p.signed then -(pow2 (p.width - 1)) else 0

/-- One more than the greatest element of `range(fmt)` (`00_scope.md` R13). -/
def Fmt.bound (p : Fmt) : Int := if p.signed then pow2 (p.width - 1) else pow2 p.width

/-- `raw` is an element of `range(fmt)` (`00_scope.md` R13). -/
def Fmt.holds (p : Fmt) (raw : Int) : Bool := p.least ≤ raw && raw < p.bound

/-- A legal format (`40_fixed_point.md` R70). -/
def Fmt.legal (p : Fmt) : Bool := 1 ≤ p.width && (!p.signed || 1 ≤ p.i)

/-- The format as it is written. -/
def Fmt.param (p : Fmt) : FormatParam := ⟨p.i, p.f, p.signed⟩

/-- The value as it is written. -/
def Fx.param (v : Fx) : ValueParam := ⟨v.raw, v.fmt.param⟩

/-- The complex value as it is written. -/
def Cx.param (x : Cx) : ComplexParam := ⟨x.re, x.im, x.fmt.param⟩

/-- A value of a legal format in its range. -/
def Fx.legal (v : Fx) : Bool := v.fmt.legal && v.fmt.holds v.raw

/-- A complex value of a legal format, both lanes in its range. -/
def Cx.legal (x : Cx) : Bool := x.fmt.legal && x.fmt.holds x.re && x.fmt.holds x.im

/-- The lanes of a complex value as fixed-point values (`41_complex.md` R100). -/
def Cx.reFx (x : Cx) : Fx := ⟨x.re, x.fmt⟩

def Cx.imFx (x : Cx) : Fx := ⟨x.im, x.fmt⟩

/-! ### Checks of parameters -/

/-- `BadFormat` (`60_exceptions.md` R262, `40_fixed_point.md` R70). -/
def checkFormat (p : FormatParam) : Build Fmt :=
  if p.i < 0 ∨ p.f < 0 ∨ p.i + p.f < 1 ∨ (p.signed = true ∧ p.i < 1) then .error .badFormat
  else .ok ⟨p.i.toNat, p.f.toNat, p.signed⟩

/-- `UnsignedPayload` (`42_stream_skid_delay.md` R121). -/
def requireSigned (p : Fmt) : Build Fmt := if p.signed then .ok p else .error .unsignedPayload

/-- A payload format: `BadFormat`, then `UnsignedPayload`. -/
def checkPayloadFormat (p : FormatParam) : Build Fmt := (checkFormat p).bind requireSigned

/-- A twiddle format: legal, signed, `i_t >= 2`, otherwise `BadFormat` (`45_fft_stages.md` R212). -/
def checkTwiddleFormat (p : FormatParam) : Build Fmt :=
  (checkFormat p).bind fun fmt => if fmt.signed = true ∧ 2 ≤ fmt.i then .ok fmt else .error .badFormat

/-- A fixed-point operand, that is a constant: `BadFormat`, then `ConstOutOfRange`
(`40_fixed_point.md` R72). -/
def checkValue (v : ValueParam) : Build Fx :=
  (checkFormat v.fmt).bind fun fmt => if fmt.holds v.raw then .ok ⟨v.raw, fmt⟩ else .error .constOutOfRange

/-- A complex operand. -/
def checkComplex (x : ComplexParam) : Build Cx :=
  (checkFormat x.fmt).bind fun fmt =>
    if fmt.holds x.re && fmt.holds x.im then .ok ⟨x.re, x.im, fmt⟩ else .error .constOutOfRange

/-- `UnknownRounding` (`40_fixed_point.md` R81). -/
def checkRounding : Rounding → Build Unit
  | .truncate => .ok ()
  | .other _ => .error .unknownRounding

/-- `UnsupportedDelayImpl` (`42_stream_skid_delay.md` R133). -/
def checkImpl : DelayImpl → Build Unit
  | .shiftRegister => .ok ()
  | .fifo => .error .unsupportedDelayImpl

/-- An integer parameter that must be at least `least`, with the error it raises below. -/
def checkAtLeast (least : Int) (e : ConfigError) (x : Int) : Build Nat :=
  if x < least then .error e else .ok x.toNat

/-- `BadLanes`: 1 or 2 (`00_scope.md` R11, D22). -/
def checkLanes (lanes : Int) : Build Nat := if lanes = 1 ∨ lanes = 2 then .ok lanes.toNat else .error .badLanes

/-- `NotPowerOfTwo`: a power of two, at least `least`; the checked form is the logarithm
(`60_exceptions.md` R262). -/
def checkSize (least n : Int) : Build Nat :=
  if n < least ∨ isPow2 n.toNat = false then .error .notPowerOfTwo else .ok (Nat.log2 n.toNat)

/-- `BadShift` (`40_fixed_point.md` R77). -/
def checkShift (n : Int) : Build Nat := checkAtLeast 0 .badShift n

/-- `BadDepth` (`42_stream_skid_delay.md` R130). -/
def checkDepth (n : Int) : Build Nat := checkAtLeast 0 .badDepth n

/-- `BadWidth` of a lane (`60_exceptions.md` R262). -/
def checkWidth (w : Int) : Build Nat := checkAtLeast 1 .badWidth w

/-- The payload type of a link: its format, then its lane count. -/
def checkLink (p : FormatParam) (lanes : Int) : Build LinkFmt :=
  (checkPayloadFormat p).bind fun fmt => (checkLanes lanes).bind fun l => .ok ⟨fmt, l⟩

/-- "an FFT stage built with a real (1-lane) payload" is `BadLanes` (`60_exceptions.md` R262): the link it
is fed by, where there is one, must be complex. -/
def requireComplex : Option LinkFmt → Build Unit
  | none => .ok ()
  | some l => if l.lanes = 2 then .ok () else .error .badLanes

/-! ### Payloads -/

/-- An operation on stored integers, lane by lane (`43_cic_stages.md` R150). -/
def Payload.map (g : Int → Int) (p : Payload) : Payload := ⟨g p.re, g p.im⟩

def Payload.map2 (g : Int → Int → Int) (p q : Payload) : Payload := ⟨g p.re q.re, g p.im q.im⟩

/-- A payload as the complex value of a link's format. -/
def Payload.toCx (p : Payload) (fmt : Fmt) : Cx := ⟨p.re, p.im, fmt⟩

def Cx.payload (x : Cx) : Payload := ⟨x.re, x.im⟩

/-- The payload a link carries when its wires hold these integers: the low `W` bits of each lane, read by
the format, and no imaginary lane on a 1-lane link (`30_encoding.md` R51, R53, R57). -/
def LinkFmt.clip (l : LinkFmt) (p : Payload) : Payload :=
  ⟨l.fmt.wrap p.re, if l.lanes = 2 then l.fmt.wrap p.im else 0⟩

/-- The payload is one the link can carry. -/
def LinkFmt.holds (l : LinkFmt) (p : Payload) : Bool :=
  l.fmt.holds p.re && (if l.lanes = 2 then l.fmt.holds p.im else p.im == 0)

/-- The link type is a legal one: a legal signed format, one lane or two (`42_stream_skid_delay.md`
R121). -/
def LinkFmt.legal (l : LinkFmt) : Bool := l.fmt.legal && l.fmt.signed && (l.lanes == 1 || l.lanes == 2)

/-- The undefined payload that draw site `site` shows at tick `tick` (`00_scope.md` R18): a free value of
the link's width. -/
def undefPayload (l : LinkFmt) (tick site : Nat) : Payload :=
  l.clip ⟨Config.undefLane tick site 0, Config.undefLane tick site 1⟩

/-- An entry as its entry type holds it: the payload clipped to its width, and `valid`, `tag` the constants
of a kind that does not carry them (a bare payload is "an entry that is always valid",
`10_state.md` R22). -/
def EntryType.normalize (t : EntryType) (e : TaggedEntry) : TaggedEntry :=
  { payload := t.link.clip e.payload
    valid := match t.kind with
      | .bare => true
      | .flagged => e.valid
      | .tagged => e.valid
    tag := match t.kind with
      | .bare => false
      | .flagged => false
      | .tagged => e.tag }

end Sys2Proof.Machine
end

