-- ==== Sys2Proof/Machine/Flags.lean ====
section
/-! DEFINITION. The status bits of the block. It has no flags ("No operation sets a carry, overflow, zero or
sign flag", `10_state.md` R36): "The only per-sample status bits are the link's `valid`, the delay entries'
`valid` and the butterfly's `tag`". Here are the predicates derived from them and the bits of a stage's
counter. -/

namespace Sys2Proof.Machine

/-- `consume = valid & ready`: a transfer happens (`42_stream_skid_delay.md` R120, R122). -/
def consume (valid ready : Bool) : Bool := valid && ready

/-- `produce = ready | !valid`: the consumer side is not stalling the link (`42_stream_skid_delay.md`
R120). -/
def produce (valid ready : Bool) : Bool := ready || !valid

/-- Bit `b` of a counter (`00_scope.md` R12). -/
def counterBit (c b : Nat) : Bool := Nat.testBit c b

/-- The mode bit `s = c[L-1]` of a butterfly: false feed, true combine (`45_fft_stages.md` R201). -/
def combineMode (log c : Nat) : Bool := counterBit c (log - 1)

/-- `rot = c[L-1] & c[L-2]` (`45_fft_stages.md` R207). -/
def rotateBit (log c : Nat) : Bool := counterBit c (log - 1) && counterBit c (log - 2)

/-- `s = !c[j] | c[k]` (`46_bit_reversal.md` R231). -/
def exchangeBit (j k c : Nat) : Bool := !counterBit c j || counterBit c k

/-- `due = e.valid & e.tag`: the emerging entry is a butterfly difference waiting to leave
(`45_fft_stages.md` R202). -/
def due (e : TaggedEntry) : Bool := e.valid && e.tag

/-- The forward signals a consumer sees on a link: the payload is defined only when valid, and is a free
value otherwise (`00_scope.md` R18). -/
def showLink (l : LinkFmt) (tick site : Nat) (f : Fwd) : Fwd :=
  ⟨f.valid, if f.valid then f.payload else undefPayload l tick site⟩

end Sys2Proof.Machine
end

