-- ==== Sys2Proof/Machine/Ops.lean ====
section
/-! DEFINITION. The shared operations of the machine: raising a configuration error, delivering a result,
constructing a unit and joining it to the pipeline, the delay line, the one-slot pipeline register, the
counter, and fetching the next operation of the configuration program. -/

namespace Sys2Proof.Machine

/-- The outcome of a step of this machine. -/
abbrev Outcome := Host.Outcome State Fault Refusal

/-! ### The one exception mechanism -/

/-- `raise ConfigError(kind)` (`00_scope.md` R17, `60_exceptions.md` R261): no unit exists, "Nothing is
saved, there is no vector and no handler, no return-from-exception". -/
def raise (e : ConfigError) : Outcome := .fault (.configError e)

/-! ### Operations and build-time functions -/

/-- An `OP` or a `BUILD` row delivers the value it computed and writes no other state (file
`40_fixed_point.md`: it "produces a new value with a new format, writes no state"). -/
def deliver (s : State) : Build Result → Outcome
  | .ok r => .next (s.setResult r)
  | .error e => raise e

/-! ### Links of the pipeline -/

/-- The type of a stage's input link. -/
def Stage.inLink : Stage → LinkFmt
  | .skidBuffer l _ _ => l
  | .streamDelay _ l _ => l
  | .pipeReg g _ => g.inLink
  | .integrator a _ _ => a
  | .comb a _ _ _ => a
  | .upsampler _ l _ => l
  | .downsampler _ l _ => l
  | .requant _ a _ => a
  | .sdfRadix2 _ fmt _ _ => ⟨fmt, 2⟩
  | .r22Twiddle _ fmt _ => ⟨fmt, 2⟩
  | .twiddleDirect _ fmt _ _ _ => ⟨fmt, 2⟩
  | .twiddleThreeMult _ fmt _ _ _ _ _ _ => ⟨fmt, 2⟩
  | .bitExchange _ _ l _ _ => l

/-- The output format of a butterfly: "widths grow by 1 bit per butterfly level" (`45_fft_stages.md`
R201). -/
def Fmt.grow (p : Fmt) : Fmt := ⟨p.i + 1, p.f, p.signed⟩

/-- The type of a stage's output link. -/
def Stage.outLink : Stage → LinkFmt
  | .skidBuffer l _ _ => l
  | .streamDelay _ l _ => l
  | .pipeReg g _ => g.outLink
  | .integrator _ b _ => b
  | .comb _ b _ _ => b
  | .upsampler _ l _ => l
  | .downsampler _ l _ => l
  | .requant _ _ b => b
  | .sdfRadix2 _ fmt _ _ => ⟨fmt.grow, 2⟩
  | .r22Twiddle _ fmt _ => ⟨fmt, 2⟩
  | .twiddleDirect _ fmt _ _ _ => ⟨fmt, 2⟩
  | .twiddleThreeMult _ fmt _ _ _ _ _ _ => ⟨fmt, 2⟩
  | .bitExchange _ _ l _ _ => l

/-- The type of the link behind a chain whose input link has type `l`. -/
def chainOutLink (l : LinkFmt) : List Stage → LinkFmt
  | [] => l
  | st :: rest => chainOutLink st.outLink rest

/-- The type of the pipeline's output link. -/
def Pipeline.outLink (p : Pipeline) : LinkFmt := chainOutLink p.inLink p.stages

/-- The link a unit built next would be fed by. -/
def State.openLink (s : State) : Option LinkFmt := s.pipeline.map Pipeline.outLink

/-! ### Construction -/

/-- Joining a unit to the pipeline: "A stage's input link and its producer's output link must have equal
formats and lane counts; a mismatch is `ConfigError(FormatMismatch)`" (`30_encoding.md` R60). The first
unit's input link is the pipeline's. -/
def join (old : Option Pipeline) (unit : Pipeline) : Build Pipeline :=
  match old with
  | none => .ok unit
  | some p => if p.outLink = unit.inLink then .ok ⟨p.inLink, p.stages ++ unit.stages⟩ else .error .formatMismatch

/-- The construction of a unit (`60_exceptions.md` R261): `build` checks the parameters, given the link
the unit is fed by, and makes the unit in its reset state. Construction happens before the first tick
only (`00_scope.md` R9). -/
def construct (s : State) (build : Option LinkFmt → Build Pipeline) : Outcome :=
  if s.ticks = 0 then
    match (build s.openLink).bind (join s.pipeline) with
    | .ok p => .next (s.setPipeline p)
    | .error e => raise e
  else .refused .constructionAfterStart

/-- A unit of one stage. -/
def Stage.unit (st : Stage) : Pipeline := ⟨st.inLink, [st]⟩

/-- The construction of a free-standing `Delay` (`42_stream_skid_delay.md` R130), which has no link. -/
def constructDelay (s : State) (build : Build DelayUnit) : Outcome :=
  if s.ticks = 0 then
    match build with
    | .ok d => .next (s.setDelays (s.delays ++ [d]))
    | .error e => raise e
  else .refused .constructionAfterStart

/-! ### Storage primitives -/

/-- `DelayRead(D) = D[n-1]`, the oldest entry (`00_scope.md` R16); of a line of depth 0 there is none and
`z` is given. -/
def delayRead {α : Type} (z : α) (d : List α) : α := d.getLastD z

/-- `DelayShift(D, e)`: `D[0] <- e`, `D[k] <- D[k-1]`, the old `D[n-1]` evicted (`00_scope.md` R16). -/
def delayShift {α : Type} (d : List α) (e : α) : List α := (e :: d).dropLast

/-- `RomRead(T, idx)` (`00_scope.md` R16). -/
def romRead (t : List Payload) (idx : Nat) : Payload := t.getD idx Payload.zero

/-- `c <- (c + 1) mod modulus` (`10_state.md` R39). -/
def countUp (c modulus : Nat) : Nat := (c + 1) % modulus

/-- `in.ready` of a one-slot register: `produce` of its own output (`42_stream_skid_delay.md` R132). -/
def PipeSlot.ready {α : Type} (r : PipeSlot α) (outReady : Bool) : Bool := produce r.v outReady

/-- The update of a one-slot register that is offered `p`, already mapped by `g`
(`42_stream_skid_delay.md` R132). -/
def PipeSlot.load {α : Type} (r : PipeSlot α) (outReady valid : Bool) (p : α) : PipeSlot α :=
  if r.ready outReady then ⟨valid, if valid then p else r.p⟩ else r

/-! ### Fetching the next operation -/

/-- What stands at the head of the configuration program (assumption log entry 2): nothing, an operation
with the program after it, or bytes that are no operation. -/
def fetch (s : State) : Option (Except DecodeError (Instr × List Byte)) :=
  match s.program with
  | [] => none
  | bytes => some (decode bytes)

/-- The refusal of bytes that are no operation (`30_encoding.md` R57). -/
def refuseBytes : DecodeError → Refusal
  | .noSuchOperation n => .noSuchOperation n
  | .truncated => .malformedOperands
  | .notShortest => .malformedOperands
  | .badChoice => .malformedOperands

end Sys2Proof.Machine
end

