-- ==== Sys2Proof/Machine/FixedPoint.lean ====
section
/-! DEFINITION. Fixed-point arithmetic (`40_fixed_point.md`): the operations on values, and the meanings of
the rows `FixedPointConst`, `add`, `sub`, `mul`, `reshape`, `rshift`, `neg`. Every operation is a total
function of its operands, writes no state, sets no flag and raises nothing but a configuration error of
its parameters (R82). -/

namespace Sys2Proof.Machine

/-! ### Operations on values -/

/-- The result format of `add` and `sub` (`40_fixed_point.md` R73, R83). -/
def Fmt.sum (p q : Fmt) : Fmt := ⟨max p.i q.i + 1, max p.f q.f, p.signed || q.signed⟩

/-- The result format of `mul` (`40_fixed_point.md` R75, R83). -/
def Fmt.product (p q : Fmt) : Fmt := ⟨p.i + q.i, p.f + q.f, p.signed || q.signed⟩

/-- The stored integer of `a` aligned to `f` fraction bits (`30_encoding.md` R60). -/
def Fx.aligned (a : Fx) (f : Nat) : Int := shl a.raw (f - a.fmt.f)

/-- `add(a, b)` (`40_fixed_point.md` R73). -/
def Fx.add (a b : Fx) : Fx :=
  let p := Fmt.sum a.fmt b.fmt
  ⟨p.wrap (a.aligned p.f + b.aligned p.f), p⟩

/-- `sub(a, b)` (`40_fixed_point.md` R74). -/
def Fx.sub (a b : Fx) : Fx :=
  let p := Fmt.sum a.fmt b.fmt
  ⟨p.wrap (a.aligned p.f - b.aligned p.f), p⟩

/-- `mul(a, b)` (`40_fixed_point.md` R75). -/
def Fx.mul (a b : Fx) : Fx :=
  let p := Fmt.product a.fmt b.fmt
  ⟨p.wrap (a.raw * b.raw), p⟩

/-- `reshape(v, new_format, TRUNCATE)` (`40_fixed_point.md` R76): low bits dropped toward minus infinity or
zero bits appended, then the kept bits read by the target format. -/
def Fx.reshape (v : Fx) (p : Fmt) : Fx :=
  ⟨p.wrap (if v.fmt.f ≤ p.f then shl v.raw (p.f - v.fmt.f) else ashr v.raw (v.fmt.f - p.f)), p⟩

/-- `rshift(v, n)` (`40_fixed_point.md` R77). -/
def Fx.rshift (v : Fx) (n : Nat) : Fx := ⟨ashr v.raw n, v.fmt⟩

/-- `neg(v) = reshape(sub(0, v), fmt)` (`40_fixed_point.md` R78, `30_encoding.md` R59). -/
def Fx.neg (v : Fx) : Fx := (Fx.sub ⟨0, v.fmt⟩ v).reshape v.fmt

/-! ### Meanings -/

/-- `FixedPointConst(fmt, raw)` (`40_fixed_point.md` R72). -/
def execFixedPointConst (fmt : FormatParam) (raw : Int) (s : State) : Outcome :=
  deliver s ((checkValue ⟨raw, fmt⟩).bind fun v => .ok (.value v))

/-- `add(a, b)` (`40_fixed_point.md` R73). -/
def execAdd (a b : ValueParam) (s : State) : Outcome :=
  deliver s ((checkValue a).bind fun a => (checkValue b).bind fun b => .ok (.value (a.add b)))

/-- `sub(a, b)` (`40_fixed_point.md` R74). -/
def execSub (a b : ValueParam) (s : State) : Outcome :=
  deliver s ((checkValue a).bind fun a => (checkValue b).bind fun b => .ok (.value (a.sub b)))

/-- `mul(a, b)` (`40_fixed_point.md` R75). -/
def execMul (a b : ValueParam) (s : State) : Outcome :=
  deliver s ((checkValue a).bind fun a => (checkValue b).bind fun b => .ok (.value (a.mul b)))

/-- `reshape(v, new_format, rounding)` (`40_fixed_point.md` R76, R81). -/
def execReshape (v : ValueParam) (newFormat : FormatParam) (rounding : Rounding) (s : State) : Outcome :=
  deliver s ((checkValue v).bind fun v => (checkFormat newFormat).bind fun p =>
    (checkRounding rounding).bind fun _ => .ok (.value (v.reshape p)))

/-- `rshift(v, n)` (`40_fixed_point.md` R77). -/
def execRshift (v : ValueParam) (n : Int) (s : State) : Outcome :=
  deliver s ((checkValue v).bind fun v => (checkShift n).bind fun n => .ok (.value (v.rshift n)))

/-- `neg(v)`, refused for an unsigned `v` (`40_fixed_point.md` R78). -/
def execNeg (v : ValueParam) (s : State) : Outcome :=
  deliver s ((checkValue v).bind fun v => (requireSigned v.fmt).bind fun _ => .ok (.value v.neg))

end Sys2Proof.Machine
end

