-- ==== Sys2Proof/Machine/Complex.lean ====
section
/-! DEFINITION. Complex values (`41_complex.md`): the operations, built lane by lane from the fixed-point
ones, and the meanings of the rows `Complex` and `c_add` to `c_mulnegj`. -/

namespace Sys2Proof.Machine

/-! ### Operations on values -/

/-- The pair of two lanes that an operation gave one format. -/
def Cx.ofLanes (re im : Fx) : Cx := ⟨re.raw, im.raw, re.fmt⟩

/-- `c_add(x, y)` (`41_complex.md` R102). -/
def Cx.add (x y : Cx) : Cx := Cx.ofLanes (x.reFx.add y.reFx) (x.imFx.add y.imFx)

/-- `c_sub(x, y)` (`41_complex.md` R103). -/
def Cx.sub (x y : Cx) : Cx := Cx.ofLanes (x.reFx.sub y.reFx) (x.imFx.sub y.imFx)

/-- `c_mul(x, y)`, the direct complex multiply (`41_complex.md` R104). -/
def Cx.mul (x y : Cx) : Cx :=
  Cx.ofLanes ((x.reFx.mul y.reFx).sub (x.imFx.mul y.imFx)) ((x.reFx.mul y.imFx).add (x.imFx.mul y.reFx))

/-- `c_mul3(x, t)`, the three-multiplier rotation identity, its products named `p1, p2, p3` (conflict C9)
(`41_complex.md` R105). -/
def Cx.mul3 (x t : Cx) : Cx :=
  let p1 := x.imFx.mul (t.reFx.sub t.imFx)
  let p2 := t.reFx.mul (x.reFx.sub x.imFx)
  let p3 := t.imFx.mul (x.reFx.add x.imFx)
  Cx.ofLanes (p1.add p2) (p1.add p3)

/-- `c_scale(x, k)` (`41_complex.md` R106). -/
def Cx.scale (x : Cx) (k : Fx) : Cx := Cx.ofLanes (x.reFx.mul k) (x.imFx.mul k)

/-- `c_rshift(x, n)` (`41_complex.md` R107). -/
def Cx.rshift (x : Cx) (n : Nat) : Cx := Cx.ofLanes (x.reFx.rshift n) (x.imFx.rshift n)

/-- `c_reshape(x, fmt, TRUNCATE)` (`41_complex.md` R107). -/
def Cx.reshape (x : Cx) (p : Fmt) : Cx := Cx.ofLanes (x.reFx.reshape p) (x.imFx.reshape p)

/-- `neg`, lane by lane. -/
def Cx.neg (x : Cx) : Cx := Cx.ofLanes x.reFx.neg x.imFx.neg

/-- `c_mulnegj((a, b)) = (b, neg(a))` (`41_complex.md` R108). -/
def Cx.mulnegj (x : Cx) : Cx := Cx.ofLanes x.imFx x.reFx.neg

/-! ### Meanings -/

/-- `Complex(re, im)`: `MalformedComplex` unless the lanes share one format (`41_complex.md` R101). -/
def execComplex (re im : ValueParam) (s : State) : Outcome :=
  deliver s ((checkValue re).bind fun re => (checkValue im).bind fun im =>
    if re.fmt = im.fmt then .ok (.complex (Cx.ofLanes re im)) else .error .malformedComplex)

/-- `c_add(x, y)` (`41_complex.md` R102). -/
def execCAdd (x y : ComplexParam) (s : State) : Outcome :=
  deliver s ((checkComplex x).bind fun x => (checkComplex y).bind fun y => .ok (.complex (x.add y)))

/-- `c_sub(x, y)` (`41_complex.md` R103). -/
def execCSub (x y : ComplexParam) (s : State) : Outcome :=
  deliver s ((checkComplex x).bind fun x => (checkComplex y).bind fun y => .ok (.complex (x.sub y)))

/-- `c_mul(x, y)` (`41_complex.md` R104). -/
def execCMul (x y : ComplexParam) (s : State) : Outcome :=
  deliver s ((checkComplex x).bind fun x => (checkComplex y).bind fun y => .ok (.complex (x.mul y)))

/-- `c_mul3(x, t)` (`41_complex.md` R105). -/
def execCMul3 (x t : ComplexParam) (s : State) : Outcome :=
  deliver s ((checkComplex x).bind fun x => (checkComplex t).bind fun t => .ok (.complex (x.mul3 t)))

/-- `c_scale(x, k)` (`41_complex.md` R106). -/
def execCScale (x : ComplexParam) (k : ValueParam) (s : State) : Outcome :=
  deliver s ((checkComplex x).bind fun x => (checkValue k).bind fun k => .ok (.complex (x.scale k)))

/-- `c_rshift(x, n)` (`41_complex.md` R107). -/
def execCRshift (x : ComplexParam) (n : Int) (s : State) : Outcome :=
  deliver s ((checkComplex x).bind fun x => (checkShift n).bind fun n => .ok (.complex (x.rshift n)))

/-- `c_reshape(x, fmt, rounding)` (`41_complex.md` R107). -/
def execCReshape (x : ComplexParam) (fmt : FormatParam) (rounding : Rounding) (s : State) : Outcome :=
  deliver s ((checkComplex x).bind fun x => (checkFormat fmt).bind fun p =>
    (checkRounding rounding).bind fun _ => .ok (.complex (x.reshape p)))

/-- `c_mulnegj(x)`, for a signed format (`41_complex.md` R108, `60_exceptions.md` R262). -/
def execCMulnegj (x : ComplexParam) (s : State) : Outcome :=
  deliver s ((checkComplex x).bind fun x => (requireSigned x.fmt).bind fun _ => .ok (.complex x.mulnegj))

end Sys2Proof.Machine
end

