-- ==== Sys2Proof/Machine/Links.lean ====
section
/-! DEFINITION. The infrastructure units (`42_stream_skid_delay.md`): `SkidBuffer`, `Delay`, `StreamDelay`,
`PipeReg`. For each stage: the forward signals of its output link, the ready of its input link, the update
of its registers in one tick; then the meaning of its row, which constructs it. -/

namespace Sys2Proof.Machine

/-! ### SkidBuffer (R128) -/

def skidForward (armed : Bool) (buf : Payload) (x : Fwd) : Fwd := ⟨armed || x.valid, if armed then buf else x.payload⟩

def skidReady (armed : Bool) : Bool := !armed

/-- Disarmed once the buffered value is accepted; armed when an input is consumed while the output is
stalled. -/
def skidNext (link : LinkFmt) (armed : Bool) (buf : Payload) (x : Fwd) (outReady : Bool) : Stage :=
  if armed then .skidBuffer link (!outReady) buf
  else if x.valid && !outReady then .skidBuffer link true x.payload
  else .skidBuffer link false buf

/-- `SkidBuffer(fmt, lanes)` (`42_stream_skid_delay.md` R128; reset `10_state.md` R21). -/
def execSkidBuffer (fmt : FormatParam) (lanes : Int) (s : State) : Outcome :=
  construct s fun _ => (checkLink fmt lanes).bind fun l => .ok (Stage.skidBuffer l false Payload.zero).unit

/-! ### Delay (R130) -/

/-- A free-standing `Delay` in its reset state (assumption log entry 7). -/
def DelayUnit.fresh (t : EntryType) (n : Nat) : DelayUnit := ⟨t, n, List.replicate n (t.normalize TaggedEntry.empty)⟩

/-- `e_out`: the oldest entry, or the entry input of a line of depth 0. -/
def DelayUnit.out (u : DelayUnit) (x : DelayDrive) : TaggedEntry :=
  if u.depth = 0 then u.entry.normalize x.entry else delayRead TaggedEntry.empty u.d

/-- An active tick shifts the entry in; a tick with `en = 0` changes nothing. -/
def DelayUnit.next (u : DelayUnit) (x : DelayDrive) : DelayUnit :=
  if x.en then { u with d := delayShift u.d (u.entry.normalize x.entry) } else u

/-- `Delay(depth, entry type)` (`42_stream_skid_delay.md` R130, R133). -/
def execDelay (depth : Int) (entry : EntryTypeParam) (impl : DelayImpl) (s : State) : Outcome :=
  constructDelay s ((checkDepth depth).bind fun n => (checkLink entry.fmt entry.lanes).bind fun l =>
    (checkImpl impl).bind fun _ => .ok (DelayUnit.fresh ⟨entry.kind, l⟩ n))

/-! ### StreamDelay (R131) -/

def streamDelayForward (depth : Nat) (d : List Slot) (x : Fwd) : Fwd :=
  if depth = 0 then x else ⟨(delayRead Slot.empty d).valid, (delayRead Slot.empty d).payload⟩

def streamDelayReady (depth : Nat) (d : List Slot) (outReady : Bool) : Bool :=
  if depth = 0 then outReady else produce (delayRead Slot.empty d).valid outReady

/-- The whole line advances on every tick on which its output is not stalled, a bubble included; what a
bubble stores is the undefined payload `u`. -/
def streamDelayNext (depth : Nat) (link : LinkFmt) (d : List Slot) (u : Payload) (x : Fwd) (outReady : Bool) : Stage :=
  if streamDelayReady depth d outReady then
    .streamDelay depth link (delayShift d ⟨if x.valid then x.payload else u, x.valid⟩)
  else .streamDelay depth link d

/-- `StreamDelay(depth, fmt, lanes)` (`42_stream_skid_delay.md` R131, R133; reset `10_state.md` R23). -/
def execStreamDelay (depth : Int) (fmt : FormatParam) (lanes : Int) (impl : DelayImpl) (s : State) : Outcome :=
  construct s fun _ => (checkDepth depth).bind fun n => (checkLink fmt lanes).bind fun l =>
    (checkImpl impl).bind fun _ => .ok (Stage.streamDelay n l (List.replicate n Slot.empty)).unit

/-! ### PipeReg (R132) -/

/-- Bit `bit` of the pattern of a stored integer, a signed one extended (`40_fixed_point.md` R71). -/
def Fx.bit (v : Fx) (bit : Nat) : Bool := ashr v.raw bit % 2 == 1

/-- What a lane of a `PipeReg`'s function gives on an incoming payload of format `fmt`. -/
def LaneExpr.eval (fmt : Fmt) (x : Payload) : LaneExpr → Fx
  | .inRe => ⟨x.re, fmt⟩
  | .inIm => ⟨x.im, fmt⟩
  | .const v => v
  | .add a b => (a.eval fmt x).add (b.eval fmt x)
  | .sub a b => (a.eval fmt x).sub (b.eval fmt x)
  | .mul a b => (a.eval fmt x).mul (b.eval fmt x)
  | .reshape a p => (a.eval fmt x).reshape p
  | .rshift a n => (a.eval fmt x).rshift n
  | .neg a => (a.eval fmt x).neg
  | .select s bit a b => if (s.eval fmt x).bit bit then b.eval fmt x else a.eval fmt x

/-- The format of what it gives (`40_fixed_point.md` R83). -/
def LaneExpr.resultFmt (fmt : Fmt) : LaneExpr → Fmt
  | .inRe => fmt
  | .inIm => fmt
  | .const v => v.fmt
  | .add a b => Fmt.sum (a.resultFmt fmt) (b.resultFmt fmt)
  | .sub a b => Fmt.sum (a.resultFmt fmt) (b.resultFmt fmt)
  | .mul a b => Fmt.product (a.resultFmt fmt) (b.resultFmt fmt)
  | .reshape _ p => p
  | .rshift a _ => a.resultFmt fmt
  | .neg a => a.resultFmt fmt
  | .select _ _ a _ => a.resultFmt fmt

/-- The payload of a function's lanes. -/
def CombFn.eval (fmt : Fmt) (x : Payload) (c : CombFn) : Payload :=
  ⟨(c.re.eval fmt x).raw, match c.im with
    | none => 0
    | some im => (im.eval fmt x).raw⟩

/-- The function `g` of a `PipeReg`: on the wires of its two links. -/
def PipeFn.apply (g : PipeFn) (p : Payload) : Payload :=
  g.outLink.clip (match g.g with
    | none => p
    | some c => c.eval g.inLink.fmt p)

/-- An imaginary lane is there on a complex payload only (`BadLanes`, `60_exceptions.md` R262). -/
def requireTwoLanes (lanes : Nat) : Build Unit := if lanes = 2 then .ok () else .error .badLanes

/-- The check of a lane of `g`, part by part from the left, with the errors the operations of
`40_fixed_point.md` raise; a multiplexer of two formats is `FormatMismatch` (assumption log entry 11). -/
def checkLaneExpr (l : LinkFmt) : LaneExprParam → Build LaneExpr
  | .inRe => .ok .inRe
  | .inIm => (requireTwoLanes l.lanes).bind fun _ => .ok .inIm
  | .const v => (checkValue v).bind fun v => .ok (.const v)
  | .add a b => (checkLaneExpr l a).bind fun a => (checkLaneExpr l b).bind fun b => .ok (.add a b)
  | .sub a b => (checkLaneExpr l a).bind fun a => (checkLaneExpr l b).bind fun b => .ok (.sub a b)
  | .mul a b => (checkLaneExpr l a).bind fun a => (checkLaneExpr l b).bind fun b => .ok (.mul a b)
  | .reshape a p rounding => (checkLaneExpr l a).bind fun a => (checkFormat p).bind fun p =>
      (checkRounding rounding).bind fun _ => .ok (.reshape a p)
  | .rshift a n => (checkLaneExpr l a).bind fun a => (checkShift n).bind fun n => .ok (.rshift a n)
  | .neg a => (checkLaneExpr l a).bind fun a => (requireSigned (a.resultFmt l.fmt)).bind fun _ => .ok (.neg a)
  | .select s bit a b => (checkLaneExpr l s).bind fun s => (checkLaneExpr l a).bind fun a =>
      (checkLaneExpr l b).bind fun b =>
        if a.resultFmt l.fmt = b.resultFmt l.fmt then .ok (.select s bit a b) else .error .formatMismatch

/-- The check of a function: its lanes, which share one format (`MalformedComplex`), a signed one like every
link's. -/
def checkCombFn (l : LinkFmt) (c : CombFnParam) : Build PipeFn :=
  (checkLaneExpr l c.re).bind fun re => (requireSigned (re.resultFmt l.fmt)).bind fun p =>
    match c.im with
    | none => .ok ⟨l, some ⟨re, none⟩, ⟨p, 1⟩⟩
    | some im => (checkLaneExpr l im).bind fun im =>
      if im.resultFmt l.fmt = p then .ok ⟨l, some ⟨re, some im⟩, ⟨p, 2⟩⟩ else .error .malformedComplex

/-- The check of a `PipeReg`'s function: its input link, then its lanes. -/
def checkPipeFn (g : PipeFnParam) : Build PipeFn :=
  (checkLink g.fmt g.lanes).bind fun l =>
    match g.g with
    | none => .ok ⟨l, none, l⟩
    | some c => checkCombFn l c

def pipeRegForward (reg : PipeSlot Payload) : Fwd := ⟨reg.v, reg.p⟩

def pipeRegNext (g : PipeFn) (reg : PipeSlot Payload) (x : Fwd) (outReady : Bool) : Stage :=
  .pipeReg g (reg.load outReady x.valid (g.apply x.payload))

/-- `PipeReg(g)` (`42_stream_skid_delay.md` R132; reset `10_state.md` R24). -/
def execPipeReg (g : PipeFnParam) (s : State) : Outcome :=
  construct s fun _ => (checkPipeFn g).bind fun g => .ok (Stage.pipeReg g ⟨false, Payload.zero⟩).unit

end Sys2Proof.Machine
end

