-- ==== Sys2Proof/Machine/Cic.lean ====
section
/-! DEFINITION. The CIC stages (`43_cic_stages.md`): `Integrator`, `Comb`, `Upsampler`, `Downsampler`,
`Requant`. "All arithmetic is on stored integers, modulo `2^W`" (R150); an expression on a payload is
applied to each lane. -/

namespace Sys2Proof.Machine

/-! ### Labels (R150, R186) -/

/-- The format label of a CIC lane of width `w` whose input had `f` fraction bits: `(w - f, f, signed)`
"where that is a legal format", `(w, 0, signed)` where it is not (`44_cic_sizing_filters.md` R186;
assumption log entry 10). -/
def cicLabel (w f : Nat) : Fmt := if f < w then ⟨w - f, f, true⟩ else ⟨w, 0, true⟩

/-- The input link of a CIC stage of input width `w`: a CIC stage is built on widths, so it takes the label
of the link it is fed by where the widths agree, and `(w, 0, signed)` otherwise (R150; assumption log
entry 10). -/
def cicInLink (fed : Option LinkFmt) (w lanes : Nat) : LinkFmt :=
  match fed with
  | some l => if l.fmt.width = w then ⟨l.fmt, lanes⟩ else ⟨cicLabel w 0, lanes⟩
  | none => ⟨cicLabel w 0, lanes⟩

/-- The output link of a CIC stage, with its input link's fraction bits. -/
def cicOutLink (inLink : LinkFmt) (w : Nat) : LinkFmt := ⟨cicLabel w inLink.fmt.f, inLink.lanes⟩

/-! ### Integrator (R151) -/

/-- `y = wrap_s(W, acc + in.payload)`. -/
def integratorOut (outLink : LinkFmt) (acc x : Payload) : Payload :=
  Payload.map2 (fun a b => wrapS outLink.fmt.width (a + b)) acc x

def integratorForward (outLink : LinkFmt) (acc : Payload) (x : Fwd) : Fwd := ⟨x.valid, integratorOut outLink acc x.payload⟩

def integratorNext (inLink outLink : LinkFmt) (acc : Payload) (x : Fwd) (outReady : Bool) : Stage :=
  .integrator inLink outLink (if consume x.valid outReady then integratorOut outLink acc x.payload else acc)

/-- An integrator in its reset state (`10_state.md` R25). -/
def freshIntegrator (inLink outLink : LinkFmt) : Stage := .integrator inLink outLink Payload.zero

/-- `Integrator(W_in, W, lanes)` (`43_cic_stages.md` R151). -/
def execIntegrator (wIn w lanes : Int) (s : State) : Outcome :=
  construct s fun fed => (checkWidth wIn).bind fun a => (checkWidth w).bind fun b => (checkLanes lanes).bind fun n =>
    .ok (freshIntegrator (cicInLink fed a n) (cicOutLink (cicInLink fed a n) b)).unit

/-! ### Comb (R152) -/

/-- `wrap_s(W_out, in.payload - d)`. -/
def combOut (outLink : LinkFmt) (d : List Payload) (x : Payload) : Payload :=
  Payload.map2 (fun a b => wrapS outLink.fmt.width (a - b)) x (delayRead Payload.zero d)

def combForward (outLink : LinkFmt) (d : List Payload) (x : Fwd) : Fwd := ⟨x.valid, combOut outLink d x.payload⟩

def combNext (inLink outLink : LinkFmt) (m : Nat) (d : List Payload) (x : Fwd) (outReady : Bool) : Stage :=
  .comb inLink outLink m (if consume x.valid outReady then delayShift d x.payload else d)

/-- A comb in its reset state (`10_state.md` R26). -/
def freshComb (inLink outLink : LinkFmt) (m : Nat) : Stage := .comb inLink outLink m (List.replicate m Payload.zero)

/-- `Comb(W_in, M, W_out, lanes)`, `W_out` by default `W_in + 1` (`43_cic_stages.md` R152). -/
def execComb (wIn m : Int) (wOut : Option Int) (lanes : Int) (s : State) : Outcome :=
  construct s fun fed => (checkWidth wIn).bind fun a => (checkAtLeast 1 .badDelay m).bind fun m =>
    (checkWidth (wOut.getD (wIn + 1))).bind fun b => (checkLanes lanes).bind fun n =>
      .ok (freshComb (cicInLink fed a n) (cicOutLink (cicInLink fed a n) b) m).unit

/-! ### Upsampler (R154) -/

def upsamplerForward (c : Nat) (x : Fwd) : Fwd := if c = 0 then x else ⟨true, Payload.zero⟩

def upsamplerReady (c : Nat) (outReady : Bool) : Bool := if c = 0 then outReady else false

/-- The counter counts transfers on the output link. -/
def upsamplerNext (r : Nat) (link : LinkFmt) (c : Nat) (x : Fwd) (outReady : Bool) : Stage :=
  .upsampler r link (if consume (upsamplerForward c x).valid outReady then countUp c r else c)

/-- `Upsampler(R, W, lanes)` (`43_cic_stages.md` R154; reset `10_state.md` R27). DESIGN CHOICE: a lane width
below 1 is `BadWidth`, after `BadRate`; R154 lists `BadRate` only and the `BadWidth` row of
`60_exceptions.md` R262 does not name this unit (assumption log entry 21). -/
def execUpsampler (r w lanes : Int) (s : State) : Outcome :=
  construct s fun fed => (checkAtLeast 1 .badRate r).bind fun r => (checkWidth w).bind fun a =>
    (checkLanes lanes).bind fun n => .ok (Stage.upsampler r (cicInLink fed a n) 0).unit

/-! ### Downsampler (R156) -/

def downsamplerForward (c : Nat) (x : Fwd) : Fwd := ⟨x.valid && c == 0, x.payload⟩

def downsamplerReady (c : Nat) (outReady : Bool) : Bool := outReady || c != 0

/-- The counter counts transfers on the input link. -/
def downsamplerNext (r : Nat) (link : LinkFmt) (c : Nat) (x : Fwd) (outReady : Bool) : Stage :=
  .downsampler r link (if consume x.valid (downsamplerReady c outReady) then countUp c r else c)

/-- `Downsampler(R, W, lanes)` (`43_cic_stages.md` R156; reset `10_state.md` R28). DESIGN CHOICE: a lane width
below 1 is `BadWidth`, after `BadRate`; R156 lists `BadRate` only and the `BadWidth` row of
`60_exceptions.md` R262 does not name this unit (assumption log entry 21). -/
def execDownsampler (r w lanes : Int) (s : State) : Outcome :=
  construct s fun fed => (checkAtLeast 1 .badRate r).bind fun r => (checkWidth w).bind fun a =>
    (checkLanes lanes).bind fun n => .ok (Stage.downsampler r (cicInLink fed a n) 0).unit

/-! ### Requant (R157) -/

/-- `wrap_s(W_out, floor(in.payload / 2^k))`. -/
def requantOut (k : Nat) (outLink : LinkFmt) (x : Payload) : Payload :=
  Payload.map (fun a => wrapS outLink.fmt.width (ashr a k)) x

def requantForward (k : Nat) (outLink : LinkFmt) (x : Fwd) : Fwd := ⟨x.valid, requantOut k outLink x.payload⟩

/-- `Requant(k, W_in, W_out, lanes)` (`43_cic_stages.md` R157). -/
def execRequant (k wIn wOut lanes : Int) (s : State) : Outcome :=
  construct s fun fed => (checkShift k).bind fun k => (checkWidth wIn).bind fun a => (checkWidth wOut).bind fun b =>
    (checkLanes lanes).bind fun n =>
      .ok (Stage.requant k (cicInLink fed a n) (cicOutLink (cicInLink fed a n) b)).unit

end Sys2Proof.Machine
end

