-- ==== Sys2Proof/Machine/CicSizing.lean ====
section
/-! DEFINITION. The CIC build-time functions `cic_growth` and `cic_truncation` and the two CIC filters
(`44_cic_sizing_filters.md`), in the exact integer forms the spec makes the definition (R171, R177, U7). -/

namespace Sys2Proof.Machine

/-! ### Bit growth (R171) -/

/-- `growth(j)`, `1 <= j <= 2N`. -/
def cicGrowthAt (n r m j : Nat) : Nat := if j ≤ n then j else clog2Ratio (2 ^ (2 * n - j) * (r * m) ^ (j - n)) r

/-- `growth(1), ..., growth(2N)`. -/
def cicGrowthList (n r m : Nat) : List Nat := (List.range (2 * n)).map fun j => cicGrowthAt n r m (j + 1)

/-- `W_j = W_in + growth(j)`, `W_0 = W_in`. -/
def upWidth (n r m wIn j : Nat) : Nat := wIn + cicGrowthAt n r m j

/-- `cic_growth(N, R, M)` (`44_cic_sizing_filters.md` R171). -/
def execCicGrowth (n r m : Int) (s : State) : Outcome :=
  deliver s ((checkAtLeast 1 .badOrder n).bind fun n => (checkAtLeast 1 .badRate r).bind fun r =>
    (checkAtLeast 1 .badDelay m).bind fun m => .ok (.growth (cicGrowthList n r m)))

/-! ### Truncation, Hogenauer's method (R175 to R179) -/

/-- `(-1)^k`. -/
def altSign (k : Nat) : Int := if k % 2 = 0 then 1 else -1

/-- `h_j(k)`, the impulse response from the input of stage `j` to the filter output
(`44_cic_sizing_filters.md` R176). DEDUCED: R176 is followed for `R*M = 1` too, where its sum is
`(-1)^k * C(j-1, k)` and R184 says `C(N-j+k, k)`: `90_conflicts.md` takes "the arithmetic over a slogan about
it", and the stages of R181 have the response of R176 (assumption log entry 22). -/
def impulse (n rm j k : Nat) : Int :=
  if j ≤ n then sumTo (fun l => altSign l * (binom n l * binom (n - j + (k - rm * l)) (k - rm * l) : Nat)) (k / rm)
  else altSign k * (binom (2 * n + 1 - j) k : Nat)

/-- The last index of `h_j` (`44_cic_sizing_filters.md` R176). -/
def impulseEnd (n rm j : Nat) : Nat := if j ≤ n then n * (rm - 1) + j - 1 else 2 * n + 1 - j

/-- `F_j^2` (`44_cic_sizing_filters.md` R176). -/
def noiseGain (n rm j : Nat) : Nat := (sumTo (fun k => impulse n rm j k * impulse n rm j k) (impulseEnd n rm j)).toNat

/-- `k_j`, the least `k` with `4^k >= 2*N*F_j^2` (`44_cic_sizing_filters.md` R177). -/
def noiseBits (n f : Nat) : Nat := (clog2 (2 * n * f) + 1) / 2

/-- The running maximum of a list, from `from_` on (`44_cic_sizing_filters.md` R179). -/
def runningMax (from_ : Nat) : List Nat → List Nat
  | [] => []
  | b :: bs => max from_ b :: runningMax (max from_ b) bs

/-- The increase from each element to the next, from `from_` on. -/
def increments (from_ : Nat) : List Nat → List Nat
  | [] => []
  | b :: bs => (b - from_) :: increments b bs

/-- The first count forced to 0, "no credit" (`44_cic_sizing_filters.md` R178, conflict C10). -/
def forceFirst : List Nat → List Nat
  | [] => []
  | _ :: bs => 0 :: bs

/-- `full_width = W_in + clog2((R*M)^N)` (`44_cic_sizing_filters.md` R175). -/
def fullWidth (n r m wIn : Nat) : Nat := wIn + clog2 ((r * m) ^ n)

/-- `cic_truncation(N, R, M, W_in, width_out)` on checked parameters (`44_cic_sizing_filters.md` R175 to
R179). DESIGN CHOICE: where the table of R180 disagrees with these rules (row `2,4,2`: it prints `k_1 = 4`, and
R176 and R177 give 6) the rules are followed; no other entry of the row depends on it (assumption log
entry 23). -/
def cicTruncate (n r m wIn : Nat) (widthOut : Option Nat) : Truncation :=
  let full := fullWidth n r m wIn
  let out := widthOut.getD full
  let bLast := full - out
  let noise := (List.range (2 * n)).map fun j => noiseGain n (r * m) (j + 1)
  let k := noise.map (noiseBits n)
  let bCalc := k.map fun kj => bLast - kj
  let b := forceFirst bCalc
  let bc := runningMax 0 b
  { fullWidth := full
    bLast := bLast
    noise := noise
    k := k
    bCalc := bCalc
    b := b
    bc := bc
    shifts := increments 0 bc
    sOut := bLast - bc.getLastD 0
    widths := bc.map fun x => full - x
    widthOut := out }

/-- `BadWidth` of a requested output width: absent, or `1 <= width_out <= full_width` (D27). -/
def checkWidthOut (full : Nat) : Option Int → Build (Option Nat)
  | none => .ok none
  | some w => if w < 1 ∨ (full : Int) < w then .error .badWidth else .ok (some w.toNat)

/-- `cic_truncation(N, R, M, W_in, width_out)` (`44_cic_sizing_filters.md` R175). -/
def execCicTruncation (n r m wIn : Int) (widthOut : Option Int) (s : State) : Outcome :=
  deliver s ((checkAtLeast 1 .badOrder n).bind fun n => (checkAtLeast 1 .badRate r).bind fun r =>
    (checkAtLeast 1 .badDelay m).bind fun m => (checkWidth wIn).bind fun w =>
      (checkWidthOut (fullWidth n r m w) widthOut).bind fun out => .ok (.truncation (cicTruncate n r m w out)))

/-! ### The filters -/

/-- A link inside a CIC filter: its width, labelled with the fraction bits `f` of the filter's input
(`44_cic_sizing_filters.md` R186). -/
def cicLink (f lanes w : Nat) : LinkFmt := ⟨cicLabel w f, lanes⟩

/-- The stages of `CICUpsamplingFilter` (`44_cic_sizing_filters.md` R173). -/
def upsamplingStages (n r m wIn f lanes : Nat) (widthOut : Option Nat) : List Stage :=
  let w := upWidth n r m wIn
  let link := cicLink f lanes
  (List.range n).map (fun j => freshComb (link (w j)) (link (w (j + 1))) m)
    ++ (if 1 < r then [Stage.upsampler r (link (w n)) 0] else [])
    ++ (List.range n).map (fun j => freshIntegrator (link (w (n + j))) (link (w (n + j + 1))))
    ++ (match widthOut with
      | none => []
      | some out => if out < w (2 * n) then [Stage.requant (w (2 * n) - out) (link (w (2 * n))) (link out)] else [])

/-- The stages of `CICDownsamplingFilter` (`44_cic_sizing_filters.md` R181). -/
def downsamplingStages (n r m wIn f lanes : Nat) (widthOut : Option Nat) : List Stage :=
  let t := cicTruncate n r m wIn widthOut
  let w := fun j => if j = 0 then wIn else t.widths.getD (j - 1) 0
  let link := cicLink f lanes
  (List.range n).flatMap (fun j =>
      [Stage.requant (t.shifts.getD j 0) (link (w j)) (link (w (j + 1))),
       freshIntegrator (link (w (j + 1))) (link (w (j + 1)))])
    ++ (if 1 < r then [Stage.downsampler r (link (w n)) 0] else [])
    ++ (List.range n).flatMap (fun j =>
      [Stage.requant (t.shifts.getD (n + j) 0) (link (w (n + j))) (link (w (n + j + 1))),
       freshComb (link (w (n + j + 1))) (link (w (n + j + 1))) m])
    ++ [Stage.requant t.sOut (link (w (2 * n))) (link t.widthOut)]

/-- A stage that ends a CIC filter, with another label on its output link. -/
def Stage.relabel (p : Fmt) : Stage → Stage
  | .integrator a b acc => .integrator a ⟨p, b.lanes⟩ acc
  | .requant k a b => .requant k a ⟨p, b.lanes⟩
  | st => st

/-- The OPEN label `cic_out_fmt` on the last link of a filter (`44_cic_sizing_filters.md` R186). -/
def relabelLast (p : Option Fmt) : List Stage → List Stage
  | [] => []
  | [st] => match p with
    | none => [st]
    | some p => [st.relabel p]
  | st :: rest => st :: relabelLast p rest

/-- The check of `cic_out_fmt`: "any signed format of total width `width_out`", or absent (assumption log
entry 10). -/
def checkOutFmt (width : Nat) : Option FormatParam → Build (Option Fmt)
  | none => .ok none
  | some p => (checkPayloadFormat p).bind fun p => if p.width = width then .ok (some p) else .error .badWidth

/-- The checks the two filters share, in the order of `44_cic_sizing_filters.md` R185; the lane count is
checked by the first stage that is constructed, so last (`60_exceptions.md` R263). `full` is the filter's
full width, `stages` its list of stages. -/
def buildFilter (n r m : Int) (fmtIn : FormatParam) (lanes : Int) (widthOut : Option Int) (outFmt : Option FormatParam)
    (full : Nat → Nat → Nat → Nat → Nat) (stages : Nat → Nat → Nat → Nat → Nat → Nat → Option Nat → List Stage) :
    Build Pipeline :=
  (checkAtLeast 1 .badOrder n).bind fun n => (checkAtLeast 1 .badRate r).bind fun r =>
    (checkAtLeast 1 .badDelay m).bind fun m => (checkPayloadFormat fmtIn).bind fun p =>
      (checkWidthOut (full n r m p.width) widthOut).bind fun out =>
        (checkOutFmt (out.getD (full n r m p.width)) outFmt).bind fun label =>
          (checkLanes lanes).bind fun l =>
            .ok ⟨⟨p, l⟩, relabelLast label (stages n r m p.width p.f l out)⟩

/-- `full_width_up = W_2N` (`44_cic_sizing_filters.md` R171). -/
def fullWidthUpsampling (n r m wIn : Nat) : Nat := upWidth n r m wIn (2 * n)

/-- `CICUpsamplingFilter(N, R, M, fmt_in, lanes, width_out)` (`44_cic_sizing_filters.md` R173). -/
def execCicUpsamplingFilter (n r m : Int) (fmtIn : FormatParam) (lanes : Int) (widthOut : Option Int)
    (outFmt : Option FormatParam) (s : State) : Outcome :=
  construct s fun _ => buildFilter n r m fmtIn lanes widthOut outFmt fullWidthUpsampling upsamplingStages

/-- `CICDownsamplingFilter(N, R, M, fmt_in, lanes, width_out)` (`44_cic_sizing_filters.md` R181). -/
def execCicDownsamplingFilter (n r m : Int) (fmtIn : FormatParam) (lanes : Int) (widthOut : Option Int)
    (outFmt : Option FormatParam) (s : State) : Outcome :=
  construct s fun _ => buildFilter n r m fmtIn lanes widthOut outFmt fullWidth downsamplingStages

end Sys2Proof.Machine
end

