-- ==== Sys2Proof/Machine/Fft.lean ====
section
/-! DEFINITION. The FFT stages (`45_fft_stages.md`): `SDFRadix2Stage`, `R22TwiddleStage`, `TwiddleStage` in its
two variants, and the build-time function `twiddle_table`. Every FFT link carries complex payloads of a
signed format (R200); a size is held as its logarithm, `n = 2^log`. -/

namespace Sys2Proof.Machine

/-! ### SDFRadix2Stage (R201 to R203) -/

/-- A stored `W+1`-bit payload read back as a `W`-bit one (`45_fft_stages.md` R203). -/
def narrow (fmt : Fmt) (p : Payload) : Payload := Payload.map fmt.wrap p

/-- The sum sent downstream in combine mode. -/
def sdfSum (fmt : Fmt) (e x : Payload) : Payload := (Cx.add ((narrow fmt e).toCx fmt) (x.toCx fmt)).payload

/-- The difference fed back in combine mode: delayed minus incoming. -/
def sdfDifference (fmt : Fmt) (e x : Payload) : Payload := (Cx.sub ((narrow fmt e).toCx fmt) (x.toCx fmt)).payload

def sdfForward (log : Nat) (fmt : Fmt) (c : Nat) (d : List TaggedEntry) (x : Fwd) : Fwd :=
  let e := delayRead TaggedEntry.empty d
  if combineMode log c then ⟨x.valid, sdfSum fmt e.payload x.payload⟩ else ⟨x.valid && due e, e.payload⟩

def sdfReady (log c : Nat) (d : List TaggedEntry) (outReady : Bool) : Bool :=
  if combineMode log c then outReady else outReady || !due (delayRead TaggedEntry.empty d)

/-- The entry written on an input transfer: the incoming sample in feed mode (sign extension to the wider
lane leaves the integer as it is), the difference in combine mode. -/
def sdfEntry (log : Nat) (fmt : Fmt) (c : Nat) (d : List TaggedEntry) (x : Payload) : TaggedEntry :=
  if combineMode log c then ⟨sdfDifference fmt (delayRead TaggedEntry.empty d).payload x, true, true⟩
  else ⟨x, true, false⟩

/-- `c` and `D` move together, on an input transfer only. -/
def sdfNext (log : Nat) (fmt : Fmt) (c : Nat) (d : List TaggedEntry) (x : Fwd) (outReady : Bool) : Stage :=
  if consume x.valid (sdfReady log c d outReady) then
    .sdfRadix2 log fmt (countUp c (2 ^ log)) (delayShift d (sdfEntry log fmt c d x.payload))
  else .sdfRadix2 log fmt c d

/-- A butterfly in its reset state (`10_state.md` R29). -/
def freshSdf (log : Nat) (fmt : Fmt) : Stage := .sdfRadix2 log fmt 0 (List.replicate (2 ^ (log - 1)) TaggedEntry.empty)

/-- `SDFRadix2Stage(n, fmt_in)` (`45_fft_stages.md` R201, R204). -/
def execSdfRadix2Stage (n : Int) (fmtIn : FormatParam) (s : State) : Outcome :=
  construct s fun fed => (checkSize 2 n).bind fun log => (checkPayloadFormat fmtIn).bind fun p =>
    (requireComplex fed).bind fun _ => .ok (freshSdf log p).unit

/-! ### R22TwiddleStage (R207) -/

def r22Forward (log : Nat) (fmt : Fmt) (c : Nat) (x : Fwd) : Fwd :=
  ⟨x.valid, if rotateBit log c then (x.payload.toCx fmt).mulnegj.payload else x.payload⟩

def r22Next (log : Nat) (fmt : Fmt) (c : Nat) (x : Fwd) (outReady : Bool) : Stage :=
  .r22Twiddle log fmt (if consume x.valid outReady then countUp c (2 ^ log) else c)

/-- `R22TwiddleStage(n, fmt)` (`45_fft_stages.md` R207; reset `10_state.md` R30). -/
def execR22TwiddleStage (n : Int) (fmt : FormatParam) (s : State) : Outcome :=
  construct s fun fed => (checkSize 4 n).bind fun log => (checkPayloadFormat fmt).bind fun p =>
    (requireComplex fed).bind fun _ => .ok (Stage.r22Twiddle log p 0).unit

/-! ### The twiddle table (R210 to R212) -/

/-- `mult(b) = 0, 2, 1, 3` (`45_fft_stages.md` R210). -/
def blockMultiplier (b : Nat) : Nat := if b = 1 then 2 else if b = 2 then 1 else b

/-- `e(idx) = n3 * mult(b)`, `idx = b * (n/4) + n3` (`45_fft_stages.md` R210). -/
def twiddleExponent (log idx : Nat) : Nat := idx % (2 ^ log / 4) * blockMultiplier (idx / (2 ^ log / 4))

/-- `T[idx]`: the rounded cosine and the rounded negated sine of `2*pi*e/n` (`45_fft_stages.md` R212); the
negated sine is the cosine a quarter turn on. -/
def twiddleFactor (log f idx : Nat) : Payload :=
  ⟨roundedCos log (twiddleExponent log idx) f, roundedCos log (twiddleExponent log idx + 2 ^ log / 4) f⟩

/-- `T[0 .. n-1]`. -/
def twiddleList (log f : Nat) : List Payload := (List.range (2 ^ log)).map (twiddleFactor log f)

/-- `twiddle_table(n, tw_fmt)` (`45_fft_stages.md` R212). With `i_t >= 2` every factor is in range, so
`ConstOutOfRange` cannot arise here. -/
def execTwiddleTable (n : Int) (twFmt : FormatParam) (s : State) : Outcome :=
  deliver s ((checkSize 4 n).bind fun log => (checkTwiddleFormat twFmt).bind fun tw =>
    .ok (.table ((twiddleList log tw.f).map fun t => t.toCx tw)))

/-! ### TwiddleStage, DIRECT (R213, R214) -/

/-- `c_reshape(c_mul(in.payload, t), fmt, TRUNCATE)`. -/
def rotate (fmt twFmt : Fmt) (t x : Payload) : Payload := (((x.toCx fmt).mul (t.toCx twFmt)).reshape fmt).payload

def twiddleForward (fmt twFmt : Fmt) (table : List Payload) (c : Nat) (x : Fwd) : Fwd :=
  ⟨x.valid, rotate fmt twFmt (romRead table c) x.payload⟩

def twiddleNext (log : Nat) (fmt twFmt : Fmt) (table : List Payload) (c : Nat) (x : Fwd) (outReady : Bool) : Stage :=
  .twiddleDirect log fmt twFmt table (if consume x.valid outReady then countUp c (2 ^ log) else c)

/-- A direct twiddle stage in its reset state (`10_state.md` R31). -/
def freshTwiddleDirect (log : Nat) (fmt twFmt : Fmt) : Stage := .twiddleDirect log fmt twFmt (twiddleList log twFmt.f) 0

/-- The checks of both twiddle variants, in the order of `45_fft_stages.md` R213. -/
def checkTwiddleStage (n : Int) (fmt twFmt : FormatParam) (fed : Option LinkFmt) : Build (Nat × Fmt × Fmt) :=
  (checkSize 4 n).bind fun log => (checkPayloadFormat fmt).bind fun p => (requireComplex fed).bind fun _ =>
    (checkTwiddleFormat twFmt).bind fun tw => .ok (log, p, tw)

/-- `TwiddleStage(n, fmt, tw_fmt, DIRECT)` (`45_fft_stages.md` R213). -/
def execTwiddleStageDirect (n : Int) (fmt twFmt : FormatParam) (s : State) : Outcome :=
  construct s fun fed => (checkTwiddleStage n fmt twFmt fed).bind fun r => .ok (freshTwiddleDirect r.1 r.2.1 r.2.2).unit

/-! ### TwiddleStage, THREE_MULT (R215) -/

/-- Substage 1, on the sample `x = (a, b)` and the factor `t = (tc, td)`. -/
def sumRecord (fmt twFmt : Fmt) (t x : Payload) : SumRecord :=
  { b := x.im
    tc := t.re
    td := t.im
    u1 := (Fx.sub ⟨t.re, twFmt⟩ ⟨t.im, twFmt⟩).raw
    u2 := (Fx.sub ⟨x.re, fmt⟩ ⟨x.im, fmt⟩).raw
    u3 := (Fx.add ⟨x.re, fmt⟩ ⟨x.im, fmt⟩).raw }

/-- The format of `u1` and of `u2`, `u3`: one integer bit more than the operands' (`41_complex.md` R105). -/
def productRecord (fmt twFmt : Fmt) (r : SumRecord) : ProductRecord :=
  { p1 := (Fx.mul ⟨r.b, fmt⟩ ⟨r.u1, Fmt.sum twFmt twFmt⟩).raw
    p2 := (Fx.mul ⟨r.tc, twFmt⟩ ⟨r.u2, Fmt.sum fmt fmt⟩).raw
    p3 := (Fx.mul ⟨r.td, twFmt⟩ ⟨r.u3, Fmt.sum fmt fmt⟩).raw }

/-- Substage 3: the two sums, each reshaped to the sample's format. -/
def rotatedRecord (fmt twFmt : Fmt) (r : ProductRecord) : Payload :=
  let q1 := Fmt.product fmt (Fmt.sum twFmt twFmt)
  let q2 := Fmt.product twFmt (Fmt.sum fmt fmt)
  ⟨((Fx.add ⟨r.p1, q1⟩ ⟨r.p2, q2⟩).reshape fmt).raw, ((Fx.add ⟨r.p1, q1⟩ ⟨r.p3, q2⟩).reshape fmt).raw⟩

def threeMultReady (s1 : PipeSlot SumRecord) (s2 : PipeSlot ProductRecord) (s3 : PipeSlot Payload) (outReady : Bool) : Bool :=
  s1.ready (s2.ready (s3.ready outReady))

/-- The three substages load, each as a `PipeReg` (`42_stream_skid_delay.md` R132); the counter moves on the
input transfer of the first. -/
def threeMultNext (log : Nat) (fmt twFmt : Fmt) (table : List Payload) (c : Nat) (s1 : PipeSlot SumRecord)
    (s2 : PipeSlot ProductRecord) (s3 : PipeSlot Payload) (x : Fwd) (outReady : Bool) : Stage :=
  .twiddleThreeMult log fmt twFmt table
    (if consume x.valid (threeMultReady s1 s2 s3 outReady) then countUp c (2 ^ log) else c)
    (s1.load (s2.ready (s3.ready outReady)) x.valid (sumRecord fmt twFmt (romRead table c) x.payload))
    (s2.load (s3.ready outReady) s1.v (productRecord fmt twFmt s1.p))
    (s3.load outReady s2.v (rotatedRecord fmt twFmt s2.p))

/-- A three-multiplier twiddle stage in its reset state (`10_state.md` R31). -/
def freshTwiddleThreeMult (log : Nat) (fmt twFmt : Fmt) : Stage :=
  .twiddleThreeMult log fmt twFmt (twiddleList log twFmt.f) 0 ⟨false, SumRecord.zero⟩ ⟨false, ProductRecord.zero⟩
    ⟨false, Payload.zero⟩

/-- `TwiddleStage(n, fmt, tw_fmt, THREE_MULT)` (`45_fft_stages.md` R215). -/
def execTwiddleStageThreeMult (n : Int) (fmt twFmt : FormatParam) (s : State) : Outcome :=
  construct s fun fed => (checkTwiddleStage n fmt twFmt fed).bind fun r => .ok (freshTwiddleThreeMult r.1 r.2.1 r.2.2).unit

end Sys2Proof.Machine
end

