-- ==== Sys2Proof/Machine/BitReversal.lean ====
section
/-! DEFINITION. The bit-reversal network (`46_bit_reversal.md`): `SerialBitExchange` and the composition
`SerialBitReversal`. The payload is opaque to these units (R230). -/

namespace Sys2Proof.Machine

/-! ### SerialBitExchange (R231, R232) -/

def exchangeForward (j k c : Nat) (d : List Slot) (x : Fwd) : Fwd :=
  let e := delayRead Slot.empty d
  if exchangeBit j k c then ⟨x.valid && e.valid, e.payload⟩ else x

def exchangeReady (j k c : Nat) (d : List Slot) (outReady : Bool) : Bool :=
  if exchangeBit j k c then outReady || !(delayRead Slot.empty d).valid else outReady

/-- The delay advances on every input transfer: it takes the incoming sample in, or is "fed its own prior
output". -/
def exchangeNext (j k : Nat) (link : LinkFmt) (c : Nat) (d : List Slot) (x : Fwd) (outReady : Bool) : Stage :=
  if consume x.valid (exchangeReady j k c d outReady) then
    .bitExchange j k link (countUp c (2 ^ (j + 1)))
      (delayShift d (if exchangeBit j k c then ⟨x.payload, true⟩ else delayRead Slot.empty d))
  else .bitExchange j k link c d

/-- The delay length `L = 2^j - 2^k`. -/
def exchangeDepth (j k : Nat) : Nat := 2 ^ j - 2 ^ k

/-- A bit-exchange stage in its reset state (`10_state.md` R32). -/
def freshExchange (j k : Nat) (link : LinkFmt) : Stage :=
  .bitExchange j k link 0 (List.replicate (exchangeDepth j k) Slot.empty)

/-- `BadBitPositions` unless `j > k >= 0` (`46_bit_reversal.md` R234). -/
def checkPositions (j k : Int) : Build (Nat × Nat) :=
  if k < j ∧ 0 ≤ k then .ok (j.toNat, k.toNat) else .error .badBitPositions

/-- `SerialBitExchange(j, k, fmt, lanes)` (`46_bit_reversal.md` R231). -/
def execSerialBitExchange (j k : Int) (fmt : FormatParam) (lanes : Int) (s : State) : Outcome :=
  construct s fun _ => (checkPositions j k).bind fun jk => (checkLink fmt lanes).bind fun l =>
    .ok (freshExchange jk.1 jk.2 l).unit

/-! ### SerialBitReversal (R236) -/

/-- `[SerialBitExchange(bits-1-i, i) for i = 0, 1, ... while bits-1-i > i]`. -/
def bitReversalStages (bits : Nat) (link : LinkFmt) : List Stage :=
  (List.range (bits / 2)).map fun i => freshExchange (bits - 1 - i) i link

/-- `SerialBitReversal(N, fmt, lanes)`; of `N = 2` it is a wire (`46_bit_reversal.md` R236). -/
def execSerialBitReversal (n : Int) (fmt : FormatParam) (lanes : Int) (s : State) : Outcome :=
  construct s fun _ => (checkSize 2 n).bind fun bits => (checkLink fmt lanes).bind fun l =>
    .ok ⟨l, bitReversalStages bits l⟩

end Sys2Proof.Machine
end

