-- ==== Sys2Proof/Machine/SerialFft.lean ====
section
/-! DEFINITION. `SerialFFT` (`47_serial_fft.md`): the composition of the radix-2² groups, the last radix-2
stage of an odd number of bits, and the optional bit-reversal network. -/

namespace Sys2Proof.Machine

/-- The running sample format `g = (ig, f, signed)`. -/
def sampleFmt (f ig : Nat) : Fmt := ⟨ig, f, true⟩

/-- The twiddle stage of a group, in the chosen variant, with the optional `SkidBuffer` behind it
(`47_serial_fft.md` R246, D39). -/
def twiddleStages (log : Nat) (fmt tw : Fmt) (variant : TwVariant) (skid : Bool) : List Stage :=
  (match variant with
    | .direct => freshTwiddleDirect log fmt tw
    | .threeMult => freshTwiddleThreeMult log fmt tw)
  :: (if skid then [Stage.skidBuffer ⟨fmt, 2⟩ false Payload.zero] else [])

/-- The transform stages for a remaining size `rem = 2^bits`, the running format having `ig` integer bits: a
radix-2² group while `rem >= 4`, its twiddle stage left out for `rem = 4`; then the remaining size is
divided by 4 (`47_serial_fft.md` R246, conflict C5). -/
def transformStages (f : Nat) (tw : Fmt) (variant : TwVariant) (skid : Bool) : (bits ig : Nat) → List Stage
  | 0, _ => []
  | 1, ig => [freshSdf 1 (sampleFmt f ig)]
  | bits + 2, ig =>
    [freshSdf (bits + 2) (sampleFmt f ig), Stage.r22Twiddle (bits + 2) (sampleFmt f (ig + 1)) 0,
      freshSdf (bits + 1) (sampleFmt f (ig + 1))]
    ++ (if bits = 0 then [] else twiddleStages (bits + 2) (sampleFmt f (ig + 2)) tw variant skid)
    ++ transformStages f tw variant skid bits (ig + 2)

/-- The stages of `SerialFFT` (`47_serial_fft.md` R246). -/
def fftStages (bits : Nat) (p tw : Fmt) (bitrev : Bool) (variant : TwVariant) (skid : Bool) : List Stage :=
  transformStages p.f tw variant skid bits p.i
    ++ (if bitrev then bitReversalStages bits ⟨sampleFmt p.f (p.i + bits), 2⟩ else [])

/-- The twiddle format is checked "only when a `TwiddleStage` is built, that is `N >= 8`"
(`47_serial_fft.md` R254); where none is built the format is not used. -/
def checkFftTwiddle (bits : Nat) (tw : FormatParam) : Build Fmt :=
  if bits < 3 then .ok ⟨2, 0, true⟩ else checkTwiddleFormat tw

/-- `SerialFFT(N, fmt_in, bitrev, tw_fmt, tw_variant, skid_after_twiddle)` (`47_serial_fft.md` R245, R254). -/
def execSerialFft (n : Int) (fmtIn : FormatParam) (bitrev : Bool) (twFmt : FormatParam) (variant : TwVariant)
    (skid : Bool) (s : State) : Outcome :=
  construct s fun fed => (checkSize 2 n).bind fun bits => (checkPayloadFormat fmtIn).bind fun p =>
    (requireComplex fed).bind fun _ => (checkFftTwiddle bits twFmt).bind fun tw =>
      .ok ⟨⟨p, 2⟩, fftStages bits p tw bitrev variant skid⟩

end Sys2Proof.Machine
end

