-- ==== Sys2Proof/Machine/Tick.lean ====
section
/-! DEFINITION. The tick (`00_scope.md` R6, R7): of a stage, of a chain of stages, of the whole machine. In one
tick the forward signals are computed from the first link to the last, the ready signals from the last to
the first, then every stage's next registers from its current ones and the signals of the links beside
it, all at once. -/

namespace Sys2Proof.Machine

/-! ### A stage -/

/-- The forward signals a stage puts on its output link, given those of its input link. -/
def Stage.forward : Stage → Fwd → Fwd
  | .skidBuffer _ armed buf, x => skidForward armed buf x
  | .streamDelay depth _ d, x => streamDelayForward depth d x
  | .pipeReg _ reg, _ => pipeRegForward reg
  | .integrator _ b acc, x => integratorForward b acc x
  | .comb _ b _ d, x => combForward b d x
  | .upsampler _ _ c, x => upsamplerForward c x
  | .downsampler _ _ c, x => downsamplerForward c x
  | .requant k _ b, x => requantForward k b x
  | .sdfRadix2 log fmt c d, x => sdfForward log fmt c d x
  | .r22Twiddle log fmt c, x => r22Forward log fmt c x
  | .twiddleDirect _ fmt tw table c, x => twiddleForward fmt tw table c x
  | .twiddleThreeMult _ _ _ _ _ _ _ s3, _ => pipeRegForward s3
  | .bitExchange j k _ c d, x => exchangeForward j k c d x

/-- The ready a stage shows on its input link, given that of its output link. -/
def Stage.ready : Stage → Bool → Bool
  | .skidBuffer _ armed _, _ => skidReady armed
  | .streamDelay depth _ d, r => streamDelayReady depth d r
  | .pipeReg _ reg, r => reg.ready r
  | .integrator _ _ _, r => r
  | .comb _ _ _ _, r => r
  | .upsampler _ _ c, r => upsamplerReady c r
  | .downsampler _ _ c, r => downsamplerReady c r
  | .requant _ _ _, r => r
  | .sdfRadix2 log _ c d, r => sdfReady log c d r
  | .r22Twiddle _ _ _, r => r
  | .twiddleDirect _ _ _ _ _, r => r
  | .twiddleThreeMult _ _ _ _ _ s1 s2 s3, r => threeMultReady s1 s2 s3 r
  | .bitExchange j k _ c d, r => exchangeReady j k c d r

/-- A stage after the tick boundary, given the forward signals of its input link and the ready of its output
link; `u` is the undefined payload a bubble stores (`StreamDelay` only). -/
def Stage.next (u : Payload) : Stage → Fwd → Bool → Stage
  | .skidBuffer l armed buf, x, r => skidNext l armed buf x r
  | .streamDelay depth l d, x, r => streamDelayNext depth l d u x r
  | .pipeReg g reg, x, r => pipeRegNext g reg x r
  | .integrator a b acc, x, r => integratorNext a b acc x r
  | .comb a b m d, x, r => combNext a b m d x r
  | .upsampler n l c, x, r => upsamplerNext n l c x r
  | .downsampler n l c, x, r => downsamplerNext n l c x r
  | .requant k a b, _, _ => .requant k a b
  | .sdfRadix2 log fmt c d, x, r => sdfNext log fmt c d x r
  | .r22Twiddle log fmt c, x, r => r22Next log fmt c x r
  | .twiddleDirect log fmt tw table c, x, r => twiddleNext log fmt tw table c x r
  | .twiddleThreeMult log fmt tw table c s1 s2 s3, x, r => threeMultNext log fmt tw table c s1 s2 s3 x r
  | .bitExchange j k l c d, x, r => exchangeNext j k l c d x r

/-- The stage with its registers at their reset values (`10_state.md` R34): what is left of a stage when only
its structural parameters count. -/
def Stage.cleared : Stage → Stage
  | .skidBuffer l _ _ => .skidBuffer l false Payload.zero
  | .streamDelay depth l _ => .streamDelay depth l (List.replicate depth Slot.empty)
  | .pipeReg g _ => .pipeReg g ⟨false, Payload.zero⟩
  | .integrator a b _ => freshIntegrator a b
  | .comb a b m _ => freshComb a b m
  | .upsampler r l _ => .upsampler r l 0
  | .downsampler r l _ => .downsampler r l 0
  | .requant k a b => .requant k a b
  | .sdfRadix2 log fmt _ _ => freshSdf log fmt
  | .r22Twiddle log fmt _ => .r22Twiddle log fmt 0
  | .twiddleDirect log fmt tw table _ => .twiddleDirect log fmt tw table 0
  | .twiddleThreeMult log fmt tw table _ _ _ _ =>
    .twiddleThreeMult log fmt tw table 0 ⟨false, SumRecord.zero⟩ ⟨false, ProductRecord.zero⟩ ⟨false, Payload.zero⟩
  | .bitExchange j k l _ _ => freshExchange j k l

/-! ### A chain

Link `k` of a chain is the input link of its stage `k`. The undefined payload of link `k` is drawn at site
`2k`, the one a bubble stores in stage `k` at site `2k + 1`. -/

/-- The forward signals on the output link of a chain whose first link, number `k`, shows `x`. -/
def chainForward (tick k : Nat) : List Stage → Fwd → Fwd
  | [], x => x
  | st :: rest, x => chainForward tick (k + 1) rest (showLink st.outLink tick (2 * (k + 1)) (st.forward x))

/-- The ready on the input link of a chain whose output link shows `r`. -/
def chainReady : List Stage → Bool → Bool
  | [], r => r
  | st :: rest, r => st.ready (chainReady rest r)

/-- Every stage of a chain after the tick boundary. -/
def chainNext (tick k : Nat) : List Stage → Fwd → Bool → List Stage
  | [], _, _ => []
  | st :: rest, x, r =>
    st.next (undefPayload st.inLink tick (2 * k + 1)) x (chainReady rest r)
      :: chainNext tick (k + 1) rest (showLink st.outLink tick (2 * (k + 1)) (st.forward x)) r

/-! ### The whole machine -/

/-- What the environment drives when its list has ended: nothing offered, nothing accepted, no delay enabled
(assumption log entry 5; U14). -/
def EnvTick.idle : EnvTick := ⟨false, Payload.zero, false, []⟩

/-- A free-standing delay the environment says nothing of is not enabled. -/
def DelayDrive.idle : DelayDrive := ⟨false, TaggedEntry.empty⟩

/-- What the environment drives in the coming tick. -/
def State.drive (s : State) : EnvTick := s.env.headD EnvTick.idle

/-- What it drives on free-standing delay number `k`. -/
def EnvTick.delay (e : EnvTick) (k : Nat) : DelayDrive := e.delays.getD k DelayDrive.idle

/-- The forward signals the environment puts on the pipeline's input link: the payload is what the link's
wires carry of it (assumption log entry 14), and undefined while `valid` is 0. -/
def Pipeline.input (p : Pipeline) (tick : Nat) (e : EnvTick) : Fwd :=
  showLink p.inLink tick 0 ⟨e.valid, p.inLink.clip e.payload⟩

/-- The forward signals on the pipeline's output link. -/
def Pipeline.output (p : Pipeline) (tick : Nat) (e : EnvTick) : Fwd := chainForward tick 0 p.stages (p.input tick e)

/-- The ready the pipeline shows on its input link. -/
def Pipeline.ready (p : Pipeline) (e : EnvTick) : Bool := chainReady p.stages e.ready

/-- The boundary signals of the tick (`00_scope.md` R10). -/
def Pipeline.boundary (p : Pipeline) (tick : Nat) (e : EnvTick) : BoundaryTick :=
  { input := ⟨(p.input tick e).valid, (p.input tick e).payload, p.ready e⟩
    output := ⟨(p.output tick e).valid, (p.output tick e).payload, e.ready⟩ }

/-- The pipeline after the tick boundary. -/
def Pipeline.next (p : Pipeline) (tick : Nat) (e : EnvTick) : Pipeline :=
  ⟨p.inLink, chainNext tick 0 p.stages (p.input tick e) e.ready⟩

/-- The free-standing delays, numbered from `k`, in one tick: what each shows. -/
def delaysOut (e : EnvTick) (k : Nat) : List DelayUnit → List TaggedEntry
  | [] => []
  | u :: us => u.out (e.delay k) :: delaysOut e (k + 1) us

/-- The free-standing delays, numbered from `k`, after the tick boundary. -/
def delaysNext (e : EnvTick) (k : Nat) : List DelayUnit → List DelayUnit
  | [] => []
  | u :: us => u.next (e.delay k) :: delaysNext e (k + 1) us

/-- `tick(σ, env) = (σ', obs)` (`00_scope.md` R6): the whole machine advances by one tick, and what it showed
is recorded. -/
def tick (s : State) : State :=
  let e := s.drive
  { s with
    pipeline := s.pipeline.map fun p => p.next s.ticks e
    delays := delaysNext e 0 s.delays
    env := s.env.tail
    ticks := s.ticks + 1
    trace := ⟨s.pipeline.map fun p => p.boundary s.ticks e, delaysOut e 0 s.delays⟩ :: s.trace }

end Sys2Proof.Machine
end

