-- ==== Sys2Proof/Machine/Dispatch.lean ====
section
/-! DEFINITION. Which meaning each operation has: one arm per constructor. -/

namespace Sys2Proof.Machine

def exec (i : Instr) (s : State) : Host.Outcome State Fault Refusal :=
  match i with
  | .fixedPointConst fmt raw => Sys2Proof.Machine.execFixedPointConst fmt raw s
  | .add a b => Sys2Proof.Machine.execAdd a b s
  | .sub a b => Sys2Proof.Machine.execSub a b s
  | .mul a b => Sys2Proof.Machine.execMul a b s
  | .reshape v newFormat rounding => Sys2Proof.Machine.execReshape v newFormat rounding s
  | .rshift v n => Sys2Proof.Machine.execRshift v n s
  | .neg v => Sys2Proof.Machine.execNeg v s
  | .complex re im => Sys2Proof.Machine.execComplex re im s
  | .cAdd x y => Sys2Proof.Machine.execCAdd x y s
  | .cSub x y => Sys2Proof.Machine.execCSub x y s
  | .cMul x y => Sys2Proof.Machine.execCMul x y s
  | .cMul3 x t => Sys2Proof.Machine.execCMul3 x t s
  | .cScale x k => Sys2Proof.Machine.execCScale x k s
  | .cRshift x n => Sys2Proof.Machine.execCRshift x n s
  | .cReshape x fmt rounding => Sys2Proof.Machine.execCReshape x fmt rounding s
  | .cMulnegj x => Sys2Proof.Machine.execCMulnegj x s
  | .skidBuffer fmt lanes => Sys2Proof.Machine.execSkidBuffer fmt lanes s
  | .delay depth entry impl => Sys2Proof.Machine.execDelay depth entry impl s
  | .streamDelay depth fmt lanes impl => Sys2Proof.Machine.execStreamDelay depth fmt lanes impl s
  | .pipeReg g => Sys2Proof.Machine.execPipeReg g s
  | .integrator wIn w lanes => Sys2Proof.Machine.execIntegrator wIn w lanes s
  | .comb wIn m wOut lanes => Sys2Proof.Machine.execComb wIn m wOut lanes s
  | .upsampler r w lanes => Sys2Proof.Machine.execUpsampler r w lanes s
  | .downsampler r w lanes => Sys2Proof.Machine.execDownsampler r w lanes s
  | .requant k wIn wOut lanes => Sys2Proof.Machine.execRequant k wIn wOut lanes s
  | .cicGrowth n r m => Sys2Proof.Machine.execCicGrowth n r m s
  | .cicTruncation n r m wIn widthOut => Sys2Proof.Machine.execCicTruncation n r m wIn widthOut s
  | .cicUpsamplingFilter n r m fmtIn lanes widthOut outFmt => Sys2Proof.Machine.execCicUpsamplingFilter n r m fmtIn lanes widthOut outFmt s
  | .cicDownsamplingFilter n r m fmtIn lanes widthOut outFmt => Sys2Proof.Machine.execCicDownsamplingFilter n r m fmtIn lanes widthOut outFmt s
  | .sdfRadix2Stage n fmtIn => Sys2Proof.Machine.execSdfRadix2Stage n fmtIn s
  | .r22TwiddleStage n fmt => Sys2Proof.Machine.execR22TwiddleStage n fmt s
  | .twiddleStageDirect n fmt twFmt => Sys2Proof.Machine.execTwiddleStageDirect n fmt twFmt s
  | .twiddleStageThreeMult n fmt twFmt => Sys2Proof.Machine.execTwiddleStageThreeMult n fmt twFmt s
  | .twiddleTable n twFmt => Sys2Proof.Machine.execTwiddleTable n twFmt s
  | .serialBitExchange j k fmt lanes => Sys2Proof.Machine.execSerialBitExchange j k fmt lanes s
  | .serialBitReversal n fmt lanes => Sys2Proof.Machine.execSerialBitReversal n fmt lanes s
  | .serialFFT n fmtIn bitrev twFmt variant skid => Sys2Proof.Machine.execSerialFft n fmtIn bitrev twFmt variant skid s

end Sys2Proof.Machine
end

