-- ==== Sys2Proof/Machine/Step.lean ====
section
/-! DEFINITION. The step of the machine. While the configuration program is not empty, a step takes its next
operation and runs it; once it is empty, a step is one tick of the global clock (`00_scope.md` R6, R9;
assumption log entry 2). -/

namespace Sys2Proof.Machine

/-- One step. -/
def step (s : State) : Host.Outcome State Fault Refusal :=
  match fetch s with
  | none => .next (tick s)
  | some (.ok (i, rest)) => exec i (s.setProgram rest)
  | some (.error e) => .refused (refuseBytes e)

/-- The operation of a table word, placed at the head of the configuration program. -/
def State.withFetchWord (s : State) (nbits w : Nat) : State := s.setProgram (fetchBytes nbits w ++ s.program)

end Sys2Proof.Machine
end

