-- ==== Sys2Proof/Safety.lean ====
section
/-! DEFINITION. What a good state and a good run are, in the terms the statements use: the invariant every
step keeps; runs, and the sequences of payloads they transfer on the two boundary links (`00_scope.md`
R10); the stream function the spec gives each stage (`42_stream_skid_delay.md` R127), written from the
stage rules' "Stream function" sentences and not from the per-tick rules. -/

namespace Sys2Proof.Machine

/-! ### The invariant -/

/-- A lane of a `PipeReg`'s function reads lanes that are there, its constants are values of their formats, it
negates signed values only and chooses between values of one format. -/
def LaneExpr.legal (l : LinkFmt) : LaneExpr → Bool
  | .inRe => true
  | .inIm => l.lanes == 2
  | .const v => v.legal
  | .add a b => a.legal l && b.legal l
  | .sub a b => a.legal l && b.legal l
  | .mul a b => a.legal l && b.legal l
  | .reshape a p => a.legal l && p.legal
  | .rshift a _ => a.legal l
  | .neg a => a.legal l && (a.resultFmt l.fmt).signed
  | .select s _ a b => s.legal l && a.legal l && b.legal l && a.resultFmt l.fmt == b.resultFmt l.fmt

/-- A `PipeReg`'s function has legal links and legal lanes, whose format and number are the output link's; the
identity has one link type. -/
def PipeFn.legal (g : PipeFn) : Bool :=
  g.inLink.legal && g.outLink.legal && match g.g with
    | none => g.outLink == g.inLink
    | some c => c.re.legal g.inLink && g.outLink.fmt == c.re.resultFmt g.inLink.fmt && match c.im with
      | none => g.outLink.lanes == 1
      | some im => im.legal g.inLink && g.outLink.fmt == im.resultFmt g.inLink.fmt && g.outLink.lanes == 2

/-- The structural parameters of a stage lie in their domains (`00_scope.md` R11). -/
def Stage.shaped : Stage → Prop
  | .skidBuffer l _ _ => l.legal = true
  | .streamDelay _ l _ => l.legal = true
  | .pipeReg g _ => g.legal = true
  | .integrator a b _ => a.legal = true ∧ b.legal = true ∧ a.lanes = b.lanes
  | .comb a b m _ => a.legal = true ∧ b.legal = true ∧ a.lanes = b.lanes ∧ 1 ≤ m
  | .upsampler r l _ => l.legal = true ∧ 1 ≤ r
  | .downsampler r l _ => l.legal = true ∧ 1 ≤ r
  | .requant _ a b => a.legal = true ∧ b.legal = true ∧ a.lanes = b.lanes
  | .sdfRadix2 log fmt _ _ => 1 ≤ log ∧ fmt.legal = true ∧ fmt.signed = true
  | .r22Twiddle log fmt _ => 2 ≤ log ∧ fmt.legal = true ∧ fmt.signed = true
  | .twiddleDirect log fmt tw table _ => 2 ≤ log ∧ fmt.legal = true ∧ fmt.signed = true ∧ tw.signed = true ∧
      2 ≤ tw.i ∧ table = twiddleList log tw.f
  | .twiddleThreeMult log fmt tw table _ _ _ _ => 2 ≤ log ∧ fmt.legal = true ∧ fmt.signed = true ∧
      tw.signed = true ∧ 2 ≤ tw.i ∧ table = twiddleList log tw.f
  | .bitExchange j k l _ _ => k < j ∧ l.legal = true

/-- The invariant of a butterfly's counter and feedback delay of `h` entries (`45_fft_stages.md` R205): in
feed mode the entries behind the `c` raw inputs already written are differences or reset entries, in
combine mode the entries behind the `c - h` differences already written are raw inputs. -/
def feedbackTagged (h c : Nat) (d : List TaggedEntry) : Prop :=
  ∀ i < h,
    (c < h → i < c → (d.getD i TaggedEntry.empty).valid = true ∧ (d.getD i TaggedEntry.empty).tag = false) ∧
    (c < h → c ≤ i → (d.getD i TaggedEntry.empty).valid = true → (d.getD i TaggedEntry.empty).tag = true) ∧
    (h ≤ c → i < c - h → (d.getD i TaggedEntry.empty).valid = true ∧ (d.getD i TaggedEntry.empty).tag = true) ∧
    (h ≤ c → c - h ≤ i → (d.getD i TaggedEntry.empty).valid = true ∧ (d.getD i TaggedEntry.empty).tag = false)

/-- The registers of a stage hold values of their widths, its counter is below its modulus
(`10_state.md` R39), its delay line has its depth, and a butterfly's tags are right. -/
def Stage.registered : Stage → Prop
  | .skidBuffer l _ buf => l.holds buf = true
  | .streamDelay depth l d => d.length = depth ∧ ∀ e ∈ d, l.holds e.payload = true
  | .pipeReg g reg => g.outLink.holds reg.p = true
  | .integrator _ b acc => b.holds acc = true
  | .comb a _ m d => d.length = m ∧ ∀ x ∈ d, a.holds x = true
  | .upsampler r _ c => c < r
  | .downsampler r _ c => c < r
  | .requant _ _ _ => True
  | .sdfRadix2 log fmt c d => c < 2 ^ log ∧ d.length = 2 ^ (log - 1) ∧
      (∀ e ∈ d, (LinkFmt.mk fmt.grow 2).holds e.payload = true ∧
        (e.tag = false → (LinkFmt.mk fmt 2).holds e.payload = true)) ∧
      feedbackTagged (2 ^ (log - 1)) c d
  | .r22Twiddle log _ c => c < 2 ^ log
  | .twiddleDirect log _ _ _ c => c < 2 ^ log
  | .twiddleThreeMult log fmt tw _ c s1 s2 s3 => c < 2 ^ log ∧
      fmt.holds s1.p.b = true ∧ tw.holds s1.p.tc = true ∧ tw.holds s1.p.td = true ∧ (Fmt.sum tw tw).holds s1.p.u1 = true ∧
      (Fmt.sum fmt fmt).holds s1.p.u2 = true ∧ (Fmt.sum fmt fmt).holds s1.p.u3 = true ∧
      (Fmt.product fmt (Fmt.sum tw tw)).holds s2.p.p1 = true ∧
      (Fmt.product tw (Fmt.sum fmt fmt)).holds s2.p.p2 = true ∧
      (Fmt.product tw (Fmt.sum fmt fmt)).holds s2.p.p3 = true ∧
      (LinkFmt.mk fmt 2).holds s3.p = true
  | .bitExchange j k l c d => c < 2 ^ (j + 1) ∧ d.length = exchangeDepth j k ∧ ∀ e ∈ d, l.holds e.payload = true

/-- Every stage's input link is its producer's output link (`30_encoding.md` R60). -/
def chainJoined : LinkFmt → List Stage → Prop
  | _, [] => True
  | l, st :: rest => st.inLink = l ∧ chainJoined st.outLink rest

/-- A pipeline of good stages, joined. -/
def Pipeline.Inv (p : Pipeline) : Prop :=
  p.inLink.legal = true ∧ chainJoined p.inLink p.stages ∧ ∀ st ∈ p.stages, st.shaped ∧ st.registered

/-- A free-standing delay has its depth, and its entries are entries of its type. -/
def DelayUnit.Inv (u : DelayUnit) : Prop :=
  u.entry.link.legal = true ∧ u.d.length = u.depth ∧ ∀ e ∈ u.d, u.entry.normalize e = e

/-- A result is a value of its format (`40_fixed_point.md` R71). -/
def Result.Inv : Result → Prop
  | .none => True
  | .value v => v.legal = true
  | .complex x => x.legal = true
  | .growth _ => True
  | .truncation _ => True
  | .table t => ∀ x ∈ t, x.legal = true

/-- The invariant of the machine. -/
def State.Inv (s : State) : Prop :=
  (∀ p, s.pipeline = some p → p.Inv) ∧ (∀ u ∈ s.delays, u.Inv) ∧ s.trace.length = s.ticks ∧ s.result.Inv

/-! ### Runs -/

/-- `n` ticks in a row. -/
def ticks : Nat → State → State
  | 0, s => s
  | n + 1, s => ticks n (tick s)

/-- `n` steps in a row, stopped by the first that stops. -/
def run : Nat → State → Outcome
  | 0, s => .next s
  | n + 1, s =>
    match step s with
    | .next t => run n t
    | .fault f => .fault f
    | .refused r => .refused r

/-- The payload of a link's transfer in a tick, if there was one (`42_stream_skid_delay.md` R122). -/
def LinkSignals.transfer (l : LinkSignals) : Option Payload := if consume l.valid l.ready then some l.payload else none

/-- The payload transferred on the input link in a recorded tick. -/
def TickRecord.taken (r : TickRecord) : Option Payload := r.boundary.bind fun b => b.input.transfer

/-- The payload transferred on the output link in a recorded tick. -/
def TickRecord.given (r : TickRecord) : Option Payload := r.boundary.bind fun b => b.output.transfer

/-- The sequence of payloads transferred on the input link since reset, earliest first. -/
def State.inputs (s : State) : List Payload := s.trace.reverse.filterMap TickRecord.taken

/-- The sequence of payloads transferred on the output link since reset, earliest first. -/
def State.outputs (s : State) : List Payload := s.trace.reverse.filterMap TickRecord.given

/-- The state in which a unit has just been built and no tick has happened, whatever the environment will
drive. -/
def started (p : Pipeline) (env : List EnvTick) : State := { State.reset with pipeline := some p, env := env }

/-- Every register of the unit has its reset value (`10_state.md` R34). -/
def Pipeline.fresh (p : Pipeline) : Prop := ∀ st ∈ p.stages, st.cleared = st

/-- A unit joined to what is already built. -/
def State.withUnit (s : State) (u : Pipeline) : State :=
  s.setPipeline (match s.pipeline with
    | none => u
    | some p => ⟨p.inLink, p.stages ++ u.stages⟩)

/-- No tick has happened, and the unit's input link is the one left open by what is already built. -/
def State.accepts (s : State) (l : LinkFmt) : Prop := s.ticks = 0 ∧ (s.openLink = none ∨ s.openLink = some l)

/-- As `accepts`, for a CIC stage, which takes the label of the link it is fed by and labels a first link with
no fraction bits (assumption log entry 10). -/
def State.acceptsLanes (s : State) (l : LinkFmt) : Prop :=
  s.ticks = 0 ∧ (s.openLink = some l ∨ (s.openLink = none ∧ l.fmt.f = 0))

/-- The step from `s` is a tick in which the unit, a single stage, shows `ready` on its input link and `valid`
on its output link, with `payload` if valid, and becomes the stage `after`; nothing else of the machine
changes but the environment's list, the tick count, the trace and the free-standing delays. -/
def StageTick (s : State) (ready valid : Bool) (payload : Payload) (after : Stage) : Prop :=
  ∃ t b d, step s = .next t ∧ t.pipeline = some ⟨after.inLink, [after]⟩ ∧ t.trace = ⟨some b, d⟩ :: s.trace ∧
    b.input.ready = ready ∧ b.output.valid = valid ∧ (valid = true → b.output.payload = payload) ∧
    b.input.valid = s.drive.valid ∧ b.output.ready = s.drive.ready ∧
    t.program = s.program ∧ t.env = s.env.tail ∧ t.ticks = s.ticks + 1 ∧ t.result = s.result

/-- The payload the environment's wires carry in the coming tick. -/
def State.offered (s : State) (l : LinkFmt) : Payload := l.clip s.drive.payload

/-- The machine is configured, and its unit is this single stage. -/
def State.runs (s : State) (st : Stage) : Prop := s.program = [] ∧ s.pipeline = some ⟨st.inLink, [st]⟩

/-! ### Stream functions -/

/-- Sample `q` of a sequence. -/
def sample (x : List Payload) (q : Nat) : Payload := x.getD q Payload.zero

/-- Sample `q - m`, zero before the first (`43_cic_stages.md` R152). -/
def sampleBefore (x : List Payload) (q m : Nat) : Payload := if m ≤ q then sample x (q - m) else Payload.zero

/-- The lane sums of the samples `0, ..., q`. -/
def sumUpTo (x : List Payload) (q : Nat) : Payload :=
  ⟨((x.take (q + 1)).map Payload.re).sum, ((x.take (q + 1)).map Payload.im).sum⟩

/-- The butterfly's output `y[q]`, exact (`45_fft_stages.md` R204), `n = 2*h`. -/
def butterflySample (h : Nat) (x : List Payload) (q : Nat) : Payload :=
  let m := q / (2 * h) * (2 * h)
  let i := q % (2 * h)
  if i < h then Payload.map2 (· + ·) (sample x (m + i)) (sample x (m + h + i))
  else Payload.map2 (· - ·) (sample x (m + (i - h))) (sample x (m + i))

/-- `-j` times a sample, the negated lane wrapped (`41_complex.md` R108). -/
def quarterTurn (fmt : Fmt) (x : Payload) : Payload := ⟨x.im, fmt.wrap (-x.re)⟩

/-- The rotation by a twiddle factor in exact integers, then the reshape to the sample's format
(`45_fft_stages.md` R213): `(a + jb)(c + jd) = (ac - bd) + j(ad + bc)`. -/
def turn (fmt tw : Fmt) (t x : Payload) : Payload :=
  ⟨fmt.wrap ((x.re * t.re - x.im * t.im) / pow2 tw.f), fmt.wrap ((x.re * t.im + x.im * t.re) / pow2 tw.f)⟩

/-- `swap_jk(q)`: bits `j` and `k` exchanged (`46_bit_reversal.md` R234). -/
def swapBits (j k q : Nat) : Nat :=
  if Nat.testBit q j = Nat.testBit q k then q
  else if Nat.testBit q j then q - 2 ^ j + 2 ^ k
  else q + 2 ^ j - 2 ^ k

/-- The stream function `F` of a stage: what it must give for the whole sequence it has taken. -/
def Stage.stream : Stage → List Payload → List Payload
  | .skidBuffer _ _ _, x => x
  | .streamDelay _ _ _, x => x
  | .pipeReg g _, x => x.map g.apply
  | .integrator _ b _, x => (List.range x.length).map fun q => Payload.map (wrapS b.fmt.width) (sumUpTo x q)
  | .comb _ b m _, x => (List.range x.length).map fun q =>
      Payload.map2 (fun u v => wrapS b.fmt.width (u - v)) (sample x q) (sampleBefore x q m)
  | .upsampler r _ _, x => x.flatMap fun v => v :: List.replicate (r - 1) Payload.zero
  | .downsampler r _ _, x => (List.range ((x.length + r - 1) / r)).map fun q => sample x (q * r)
  | .requant k _ b, x => x.map (Payload.map fun v => wrapS b.fmt.width (v / pow2 k))
  | .sdfRadix2 log _ _ _, x =>
    (List.range (x.length - 2 ^ (log - 1))).map fun q => butterflySample (2 ^ (log - 1)) x q
  | .r22Twiddle log fmt _, x => (List.range x.length).map fun q =>
      if 3 * 2 ^ log ≤ 4 * (q % 2 ^ log) then quarterTurn fmt (sample x q) else sample x q
  | .twiddleDirect log fmt tw table _, x => (List.range x.length).map fun q =>
      turn fmt tw (table.getD (q % 2 ^ log) Payload.zero) (sample x q)
  | .twiddleThreeMult log fmt tw table _ _ _ _, x => (List.range x.length).map fun q =>
      turn fmt tw (table.getD (q % 2 ^ log) Payload.zero) (sample x q)
  | .bitExchange j k _ _ _, x => (List.range (x.length - (2 ^ j - 2 ^ k))).map fun q => sample x (swapBits j k q)

/-- The stream function of a chain: the composition (`42_stream_skid_delay.md` R127). -/
def chainStream : List Stage → List Payload → List Payload
  | [], x => x
  | st :: rest, x => chainStream rest (st.stream x)

/-- What a stage has taken and not yet given, of what is due: the elements its registers hold, the earliest
first. -/
def Stage.held : Stage → List Payload
  | .skidBuffer _ armed buf => if armed then [buf] else []
  | .streamDelay _ _ d => (d.reverse.filter Slot.valid).map Slot.payload
  | .pipeReg _ reg => if reg.v then [reg.p] else []
  | .upsampler r _ c => if c = 0 then [] else List.replicate (r - c) Payload.zero
  | .twiddleThreeMult _ fmt tw _ _ s1 s2 s3 =>
    (if s3.v then [s3.p] else []) ++ (if s2.v then [rotatedRecord fmt tw s2.p] else [])
      ++ (if s1.v then [rotatedRecord fmt tw (productRecord fmt tw s1.p)] else [])
  | .integrator _ _ _ => []
  | .comb _ _ _ _ => []
  | .downsampler _ _ _ => []
  | .requant _ _ _ => []
  | .sdfRadix2 _ _ _ _ => []
  | .r22Twiddle _ _ _ => []
  | .twiddleDirect _ _ _ _ _ => []
  | .bitExchange _ _ _ _ _ => []

/-- Every link of a chain has carried what it should: what the first stage has given and what it still holds are
its stream function of what it has taken, and so on behind it; `x` has entered the chain and `y` has left
it. -/
def accountsFor : List Stage → (x y : List Payload) → Prop
  | [], x, y => y = x
  | st :: rest, x, y => ∃ z, z ++ st.held = st.stream x ∧ accountsFor rest z y

/-- The stages that give what is due on the tick that makes it due: those with no register between their two
links. -/
def Stage.immediate : Stage → Bool
  | .skidBuffer _ _ _ => false
  | .streamDelay depth _ _ => depth == 0
  | .pipeReg _ _ => false
  | .upsampler r _ _ => r == 1
  | .twiddleThreeMult _ _ _ _ _ _ _ _ => false
  | .integrator _ _ _ => true
  | .comb _ _ _ _ => true
  | .downsampler _ _ _ => true
  | .requant _ _ _ => true
  | .sdfRadix2 _ _ _ _ => true
  | .r22Twiddle _ _ _ => true
  | .twiddleDirect _ _ _ _ _ => true
  | .bitExchange _ _ _ _ _ => true

/-! ### Written forms -/

/-- A lane of a `PipeReg`'s function as it is written. -/
def LaneExpr.param : LaneExpr → LaneExprParam
  | .inRe => .inRe
  | .inIm => .inIm
  | .const v => .const v.param
  | .add a b => .add a.param b.param
  | .sub a b => .sub a.param b.param
  | .mul a b => .mul a.param b.param
  | .reshape a p => .reshape a.param p.param .truncate
  | .rshift a n => .rshift a.param n
  | .neg a => .neg a.param
  | .select s bit a b => .select s.param bit a.param b.param

/-- A `PipeReg`'s function as it is written. -/
def PipeFn.param (g : PipeFn) : PipeFnParam :=
  ⟨g.inLink.fmt.param, g.inLink.lanes, g.g.map fun c => ⟨c.re.param, c.im.map LaneExpr.param⟩⟩

/-! ### Composition of the transform -/

/-- The builder's loop of `47_serial_fft.md` R246, with the remaining size as a number; `fuel` bounds the
number of turns. -/
def transformLoop (f : Nat) (tw : Fmt) (variant : TwVariant) (skid : Bool) : (fuel rem ig : Nat) → List Stage
  | 0, _, _ => []
  | fuel + 1, rem, ig =>
    if 4 ≤ rem then
      [freshSdf (Nat.log2 rem) ⟨ig, f, true⟩, .r22Twiddle (Nat.log2 rem) ⟨ig + 1, f, true⟩ 0,
        freshSdf (Nat.log2 (rem / 2)) ⟨ig + 1, f, true⟩]
      ++ (if 4 < rem then
          [match variant with
            | .direct => freshTwiddleDirect (Nat.log2 rem) ⟨ig + 2, f, true⟩ tw
            | .threeMult => freshTwiddleThreeMult (Nat.log2 rem) ⟨ig + 2, f, true⟩ tw]
          ++ (if skid then [.skidBuffer ⟨⟨ig + 2, f, true⟩, 2⟩ false Payload.zero] else [])
        else [])
      ++ transformLoop f tw variant skid fuel (rem / 4) (ig + 2)
    else if rem = 2 then [freshSdf 1 ⟨ig, f, true⟩]
    else []

/-! ### Sequences of lanes -/

/-- The running sum of a sequence. -/
def runningSum (x : List Int) : List Int := (List.range x.length).map fun q => (x.take (q + 1)).sum

/-- `(1 - z^-m) x` with zero history. -/
def difference (m : Nat) (x : List Int) : List Int :=
  (List.range x.length).map fun q => x.getD q 0 - (if m ≤ q then x.getD (q - m) 0 else 0)

/-- Samples `0, r, 2r, ...`. -/
def everyNth (r : Nat) (x : List Int) : List Int := (List.range ((x.length + r - 1) / r)).map fun q => x.getD (q * r) 0

/-- `r - 1` zeros after every sample. -/
def zeroStuffed (r : Nat) (x : List Int) : List Int := x.flatMap fun v => v :: List.replicate (r - 1) 0

/-! ### Sizing -/

/-- The least natural number with a property. -/
def LeastNat (P : Nat → Prop) (k : Nat) : Prop := P k ∧ ∀ k', P k' → k ≤ k'

/-- `growth(j)` as the spec defines it, in exact integers (`44_cic_sizing_filters.md` R171). -/
def IsGrowth (n r m j g : Nat) : Prop :=
  (j ≤ n → g = j) ∧ (n < j → LeastNat (fun k => 2 ^ (2 * n - j) * (r * m) ^ (j - n) ≤ 2 ^ k * r) g)

/-- `h_j(k)` with the binomial coefficient of the library (`44_cic_sizing_filters.md` R176). -/
def impulseResponse (n rm j k : Nat) : Int :=
  if j ≤ n then
    ((List.range (k / rm + 1)).map fun l =>
      (-1) ^ l * ((n.choose l : Int) * ((n - j + (k - rm * l)).choose (k - rm * l) : Int))).sum
  else (-1) ^ k * ((2 * n + 1 - j).choose k : Int)

/-- `F_j^2` (`44_cic_sizing_filters.md` R176). -/
def noiseVariance (n rm j : Nat) : Int :=
  ((List.range ((if j ≤ n then n * (rm - 1) + j - 1 else 2 * n + 1 - j) + 1)).map fun k =>
    impulseResponse n rm j k ^ 2).sum

/-- `Bc_0, ..., Bc_2N` from the counts `B_1, ...`: the running maximum (`44_cic_sizing_filters.md` R179). -/
def cumulative (b : Nat → Nat) : Nat → Nat
  | 0 => 0
  | j + 1 => max (cumulative b j) (b (j + 1))

/-- What `cic_truncation` must compute (`44_cic_sizing_filters.md` R175 to R179, followed where R180 and R184
disagree with them: assumption log entries 22 and 23), entry `j - 1` of each list being that of stage `j`. -/
structure TruncationRules (n r m wIn : Nat) (widthOut : Option Nat) (t : Truncation) : Prop where
  full : LeastNat (fun k => (r * m) ^ n ≤ 2 ^ k) (t.fullWidth - wIn) ∧ wIn ≤ t.fullWidth
  out : t.widthOut = widthOut.getD t.fullWidth
  last : t.bLast = t.fullWidth - t.widthOut
  lengths : t.noise.length = 2 * n ∧ t.k.length = 2 * n ∧ t.bCalc.length = 2 * n ∧ t.b.length = 2 * n ∧
    t.bc.length = 2 * n ∧ t.shifts.length = 2 * n ∧ t.widths.length = 2 * n
  noise : ∀ j, 1 ≤ j → j ≤ 2 * n → (t.noise.getD (j - 1) 0 : Int) = noiseVariance n (r * m) j
  least : ∀ j, 1 ≤ j → j ≤ 2 * n →
    LeastNat (fun k => 2 * n * t.noise.getD (j - 1) 0 ≤ 4 ^ k) (t.k.getD (j - 1) 0)
  calc_ : ∀ j, 1 ≤ j → j ≤ 2 * n → t.bCalc.getD (j - 1) 0 = t.bLast - t.k.getD (j - 1) 0
  first : t.b.getD 0 0 = 0
  counts : ∀ j, 2 ≤ j → j ≤ 2 * n → t.b.getD (j - 1) 0 = t.bCalc.getD (j - 1) 0
  running : ∀ j, 1 ≤ j → j ≤ 2 * n → t.bc.getD (j - 1) 0 = cumulative (fun i => t.b.getD (i - 1) 0) j
  shift : ∀ j, 1 ≤ j → j ≤ 2 * n → t.shifts.getD (j - 1) 0 =
    cumulative (fun i => t.b.getD (i - 1) 0) j - cumulative (fun i => t.b.getD (i - 1) 0) (j - 1)
  width : ∀ j, 1 ≤ j → j ≤ 2 * n → t.widths.getD (j - 1) 0 = t.fullWidth - t.bc.getD (j - 1) 0
  lastShift : t.sOut = t.bLast - cumulative (fun i => t.b.getD (i - 1) 0) (2 * n)

end Sys2Proof.Machine
end

