-- ==== Sys2Proof/WellFormed.lean ====
section
/-! DEFINITION. Which operations lie in the parameter domains of `00_scope.md` R11: "A value outside its
domain is a configuration error". This says the domain only; which `ConfigError` an operation outside it
raises, and which of several first, is `Machine/Operands.lean` and the constructors (`60_exceptions.md`
R262, R263). What depends on the link an operation is joined to (`FormatMismatch`, an FFT stage fed by a
real link) is no matter of its own parameters and is not here. -/

namespace Sys2Proof

/-- A legal format (`40_fixed_point.md` R70): no negative bit count, at least one bit, a sign bit if
signed. -/
def FormatParam.wellFormed (p : FormatParam) : Bool :=
  0 ≤ p.i && 0 ≤ p.f && 1 ≤ p.i + p.f && (!p.signed || 1 ≤ p.i)

/-- A legal payload format: legal and signed (`42_stream_skid_delay.md` R121). -/
def FormatParam.payloadFormed (p : FormatParam) : Bool := p.wellFormed && p.signed

/-- A legal twiddle format: signed with `i_t >= 2` (`45_fft_stages.md` R212). -/
def FormatParam.twiddleFormed (p : FormatParam) : Bool := p.payloadFormed && 2 ≤ p.i

/-- `raw` is an element of `range(fmt)` (`00_scope.md` R13). -/
def FormatParam.holds (p : FormatParam) (raw : Int) : Bool :=
  let w := (p.i + p.f).toNat
  if p.signed then -(Machine.pow2 (w - 1)) ≤ raw && raw < Machine.pow2 (w - 1)
  else 0 ≤ raw && raw < Machine.pow2 w

def ValueParam.wellFormed (v : ValueParam) : Bool := v.fmt.wellFormed && v.fmt.holds v.raw

def ComplexParam.wellFormed (x : ComplexParam) : Bool :=
  x.fmt.wellFormed && x.fmt.holds x.re && x.fmt.holds x.im

/-- The one rounding policy (`40_fixed_point.md` R81). -/
def Rounding.wellFormed : Rounding → Bool
  | .truncate => true
  | .other _ => false

/-- The one delay implementation (`42_stream_skid_delay.md` R133). -/
def DelayImpl.wellFormed : DelayImpl → Bool
  | .shiftRegister => true
  | .fifo => false

/-- 1 (real sample) or 2 (complex sample) (`00_scope.md` R11). -/
def lanesFormed (lanes : Int) : Bool := lanes == 1 || lanes == 2

/-- A power of two, at least `least` (`60_exceptions.md` R262, `NotPowerOfTwo`). -/
def sizeFormed (least n : Int) : Bool := least ≤ n && Machine.isPow2 n.toNat

def EntryTypeParam.wellFormed (e : EntryTypeParam) : Bool := e.fmt.payloadFormed && lanesFormed e.lanes

/-- The format of a lane of a `PipeReg`'s function on a payload of format `fmt` with `lanes` lanes, where every
part of it is legal (the formats of `40_fixed_point.md` R83). -/
def LaneExprParam.resultFormat (lanes : Int) (fmt : FormatParam) : LaneExprParam → Option FormatParam
  | .inRe => some fmt
  | .inIm => if lanes == 2 then some fmt else none
  | .const v => if v.wellFormed then some v.fmt else none
  | .add a b => (a.resultFormat lanes fmt).bind fun p => (b.resultFormat lanes fmt).map fun q =>
      ⟨max p.i q.i + 1, max p.f q.f, p.signed || q.signed⟩
  | .sub a b => (a.resultFormat lanes fmt).bind fun p => (b.resultFormat lanes fmt).map fun q =>
      ⟨max p.i q.i + 1, max p.f q.f, p.signed || q.signed⟩
  | .mul a b => (a.resultFormat lanes fmt).bind fun p => (b.resultFormat lanes fmt).map fun q =>
      ⟨p.i + q.i, p.f + q.f, p.signed || q.signed⟩
  | .reshape a p rounding => (a.resultFormat lanes fmt).bind fun _ =>
      if p.wellFormed && rounding.wellFormed then some p else none
  | .rshift a n => (a.resultFormat lanes fmt).bind fun p => if 0 ≤ n then some p else none
  | .neg a => (a.resultFormat lanes fmt).bind fun p => if p.signed then some p else none
  | .select s _ a b => (s.resultFormat lanes fmt).bind fun _ => (a.resultFormat lanes fmt).bind fun p =>
      (b.resultFormat lanes fmt).bind fun q => if p == q then some p else none

/-- Legal lanes of one signed format. -/
def CombFnParam.wellFormed (lanes : Int) (fmt : FormatParam) (c : CombFnParam) : Bool :=
  match c.re.resultFormat lanes fmt with
  | none => false
  | some p => p.signed && match c.im with
    | none => true
    | some im => im.resultFormat lanes fmt == some p

def PipeFnParam.wellFormed (g : PipeFnParam) : Bool :=
  g.fmt.payloadFormed && lanesFormed g.lanes &&
    match g.g with
    | none => true
    | some c => c.wellFormed g.lanes g.fmt

/-- `1 <= width_out <= full_width`, or absent (`00_scope.md` R11). -/
def widthOutFormed (fullWidth : Int) : Option Int → Bool
  | none => true
  | some w => 1 ≤ w && w ≤ fullWidth

/-- The OPEN output label of a CIC filter: "any signed format of total width `width_out`", or absent
(`44_cic_sizing_filters.md` R186). -/
def outFmtFormed (width : Int) : Option FormatParam → Bool
  | none => true
  | some p => p.payloadFormed && p.i + p.f == width

/-- `full_width` of the decimator (`44_cic_sizing_filters.md` R175). -/
def fullWidthDown (n r m wIn : Int) : Int := wIn + Machine.clog2 ((r * m).toNat ^ n.toNat)

/-- `full_width_up` of the interpolator (`44_cic_sizing_filters.md` R171). -/
def fullWidthUp (n r m wIn : Int) : Int := wIn + Machine.clog2Ratio ((r * m).toNat ^ n.toNat) r.toNat

/-- The parameters of an operation lie in the domains of `00_scope.md` R11 and of the operation's own
rule. -/
def Instr.wellFormed : Instr → Bool
  | .fixedPointConst fmt raw => fmt.wellFormed && fmt.holds raw
  | .add a b => a.wellFormed && b.wellFormed
  | .sub a b => a.wellFormed && b.wellFormed
  | .mul a b => a.wellFormed && b.wellFormed
  | .reshape v newFormat rounding => v.wellFormed && newFormat.wellFormed && rounding.wellFormed
  | .rshift v n => v.wellFormed && 0 ≤ n
  | .neg v => v.wellFormed && v.fmt.signed
  | .complex re im => re.wellFormed && im.wellFormed && re.fmt == im.fmt
  | .cAdd x y => x.wellFormed && y.wellFormed
  | .cSub x y => x.wellFormed && y.wellFormed
  | .cMul x y => x.wellFormed && y.wellFormed
  | .cMul3 x t => x.wellFormed && t.wellFormed
  | .cScale x k => x.wellFormed && k.wellFormed
  | .cRshift x n => x.wellFormed && 0 ≤ n
  | .cReshape x fmt rounding => x.wellFormed && fmt.wellFormed && rounding.wellFormed
  | .cMulnegj x => x.wellFormed && x.fmt.signed
  | .skidBuffer fmt lanes => fmt.payloadFormed && lanesFormed lanes
  | .delay depth entry impl => 0 ≤ depth && entry.wellFormed && impl.wellFormed
  | .streamDelay depth fmt lanes impl => 0 ≤ depth && fmt.payloadFormed && lanesFormed lanes && impl.wellFormed
  | .pipeReg g => g.wellFormed
  | .integrator wIn w lanes => 1 ≤ wIn && 1 ≤ w && lanesFormed lanes
  | .comb wIn m wOut lanes => 1 ≤ wIn && 1 ≤ m && 1 ≤ wOut.getD (wIn + 1) && lanesFormed lanes
  | .upsampler r w lanes => 1 ≤ r && 1 ≤ w && lanesFormed lanes
  | .downsampler r w lanes => 1 ≤ r && 1 ≤ w && lanesFormed lanes
  | .requant k wIn wOut lanes => 0 ≤ k && 1 ≤ wIn && 1 ≤ wOut && lanesFormed lanes
  | .cicGrowth n r m => 1 ≤ n && 1 ≤ r && 1 ≤ m
  | .cicTruncation n r m wIn widthOut =>
    1 ≤ n && 1 ≤ r && 1 ≤ m && 1 ≤ wIn && widthOutFormed (fullWidthDown n r m wIn) widthOut
  | .cicUpsamplingFilter n r m fmtIn lanes widthOut outFmt =>
    1 ≤ n && 1 ≤ r && 1 ≤ m && fmtIn.payloadFormed && lanesFormed lanes &&
      widthOutFormed (fullWidthUp n r m (fmtIn.i + fmtIn.f)) widthOut &&
      outFmtFormed (widthOut.getD (fullWidthUp n r m (fmtIn.i + fmtIn.f))) outFmt
  | .cicDownsamplingFilter n r m fmtIn lanes widthOut outFmt =>
    1 ≤ n && 1 ≤ r && 1 ≤ m && fmtIn.payloadFormed && lanesFormed lanes &&
      widthOutFormed (fullWidthDown n r m (fmtIn.i + fmtIn.f)) widthOut &&
      outFmtFormed (widthOut.getD (fullWidthDown n r m (fmtIn.i + fmtIn.f))) outFmt
  | .sdfRadix2Stage n fmtIn => sizeFormed 2 n && fmtIn.payloadFormed
  | .r22TwiddleStage n fmt => sizeFormed 4 n && fmt.payloadFormed
  | .twiddleStageDirect n fmt twFmt => sizeFormed 4 n && fmt.payloadFormed && twFmt.twiddleFormed
  | .twiddleStageThreeMult n fmt twFmt => sizeFormed 4 n && fmt.payloadFormed && twFmt.twiddleFormed
  | .twiddleTable n twFmt => sizeFormed 4 n && twFmt.twiddleFormed
  | .serialBitExchange j k fmt lanes => k < j && 0 ≤ k && fmt.payloadFormed && lanesFormed lanes
  | .serialBitReversal n fmt lanes => sizeFormed 2 n && fmt.payloadFormed && lanesFormed lanes
  | .serialFFT n fmtIn _ twFmt _ _ => sizeFormed 2 n && fmtIn.payloadFormed && (n < 8 || twFmt.twiddleFormed)

end Sys2Proof
end

