-- ==== Sys2Proof/Certificates/Slice0/Obligations.lean ====
section
/-! DEFINITION. The statements for the provers, one `def Obligations.<Name> : Prop` each. A docstring says
which rule of spec/ a statement formalises, or that it is about a choice of the model's and which log
entry holds it. -/

open Sys2Proof Sys2Proof.Machine

/-! ### Encoding and the step -/

/-- Decode and encode agree: the bytes of any operation, with every operand at every value, decode to it
and leave the bytes after it. The operand bytes are the model's own (log 1); the selector is
`30_encoding.md` R56's. -/
def Obligations.DecodeReadsEncode : Prop :=
  ∀ (i : Instr) (rest : List Byte), decode (encode i ++ rest) = .ok (i, rest)

/-- An operation has one spelling: what decodes to `i` is the bytes of `i` and what follows (log 1). -/
def Obligations.EncodingIsUnique : Prop :=
  ∀ (bytes rest : List Byte) (i : Instr), decode bytes = .ok (i, rest) → bytes = encode i ++ rest

/-- A byte that is no selector of the table of R56 is "no such operation" (R57), whatever follows it; the
step stops with that refusal, by number. -/
def Obligations.UnknownSelectorIsRefused : Prop :=
  ∀ (s : State) (b : Byte) (bs : List Byte), s.program = b :: bs →
    b.toNat ∉ [0x00, 0x01, 0x02, 0x03, 0x04, 0x05, 0x06, 0x10, 0x11, 0x12, 0x13, 0x14, 0x15, 0x16, 0x17, 0x18,
      0x20, 0x21, 0x22, 0x23, 0x30, 0x31, 0x32, 0x33, 0x34, 0x38, 0x39, 0x3A, 0x3B, 0x40, 0x41, 0x42, 0x43, 0x44,
      0x50, 0x51, 0x60] →
    step s = .refused (.noSuchOperation b.toNat)

/-- Sanity: one operation of each family, its bytes written out from the selectors of R56 and the operand
form of log 1. -/
def Obligations.WordsDecodeToTheirRows : Prop :=
  decode [0x01, 0x06, 0x00, 0x02, 0x00, 0x09, 0x02, 0x04, 0x00] =
      .ok (.add ⟨3, ⟨2, 1, true⟩⟩ ⟨-5, ⟨3, 2, true⟩⟩, []) ∧
  decode [0x10, 0x06, 0x02, 0x00, 0x00, 0x01, 0x02, 0x00, 0x00] =
      .ok (.complex ⟨3, ⟨3, 0, true⟩⟩ ⟨-1, ⟨3, 0, true⟩⟩, []) ∧
  decode [0x20, 0x0C, 0x00, 0x00, 0x02] = .ok (.skidBuffer ⟨8, 0, true⟩ 2, []) ∧
  decode [0x30, 0x06, 0x08, 0x00] = .ok (.integrator 4 5 1, []) ∧
  decode [0x3B, 0x04, 0x08, 0x00, 0x0C, 0x00, 0x00, 0x00, 0x01, 0x0E, 0x00] =
      .ok (.cicDownsamplingFilter 3 5 1 ⟨8, 0, true⟩ 1 (some 8) none, []) ∧
  decode [0x40, 0x00, 0x04, 0x00, 0x00] = .ok (.sdfRadix2Stage 4 ⟨4, 0, true⟩, []) ∧
  decode [0x50, 0x02, 0x00, 0x0C, 0x00, 0x00, 0x00] = .ok (.serialBitExchange 2 0 ⟨8, 0, true⟩ 1, []) ∧
  decode [0x60, 0x08, 0x06, 0x08, 0x00, 0x01, 0x00, 0x10, 0x00, 0x01, 0x01] =
      .ok (.serialFFT 8 ⟨5, 4, true⟩ true ⟨2, 8, true⟩ .threeMult true, [])

/-- A step runs the decoded operation: when the program begins with the bytes of an operation, the step is
that operation's meaning on the state with those bytes taken off (log 2). -/
def Obligations.StepRunsTheDecodedOperation : Prop :=
  ∀ (s : State) (i : Instr) (rest : List Byte), s.program ≠ [] → decode s.program = .ok (i, rest) →
    step s = exec i (s.setProgram rest)

/-- A table word placed where the step fetches is the next operation run, and what was to be fetched after
it is kept. -/
def Obligations.FetchedWordRuns : Prop :=
  ∀ (s : State) (w : Nat) (i : Instr), decodeTableWord 8 w = some i → step (s.withFetchWord 8 w) = exec i s

/-- No tick raises anything (`60_exceptions.md` R265), and a configured machine only ticks (log 2). -/
def Obligations.NoTickStops : Prop :=
  ∀ (n : Nat) (s : State), s.program = [] → run n s = .next (ticks n s)

/-! ### The invariant -/

/-- The state right after reset meets the invariant. -/
def Obligations.ResetMeetsInvariant : Prop := State.reset.Inv

/-- Every step keeps the invariant: links joined (R60), counters below their moduli (R39), registers in the
range of their widths, delay lines of their depths, a butterfly's tags right (R205), results in the range
of their formats (R71). -/
def Obligations.StepKeepsInvariant : Prop :=
  ∀ s t : State, s.Inv → step s = .next t → t.Inv

/-- The butterfly's tags (`45_fft_stages.md` R205), in every state that meets the invariant: in combine mode
the emerging entry is a raw input, in feed mode it is a reset entry or a difference. The
spec derives it ("[derived: from rule R202, rule R203 and `10_state.md` rule R29 ...]"). -/
def Obligations.EmergingTagFollowsMode : Prop :=
  ∀ (s : State) (p : Pipeline) (log c : Nat) (fmt : Fmt) (d : List TaggedEntry),
    s.Inv → s.pipeline = some p → Stage.sdfRadix2 log fmt c d ∈ p.stages →
    (2 ^ (log - 1) ≤ c → (delayRead TaggedEntry.empty d).valid = true ∧ (delayRead TaggedEntry.empty d).tag = false) ∧
    (c < 2 ^ (log - 1) → (delayRead TaggedEntry.empty d).valid = true → (delayRead TaggedEntry.empty d).tag = true)

/-- A unit begins in its reset state (`10_state.md` R34): whatever operation is run, if every unit built so
far has its registers at their reset values, so has every unit after it. -/
def Obligations.ConstructionGivesResetState : Prop :=
  ∀ (i : Instr) (s t : State), exec i s = .next t → (∀ p, s.pipeline = some p → p.fresh) →
    ∀ p, t.pipeline = some p → p.fresh

/-! ### Fixed point -/

/-- The wrap of a legal format (`00_scope.md` R13) is the one element of its range that is congruent
modulo `2^(i+f)`, and is the formula of R13. -/
def Obligations.WrapIsTheRepresentative : Prop :=
  ∀ (p : Fmt) (x : Int), p.legal = true →
    p.wrap x = (if p.signed then (x + 2 ^ (p.i + p.f - 1)) % 2 ^ (p.i + p.f) - 2 ^ (p.i + p.f - 1)
      else x % 2 ^ (p.i + p.f)) ∧
    (∀ y, p.holds y = true ∧ (2 ^ (p.i + p.f) : Int) ∣ y - x ↔ y = p.wrap x)

/-- `FixedPointConst(fmt, raw)` and `Complex(re, im)` deliver what they are given (`40_fixed_point.md` R72,
`41_complex.md` R101). -/
def Obligations.ConstantsAreDelivered : Prop :=
  ∀ (s : State), (∀ v : Fx, v.legal = true →
      exec (.fixedPointConst v.fmt.param v.raw) s = .next (s.setResult (.value v))) ∧
    (∀ x : Cx, x.legal = true →
      exec (.complex x.reFx.param x.imFx.param) s = .next (s.setResult (.complex x)))

/-- `add(a, b)` and `sub(a, b)` (`40_fixed_point.md` R73, R74). -/
def Obligations.AddAndSubAlignGrowAndWrap : Prop :=
  ∀ (s : State) (a b : Fx), a.legal = true → b.legal = true →
    let p : Fmt := ⟨max a.fmt.i b.fmt.i + 1, max a.fmt.f b.fmt.f, a.fmt.signed || b.fmt.signed⟩
    let xa := a.raw * 2 ^ (p.f - a.fmt.f)
    let xb := b.raw * 2 ^ (p.f - b.fmt.f)
    exec (.add a.param b.param) s = .next (s.setResult (.value ⟨p.wrap (xa + xb), p⟩)) ∧
    exec (.sub a.param b.param) s = .next (s.setResult (.value ⟨p.wrap (xa - xb), p⟩))

/-- `mul(a, b)` (`40_fixed_point.md` R75): the exact product, in the summed format, never changed by the
wrap. -/
def Obligations.MulIsTheExactProduct : Prop :=
  ∀ (s : State) (a b : Fx), a.legal = true → b.legal = true →
    let p : Fmt := ⟨a.fmt.i + b.fmt.i, a.fmt.f + b.fmt.f, a.fmt.signed || b.fmt.signed⟩
    exec (.mul a.param b.param) s = .next (s.setResult (.value ⟨a.raw * b.raw, p⟩)) ∧
    p.wrap (a.raw * b.raw) = a.raw * b.raw

/-- `reshape(v, new_format, TRUNCATE)` (`40_fixed_point.md` R76), and the refusal of any other rounding
policy (R81). -/
def Obligations.ReshapeTruncatesAndWraps : Prop :=
  ∀ (s : State) (v : Fx) (p : Fmt), v.legal = true → p.legal = true →
    exec (.reshape v.param p.param .truncate) s = .next (s.setResult (.value
      ⟨p.wrap (if v.fmt.f ≤ p.f then v.raw * 2 ^ (p.f - v.fmt.f) else v.raw / 2 ^ (v.fmt.f - p.f)), p⟩)) ∧
    ∀ policy, exec (.reshape v.param p.param (.other policy)) s = .fault (.configError .unknownRounding)

/-- `rshift(v, n)` and `neg(v)` (`40_fixed_point.md` R77, R78), with what they refuse. -/
def Obligations.ShiftAndNegKeepTheFormat : Prop :=
  ∀ (s : State) (v : Fx), v.legal = true →
    (∀ n : Nat, exec (.rshift v.param n) s = .next (s.setResult (.value ⟨v.raw / 2 ^ n, v.fmt⟩)) ∧
      v.fmt.holds (v.raw / 2 ^ n) = true) ∧
    (∀ n : Int, n < 0 → exec (.rshift v.param n) s = .fault (.configError .badShift)) ∧
    (v.fmt.signed = true → exec (.neg v.param) s = .next (s.setResult (.value ⟨v.fmt.wrap (-v.raw), v.fmt⟩)) ∧
      v.fmt.wrap (-v.raw) = if v.raw = -(2 ^ (v.fmt.i + v.fmt.f - 1)) then v.raw else -v.raw) ∧
    (v.fmt.signed = false → exec (.neg v.param) s = .fault (.configError .unsignedPayload))

/-- When the wrap of `add`, `sub` and `mul` is the identity (`40_fixed_point.md` R79): every row of its
table, with its counterexamples, and the congruence that holds in every row. R79 is the spec's own derivation
("[derived: from rule R73, rule R74, rule R75 and `00_scope.md` rule R13]"). -/
def Obligations.WhenSumsAndProductsAreExact : Prop :=
  (∀ a b : Fx, a.legal = true → b.legal = true →
    let f := max a.fmt.f b.fmt.f
    let xa := a.raw * 2 ^ (f - a.fmt.f)
    let xb := b.raw * 2 ^ (f - b.fmt.f)
    let w := max a.fmt.i b.fmt.i + 1 + f
    (a.fmt.signed = b.fmt.signed → (a.add b).raw = xa + xb) ∧
    (a.fmt.signed = true → b.fmt.signed = false → b.fmt.i < a.fmt.i → (a.add b).raw = xa + xb) ∧
    (a.fmt.signed = false → b.fmt.signed = true → a.fmt.i < b.fmt.i → (a.add b).raw = xa + xb) ∧
    (a.fmt.signed = true → b.fmt.signed = true → (a.sub b).raw = xa - xb) ∧
    (a.fmt.signed = false → b.fmt.signed = false →
      (a.sub b).raw = if xb ≤ xa then xa - xb else xa - xb + 2 ^ w) ∧
    (a.mul b).raw = a.raw * b.raw ∧
    (2 ^ w : Int) ∣ (a.add b).raw - (xa + xb) ∧ (2 ^ w : Int) ∣ (a.sub b).raw - (xa - xb)) ∧
  Fx.add ⟨3, ⟨2, 0, false⟩⟩ ⟨1, ⟨2, 0, true⟩⟩ = ⟨-4, ⟨3, 0, true⟩⟩ ∧
  Fx.sub ⟨1, ⟨2, 0, false⟩⟩ ⟨3, ⟨2, 0, false⟩⟩ = ⟨6, ⟨3, 0, false⟩⟩ ∧
  Fx.sub ⟨-2, ⟨2, 0, true⟩⟩ ⟨3, ⟨2, 0, false⟩⟩ = ⟨3, ⟨3, 0, true⟩⟩

/-- The laws of `reshape` (`40_fixed_point.md` R80), (a) to (f); the numeric values of (b) and (d) are
compared where the format keeps its signedness. R80 is the spec's own derivation ("[derived: from rule
R76]"). -/
def Obligations.ReshapeLaws : Prop :=
  (∀ (v : Fx) (p : Fmt), v.legal = true → p.legal = true → v.fmt.i ≤ p.i → v.fmt.f ≤ p.f →
    (v.reshape p).reshape v.fmt = v) ∧
  (∀ (v : Fx) (p : Fmt), v.legal = true → p.legal = true → p.signed = v.fmt.signed → v.fmt.i ≤ p.i → v.fmt.f ≤ p.f →
    ((v.reshape p).raw : ℚ) / 2 ^ p.f = (v.raw : ℚ) / 2 ^ v.fmt.f) ∧
  (∀ (r1 r2 : Int) (k : Nat), r1 ≤ r2 → ashr r1 k ≤ ashr r2 k) ∧
  (∀ (v : Fx) (p : Fmt), v.legal = true → p.legal = true → p.signed = v.fmt.signed → v.fmt.i ≤ p.i → p.f < v.fmt.f →
    0 ≤ (v.raw : ℚ) / 2 ^ v.fmt.f - ((v.reshape p).raw : ℚ) / 2 ^ p.f ∧
    (v.raw : ℚ) / 2 ^ v.fmt.f - ((v.reshape p).raw : ℚ) / 2 ^ p.f < 1 / 2 ^ p.f) ∧
  (∀ (r : Int) (a b : Nat), ashr (ashr r a) b = ashr r (a + b)) ∧
  (∀ (v : Fx) (n : Nat), v.legal = true → n < v.fmt.i → n ≤ v.fmt.f →
    ((v.rshift n).reshape ⟨v.fmt.i - n, v.fmt.f, v.fmt.signed⟩).raw = v.raw / 2 ^ n ∧
    (v.reshape ⟨v.fmt.i, v.fmt.f - n, v.fmt.signed⟩).raw = v.raw / 2 ^ n)

/-! ### Complex values -/

/-- `c_add(x, y)` and `c_sub(x, y)` (`41_complex.md` R102, R103). -/
def Obligations.ComplexSumsAreLaneSums : Prop :=
  ∀ (s : State) (x y : Cx), x.legal = true → y.legal = true →
    let p : Fmt := ⟨max x.fmt.i y.fmt.i + 1, max x.fmt.f y.fmt.f, x.fmt.signed || y.fmt.signed⟩
    let u := fun r : Int => r * 2 ^ (p.f - x.fmt.f)
    let v := fun r : Int => r * 2 ^ (p.f - y.fmt.f)
    exec (.cAdd x.param y.param) s = .next (s.setResult (.complex
      ⟨p.wrap (u x.re + v y.re), p.wrap (u x.im + v y.im), p⟩)) ∧
    exec (.cSub x.param y.param) s = .next (s.setResult (.complex
      ⟨p.wrap (u x.re - v y.re), p.wrap (u x.im - v y.im), p⟩))

/-- `c_mul(x, y)` (`41_complex.md` R104): `(ac - bd, ad + bc)` in the format `(ix + iy + 1, fx + fy,
sx or sy)`, exact for signed operands. -/
def Obligations.ComplexProduct : Prop :=
  ∀ (s : State) (x y : Cx), x.legal = true → y.legal = true →
    let p : Fmt := ⟨x.fmt.i + y.fmt.i + 1, x.fmt.f + y.fmt.f, x.fmt.signed || y.fmt.signed⟩
    let re := x.re * y.re - x.im * y.im
    let im := x.re * y.im + x.im * y.re
    exec (.cMul x.param y.param) s = .next (s.setResult (.complex ⟨p.wrap re, p.wrap im, p⟩)) ∧
    (x.fmt.signed = true → y.fmt.signed = true → p.wrap re = re ∧ p.wrap im = im)

/-- `c_mul3(x, t)` (`41_complex.md` R105): the three products for any operands; for signed operands the
numeric value of `c_mul`, and after a reshape of both to one format the same stored integers, which is the
spec's own derivation ("[derived: from rule R104 and `40_fixed_point.md` rule R76]"). -/
def Obligations.ThreeMultiplierProduct : Prop :=
  ∀ (s : State) (x t : Cx), x.legal = true → t.legal = true →
    let p : Fmt := ⟨x.fmt.i + t.fmt.i + 2, x.fmt.f + t.fmt.f, x.fmt.signed || t.fmt.signed⟩
    let u1 := Fmt.wrap ⟨t.fmt.i + 1, t.fmt.f, t.fmt.signed⟩ (t.re - t.im)
    let u2 := Fmt.wrap ⟨x.fmt.i + 1, x.fmt.f, x.fmt.signed⟩ (x.re - x.im)
    let u3 := Fmt.wrap ⟨x.fmt.i + 1, x.fmt.f, x.fmt.signed⟩ (x.re + x.im)
    exec (.cMul3 x.param t.param) s = .next (s.setResult (.complex
      ⟨p.wrap (x.im * u1 + t.re * u2), p.wrap (x.im * u1 + t.im * u3), p⟩)) ∧
    (x.fmt.signed = true → t.fmt.signed = true →
      (x.mul3 t).re = x.re * t.re - x.im * t.im ∧ (x.mul3 t).im = x.re * t.im + x.im * t.re ∧
      ∀ q : Fmt, (x.mul3 t).reshape q = (x.mul t).reshape q)

/-- `c_scale(x, k)`, `c_rshift(x, n)` and `c_reshape(x, fmt, TRUNCATE)` (`41_complex.md` R106, R107), each
lane by itself. -/
def Obligations.LaneWiseOperations : Prop :=
  ∀ (s : State) (x : Cx), x.legal = true →
    (∀ k : Fx, k.legal = true → exec (.cScale x.param k.param) s = .next (s.setResult (.complex
      ⟨x.re * k.raw, x.im * k.raw, ⟨x.fmt.i + k.fmt.i, x.fmt.f + k.fmt.f, x.fmt.signed || k.fmt.signed⟩⟩))) ∧
    (∀ n : Nat, exec (.cRshift x.param n) s = .next (s.setResult (.complex ⟨x.re / 2 ^ n, x.im / 2 ^ n, x.fmt⟩))) ∧
    (∀ p : Fmt, p.legal = true →
      let g := fun r : Int => p.wrap (if x.fmt.f ≤ p.f then r * 2 ^ (p.f - x.fmt.f) else r / 2 ^ (x.fmt.f - p.f))
      exec (.cReshape x.param p.param .truncate) s = .next (s.setResult (.complex ⟨g x.re, g x.im, p⟩)))

/-- `c_mulnegj((a, b)) = (b, neg(a))` (`41_complex.md` R108), with its corner at the most negative lane. -/
def Obligations.QuarterRotation : Prop :=
  ∀ (s : State) (x : Cx), x.legal = true → x.fmt.signed = true →
    exec (.cMulnegj x.param) s = .next (s.setResult (.complex
      ⟨x.im, if x.re = -(2 ^ (x.fmt.i + x.fmt.f - 1)) then x.re else -x.re, x.fmt⟩))

/-! ### Links, delays -/

/-- `SkidBuffer`, `StreamDelay` and `PipeReg` are built in their reset states (`42_stream_skid_delay.md`
R128, R131, R132; `10_state.md` R21, R23, R24) and joined to what is built already (`30_encoding.md`
R60); a free-standing `Delay` is built with its depth of reset entries (R130; `10_state.md` R22). The written
form of a `PipeReg`'s function (log 11) and that a `Delay` of its own row stands free (log 7) are the
model's. -/
def Obligations.LinkStagesAreBuilt : Prop :=
  (∀ (s : State) (l : LinkFmt), l.legal = true → s.accepts l →
    exec (.skidBuffer l.fmt.param l.lanes) s = .next (s.withUnit ⟨l, [.skidBuffer l false ⟨0, 0⟩]⟩) ∧
    (∀ n : Nat, exec (.streamDelay n l.fmt.param l.lanes .shiftRegister) s =
      .next (s.withUnit ⟨l, [.streamDelay n l (List.replicate n ⟨⟨0, 0⟩, false⟩)]⟩)) ∧
    (∀ g : PipeFn, g.legal = true → g.inLink = l →
      exec (.pipeReg g.param) s = .next (s.withUnit ⟨l, [.pipeReg g ⟨false, ⟨0, 0⟩⟩]⟩))) ∧
  (∀ (s : State) (l : LinkFmt) (kind : EntryKind) (n : Nat), l.legal = true → s.ticks = 0 →
    exec (.delay n ⟨kind, l.fmt.param, l.lanes⟩ .shiftRegister) s =
      .next (s.setDelays (s.delays ++ [⟨⟨kind, l⟩, n, List.replicate n ⟨⟨0, 0⟩, kind == .bare, false⟩⟩])))

/-- A `PipeReg` takes any combinational function from its input payload type to its output payload type
(`42_stream_skid_delay.md` R132): for every function between the payloads of two links there is a written one
that is built and computes it. And what a written one computes is what the operations of files 40 and 41
deliver on the same values: each part of a lane as its row does, the complex operations as the lane
formulas of R102 to R108. The written form is the model's (log 11). -/
def Obligations.PipeRegTakesAnyFunction : Prop :=
  (∀ (s : State) (l out : LinkFmt) (f : Payload → Payload), l.legal = true → out.legal = true → s.accepts l →
    (∀ x, l.holds x = true → out.holds (f x) = true) →
    ∃ (c : CombFnParam) (g : PipeFn), exec (.pipeReg ⟨l.fmt.param, l.lanes, some c⟩) s =
        .next (s.withUnit ⟨l, [.pipeReg g ⟨false, ⟨0, 0⟩⟩]⟩) ∧
      g.inLink = l ∧ g.outLink = out ∧ ∀ x, l.holds x = true → g.apply x = f x) ∧
  (∀ (l : LinkFmt) (x : Payload), l.legal = true → l.holds x = true → PipeFn.apply ⟨l, none, l⟩ x = x) ∧
  (∀ (s : State) (fmt : Fmt) (x : Payload) (a b c : LaneExpr),
    let v := LaneExpr.eval fmt x
    (v a).legal = true → (v b).legal = true →
    exec (.add (v a).param (v b).param) s = .next (s.setResult (.value (v (.add a b)))) ∧
    exec (.sub (v a).param (v b).param) s = .next (s.setResult (.value (v (.sub a b)))) ∧
    exec (.mul (v a).param (v b).param) s = .next (s.setResult (.value (v (.mul a b)))) ∧
    (∀ p : Fmt, p.legal = true →
      exec (.reshape (v a).param p.param .truncate) s = .next (s.setResult (.value (v (.reshape a p))))) ∧
    (∀ n : Nat, exec (.rshift (v a).param n) s = .next (s.setResult (.value (v (.rshift a n))))) ∧
    ((v a).fmt.signed = true → exec (.neg (v a).param) s = .next (s.setResult (.value (v (.neg a))))) ∧
    (∀ k : Nat, v (.select c k a b) = if (v c).raw / 2 ^ k % 2 = 1 then v b else v a) ∧
    v .inRe = ⟨x.re, fmt⟩ ∧ v .inIm = ⟨x.im, fmt⟩ ∧ ∀ k : Fx, v (.const k) = k) ∧
  (∀ (s : State) (fmt : Fmt) (x : Payload) (a b c d k : LaneExpr) (z w : Cx),
    let v := LaneExpr.eval fmt x
    let pair := fun re im : LaneExpr => Result.complex ⟨(v re).raw, (v im).raw, (v re).fmt⟩
    z.legal = true → w.legal = true → z.reFx = v a → z.imFx = v b → w.reFx = v c → w.imFx = v d → (v k).legal = true →
    exec (.cAdd z.param w.param) s = .next (s.setResult (pair (.add a c) (.add b d))) ∧
    exec (.cSub z.param w.param) s = .next (s.setResult (pair (.sub a c) (.sub b d))) ∧
    exec (.cMul z.param w.param) s = .next (s.setResult
      (pair (.sub (.mul a c) (.mul b d)) (.add (.mul a d) (.mul b c)))) ∧
    exec (.cMul3 z.param w.param) s = .next (s.setResult
      (pair (.add (.mul b (.sub c d)) (.mul c (.sub a b))) (.add (.mul b (.sub c d)) (.mul d (.add a b))))) ∧
    exec (.cScale z.param (v k).param) s = .next (s.setResult (pair (.mul a k) (.mul b k))) ∧
    (∀ n : Nat, exec (.cRshift z.param n) s = .next (s.setResult (pair (.rshift a n) (.rshift b n)))) ∧
    (∀ p : Fmt, p.legal = true →
      exec (.cReshape z.param p.param .truncate) s = .next (s.setResult (pair (.reshape a p) (.reshape b p)))) ∧
    (z.fmt.signed = true → exec (.cMulnegj z.param) s = .next (s.setResult (pair b (.neg a)))))

/-- `Delay` (`42_stream_skid_delay.md` R130): whatever the enables, `e_out` is the entry that was shifted in
`n` active ticks ago; a line of depth 0 shows its input. And so the step drives them (log 5, log 7): in every
state that meets the invariant, a step of a configured machine shows each free-standing delay's oldest entry
(the entry driven on it, for depth 0) in the trace record, and shifts the entry driven on that delay, and no
other, into it where it is enabled. -/
def Obligations.DelayShowsTheOldestEntry : Prop :=
  (∀ (u : DelayUnit) (xs : List DelayDrive) (x : DelayDrive), u.Inv →
    (u.depth = 0 → (xs.foldl DelayUnit.next u).out x = u.entry.normalize x.entry) ∧
    (1 ≤ u.depth → u.depth ≤ (xs.filter DelayDrive.en).length →
      ((xs.filter DelayDrive.en)[(xs.filter DelayDrive.en).length - u.depth]?).map
        (fun y => u.entry.normalize y.entry) = some ((xs.foldl DelayUnit.next u).out x))) ∧
  (∀ s : State, s.Inv → s.program = [] →
    ∃ (t : State) (b : Option BoundaryTick) (outs : List TaggedEntry), step s = .next t ∧
      t.trace = ⟨b, outs⟩ :: s.trace ∧ t.delays.length = s.delays.length ∧ outs.length = s.delays.length ∧
      ∀ (k : Nat) (u : DelayUnit), s.delays[k]? = some u →
        let x := s.drive.delays.getD k ⟨false, ⟨⟨0, 0⟩, false, false⟩⟩
        let e := u.entry.normalize x.entry
        (u.depth = 0 → outs[k]? = some e ∧ t.delays[k]? = some u) ∧
        (1 ≤ u.depth → outs[k]? = u.d.getLast? ∧
          t.delays[k]? = some { u with d := if x.en then e :: u.d.dropLast else u.d }))

/-! ### CIC -/

/-- `Integrator`, `Comb`, `Requant`, `Upsampler` and `Downsampler` are built in their reset states
(`43_cic_stages.md` R151, R152, R154, R156, R157; `10_state.md` R25 to R28, R33). The labels of their links
are the model's reading of R150 (log 10). -/
def Obligations.CicStagesAreBuilt : Prop :=
  ∀ (s : State) (l : LinkFmt), l.legal = true → s.acceptsLanes l →
    (∀ w : Nat, 1 ≤ w →
      let out : LinkFmt := ⟨cicLabel w l.fmt.f, l.lanes⟩
      exec (.integrator l.fmt.width w l.lanes) s = .next (s.withUnit ⟨l, [.integrator l out ⟨0, 0⟩]⟩) ∧
      (∀ m : Nat, 1 ≤ m → exec (.comb l.fmt.width m (some (w : Int)) l.lanes) s =
        .next (s.withUnit ⟨l, [.comb l out m (List.replicate m ⟨0, 0⟩)]⟩)) ∧
      (∀ m : Nat, 1 ≤ m → exec (.comb l.fmt.width m none l.lanes) s =
        .next (s.withUnit ⟨l, [.comb l ⟨cicLabel (l.fmt.width + 1) l.fmt.f, l.lanes⟩ m (List.replicate m ⟨0, 0⟩)]⟩)) ∧
      (∀ k : Nat, exec (.requant k l.fmt.width w l.lanes) s = .next (s.withUnit ⟨l, [.requant k l out]⟩)) ∧
      out.fmt.width = w) ∧
    (∀ r : Nat, 1 ≤ r →
      exec (.upsampler r l.fmt.width l.lanes) s = .next (s.withUnit ⟨l, [.upsampler r l 0]⟩) ∧
      exec (.downsampler r l.fmt.width l.lanes) s = .next (s.withUnit ⟨l, [.downsampler r l 0]⟩))

/-- `cic_growth(N, R, M)` (`44_cic_sizing_filters.md` R171): `growth(j)` is `j` for a comb, the least `k` with
`2^k * R >= 2^(2N-j) * (R*M)^(j-N)` for an integrator. -/
def Obligations.CicGrowthIsLeast : Prop :=
  ∀ (s : State) (n r m : Nat), 1 ≤ n → 1 ≤ r → 1 ≤ m →
    ∃ g : List Nat, exec (.cicGrowth n r m) s = .next (s.setResult (.growth g)) ∧ g.length = 2 * n ∧
      ∀ j, 1 ≤ j → j ≤ 2 * n → IsGrowth n r m j (g.getD (j - 1) 0)

/-- `cic_truncation(N, R, M, W_in, width_out)` (`44_cic_sizing_filters.md` R175 to R179). Where rules of that
file disagree the reading is the model's: for `R*M = 1` and `N >= 3` the `F_j^2`, and what is computed from
them, are R176's and not R184's (log 22), and `k_1` of the parameters `2, 4, 2` is 6, as R176 and R177 give,
and not the 4 that R180 prints (log 23). -/
def Obligations.CicTruncationFollowsHogenauer : Prop :=
  ∀ (s : State) (n r m wIn : Nat) (widthOut : Option Nat), 1 ≤ n → 1 ≤ r → 1 ≤ m → 1 ≤ wIn →
    (∀ o, widthOut = some o → 1 ≤ o ∧ ∀ k, (r * m) ^ n ≤ 2 ^ k → o ≤ wIn + k) →
    ∃ t : Truncation, exec (.cicTruncation n r m wIn (widthOut.map Nat.cast)) s =
      .next (s.setResult (.truncation t)) ∧ TruncationRules n r m wIn widthOut t

/-- `CICUpsamplingFilter` (`44_cic_sizing_filters.md` R173): `N` combs, the upsampler if `R > 1`, `N`
integrators, the requantizer if the requested width is smaller, with the widths of R171. The labels of the
links, the last one's among them, are R186's as the model reads it (log 10); a requested output format is put
on the last stage's output link and nothing else differs. -/
def Obligations.UpsamplingFilterIsComposed : Prop :=
  ∀ (s : State) (n r m : Nat) (l : LinkFmt) (widthOut : Option Nat) (w : Nat → Nat),
    1 ≤ n → 1 ≤ r → 1 ≤ m → l.legal = true → s.accepts l → w 0 = l.fmt.width →
    (∀ j, 1 ≤ j → j ≤ 2 * n → ∃ g, IsGrowth n r m j g ∧ w j = l.fmt.width + g) →
    (∀ o, widthOut = some o → 1 ≤ o ∧ o ≤ w (2 * n)) →
    let link := fun x : Nat => (⟨cicLabel x l.fmt.f, l.lanes⟩ : LinkFmt)
    let stages : List Stage :=
      (List.range n).map (fun j => .comb (link (w j)) (link (w (j + 1))) m (List.replicate m ⟨0, 0⟩))
      ++ (if 1 < r then [.upsampler r (link (w n)) 0] else [])
      ++ (List.range n).map (fun j => .integrator (link (w (n + j))) (link (w (n + j + 1))) ⟨0, 0⟩)
      ++ (if widthOut.getD (w (2 * n)) < w (2 * n) then
          [.requant (w (2 * n) - widthOut.getD 0) (link (w (2 * n))) (link (widthOut.getD 0))] else [])
    exec (.cicUpsamplingFilter n r m l.fmt.param l.lanes (widthOut.map Nat.cast) none) s = .next (s.withUnit ⟨l, stages⟩) ∧
    ∀ p : Fmt, p.legal = true → p.signed = true → p.width = widthOut.getD (w (2 * n)) →
      exec (.cicUpsamplingFilter n r m l.fmt.param l.lanes (widthOut.map Nat.cast) (some p.param)) s =
        .next (s.withUnit ⟨l, relabelLast (some p) stages⟩) ∧
      chainOutLink l (relabelLast (some p) stages) = ⟨p, l.lanes⟩

/-- `CICDownsamplingFilter` (`44_cic_sizing_filters.md` R181): `N` integrators, each behind its shift, the
downsampler if `R > 1`, `N` combs, each behind its shift, and the last shift, with the shifts and widths of
R179, which for `R*M = 1`, `N >= 3` and a requested width rest on R176 against R184, by the
model's reading (log 22). The labels of the links are R186's as the model reads it (log 10); a requested output format is put on
the last stage's output link and nothing else differs. -/
def Obligations.DownsamplingFilterIsComposed : Prop :=
  ∀ (s : State) (n r m : Nat) (l : LinkFmt) (widthOut : Option Nat) (t : Truncation),
    1 ≤ n → 1 ≤ r → 1 ≤ m → l.legal = true → s.accepts l →
    TruncationRules n r m l.fmt.width widthOut t → (∀ o, widthOut = some o → 1 ≤ o ∧ o ≤ t.fullWidth) →
    let link := fun x : Nat => (⟨cicLabel x l.fmt.f, l.lanes⟩ : LinkFmt)
    let w := fun j : Nat => if j = 0 then l.fmt.width else t.widths.getD (j - 1) 0
    let stages : List Stage :=
      (List.range n).flatMap (fun j => [.requant (t.shifts.getD j 0) (link (w j)) (link (w (j + 1))),
        .integrator (link (w (j + 1))) (link (w (j + 1))) ⟨0, 0⟩])
      ++ (if 1 < r then [.downsampler r (link (w n)) 0] else [])
      ++ (List.range n).flatMap (fun j => [.requant (t.shifts.getD (n + j) 0) (link (w (n + j))) (link (w (n + j + 1))),
        .comb (link (w (n + j + 1))) (link (w (n + j + 1))) m (List.replicate m ⟨0, 0⟩)])
      ++ [.requant t.sOut (link (w (2 * n))) (link t.widthOut)]
    exec (.cicDownsamplingFilter n r m l.fmt.param l.lanes (widthOut.map Nat.cast) none) s = .next (s.withUnit ⟨l, stages⟩) ∧
    ∀ p : Fmt, p.legal = true → p.signed = true → p.width = t.widthOut →
      exec (.cicDownsamplingFilter n r m l.fmt.param l.lanes (widthOut.map Nat.cast) (some p.param)) s =
        .next (s.withUnit ⟨l, relabelLast (some p) stages⟩) ∧
      chainOutLink l (relabelLast (some p) stages) = ⟨p, l.lanes⟩

/-! ### FFT and bit reversal -/

/-- The FFT stages are built in their reset states (`45_fft_stages.md` R201, R207, R213, R215; `10_state.md`
R29, R30, R31), the table of a twiddle stage being that of `twiddle_table`. -/
def Obligations.FftStagesAreBuilt : Prop :=
  ∀ (s : State) (fmt : Fmt) (log : Nat), fmt.legal = true → fmt.signed = true → s.accepts ⟨fmt, 2⟩ →
    (1 ≤ log → exec (.sdfRadix2Stage (2 ^ log : Nat) fmt.param) s = .next (s.withUnit ⟨⟨fmt, 2⟩,
      [.sdfRadix2 log fmt 0 (List.replicate (2 ^ (log - 1)) ⟨⟨0, 0⟩, false, false⟩)]⟩)) ∧
    (2 ≤ log → exec (.r22TwiddleStage (2 ^ log : Nat) fmt.param) s = .next (s.withUnit ⟨⟨fmt, 2⟩,
      [.r22Twiddle log fmt 0]⟩)) ∧
    (2 ≤ log → ∀ tw : Fmt, tw.signed = true → 2 ≤ tw.i →
      exec (.twiddleStageDirect (2 ^ log : Nat) fmt.param tw.param) s = .next (s.withUnit ⟨⟨fmt, 2⟩,
        [.twiddleDirect log fmt tw (twiddleList log tw.f) 0]⟩) ∧
      exec (.twiddleStageThreeMult (2 ^ log : Nat) fmt.param tw.param) s = .next (s.withUnit ⟨⟨fmt, 2⟩,
        [.twiddleThreeMult log fmt tw (twiddleList log tw.f) 0 ⟨false, ⟨0, 0, 0, 0, 0, 0⟩⟩ ⟨false, ⟨0, 0, 0⟩⟩
          ⟨false, ⟨0, 0⟩⟩]⟩))

/-- `twiddle_table(n, tw_fmt)` (`45_fft_stages.md` R210, R212): entry `idx = b*(n/4) + n3` is the complex
constant nearest to `e^(-2*pi*j*e/n)`, `e = n3 * mult(b)`, `mult = 0, 2, 1, 3`, ties toward plus infinity,
and lies in the format. -/
def Obligations.TwiddleTableIsRounded : Prop :=
  ∀ (s : State) (log : Nat) (tw : Fmt), 2 ≤ log → tw.signed = true → 2 ≤ tw.i →
    ∃ t : List Cx, exec (.twiddleTable (2 ^ log : Nat) tw.param) s = .next (s.setResult (.table t)) ∧
      t = (twiddleList log tw.f).map (fun p => p.toCx tw) ∧ t.length = 2 ^ log ∧
      ∀ idx, idx < 2 ^ log →
        let e : Nat := idx % (2 ^ log / 4) * [0, 2, 1, 3].getD (idx / (2 ^ log / 4)) 0
        let angle : ℝ := 2 * Real.pi * e / 2 ^ log
        t[idx]? = some ⟨⌊Real.cos angle * 2 ^ tw.f + 1 / 2⌋, ⌊-Real.sin angle * 2 ^ tw.f + 1 / 2⌋, tw⟩ ∧
        tw.holds ⌊Real.cos angle * 2 ^ tw.f + 1 / 2⌋ = true ∧ tw.holds ⌊-Real.sin angle * 2 ^ tw.f + 1 / 2⌋ = true

/-- `SerialBitExchange` and `SerialBitReversal` are built in their reset states (`46_bit_reversal.md` R231,
R236; `10_state.md` R32): exchanges `(bits-1-i, i)` for `i = 0, 1, ...` while `bits-1-i > i`. -/
def Obligations.BitReversalIsComposed : Prop :=
  ∀ (s : State) (l : LinkFmt), l.legal = true → s.accepts l →
    (∀ j k : Nat, k < j → exec (.serialBitExchange j k l.fmt.param l.lanes) s = .next (s.withUnit ⟨l,
      [.bitExchange j k l 0 (List.replicate (2 ^ j - 2 ^ k) ⟨⟨0, 0⟩, false⟩)]⟩)) ∧
    (∀ bits : Nat, 1 ≤ bits → exec (.serialBitReversal (2 ^ bits : Nat) l.fmt.param l.lanes) s =
      .next (s.withUnit ⟨l, ((List.range bits).filter (fun i => i < bits - 1 - i)).map (fun i =>
        .bitExchange (bits - 1 - i) i l 0 (List.replicate (2 ^ (bits - 1 - i) - 2 ^ i) ⟨⟨0, 0⟩, false⟩))⟩))

/-- `SerialFFT` is composed by the loop of `47_serial_fft.md` R246, and its output format is
`(i + bits, f, signed)` (R245, R248). The twiddle format is used, and so checked, for `N >= 8` only
(R254). -/
def Obligations.SerialFftIsComposed : Prop :=
  ∀ (s : State) (fmt : Fmt) (bits : Nat) (bitrev skid : Bool) (tw : FormatParam) (twFmt : Fmt) (variant : TwVariant),
    1 ≤ bits → fmt.legal = true → fmt.signed = true → s.accepts ⟨fmt, 2⟩ →
    (3 ≤ bits → tw = twFmt.param ∧ twFmt.signed = true ∧ 2 ≤ twFmt.i) →
    let out : LinkFmt := ⟨⟨fmt.i + bits, fmt.f, true⟩, 2⟩
    let stages := transformLoop fmt.f twFmt variant skid bits (2 ^ bits) fmt.i ++
      (if bitrev then ((List.range bits).filter (fun i => i < bits - 1 - i)).map (fun i => freshExchange (bits - 1 - i) i out)
        else [])
    exec (.serialFFT (2 ^ bits : Nat) fmt.param bitrev tw variant skid) s = .next (s.withUnit ⟨⟨fmt, 2⟩, stages⟩) ∧
    chainOutLink ⟨fmt, 2⟩ stages = out

/-! ### Configuration errors -/

/-- Domains (`00_scope.md` R11, `60_exceptions.md` R260, R261): in a machine with nothing built, an
operation completes exactly when every parameter lies in its domain, and otherwise stops with a
configuration error. -/
def Obligations.CompletesExactlyInItsDomain : Prop :=
  ∀ (i : Instr) (s : State), s.ticks = 0 → s.pipeline = none →
    (i.wellFormed = true → ∃ t, exec i s = .next t) ∧
    (i.wellFormed = false → ∃ e, exec i s = .fault (.configError e))

/-- The order of checks of `SerialFFT` (`47_serial_fft.md` R254), the joining of links (`30_encoding.md` R60)
last. That `BadLanes` of a real input link comes before its `FormatMismatch` is the model's (log 17). -/
def Obligations.SerialFftErrorsInOrder : Prop :=
  ∀ (s : State) (n : Int) (p tw : FormatParam) (bitrev skid : Bool) (variant : TwVariant) (t : Outcome), s.ticks = 0 →
    t = exec (.serialFFT n p bitrev tw variant skid) s →
    (sizeFormed 2 n = false → t = .fault (.configError .notPowerOfTwo)) ∧
    (sizeFormed 2 n = true → p.wellFormed = false → t = .fault (.configError .badFormat)) ∧
    (sizeFormed 2 n = true → p.wellFormed = true → p.signed = false → t = .fault (.configError .unsignedPayload)) ∧
    (sizeFormed 2 n = true → p.payloadFormed = true → ∀ l, s.openLink = some l →
      (l.lanes ≠ 2 → t = .fault (.configError .badLanes)) ∧
      (l.lanes = 2 → (8 ≤ n → tw.twiddleFormed = true) → l.fmt.param ≠ p → t = .fault (.configError .formatMismatch))) ∧
    (sizeFormed 2 n = true → p.payloadFormed = true → (∀ l, s.openLink = some l → l.lanes = 2) →
      8 ≤ n → tw.twiddleFormed = false → t = .fault (.configError .badFormat))

/-- The order of checks of the two CIC filters (`44_cic_sizing_filters.md` R185), with the bounds of the requested
width: 1 and the full width of the filter (R173, R175, D27). That `cic_truncation` makes the same checks, of
those of its parameters, in that order is the model's (log 9). -/
def Obligations.CicFilterErrorsInOrder : Prop :=
  (∀ (s : State) (n r m : Int) (p : FormatParam) (lanes : Int) (widthOut : Option Int) (outFmt : Option FormatParam)
    (t : Outcome), s.ticks = 0 →
    (t = exec (.cicUpsamplingFilter n r m p lanes widthOut outFmt) s ∨
      t = exec (.cicDownsamplingFilter n r m p lanes widthOut outFmt) s) →
    (n < 1 → t = .fault (.configError .badOrder)) ∧
    (1 ≤ n → r < 1 → t = .fault (.configError .badRate)) ∧
    (1 ≤ n → 1 ≤ r → m < 1 → t = .fault (.configError .badDelay)) ∧
    (1 ≤ n → 1 ≤ r → 1 ≤ m → p.wellFormed = false → t = .fault (.configError .badFormat)) ∧
    (1 ≤ n → 1 ≤ r → 1 ≤ m → p.wellFormed = true → p.signed = false → t = .fault (.configError .unsignedPayload)) ∧
    (1 ≤ n → 1 ≤ r → 1 ≤ m → p.payloadFormed = true → ∀ w, widthOut = some w → w < 1 →
      t = .fault (.configError .badWidth))) ∧
  (∀ (s : State) (n r m : Nat) (p : Fmt) (lanes : Int) (w : Nat) (outFmt : Option FormatParam), 1 ≤ n → 1 ≤ r → 1 ≤ m →
    p.legal = true → p.signed = true →
    ((∀ g, IsGrowth n r m (2 * n) g → p.width + g < w) → s.ticks = 0 →
      exec (.cicUpsamplingFilter n r m p.param lanes (some (w : Int)) outFmt) s = .fault (.configError .badWidth)) ∧
    ((∀ g, LeastNat (fun k => (r * m) ^ n ≤ 2 ^ k) g → p.width + g < w) →
      (s.ticks = 0 → exec (.cicDownsamplingFilter n r m p.param lanes (some (w : Int)) outFmt) s =
        .fault (.configError .badWidth)) ∧
      exec (.cicTruncation n r m p.width (some (w : Int))) s = .fault (.configError .badWidth))) ∧
  (∀ (s : State) (n r m wIn : Int) (widthOut : Option Int) (t : Outcome),
    t = exec (.cicTruncation n r m wIn widthOut) s →
    (n < 1 → t = .fault (.configError .badOrder)) ∧
    (1 ≤ n → r < 1 → t = .fault (.configError .badRate)) ∧
    (1 ≤ n → 1 ≤ r → m < 1 → t = .fault (.configError .badDelay)) ∧
    (1 ≤ n → 1 ≤ r → 1 ≤ m → wIn < 1 → t = .fault (.configError .badWidth)) ∧
    (1 ≤ n → 1 ≤ r → 1 ≤ m → 1 ≤ wIn → ∀ w, widthOut = some w → w < 1 → t = .fault (.configError .badWidth)))

/-- What each of the sixteen kinds of error of `60_exceptions.md` R262 is raised by, where the parameter at fault
is the only one that can be. -/
def Obligations.EachErrorHasItsCause : Prop :=
  ∀ (s : State) (l : LinkFmt), s.ticks = 0 → l.legal = true →
    (∀ v : ValueParam, v.fmt.wellFormed = false →
      exec (.fixedPointConst v.fmt v.raw) s = .fault (.configError .badFormat)) ∧
    (∀ v : ValueParam, v.fmt.wellFormed = true → v.fmt.holds v.raw = false →
      exec (.fixedPointConst v.fmt v.raw) s = .fault (.configError .constOutOfRange)) ∧
    (∀ a b : Fx, a.legal = true → b.legal = true → a.fmt ≠ b.fmt →
      exec (.complex a.param b.param) s = .fault (.configError .malformedComplex)) ∧
    (∀ x : Cx, x.legal = true → x.fmt.signed = false →
      exec (.cMulnegj x.param) s = .fault (.configError .unsignedPayload)) ∧
    (∀ p : FormatParam, p.wellFormed = true → p.signed = false →
      exec (.skidBuffer p 1) s = .fault (.configError .unsignedPayload)) ∧
    (∀ (v : Fx) (x : Cx) (p : Fmt) (policy : Nat), v.legal = true → x.legal = true → p.legal = true →
      exec (.reshape v.param p.param (.other policy)) s = .fault (.configError .unknownRounding) ∧
      exec (.cReshape x.param p.param (.other policy)) s = .fault (.configError .unknownRounding)) ∧
    (∀ (v : Fx) (x : Cx) (n : Int), v.legal = true → x.legal = true → n < 0 →
      exec (.rshift v.param n) s = .fault (.configError .badShift) ∧
      exec (.cRshift x.param n) s = .fault (.configError .badShift)) ∧
    (∀ n r m : Int, n < 1 → exec (.cicGrowth n r m) s = .fault (.configError .badOrder)) ∧
    (∀ lanes : Int, lanes ≠ 1 → lanes ≠ 2 →
      exec (.skidBuffer l.fmt.param lanes) s = .fault (.configError .badLanes)) ∧
    (∀ q : LinkFmt, s.openLink = some l → q.legal = true → q ≠ l →
      exec (.skidBuffer q.fmt.param q.lanes) s = .fault (.configError .formatMismatch)) ∧
    (∀ n : Int, n < 0 → exec (.streamDelay n l.fmt.param l.lanes .shiftRegister) s = .fault (.configError .badDepth) ∧
      exec (.delay n ⟨.flagged, l.fmt.param, l.lanes⟩ .shiftRegister) s = .fault (.configError .badDepth)) ∧
    (∀ n : Nat, exec (.streamDelay n l.fmt.param l.lanes .fifo) s = .fault (.configError .unsupportedDelayImpl) ∧
      exec (.delay n ⟨.flagged, l.fmt.param, l.lanes⟩ .fifo) s = .fault (.configError .unsupportedDelayImpl)) ∧
    (∀ r w : Int, r < 1 → exec (.upsampler r w 1) s = .fault (.configError .badRate) ∧
      exec (.downsampler r w 1) s = .fault (.configError .badRate)) ∧
    (∀ w : Int, w < 1 → exec (.integrator 4 w 1) s = .fault (.configError .badWidth) ∧
      exec (.integrator w 4 1) s = .fault (.configError .badWidth) ∧
      exec (.comb 4 1 (some w) 1) s = .fault (.configError .badWidth) ∧
      exec (.requant 0 4 w 1) s = .fault (.configError .badWidth)) ∧
    (∀ m : Int, m < 1 → exec (.comb 4 m none 1) s = .fault (.configError .badDelay)) ∧
    (∀ k w w' lanes : Int, k < 0 → exec (.requant k w w' lanes) s = .fault (.configError .badShift)) ∧
    (∀ n : Int, sizeFormed 2 n = false → exec (.sdfRadix2Stage n l.fmt.param) s = .fault (.configError .notPowerOfTwo) ∧
      exec (.serialBitReversal n l.fmt.param l.lanes) s = .fault (.configError .notPowerOfTwo)) ∧
    (∀ (n : Int) (tw : FormatParam), sizeFormed 4 n = false →
      exec (.r22TwiddleStage n l.fmt.param) s = .fault (.configError .notPowerOfTwo) ∧
      exec (.twiddleStageDirect n l.fmt.param tw) s = .fault (.configError .notPowerOfTwo) ∧
      exec (.twiddleStageThreeMult n l.fmt.param tw) s = .fault (.configError .notPowerOfTwo) ∧
      exec (.twiddleTable n tw) s = .fault (.configError .notPowerOfTwo)) ∧
    (∀ tw : FormatParam, tw.twiddleFormed = false → exec (.twiddleTable 4 tw) s = .fault (.configError .badFormat)) ∧
    (∀ j k : Int, ¬ (k < j ∧ 0 ≤ k) →
      exec (.serialBitExchange j k l.fmt.param l.lanes) s = .fault (.configError .badBitPositions))

/-- Nothing is built once ticks have begun (`00_scope.md` R9: "no dynamic creation/destruction during
operation"). That the attempt is a refusal, and not an error the spec names, is the model's choice
(log 8). -/
def Obligations.NothingIsBuiltAfterStart : Prop :=
  ∀ (s : State) (i : Instr), s.ticks ≠ 0 → 0x20 ≤ selector i → selector i ∉ [0x38, 0x39, 0x44] →
    exec i s = .refused .constructionAfterStart

/-! ### The tick of each stage -/

/-- `SkidBuffer`'s tick (`42_stream_skid_delay.md` R128). -/
def Obligations.SkidBufferTick : Prop :=
  ∀ (s : State) (l : LinkFmt) (armed : Bool) (buf : Payload), s.runs (.skidBuffer l armed buf) →
    StageTick s (!armed) (armed || s.drive.valid) (if armed then buf else s.offered l)
      (.skidBuffer l (if armed then !s.drive.ready else s.drive.valid && !s.drive.ready)
        (if !armed && s.drive.valid && !s.drive.ready then s.offered l else buf))

/-- `StreamDelay`'s tick (`42_stream_skid_delay.md` R131): a wire for depth 0; otherwise the whole line
advances unless its output is stalled, and what a bubble stores is some payload `u`, whichever the free
value is (log 4). -/
def Obligations.StreamDelayTick : Prop :=
  ∀ (s : State) (l : LinkFmt) (depth : Nat) (d : List Slot), s.runs (.streamDelay depth l d) → d.length = depth →
    (depth = 0 → StageTick s s.drive.ready s.drive.valid (s.offered l) (.streamDelay depth l d)) ∧
    (1 ≤ depth → ∃ (e : Slot) (u : Payload), d.getLast? = some e ∧ (s.drive.valid = true → u = s.offered l) ∧
      StageTick s (s.drive.ready || !e.valid) e.valid e.payload
        (.streamDelay depth l (if s.drive.ready || !e.valid then ⟨u, s.drive.valid⟩ :: d.dropLast else d)))

/-- `PipeReg`'s tick (`42_stream_skid_delay.md` R132). -/
def Obligations.PipeRegTick : Prop :=
  ∀ (s : State) (g : PipeFn) (v : Bool) (p : Payload), s.runs (.pipeReg g ⟨v, p⟩) →
    StageTick s (s.drive.ready || !v) v p (.pipeReg g
      (if s.drive.ready || !v then ⟨s.drive.valid, if s.drive.valid then g.apply (s.offered g.inLink) else p⟩ else ⟨v, p⟩))

/-- The ticks of `Integrator`, `Comb` and `Requant` (`43_cic_stages.md` R151, R152, R157), lane by lane, and of
`Upsampler` and `Downsampler` (R154, R156). -/
def Obligations.CicStageTicks : Prop :=
  ∀ s : State,
    (∀ a b : LinkFmt,
      let x := s.offered a
      let moved := s.drive.valid && s.drive.ready
      let w := wrapS b.fmt.width
      (∀ acc : Payload, s.runs (.integrator a b acc) →
        let y : Payload := ⟨w (acc.re + x.re), w (acc.im + x.im)⟩
        StageTick s s.drive.ready s.drive.valid y (.integrator a b (if moved then y else acc))) ∧
      (∀ (m : Nat) (d : List Payload), s.runs (.comb a b m d) → ∀ e, d.getLast? = some e →
        StageTick s s.drive.ready s.drive.valid ⟨w (x.re - e.re), w (x.im - e.im)⟩
          (.comb a b m (if moved then x :: d.dropLast else d))) ∧
      (∀ k : Nat, s.runs (.requant k a b) →
        StageTick s s.drive.ready s.drive.valid ⟨w (x.re / 2 ^ k), w (x.im / 2 ^ k)⟩ (.requant k a b))) ∧
    (∀ (r c : Nat) (l : LinkFmt),
      (s.runs (.upsampler r l c) →
        (c = 0 → StageTick s s.drive.ready s.drive.valid (s.offered l)
          (.upsampler r l (if s.drive.valid && s.drive.ready then (c + 1) % r else c))) ∧
        (c ≠ 0 → StageTick s false true ⟨0, 0⟩ (.upsampler r l (if s.drive.ready then (c + 1) % r else c)))) ∧
      (s.runs (.downsampler r l c) →
        (c = 0 → StageTick s s.drive.ready s.drive.valid (s.offered l)
          (.downsampler r l (if s.drive.valid && s.drive.ready then (c + 1) % r else c))) ∧
        (c ≠ 0 → StageTick s true false ⟨0, 0⟩ (.downsampler r l (if s.drive.valid then (c + 1) % r else c)))))

/-- The butterfly's tick (`45_fft_stages.md` R202, R203), in every state that meets the invariant: in feed
mode a due difference leaves as the sample enters; in combine mode the sum leaves and the difference,
delayed minus incoming, is fed back, both exact. -/
def Obligations.ButterflyTick : Prop :=
  ∀ (s : State) (log c : Nat) (fmt : Fmt) (d : List TaggedEntry), s.Inv → s.runs (.sdfRadix2 log fmt c d) →
    ∃ e : TaggedEntry, d.getLast? = some e ∧
      let x := s.offered ⟨fmt, 2⟩
      (c < 2 ^ (log - 1) → ∀ due, due = (e.valid && e.tag) →
        StageTick s (s.drive.ready || !due) (s.drive.valid && due) e.payload
          (if s.drive.valid && (s.drive.ready || !due) then .sdfRadix2 log fmt (c + 1) (⟨x, true, false⟩ :: d.dropLast)
            else .sdfRadix2 log fmt c d)) ∧
      (2 ^ (log - 1) ≤ c →
        StageTick s s.drive.ready s.drive.valid ⟨e.payload.re + x.re, e.payload.im + x.im⟩
          (if s.drive.valid && s.drive.ready then
            .sdfRadix2 log fmt ((c + 1) % 2 ^ log)
              (⟨⟨e.payload.re - x.re, e.payload.im - x.im⟩, true, true⟩ :: d.dropLast)
            else .sdfRadix2 log fmt c d))

/-- The ticks of `R22TwiddleStage` and of `TwiddleStage`, `DIRECT` (`45_fft_stages.md` R207, R213), in every
state that meets the invariant: the last quarter of each frame is multiplied by `-j`; every sample is
rotated by the table's factor and reshaped to its own format. -/
def Obligations.RotationTicks : Prop :=
  ∀ (s : State) (log c : Nat) (fmt : Fmt), s.Inv →
    let x := s.offered ⟨fmt, 2⟩
    let c' := if s.drive.valid && s.drive.ready then (c + 1) % 2 ^ log else c
    (s.runs (.r22Twiddle log fmt c) → StageTick s s.drive.ready s.drive.valid
      (if 3 * 2 ^ log ≤ 4 * c then ⟨x.im, fmt.wrap (-x.re)⟩ else x) (.r22Twiddle log fmt c')) ∧
    (∀ (tw : Fmt) (table : List Payload), s.runs (.twiddleDirect log fmt tw table c) →
      ∃ t, table[c]? = some t ∧ StageTick s s.drive.ready s.drive.valid
        ⟨fmt.wrap ((x.re * t.re - x.im * t.im) / 2 ^ tw.f), fmt.wrap ((x.re * t.im + x.im * t.re) / 2 ^ tw.f)⟩
        (.twiddleDirect log fmt tw table c'))

/-- The tick of `TwiddleStage`, `THREE_MULT` (`45_fft_stages.md` R215): three one-slot registers, each loading
when it is empty or being emptied, the counter moving with the first. -/
def Obligations.ThreeMultiplierTick : Prop :=
  ∀ (s : State) (log c : Nat) (fmt tw : Fmt) (table : List Payload) (s1 : PipeSlot SumRecord)
    (s2 : PipeSlot ProductRecord) (s3 : PipeSlot Payload) (t : Payload),
    s.runs (.twiddleThreeMult log fmt tw table c s1 s2 s3) → table[c]? = some t →
    let x := s.offered ⟨fmt, 2⟩
    let u := fun (p : Fmt) (r : Int) => Fmt.wrap ⟨p.i + 1, p.f, p.signed⟩ r
    let q1 : Fmt := ⟨fmt.i + (tw.i + 1), fmt.f + tw.f, fmt.signed || tw.signed⟩
    let q2 : Fmt := ⟨tw.i + (fmt.i + 1), tw.f + fmt.f, tw.signed || fmt.signed⟩
    let q : Fmt := ⟨fmt.i + tw.i + 2, fmt.f + tw.f, fmt.signed || tw.signed⟩
    let r3 := s.drive.ready || !s3.v
    let r2 := r3 || !s2.v
    let r1 := r2 || !s1.v
    StageTick s r1 s3.v s3.p
      (.twiddleThreeMult log fmt tw table (if s.drive.valid && r1 then (c + 1) % 2 ^ log else c)
        (if r1 then ⟨s.drive.valid, if s.drive.valid then
            ⟨x.im, t.re, t.im, u tw (t.re - t.im), u fmt (x.re - x.im), u fmt (x.re + x.im)⟩ else s1.p⟩ else s1)
        (if r2 then ⟨s1.v, if s1.v then
            ⟨q1.wrap (s1.p.b * s1.p.u1), q2.wrap (s1.p.tc * s1.p.u2), q2.wrap (s1.p.td * s1.p.u3)⟩ else s2.p⟩ else s2)
        (if r3 then ⟨s2.v, if s2.v then
            ⟨fmt.wrap (q.wrap (s2.p.p1 + s2.p.p2) / 2 ^ tw.f), fmt.wrap (q.wrap (s2.p.p1 + s2.p.p3) / 2 ^ tw.f)⟩
            else s3.p⟩ else s3))

/-- `SerialBitExchange`'s tick (`46_bit_reversal.md` R231, R232): with `s = !c[j] | c[k]` the emerging entry
leaves as the sample enters, with `s = 0` the sample passes and the entry goes round. -/
def Obligations.BitExchangeTick : Prop :=
  ∀ (s : State) (j k c : Nat) (l : LinkFmt) (d : List Slot) (e : Slot), s.runs (.bitExchange j k l c d) →
    d.getLast? = some e →
    let c' := (c + 1) % 2 ^ (j + 1)
    (Nat.testBit c j = false ∨ Nat.testBit c k = true →
      StageTick s (s.drive.ready || !e.valid) (s.drive.valid && e.valid) e.payload
        (if s.drive.valid && (s.drive.ready || !e.valid) then .bitExchange j k l c' (⟨s.offered l, true⟩ :: d.dropLast)
          else .bitExchange j k l c d)) ∧
    (Nat.testBit c j = true → Nat.testBit c k = false →
      StageTick s s.drive.ready s.drive.valid (s.offered l)
        (if s.drive.valid && s.drive.ready then .bitExchange j k l c' (e :: d.dropLast) else .bitExchange j k l c d))

/-! ### Streams -/

/-- Stream function and stall independence (`42_stream_skid_delay.md` R127): of every legal unit, from its
reset state, whatever the environment drives and in every tick, what has left is a prefix of a function of
what has entered, the composition of the stages' stream functions (R128, R131, R132, R151, R152, R154,
R156, R157, R204, R207, R213, R215, R234). R127 is the spec's own derivation ("[derived: from the tick-update
clauses of every stage rule ...]"). -/
def Obligations.OutputsFollowTheStreamFunction : Prop :=
  ∀ (p : Pipeline) (env : List EnvTick) (n : Nat), p.Inv → p.fresh →
    let t := ticks n (started p env)
    t.outputs <+: chainStream p.stages t.inputs

/-- Nothing lost, nothing repeated, nothing late: of every legal unit, from its reset state, whatever the
environment drives and in every tick, each stage has given, or still holds, exactly its stream function of what
it has taken, from link to link (R122, R127, which the spec derives from the stage rules). -/
def Obligations.NothingDueIsLost : Prop :=
  ∀ (p : Pipeline) (env : List EnvTick) (n : Nat), p.Inv → p.fresh →
    let t := ticks n (started p env)
    ∃ stages, t.pipeline = some ⟨p.inLink, stages⟩ ∧ accountsFor stages t.inputs t.outputs

/-- Every due output is delivered (`42_stream_skid_delay.md` R127, second half; `70_reset_and_hazards.md` R295): of
every legal unit, from its reset state, after any run there is a number of accepting ticks after which,
whatever the environment offers and in whatever ticks it accepts, the whole stream function of what had entered
has left. The spec derives it from the stage rules. -/
def Obligations.DueOutputsAreDelivered : Prop :=
  ∀ (p : Pipeline) (env : List EnvTick) (n : Nat), p.Inv → p.fresh →
    ∃ k : Nat, ∀ later : List EnvTick, k ≤ (later.filter EnvTick.ready).length →
      let t := ticks n (started p env)
      chainStream p.stages t.inputs <+: (ticks later.length (t.setEnv later)).outputs

/-- A chain of stages with no register between their links gives what is due on the tick that makes it due:
its outputs are the whole stream function of its inputs (R204, R234: "transferred on the same tick"; the spec
derives both from the ticks). -/
def Obligations.ImmediateChainsGiveAllThatIsDue : Prop :=
  ∀ (p : Pipeline) (env : List EnvTick) (n : Nat), p.Inv → p.fresh → (∀ st ∈ p.stages, st.immediate = true) →
    let t := ticks n (started p env)
    t.outputs = chainStream p.stages t.inputs

/-- Producer obligations (`42_stream_skid_delay.md` R123): if the environment keeps what it offers until it
is taken, the unit keeps what it offers until it is taken, in every state. That every stage meets
the obligations is the spec's own derivation ("[derived: from the stage rules R128, R131, R132 ...]"). -/
def Obligations.OfferedOutputsStayOffered : Prop :=
  ∀ (p : Pipeline) (tick : Nat) (e e' : EnvTick),
    (e.valid = true → p.ready e = false → e'.valid = true ∧ e'.payload = e.payload) →
    (p.output tick e).valid = true → e.ready = false →
    (Pipeline.output (p.next tick e) (tick + 1) e').valid = true ∧
    (Pipeline.output (p.next tick e) (tick + 1) e').payload = (p.output tick e).payload

/-- Lifetime (`00_scope.md` R9): a tick changes registers and never a structural parameter, the stage list or
the number and depth of the delays. -/
def Obligations.TicksKeepStructure : Prop :=
  ∀ (n : Nat) (s : State),
    ((ticks n s).pipeline.map fun p => (p.inLink, p.stages.map Stage.cleared)) =
      (s.pipeline.map fun p => (p.inLink, p.stages.map Stage.cleared)) ∧
    (ticks n s).delays.map (fun u => (u.entry, u.depth, u.d.length)) = s.delays.map (fun u => (u.entry, u.depth, u.d.length))

/-- State changes only on transfers (`42_stream_skid_delay.md` R126, `60_exceptions.md` R269): a tick that
transfers nothing on either link of a stage leaves it as it is, but for a `StreamDelay`, whose line takes in
bubbles, and a `THREE_MULT` twiddle stage, whose substages have links between them. -/
def Obligations.StateMovesOnTransfersOnly : Prop :=
  ∀ (st : Stage) (u : Payload) (x : Fwd) (r : Bool),
    (∀ depth l d, st ≠ .streamDelay depth l d) →
    (∀ log fmt tw table c s1 s2 s3, st ≠ .twiddleThreeMult log fmt tw table c s1 s2 s3) →
    consume x.valid (st.ready r) = false → consume (st.forward x).valid r = false → st.next u x r = st

/-- The stream function of `SerialBitReversal` (`46_bit_reversal.md` R237): `y[q] = x[rev(q)]`, the low `bits`
bits reversed, `L_tot` samples late. R237 is the spec's own derivation ("[derived: from rule R234 and rule
R236]"). -/
def Obligations.BitReversalStream : Prop :=
  ∀ (bits : Nat) (l : LinkFmt) (x : List Payload),
    let y := chainStream (bitReversalStages bits l) x
    y.length = x.length - ((List.range (bits / 2)).map fun i => 2 ^ (bits - 1 - i) - 2 ^ i).sum ∧
    ∀ q q' : Nat, q < y.length →
      (∀ b, b < bits → Nat.testBit q' b = Nat.testBit q (bits - 1 - b)) →
      (∀ b, bits ≤ b → Nat.testBit q' b = Nat.testBit q b) →
      y[q]? = x[q']?

/-- `SerialFFT(2)` and `SerialFFT(4)` are the exact DFT of every frame (`47_serial_fft.md` R249), the four-point one
in bit-reversed order, or in natural order with `bitrev`; `3` samples late, `4` with `bitrev`, `1` for two
points. R249 is the spec's own derivation ("[derived: from `45_fft_stages.md` rule R217 and
`46_bit_reversal.md` rule R237]"). -/
def Obligations.FourPointTransformIsExact : Prop :=
  ∀ (fmt tw : Fmt) (variant : TwVariant) (skid : Bool) (x : List Payload), fmt.legal = true → fmt.signed = true →
    (∀ v ∈ x, LinkFmt.holds ⟨fmt, 2⟩ v = true) →
    let stream := fun (bits : Nat) (bitrev : Bool) => chainStream (fftStages bits fmt tw bitrev variant skid) x
    ((stream 2 false).length = x.length - 3 ∧ (stream 2 true).length = x.length - 4 ∧
      ∀ m : Nat,
        let a := sample x (4 * m)
        let b := sample x (4 * m + 1)
        let c := sample x (4 * m + 2)
        let d := sample x (4 * m + 3)
        let dft : List Payload :=
          [⟨a.re + b.re + c.re + d.re, a.im + b.im + c.im + d.im⟩,
           ⟨a.re + b.im - c.re - d.im, a.im - b.re - c.im + d.re⟩,
           ⟨a.re - b.re + c.re - d.re, a.im - b.im + c.im - d.im⟩,
           ⟨a.re - b.im - c.re + d.im, a.im + b.re - c.im - d.re⟩]
        ∀ q, q < 4 →
          (4 * m + q < x.length - 3 → (stream 2 false)[4 * m + q]? = dft[[0, 2, 1, 3].getD q 0]?) ∧
          (4 * m + q < x.length - 4 → (stream 2 true)[4 * m + q]? = dft[q]?)) ∧
    (∀ bitrev : Bool, (stream 1 bitrev).length = x.length - 1 ∧
      ∀ m : Nat,
        let a := sample x (2 * m)
        let b := sample x (2 * m + 1)
        (2 * m < x.length - 1 → (stream 1 bitrev)[2 * m]? = some ⟨a.re + b.re, a.im + b.im⟩) ∧
        (2 * m + 1 < x.length - 1 → (stream 1 bitrev)[2 * m + 1]? = some ⟨a.re - b.re, a.im - b.im⟩))

/-- The stream function of `CICDownsamplingFilter` without truncation (`44_cic_sizing_filters.md` R182): the
`N`-fold running sum, samples `0, R, 2R, ...`, the `N`-fold difference, wrapped to the full width, on each
lane. R182 is the spec's own derivation ("[derived: from rule R181 and `43_cic_stages.md` rules R151 to
R157]"). -/
def Obligations.DecimatorStream : Prop :=
  ∀ (n r m : Nat) (l : LinkFmt) (x : List Payload), 1 ≤ n → 1 ≤ r → 1 ≤ m → l.legal = true →
    (∀ v ∈ x, l.holds v = true) →
    let y := chainStream (downsamplingStages n r m l.fmt.width l.fmt.f l.lanes none) x
    let g := fun lane : List Int => ((difference m)^[n] (everyNth r (runningSum^[n] lane))).map
      (wrapS (fullWidth n r m l.fmt.width))
    y.map Payload.re = g (x.map Payload.re) ∧ y.map Payload.im = g (x.map Payload.im)

/-- The stream function of `CICUpsamplingFilter` (`44_cic_sizing_filters.md` R174): the `N`-fold difference, `R - 1`
zeros after every sample, the `N`-fold running sum, exact on each lane, since its true value fits the full
width; and, with a requested width, floored to it. R174 is the spec's own derivation ("[derived: from rule
R173 and `43_cic_stages.md` rules R151 to R157]"). -/
def Obligations.InterpolatorStream : Prop :=
  ∀ (n r m : Nat) (l : LinkFmt) (x : List Payload), 1 ≤ n → 1 ≤ r → 1 ≤ m → l.legal = true →
    (∀ v ∈ x, l.holds v = true) →
    let full := fullWidthUpsampling n r m l.fmt.width
    let stream := fun widthOut : Option Nat =>
      chainStream (upsamplingStages n r m l.fmt.width l.fmt.f l.lanes widthOut) x
    let v := fun lane : List Int => runningSum^[n] (zeroStuffed r ((difference m)^[n] lane))
    ((stream none).map Payload.re = v (x.map Payload.re) ∧ (stream none).map Payload.im = v (x.map Payload.im)) ∧
    ∀ o : Nat, 1 ≤ o → o ≤ full →
      (stream (some o)).map Payload.re = (v (x.map Payload.re)).map (fun y => y / 2 ^ (full - o)) ∧
      (stream (some o)).map Payload.im = (v (x.map Payload.im)).map (fun y => y / 2 ^ (full - o))
end

