-- ==== Sys2Proof/Laws/Arith.lean ====
section
/-! SUPPORT. What the integer functions of `Machine/Arith.lean` and the wrap of a format can give. -/

namespace Sys2Proof.Machine

theorem pow2_pos (n : Nat) : 0 < pow2 n := by unfold pow2; positivity

theorem pow2_succ (n : Nat) : pow2 (n + 1) = 2 * pow2 n := by simp [pow2, Nat.pow_succ, Nat.mul_comm]

theorem pow2_add (m n : Nat) : pow2 (m + n) = pow2 m * pow2 n := by simp [pow2, Nat.pow_add]

/-- An unsigned wrap lies in its range. -/
theorem wrapU_range (w : Nat) (x : Int) : 0 ≤ wrapU w x ∧ wrapU w x < pow2 w :=
  ⟨Int.emod_nonneg _ (pow2_pos w).ne', Int.emod_lt_of_pos _ (pow2_pos w)⟩

/-- A signed wrap lies in its range. -/
theorem wrapS_range (w : Nat) (hw : 1 ≤ w) (x : Int) :
    -pow2 (w - 1) ≤ wrapS w x ∧ wrapS w x < pow2 (w - 1) := by
  obtain ⟨k, rfl⟩ : ∃ k, w = k + 1 := ⟨w - 1, by omega⟩
  have h0 := Int.emod_nonneg (x + pow2 k) (pow2_pos (k + 1)).ne'
  have h1 := Int.emod_lt_of_pos (x + pow2 k) (pow2_pos (k + 1))
  have h2 := pow2_succ k
  simp only [wrapS, Nat.add_sub_cancel]
  omega

/-- A signed wrap keeps its argument modulo `2^W`. -/
theorem wrapS_emod (w : Nat) (x : Int) : wrapS w x % pow2 w = x % pow2 w := by
  unfold wrapS
  rw [Int.sub_emod, Int.emod_emod_of_dvd _ (dvd_refl _), ← Int.sub_emod]
  congr 1; ring

/-- A signed wrap leaves what is in its range. -/
theorem wrapS_of_range {w : Nat} (hw : 1 ≤ w) {x : Int} (h : -pow2 (w - 1) ≤ x ∧ x < pow2 (w - 1)) : wrapS w x = x := by
  obtain ⟨k, rfl⟩ : ∃ k, w = k + 1 := ⟨w - 1, by omega⟩
  have h2 := pow2_succ k
  simp only [Nat.add_sub_cancel] at h
  simp only [wrapS, Nat.add_sub_cancel]
  rw [Int.emod_eq_of_lt (by omega) (by omega)]
  omega

/-- Two integers that agree modulo `2^W` have one signed wrap. -/
theorem wrapS_congr (w : Nat) {x y : Int} (h : x % pow2 w = y % pow2 w) : wrapS w x = wrapS w y := by
  unfold wrapS
  rw [Int.add_emod x, Int.add_emod y, h]

/-- A legal format, as two comparisons (`40_fixed_point.md` R70). -/
theorem Fmt.legal_iff {p : Fmt} : p.legal = true ↔ 1 ≤ p.i + p.f ∧ (p.signed = true → 1 ≤ p.i) := by
  have : p.legal = (decide (1 ≤ p.i + p.f) && (!p.signed || decide (1 ≤ p.i))) := rfl
  rw [this]
  cases p.signed <;> simp

/-- A legal link, as comparisons (`42_stream_skid_delay.md` R121). -/
theorem LinkFmt.legal_iff {l : LinkFmt} :
    l.legal = true ↔ l.fmt.legal = true ∧ l.fmt.signed = true ∧ (l.lanes = 1 ∨ l.lanes = 2) := by
  simp [LinkFmt.legal, and_assoc]

/-- The bits of a legal format leave room for a sign. -/
theorem Fmt.one_le_width {p : Fmt} (h : p.legal = true) : 1 ≤ p.width := (Fmt.legal_iff.1 h).1

/-- Being in range, as two comparisons. -/
theorem Fmt.holds_iff {p : Fmt} {x : Int} : p.holds x = true ↔ p.least ≤ x ∧ x < p.bound := by
  simp only [Fmt.holds, Bool.and_eq_true, decide_eq_true_eq]

/-- The wrap of a legal format gives an element of its range. -/
theorem Fmt.wrap_holds {p : Fmt} (h : p.legal = true) (x : Int) : p.holds (p.wrap x) = true := by
  have hw := Fmt.one_le_width h
  rw [Fmt.holds_iff]
  unfold Fmt.wrap Fmt.least Fmt.bound
  cases hs : p.signed
  · simpa using wrapU_range p.width x
  · simpa using wrapS_range p.width hw x

/-- The wrap of a legal format leaves an element of its range. -/
theorem Fmt.wrap_of_holds {p : Fmt} (h : p.legal = true) {x : Int} (hx : p.holds x = true) : p.wrap x = x := by
  have hw := Fmt.one_le_width h
  rw [Fmt.holds_iff] at hx
  unfold Fmt.least Fmt.bound at hx
  unfold Fmt.wrap
  cases hs : p.signed
  · simp only [hs, Bool.false_eq_true, if_false] at hx ⊢
    exact Int.emod_eq_of_lt hx.1 hx.2
  · simp only [hs, if_true] at hx ⊢
    exact wrapS_of_range hw hx

/-- Zero is an element of every legal format's range. -/
theorem Fmt.holds_zero {p : Fmt} : p.holds 0 = true := by
  have h1 := pow2_pos (p.width - 1)
  have h2 := pow2_pos p.width
  rw [Fmt.holds_iff]
  unfold Fmt.least Fmt.bound
  cases p.signed <;> simp <;> omega

/-- What a legal link's wires carry is a payload of the link. -/
theorem LinkFmt.clip_holds {l : LinkFmt} (h : l.legal = true) (p : Payload) : l.holds (l.clip p) = true := by
  have hf : l.fmt.legal = true := by simp only [LinkFmt.legal, Bool.and_eq_true] at h; exact h.1.1
  unfold LinkFmt.holds LinkFmt.clip
  by_cases h2 : l.lanes = 2 <;> simp [h2, Fmt.wrap_holds hf]

/-- A payload of a legal link passes its wires unchanged. -/
theorem LinkFmt.clip_of_holds {l : LinkFmt} (h : l.legal = true) {p : Payload} (hp : l.holds p = true) : l.clip p = p := by
  have hf : l.fmt.legal = true := by simp only [LinkFmt.legal, Bool.and_eq_true] at h; exact h.1.1
  obtain ⟨re, im⟩ := p
  unfold LinkFmt.holds at hp
  unfold LinkFmt.clip
  by_cases h2 : l.lanes = 2
  · simp only [h2, if_true, Bool.and_eq_true] at hp
    simp [h2, Fmt.wrap_of_holds hf hp.1, Fmt.wrap_of_holds hf hp.2]
  · simp only [h2, if_false, Bool.and_eq_true, beq_iff_eq] at hp
    simp [h2, Fmt.wrap_of_holds hf hp.1, hp.2]

/-- An undefined payload is some payload of its link, whatever the free value is. -/
theorem undefPayload_holds {l : LinkFmt} (h : l.legal = true) (tick site : Nat) : l.holds (undefPayload l tick site) = true :=
  LinkFmt.clip_holds h _

end Sys2Proof.Machine
end

