-- ==== Sys2Proof/Laws/Ops.lean ====
section
/-! SUPPORT. What each shared operation can do, once: if it answers a next state, then which. -/

namespace Sys2Proof.Machine

/-- A chain of checks succeeds exactly when each does. -/
theorem Build.bind_eq_ok {α β : Type} {x : Build α} {g : α → Build β} {b : β} :
    x.bind g = .ok b ↔ ∃ a, x = .ok a ∧ g a = .ok b := by
  cases x <;> simp [Except.bind]

/-- A chain of checks fails with the first failure. -/
theorem Build.bind_eq_error {α β : Type} {x : Build α} {g : α → Build β} {e : ConfigError} :
    x.bind g = .error e ↔ x = .error e ∨ ∃ a, x = .ok a ∧ g a = .error e := by
  cases x <;> simp [Except.bind]

@[simp] theorem Build.ok_bind {α β : Type} (a : α) (g : α → Build β) : (Except.ok a : Build α).bind g = g a := rfl

@[simp] theorem Build.error_bind {α β : Type} (e : ConfigError) (g : α → Build β) :
    (Except.error e : Build α).bind g = .error e := rfl

/-- An operation delivers its value and changes nothing else. -/
theorem deliver_eq_next {s t : State} {b : Build Result} : deliver s b = .next t ↔ ∃ r, b = .ok r ∧ t = s.setResult r := by
  cases b <;> simp [deliver, raise, eq_comm]

/-- An operation stops only with a configuration error of its parameters. -/
theorem deliver_eq_fault {s : State} {b : Build Result} {f : Fault} :
    deliver s b = .fault f ↔ ∃ e, b = .error e ∧ f = .configError e := by
  cases b <;> simp [deliver, raise, eq_comm]

theorem deliver_ne_refused {s : State} {b : Build Result} {r : Refusal} : deliver s b ≠ .refused r := by
  cases b <;> simp [deliver, raise]

/-- Joining succeeds on an empty machine and on equal links. -/
theorem join_eq_ok {old : Option Pipeline} {u p : Pipeline} :
    join old u = .ok p ↔
      (old = none ∧ p = u) ∨ ∃ q, old = some q ∧ q.outLink = u.inLink ∧ p = ⟨q.inLink, q.stages ++ u.stages⟩ := by
  cases old with
  | none => simp [join, eq_comm]
  | some q =>
    by_cases h : q.outLink = u.inLink
    · simp [join, h, eq_comm]
    · simp [join, h]

/-- A construction changes the pipeline only, and happens before the first tick only. -/
theorem construct_eq_next {s t : State} {build : Option LinkFmt → Build Pipeline} :
    construct s build = .next t ↔
      s.ticks = 0 ∧ ∃ u p, build s.openLink = .ok u ∧ join s.pipeline u = .ok p ∧ t = s.setPipeline p := by
  unfold construct
  by_cases h : s.ticks = 0
  · cases hb : (build s.openLink).bind (join s.pipeline) with
    | ok p =>
      obtain ⟨u, h1, h2⟩ := Build.bind_eq_ok.1 hb
      simp only [h, if_true, true_and]
      constructor
      · intro ht
        cases ht
        exact ⟨u, p, h1, h2, rfl⟩
      · rintro ⟨u', p', h1', h2', rfl⟩
        rw [h1] at h1'; cases h1'
        rw [h2] at h2'; cases h2'
        rfl
    | error e =>
      simp only [h, if_true, true_and, raise]
      constructor
      · intro ht; cases ht
      · rintro ⟨u', p', h1', h2', -⟩
        rw [h1'] at hb
        simp [h2'] at hb
  · simp [h]

/-- A unit whose input link the machine accepts is joined to what is built. -/
theorem construct_of_accepts {s : State} {l : LinkFmt} {build : Option LinkFmt → Build Pipeline} {sts : List Stage}
    (h : s.accepts l) (hb : build s.openLink = .ok ⟨l, sts⟩) : construct s build = .next (s.withUnit ⟨l, sts⟩) := by
  obtain ⟨h0, h1⟩ := h
  rw [construct, if_pos h0, hb]
  cases hp : s.pipeline with
  | none => simp [join, State.withUnit, hp]
  | some p =>
    have : p.outLink = l := by rcases h1 with h1 | h1 <;> simp_all [State.openLink]
    simp [join, State.withUnit, hp, this]

/-- A parameter outside its domain stops the construction with its error. -/
theorem construct_of_error {s : State} {build : Option LinkFmt → Build Pipeline} {e : ConfigError} (h0 : s.ticks = 0)
    (hb : build s.openLink = .error e) : construct s build = .fault (.configError e) := by
  rw [construct, if_pos h0, hb]; rfl

/-- A construction after the first tick is refused (assumption log entry 8). -/
theorem construct_of_started {s : State} {build : Option LinkFmt → Build Pipeline} (h : s.ticks ≠ 0) :
    construct s build = .refused .constructionAfterStart := by simp [construct, h]

theorem constructDelay_eq_next {s t : State} {build : Build DelayUnit} :
    constructDelay s build = .next t ↔ s.ticks = 0 ∧ ∃ d, build = .ok d ∧ t = s.setDelays (s.delays ++ [d]) := by
  unfold constructDelay
  by_cases h : s.ticks = 0 <;> cases build <;> simp [h, raise, eq_comm]

/-! ### Storage -/

@[simp] theorem delayShift_length {α : Type} (d : List α) (e : α) : (delayShift d e).length = d.length := by
  simp [delayShift]

theorem mem_delayShift {α : Type} {d : List α} {e x : α} (h : x ∈ delayShift d e) : x = e ∨ x ∈ d := by
  have := List.mem_of_mem_dropLast h
  simpa using this

/-- The oldest entry is one of the line's, or the default of an empty line. -/
theorem delayRead_mem {α : Type} (z : α) (d : List α) : delayRead z d ∈ d ∨ (d = [] ∧ delayRead z d = z) := by
  cases d with
  | nil => exact .inr ⟨rfl, rfl⟩
  | cons a d => exact .inl (by
      simp only [delayRead, List.getLastD_eq_getLast?, List.getLast?_eq_some_getLast (List.cons_ne_nil a d), Option.getD_some]
      exact List.getLast_mem _)

/-- A line after a shift shows what stood one slot before the end. -/
theorem getD_delayShift_succ {α : Type} (d : List α) (e z : α) (k : Nat) (h : k + 1 < d.length) :
    (delayShift d e).getD (k + 1) z = d.getD k z := by
  unfold delayShift
  rw [List.getD_eq_getElem?_getD, List.getD_eq_getElem?_getD, List.getElem?_dropLast]
  simp [h]

/-- A counter stays below its modulus (`10_state.md` R39). -/
theorem countUp_lt {c m : Nat} (h : 0 < m) : countUp c m < m := Nat.mod_lt _ h

/-- A one-slot register keeps what it holds or takes what it is offered. -/
theorem PipeSlot.load_cases {α : Type} (r : PipeSlot α) (rdy v : Bool) (p : α) :
    (r.ready rdy = false ∧ r.load rdy v p = r) ∨ (r.ready rdy = true ∧ r.load rdy v p = ⟨v, if v then p else r.p⟩) := by
  cases h : r.ready rdy <;> simp [PipeSlot.load, h]

/-! ### The step -/

/-- What a step can do. -/
theorem step_cases (s : State) :
    (s.program = [] ∧ step s = .next (tick s)) ∨
    (∃ i rest, decode s.program = .ok (i, rest) ∧ s.program ≠ [] ∧ step s = exec i (s.setProgram rest)) ∨
    (∃ e, decode s.program = .error e ∧ s.program ≠ [] ∧ step s = .refused (refuseBytes e)) := by
  unfold step fetch
  cases hp : s.program with
  | nil => exact .inl ⟨rfl, rfl⟩
  | cons b bs =>
    right
    cases hd : decode (b :: bs) with
    | ok r => exact .inl ⟨r.1, r.2, rfl, by simp, by simp only [hd]⟩
    | error e => exact .inr ⟨e, rfl, by simp, by simp only [hd]⟩

end Sys2Proof.Machine
end

