-- ==== Sys2Proof/Laws/Checks.lean ====
section
/-! SUPPORT. What each check of a parameter lets pass: a legal parameter, as it was written. -/

namespace Sys2Proof.Machine

/-- A legal format, as it is written, passes. -/
@[simp] theorem checkFormat_param {p : Fmt} (h : p.legal = true) : checkFormat p.param = .ok p := by
  obtain ⟨i, f, s⟩ := p
  have ⟨h1, h2⟩ := Fmt.legal_iff.1 h
  dsimp only at h1 h2
  unfold checkFormat Fmt.param
  rw [if_neg]
  · simp
  · dsimp only
    rintro (h | h | h | ⟨hs, h⟩)
    · omega
    · omega
    · omega
    · have := h2 hs
      omega

/-- What passes the check of a format is legal. -/
theorem checkFormat_legal {q : FormatParam} {p : Fmt} (h : checkFormat q = .ok p) : p.legal = true ∧ p.param = q := by
  unfold checkFormat at h
  split at h
  · cases h
  · rename_i hn
    cases h
    simp only [not_or, not_and] at hn
    obtain ⟨i, f, s⟩ := q
    rw [Fmt.legal_iff]
    dsimp only at hn ⊢
    refine ⟨⟨by omega, fun hs => ?_⟩, ?_⟩
    · have := hn.2.2.2 hs
      omega
    · simp only [Fmt.param, FormatParam.mk.injEq, and_true]
      omega

@[simp] theorem checkPayloadFormat_param {p : Fmt} (h : p.legal = true) (hs : p.signed = true) :
    checkPayloadFormat p.param = .ok p := by
  simp [checkPayloadFormat, h, requireSigned, hs]

@[simp] theorem checkTwiddleFormat_param {p : Fmt} (hs : p.signed = true) (hi : 2 ≤ p.i) :
    checkTwiddleFormat p.param = .ok p := by
  have h : p.legal = true := Fmt.legal_iff.2 ⟨by omega, fun _ => by omega⟩
  simp [checkTwiddleFormat, h, hs, hi]

/-- A value of a legal format in its range passes. -/
@[simp] theorem checkValue_param {v : Fx} (h : v.legal = true) : checkValue v.param = .ok v := by
  simp only [Fx.legal, Bool.and_eq_true] at h
  simp [checkValue, Fx.param, h.1, h.2]

@[simp] theorem checkComplex_param {x : Cx} (h : x.legal = true) : checkComplex x.param = .ok x := by
  simp only [Cx.legal, Bool.and_eq_true] at h
  simp [checkComplex, Cx.param, h.1.1, h.1.2, h.2]

/-- A natural number at least `least` passes. -/
@[simp] theorem checkAtLeast_natCast {least : Int} {e : ConfigError} {n : Nat} (h : least ≤ n) :
    checkAtLeast least e (n : Int) = .ok n := by
  unfold checkAtLeast
  rw [if_neg (by omega)]
  simp

/-- What passes is at least `least`. -/
theorem checkAtLeast_eq_ok {least x : Int} {e : ConfigError} {n : Nat} :
    checkAtLeast least e x = .ok n ↔ least ≤ x ∧ n = x.toNat := by
  unfold checkAtLeast
  by_cases h : x < least
  · simp [h]
  · simp [h, Int.not_lt.1 h, eq_comm]

@[simp] theorem checkLanes_natCast {n : Nat} (h : n = 1 ∨ n = 2) : checkLanes (n : Int) = .ok n := by
  rcases h with rfl | rfl <;> rfl

/-- A legal link's type, as it is written, passes. -/
@[simp] theorem checkLink_param {l : LinkFmt} (h : l.legal = true) : checkLink l.fmt.param l.lanes = .ok l := by
  simp only [LinkFmt.legal, Bool.and_eq_true, Bool.or_eq_true, beq_iff_eq] at h
  simp [checkLink, h.1.1, h.1.2, h.2]

/-- A legal lane of a `PipeReg`'s function, as it is written, passes. -/
@[simp] theorem checkLaneExpr_param {l : LinkFmt} {e : LaneExpr} (h : e.legal l = true) : checkLaneExpr l e.param = .ok e := by
  induction e with
  | inRe => rfl
  | inIm => simp_all [LaneExpr.legal, LaneExpr.param, checkLaneExpr, requireTwoLanes]
  | const v => simp_all [LaneExpr.legal, LaneExpr.param, checkLaneExpr]
  | add a b iha ihb => simp_all [LaneExpr.legal, LaneExpr.param, checkLaneExpr]
  | sub a b iha ihb => simp_all [LaneExpr.legal, LaneExpr.param, checkLaneExpr]
  | mul a b iha ihb => simp_all [LaneExpr.legal, LaneExpr.param, checkLaneExpr]
  | reshape a p ih => simp_all [LaneExpr.legal, LaneExpr.param, checkLaneExpr, checkRounding]
  | rshift a n ih => simp_all [LaneExpr.legal, LaneExpr.param, checkLaneExpr, checkShift]
  | neg a ih => simp_all [LaneExpr.legal, LaneExpr.param, checkLaneExpr, requireSigned]
  | select s bit a b ihs iha ihb => simp_all [LaneExpr.legal, LaneExpr.param, checkLaneExpr]

/-- A legal function, as it is written, passes. -/
@[simp] theorem checkPipeFn_param {g : PipeFn} (h : g.legal = true) : checkPipeFn g.param = .ok g := by
  obtain ⟨l, c, ⟨p, n⟩⟩ := g
  simp only [PipeFn.legal, Bool.and_eq_true] at h
  obtain ⟨⟨hl, ho⟩, hg⟩ := h
  have hp := (LinkFmt.legal_iff.1 ho).2.1
  cases c with
  | none => simp_all [checkPipeFn, PipeFn.param]
  | some c =>
    obtain ⟨re, im⟩ := c
    cases im with
    | none => simp_all [checkPipeFn, PipeFn.param, checkCombFn, requireSigned]
    | some im =>
      simp_all [checkPipeFn, PipeFn.param, checkCombFn, requireSigned]
      exact hg.2.1.2.symm.trans hg.1.2

/-- The sum and the product of legal formats are legal. -/
theorem Fmt.sum_legal {p q : Fmt} (hp : p.legal = true) (hq : q.legal = true) : (Fmt.sum p q).legal = true := by
  rw [Fmt.legal_iff] at *
  simp only [Fmt.sum]
  exact ⟨by omega, fun _ => by omega⟩

theorem Fmt.product_legal {p q : Fmt} (hp : p.legal = true) (hq : q.legal = true) : (Fmt.product p q).legal = true := by
  rw [Fmt.legal_iff] at *
  simp only [Fmt.product, Bool.or_eq_true]
  exact ⟨by omega, fun h => by rcases h with h | h <;> [have := hp.2 h; have := hq.2 h] <;> omega⟩

/-- The format of a legal lane is legal. -/
theorem LaneExpr.resultFmt_legal {l : LinkFmt} (hl : l.fmt.legal = true) {e : LaneExpr} (h : e.legal l = true) :
    (e.resultFmt l.fmt).legal = true := by
  induction e with
  | inRe => exact hl
  | inIm => exact hl
  | const v => simp_all [LaneExpr.legal, LaneExpr.resultFmt, Fx.legal]
  | add a b iha ihb => simp_all [LaneExpr.legal, LaneExpr.resultFmt, Fmt.sum_legal]
  | sub a b iha ihb => simp_all [LaneExpr.legal, LaneExpr.resultFmt, Fmt.sum_legal]
  | mul a b iha ihb => simp_all [LaneExpr.legal, LaneExpr.resultFmt, Fmt.product_legal]
  | reshape a p ih => simp_all [LaneExpr.legal, LaneExpr.resultFmt]
  | rshift a n ih => simp_all [LaneExpr.legal, LaneExpr.resultFmt]
  | neg a ih => simp_all [LaneExpr.legal, LaneExpr.resultFmt]
  | select s bit a b ihs iha ihb => simp_all [LaneExpr.legal, LaneExpr.resultFmt]

/-- What passes the check of a value, and of a link, is legal. -/
theorem checkValue_legal {p : ValueParam} {v : Fx} (h : checkValue p = .ok v) : v.legal = true := by
  obtain ⟨fmt, h1, h2⟩ := Build.bind_eq_ok.1 h
  split at h2 <;> cases h2
  simp_all [Fx.legal, (checkFormat_legal h1).1]

theorem checkLink_legal {p : FormatParam} {n : Int} {l : LinkFmt} (h : checkLink p n = .ok l) : l.legal = true := by
  obtain ⟨fmt, h1, h2⟩ := Build.bind_eq_ok.1 h
  obtain ⟨m, h3, h4⟩ := Build.bind_eq_ok.1 h2
  obtain ⟨fmt', h5, h6⟩ := Build.bind_eq_ok.1 h1
  cases h4
  unfold requireSigned at h6
  unfold checkLanes at h3
  split at h6 <;> cases h6
  split at h3 <;> cases h3
  rename_i hn
  rw [LinkFmt.legal_iff]
  exact ⟨(checkFormat_legal h5).1, by assumption, by dsimp only; omega⟩

/-- What passes the check of a lane is legal. -/
theorem checkLaneExpr_legal {l : LinkFmt} {q : LaneExprParam} : ∀ {e : LaneExpr}, checkLaneExpr l q = .ok e → e.legal l = true := by
  induction q with
  | inRe => intro e h; cases h; rfl
  | inIm =>
    intro e h
    simp only [checkLaneExpr, requireTwoLanes] at h
    split at h <;> cases h
    simpa [LaneExpr.legal] using ‹l.lanes = 2›
  | const v =>
    intro e h
    obtain ⟨v, h1, h2⟩ := Build.bind_eq_ok.1 h
    cases h2
    exact checkValue_legal h1
  | add a b iha ihb =>
    intro e h
    obtain ⟨a, h1, h⟩ := Build.bind_eq_ok.1 h
    obtain ⟨b, h2, h⟩ := Build.bind_eq_ok.1 h
    cases h
    simp [LaneExpr.legal, iha h1, ihb h2]
  | sub a b iha ihb =>
    intro e h
    obtain ⟨a, h1, h⟩ := Build.bind_eq_ok.1 h
    obtain ⟨b, h2, h⟩ := Build.bind_eq_ok.1 h
    cases h
    simp [LaneExpr.legal, iha h1, ihb h2]
  | mul a b iha ihb =>
    intro e h
    obtain ⟨a, h1, h⟩ := Build.bind_eq_ok.1 h
    obtain ⟨b, h2, h⟩ := Build.bind_eq_ok.1 h
    cases h
    simp [LaneExpr.legal, iha h1, ihb h2]
  | reshape a p r ih =>
    intro e h
    obtain ⟨a, h1, h⟩ := Build.bind_eq_ok.1 h
    obtain ⟨p, h2, h⟩ := Build.bind_eq_ok.1 h
    obtain ⟨_, h3, h⟩ := Build.bind_eq_ok.1 h
    cases h
    simp [LaneExpr.legal, ih h1, (checkFormat_legal h2).1]
  | rshift a n ih =>
    intro e h
    obtain ⟨a, h1, h⟩ := Build.bind_eq_ok.1 h
    obtain ⟨n, h2, h⟩ := Build.bind_eq_ok.1 h
    cases h
    simp [LaneExpr.legal, ih h1]
  | neg a ih =>
    intro e h
    obtain ⟨a, h1, h⟩ := Build.bind_eq_ok.1 h
    obtain ⟨p, h2, h⟩ := Build.bind_eq_ok.1 h
    cases h
    unfold requireSigned at h2
    split at h2 <;> cases h2
    simp [LaneExpr.legal, ih h1, *]
  | select s bit a b ihs iha ihb =>
    intro e h
    obtain ⟨s, h1, h⟩ := Build.bind_eq_ok.1 h
    obtain ⟨a, h2, h⟩ := Build.bind_eq_ok.1 h
    obtain ⟨b, h3, h⟩ := Build.bind_eq_ok.1 h
    split at h <;> cases h
    simp [LaneExpr.legal, ihs h1, iha h2, ihb h3, *]

/-- What passes the check of a function is legal. -/
theorem checkPipeFn_legal {q : PipeFnParam} {g : PipeFn} (h : checkPipeFn q = .ok g) : g.legal = true := by
  obtain ⟨l, h1, h⟩ := Build.bind_eq_ok.1 h
  have hl := checkLink_legal h1
  split at h
  · cases h; simp [PipeFn.legal, hl]
  · obtain ⟨re, h2, h⟩ := Build.bind_eq_ok.1 h
    obtain ⟨p, h3, h⟩ := Build.bind_eq_ok.1 h
    have hre := checkLaneExpr_legal h2
    have hp := LaneExpr.resultFmt_legal (LinkFmt.legal_iff.1 hl).1 hre
    unfold requireSigned at h3
    split at h3 <;> cases h3
    split at h
    · cases h
      simp_all [PipeFn.legal, LinkFmt.legal_iff]
    · obtain ⟨im, h4, h⟩ := Build.bind_eq_ok.1 h
      split at h <;> cases h
      simp_all [PipeFn.legal, LinkFmt.legal_iff, checkLaneExpr_legal h4]

theorem isPow2_two_pow (k : Nat) : isPow2 (2 ^ k) = true := by
  simp [isPow2, Nat.log2_two_pow]

/-- A power of two, at least `least`, passes as its logarithm. -/
@[simp] theorem checkSize_two_pow {least : Int} {k : Nat} (h : least ≤ ((2 ^ k : Nat) : Int)) :
    checkSize least ((2 ^ k : Nat) : Int) = .ok k := by
  unfold checkSize
  rw [if_neg]
  · rw [Int.toNat_natCast, Nat.log2_two_pow]
  · simp only [Int.toNat_natCast, isPow2_two_pow, Bool.true_eq_false, or_false]
    omega

end Sys2Proof.Machine
end

