-- ==== Sys2Proof/Laws/Codec.lean ====
section
/-! SUPPORT. The reader of each operand reads back what was put, and leaves the bytes after it. -/

namespace Sys2Proof

theorem Reader.bind_ok {α β : Type} {r : Reader α} {k : α → Reader β} {bs rest : List Byte} {a : α}
    (h : r bs = .ok (a, rest)) : (r.bind k) bs = k a rest := by
  simp [Reader.bind, h]

/-- A numeral of a positive number is not the numeral of zero, and reads back. -/
theorem readNat_putNatFuel (fuel : Nat) : ∀ n, n ≤ fuel → ∀ rest, readNat (putNatFuel fuel n ++ rest) = .ok (n, rest) := by
  induction fuel with
  | zero =>
    intro n hn rest
    obtain rfl : n = 0 := by omega
    simp [putNatFuel, readNat]
  | succ fuel ih =>
    intro n hn rest
    unfold putNatFuel
    by_cases h : n < 128
    · have : n % 256 = n := by omega
      simp [h, readNat, this]
    · have hb : (n % 128 + 128) % 256 = n % 128 + 128 := by omega
      have hq : n / 128 ≠ 0 := by omega
      have := ih (n / 128) (by omega) rest
      simp only [h, if_false, List.cons_append, readNat, BitVec.toNat_ofNat, Nat.reducePow, hb, this, hq]
      rw [if_neg (by omega)]
      congr 2
      omega

@[simp] theorem readNat_putNat (n : Nat) (rest : List Byte) : readNat (putNat n ++ rest) = .ok (n, rest) :=
  readNat_putNatFuel n n (le_refl n) rest

theorem unfoldInt_foldInt (x : Int) : unfoldInt (foldInt x) = x := by
  unfold unfoldInt foldInt
  by_cases h : 0 ≤ x
  · simp only [h, if_true]
    rw [if_pos (by omega)]
    omega
  · simp only [h, if_false]
    rw [if_neg (by omega)]
    omega

@[simp] theorem readInt_putInt (o x : Int) (rest : List Byte) : readInt o (putInt o x ++ rest) = .ok (x, rest) := by
  rw [readInt, putInt, Reader.bind_ok (readNat_putNat _ _), Reader.pure, unfoldInt_foldInt]
  congr 2
  omega

@[simp] theorem readBool_putBool (b : Bool) (rest : List Byte) : readBool (putBool b ++ rest) = .ok (b, rest) := by
  cases b <;> rfl

@[simp] theorem readFormat_putFormat (p : FormatParam) (rest : List Byte) :
    readFormat (putFormat p ++ rest) = .ok (p, rest) := by
  obtain ⟨i, f, s⟩ := p
  unfold readFormat putFormat
  simp only [List.append_assoc]
  rw [Reader.bind_ok (readInt_putInt _ _ _), Reader.bind_ok (readInt_putInt _ _ _),
    Reader.bind_ok (readBool_putBool _ _), Reader.pure]
  simp

@[simp] theorem readValue_putValue (v : ValueParam) (rest : List Byte) : readValue (putValue v ++ rest) = .ok (v, rest) := by
  unfold readValue putValue
  simp only [List.append_assoc]
  rw [Reader.bind_ok (readInt_putInt _ _ _), Reader.bind_ok (readFormat_putFormat _ _), Reader.pure]

@[simp] theorem readRounding_putRounding (r : Rounding) (rest : List Byte) :
    readRounding (putRounding r ++ rest) = .ok (r, rest) := by
  cases r with
  | truncate => rw [readRounding, putRounding, Reader.bind_ok (readNat_putNat _ _)]; rfl
  | other n => rw [readRounding, putRounding, Reader.bind_ok (readNat_putNat _ _)]; rfl

theorem readByte_putChoice {n : Nat} (h : n < 256) (rest : List Byte) : readByte (putChoice n ++ rest) = .ok (n, rest) := by
  simp [putChoice, readByte, Nat.mod_eq_of_lt h]

/-- How deep the parts of an expression lie below one another. -/
def LaneExprParam.depth : LaneExprParam → Nat
  | .inRe => 1
  | .inIm => 1
  | .const _ => 1
  | .add a b => max a.depth b.depth + 1
  | .sub a b => max a.depth b.depth + 1
  | .mul a b => max a.depth b.depth + 1
  | .reshape a _ _ => a.depth + 1
  | .rshift a _ => a.depth + 1
  | .neg a => a.depth + 1
  | .select s _ a b => max s.depth (max a.depth b.depth) + 1

/-- Every part of an expression takes a byte. -/
theorem LaneExprParam.depth_le (e : LaneExprParam) : e.depth ≤ (putLaneExpr e).length := by
  induction e <;> simp only [depth, putLaneExpr, putChoice, List.length_append, List.length_cons, List.length_nil] <;> omega

/-- An expression reads back, where the fuel is not less than its depth. -/
theorem readLaneExprFuel_putLaneExpr (e : LaneExprParam) : ∀ fuel, e.depth ≤ fuel → ∀ rest,
    readLaneExprFuel fuel (putLaneExpr e ++ rest) = .ok (e, rest) := by
  induction e with
  | inRe =>
    rintro (- | fuel) h rest
    · simp [LaneExprParam.depth] at h
    · rfl
  | inIm =>
    rintro (- | fuel) h rest
    · simp [LaneExprParam.depth] at h
    · rfl
  | const v =>
    rintro (- | fuel) h rest
    · simp [LaneExprParam.depth] at h
    · rw [readLaneExprFuel, putLaneExpr, List.append_assoc, Reader.bind_ok (readByte_putChoice (by decide) _)]
      simp only [Reader.bind_ok (readValue_putValue _ _), Reader.pure]
  | add a b iha ihb =>
    rintro (- | fuel) h rest <;> simp only [LaneExprParam.depth] at h
    · omega
    · rw [readLaneExprFuel, putLaneExpr, List.append_assoc, Reader.bind_ok (readByte_putChoice (by decide) _)]
      simp only [List.append_assoc, Reader.bind_ok (iha fuel (by omega) _), Reader.bind_ok (ihb fuel (by omega) _), Reader.pure]
  | sub a b iha ihb =>
    rintro (- | fuel) h rest <;> simp only [LaneExprParam.depth] at h
    · omega
    · rw [readLaneExprFuel, putLaneExpr, List.append_assoc, Reader.bind_ok (readByte_putChoice (by decide) _)]
      simp only [List.append_assoc, Reader.bind_ok (iha fuel (by omega) _), Reader.bind_ok (ihb fuel (by omega) _), Reader.pure]
  | mul a b iha ihb =>
    rintro (- | fuel) h rest <;> simp only [LaneExprParam.depth] at h
    · omega
    · rw [readLaneExprFuel, putLaneExpr, List.append_assoc, Reader.bind_ok (readByte_putChoice (by decide) _)]
      simp only [List.append_assoc, Reader.bind_ok (iha fuel (by omega) _), Reader.bind_ok (ihb fuel (by omega) _), Reader.pure]
  | reshape a p r ih =>
    rintro (- | fuel) h rest <;> simp only [LaneExprParam.depth] at h
    · omega
    · rw [readLaneExprFuel, putLaneExpr, List.append_assoc, Reader.bind_ok (readByte_putChoice (by decide) _)]
      simp only [List.append_assoc, Reader.bind_ok (ih fuel (by omega) _), Reader.bind_ok (readFormat_putFormat _ _),
        Reader.bind_ok (readRounding_putRounding _ _), Reader.pure]
  | rshift a n ih =>
    rintro (- | fuel) h rest <;> simp only [LaneExprParam.depth] at h
    · omega
    · rw [readLaneExprFuel, putLaneExpr, List.append_assoc, Reader.bind_ok (readByte_putChoice (by decide) _)]
      simp only [List.append_assoc, Reader.bind_ok (ih fuel (by omega) _), Reader.bind_ok (readInt_putInt _ _ _), Reader.pure]
  | neg a ih =>
    rintro (- | fuel) h rest <;> simp only [LaneExprParam.depth] at h
    · omega
    · rw [readLaneExprFuel, putLaneExpr, List.append_assoc, Reader.bind_ok (readByte_putChoice (by decide) _)]
      simp only [Reader.bind_ok (ih fuel (by omega) _), Reader.pure]
  | select s bit a b ihs iha ihb =>
    rintro (- | fuel) h rest <;> simp only [LaneExprParam.depth] at h
    · omega
    · rw [readLaneExprFuel, putLaneExpr, List.append_assoc, Reader.bind_ok (readByte_putChoice (by decide) _)]
      simp only [List.append_assoc, Reader.bind_ok (ihs fuel (by omega) _), Reader.bind_ok (readNat_putNat _ _),
        Reader.bind_ok (iha fuel (by omega) _), Reader.bind_ok (ihb fuel (by omega) _), Reader.pure]

@[simp] theorem readLaneExpr_putLaneExpr (e : LaneExprParam) (rest : List Byte) :
    readLaneExpr (putLaneExpr e ++ rest) = .ok (e, rest) := by
  refine readLaneExprFuel_putLaneExpr e _ ?_ rest
  have := e.depth_le
  rw [List.length_append]
  omega

/-- An optional operand reads back, where the operand does. -/
theorem readOption_putOption {α : Type} {read : Reader α} {put : α → List Byte}
    (h : ∀ a rest, read (put a ++ rest) = .ok (a, rest)) (o : Option α) (rest : List Byte) :
    readOption read (putOption put o ++ rest) = .ok (o, rest) := by
  cases o with
  | none => rfl
  | some a =>
    rw [readOption, putOption, List.append_assoc, Reader.bind_ok (readByte_putChoice (by decide) _)]
    simp only [Reader.bind_ok (h _ _), Reader.pure]

@[simp] theorem readPipeFn_putPipeFn (g : PipeFnParam) (rest : List Byte) :
    readPipeFn (putPipeFn g ++ rest) = .ok (g, rest) := by
  have hc : ∀ (c : CombFnParam) rest, readCombFn (putCombFn c ++ rest) = .ok (c, rest) := by
    intro c rest
    rw [readCombFn, putCombFn, List.append_assoc, Reader.bind_ok (readLaneExpr_putLaneExpr _ _),
      Reader.bind_ok (readOption_putOption readLaneExpr_putLaneExpr _ _), Reader.pure]
  rw [readPipeFn, putPipeFn, List.append_assoc, List.append_assoc, Reader.bind_ok (readFormat_putFormat _ _),
    Reader.bind_ok (readInt_putInt _ _ _), Reader.bind_ok (readOption_putOption hc _ _), Reader.pure]

end Sys2Proof
end

