-- ==== Sys2Proof/Laws/PerInstr.lean ====
section
/-! SUPPORT. Statements about every operation as syntax, one lemma per constructor. -/

namespace Sys2Proof.Laws.SelectorFirst

/-- The first byte of an operation is its selector of `30_encoding.md` R56, and the selector fits the
byte. -/
def Statement (i : Instr) : Prop :=
  ∃ operands, encode i = BitVec.ofNat 8 (selector i) :: operands ∧ (BitVec.ofNat 8 (selector i)).toNat = selector i

theorem fixedPointConst (fmt : FormatParam) (raw : Int) : Statement (.fixedPointConst fmt raw) := ⟨_, rfl, rfl⟩
theorem add (a b : ValueParam) : Statement (.add a b) := ⟨_, rfl, rfl⟩
theorem sub (a b : ValueParam) : Statement (.sub a b) := ⟨_, rfl, rfl⟩
theorem mul (a b : ValueParam) : Statement (.mul a b) := ⟨_, rfl, rfl⟩
theorem reshape (v : ValueParam) (newFormat : FormatParam) (rounding : Rounding) : Statement (.reshape v newFormat rounding) := ⟨_, rfl, rfl⟩
theorem rshift (v : ValueParam) (n : Int) : Statement (.rshift v n) := ⟨_, rfl, rfl⟩
theorem neg (v : ValueParam) : Statement (.neg v) := ⟨_, rfl, rfl⟩
theorem complex (re im : ValueParam) : Statement (.complex re im) := ⟨_, rfl, rfl⟩
theorem cAdd (x y : ComplexParam) : Statement (.cAdd x y) := ⟨_, rfl, rfl⟩
theorem cSub (x y : ComplexParam) : Statement (.cSub x y) := ⟨_, rfl, rfl⟩
theorem cMul (x y : ComplexParam) : Statement (.cMul x y) := ⟨_, rfl, rfl⟩
theorem cMul3 (x t : ComplexParam) : Statement (.cMul3 x t) := ⟨_, rfl, rfl⟩
theorem cScale (x : ComplexParam) (k : ValueParam) : Statement (.cScale x k) := ⟨_, rfl, rfl⟩
theorem cRshift (x : ComplexParam) (n : Int) : Statement (.cRshift x n) := ⟨_, rfl, rfl⟩
theorem cReshape (x : ComplexParam) (fmt : FormatParam) (rounding : Rounding) : Statement (.cReshape x fmt rounding) := ⟨_, rfl, rfl⟩
theorem cMulnegj (x : ComplexParam) : Statement (.cMulnegj x) := ⟨_, rfl, rfl⟩
theorem skidBuffer (fmt : FormatParam) (lanes : Int) : Statement (.skidBuffer fmt lanes) := ⟨_, rfl, rfl⟩
theorem delay (depth : Int) (entry : EntryTypeParam) (impl : DelayImpl) : Statement (.delay depth entry impl) := ⟨_, rfl, rfl⟩
theorem streamDelay (depth : Int) (fmt : FormatParam) (lanes : Int) (impl : DelayImpl) : Statement (.streamDelay depth fmt lanes impl) := ⟨_, rfl, rfl⟩
theorem pipeReg (g : PipeFnParam) : Statement (.pipeReg g) := ⟨_, rfl, rfl⟩
theorem integrator (wIn w lanes : Int) : Statement (.integrator wIn w lanes) := ⟨_, rfl, rfl⟩
theorem comb (wIn m : Int) (wOut : Option Int) (lanes : Int) : Statement (.comb wIn m wOut lanes) := ⟨_, rfl, rfl⟩
theorem upsampler (r w lanes : Int) : Statement (.upsampler r w lanes) := ⟨_, rfl, rfl⟩
theorem downsampler (r w lanes : Int) : Statement (.downsampler r w lanes) := ⟨_, rfl, rfl⟩
theorem requant (k wIn wOut lanes : Int) : Statement (.requant k wIn wOut lanes) := ⟨_, rfl, rfl⟩
theorem cicGrowth (n r m : Int) : Statement (.cicGrowth n r m) := ⟨_, rfl, rfl⟩
theorem cicTruncation (n r m wIn : Int) (widthOut : Option Int) : Statement (.cicTruncation n r m wIn widthOut) := ⟨_, rfl, rfl⟩
theorem cicUpsamplingFilter (n r m : Int) (fmtIn : FormatParam) (lanes : Int) (widthOut : Option Int) (outFmt : Option FormatParam) : Statement (.cicUpsamplingFilter n r m fmtIn lanes widthOut outFmt) := ⟨_, rfl, rfl⟩
theorem cicDownsamplingFilter (n r m : Int) (fmtIn : FormatParam) (lanes : Int) (widthOut : Option Int) (outFmt : Option FormatParam) : Statement (.cicDownsamplingFilter n r m fmtIn lanes widthOut outFmt) := ⟨_, rfl, rfl⟩
theorem sdfRadix2Stage (n : Int) (fmtIn : FormatParam) : Statement (.sdfRadix2Stage n fmtIn) := ⟨_, rfl, rfl⟩
theorem r22TwiddleStage (n : Int) (fmt : FormatParam) : Statement (.r22TwiddleStage n fmt) := ⟨_, rfl, rfl⟩
theorem twiddleStageDirect (n : Int) (fmt twFmt : FormatParam) : Statement (.twiddleStageDirect n fmt twFmt) := ⟨_, rfl, rfl⟩
theorem twiddleStageThreeMult (n : Int) (fmt twFmt : FormatParam) : Statement (.twiddleStageThreeMult n fmt twFmt) := ⟨_, rfl, rfl⟩
theorem twiddleTable (n : Int) (twFmt : FormatParam) : Statement (.twiddleTable n twFmt) := ⟨_, rfl, rfl⟩
theorem serialBitExchange (j k : Int) (fmt : FormatParam) (lanes : Int) : Statement (.serialBitExchange j k fmt lanes) := ⟨_, rfl, rfl⟩
theorem serialBitReversal (n : Int) (fmt : FormatParam) (lanes : Int) : Statement (.serialBitReversal n fmt lanes) := ⟨_, rfl, rfl⟩
theorem serialFFT (n : Int) (fmtIn : FormatParam) (bitrev : Bool) (twFmt : FormatParam) (variant : TwVariant) (skid : Bool) : Statement (.serialFFT n fmtIn bitrev twFmt variant skid) := ⟨_, rfl, rfl⟩

end Sys2Proof.Laws.SelectorFirst
end

