-- ==== Sys2Proof/Laws/State.lean ====
section
/-! SUPPORT. One lemma per field per update of the state, so that no proof unfolds a record update. -/

namespace Sys2Proof.Machine

/-! ### setProgram -/

@[simp] theorem State.setProgram_program (s : State) (p) : (s.setProgram p).program = p := rfl
@[simp] theorem State.setProgram_pipeline (s : State) (p) : (s.setProgram p).pipeline = s.pipeline := rfl
@[simp] theorem State.setProgram_delays (s : State) (p) : (s.setProgram p).delays = s.delays := rfl
@[simp] theorem State.setProgram_env (s : State) (p) : (s.setProgram p).env = s.env := rfl
@[simp] theorem State.setProgram_ticks (s : State) (p) : (s.setProgram p).ticks = s.ticks := rfl
@[simp] theorem State.setProgram_trace (s : State) (p) : (s.setProgram p).trace = s.trace := rfl
@[simp] theorem State.setProgram_result (s : State) (p) : (s.setProgram p).result = s.result := rfl
@[simp] theorem State.setProgram_openLink (s : State) (p) : (s.setProgram p).openLink = s.openLink := rfl

/-! ### setPipeline -/

@[simp] theorem State.setPipeline_program (s : State) (p) : (s.setPipeline p).program = s.program := rfl
@[simp] theorem State.setPipeline_pipeline (s : State) (p) : (s.setPipeline p).pipeline = some p := rfl
@[simp] theorem State.setPipeline_delays (s : State) (p) : (s.setPipeline p).delays = s.delays := rfl
@[simp] theorem State.setPipeline_env (s : State) (p) : (s.setPipeline p).env = s.env := rfl
@[simp] theorem State.setPipeline_ticks (s : State) (p) : (s.setPipeline p).ticks = s.ticks := rfl
@[simp] theorem State.setPipeline_trace (s : State) (p) : (s.setPipeline p).trace = s.trace := rfl
@[simp] theorem State.setPipeline_result (s : State) (p) : (s.setPipeline p).result = s.result := rfl

/-! ### setDelays -/

@[simp] theorem State.setDelays_program (s : State) (d) : (s.setDelays d).program = s.program := rfl
@[simp] theorem State.setDelays_pipeline (s : State) (d) : (s.setDelays d).pipeline = s.pipeline := rfl
@[simp] theorem State.setDelays_delays (s : State) (d) : (s.setDelays d).delays = d := rfl
@[simp] theorem State.setDelays_env (s : State) (d) : (s.setDelays d).env = s.env := rfl
@[simp] theorem State.setDelays_ticks (s : State) (d) : (s.setDelays d).ticks = s.ticks := rfl
@[simp] theorem State.setDelays_trace (s : State) (d) : (s.setDelays d).trace = s.trace := rfl
@[simp] theorem State.setDelays_result (s : State) (d) : (s.setDelays d).result = s.result := rfl

/-! ### setEnv -/

@[simp] theorem State.setEnv_program (s : State) (e) : (s.setEnv e).program = s.program := rfl
@[simp] theorem State.setEnv_pipeline (s : State) (e) : (s.setEnv e).pipeline = s.pipeline := rfl
@[simp] theorem State.setEnv_delays (s : State) (e) : (s.setEnv e).delays = s.delays := rfl
@[simp] theorem State.setEnv_env (s : State) (e) : (s.setEnv e).env = e := rfl
@[simp] theorem State.setEnv_ticks (s : State) (e) : (s.setEnv e).ticks = s.ticks := rfl
@[simp] theorem State.setEnv_trace (s : State) (e) : (s.setEnv e).trace = s.trace := rfl
@[simp] theorem State.setEnv_result (s : State) (e) : (s.setEnv e).result = s.result := rfl

/-! ### setResult -/

@[simp] theorem State.setResult_program (s : State) (r) : (s.setResult r).program = s.program := rfl
@[simp] theorem State.setResult_pipeline (s : State) (r) : (s.setResult r).pipeline = s.pipeline := rfl
@[simp] theorem State.setResult_delays (s : State) (r) : (s.setResult r).delays = s.delays := rfl
@[simp] theorem State.setResult_env (s : State) (r) : (s.setResult r).env = s.env := rfl
@[simp] theorem State.setResult_ticks (s : State) (r) : (s.setResult r).ticks = s.ticks := rfl
@[simp] theorem State.setResult_trace (s : State) (r) : (s.setResult r).trace = s.trace := rfl
@[simp] theorem State.setResult_result (s : State) (r) : (s.setResult r).result = r := rfl

/-! ### tick -/

@[simp] theorem tick_program (s : State) : (tick s).program = s.program := rfl
@[simp] theorem tick_pipeline (s : State) : (tick s).pipeline = s.pipeline.map fun p => p.next s.ticks s.drive := rfl
@[simp] theorem tick_delays (s : State) : (tick s).delays = delaysNext s.drive 0 s.delays := rfl
@[simp] theorem tick_env (s : State) : (tick s).env = s.env.tail := rfl
@[simp] theorem tick_ticks (s : State) : (tick s).ticks = s.ticks + 1 := rfl
@[simp] theorem tick_result (s : State) : (tick s).result = s.result := rfl
@[simp] theorem tick_trace (s : State) : (tick s).trace =
    ⟨s.pipeline.map fun p => p.boundary s.ticks s.drive, delaysOut s.drive 0 s.delays⟩ :: s.trace := rfl

/-! ### reset -/

@[simp] theorem State.reset_program : State.reset.program = [] := rfl
@[simp] theorem State.reset_pipeline : State.reset.pipeline = none := rfl
@[simp] theorem State.reset_delays : State.reset.delays = [] := rfl
@[simp] theorem State.reset_env : State.reset.env = [] := rfl
@[simp] theorem State.reset_ticks : State.reset.ticks = 0 := rfl
@[simp] theorem State.reset_trace : State.reset.trace = [] := rfl
@[simp] theorem State.reset_result : State.reset.result = .none := rfl

end Sys2Proof.Machine
end

