-- ==== Sys2Proof/Laws/Tick.lean ====
section
/-! SUPPORT. The tick of a chain and of the whole machine: what it cannot change, and how a chain of two parts
ticks. -/

namespace Sys2Proof.Machine

@[simp] theorem showLink_valid (l : LinkFmt) (t k : Nat) (f : Fwd) : (showLink l t k f).valid = f.valid := rfl

/-- A valid payload is shown as it is. -/
theorem showLink_of_valid {l : LinkFmt} {t k : Nat} {f : Fwd} (h : f.valid = true) : showLink l t k f = f := by
  cases f; simp_all [showLink]

@[simp] theorem chainNext_length (t k : Nat) (sts : List Stage) (x : Fwd) (r : Bool) :
    (chainNext t k sts x r).length = sts.length := by
  induction sts generalizing k x with
  | nil => rfl
  | cons st rest ih => simp [chainNext, ih]

@[simp] theorem delaysNext_length (e : EnvTick) (k : Nat) (us : List DelayUnit) : (delaysNext e k us).length = us.length := by
  induction us generalizing k with
  | nil => rfl
  | cons u us ih => simp [delaysNext, ih]

@[simp] theorem delaysOut_length (e : EnvTick) (k : Nat) (us : List DelayUnit) : (delaysOut e k us).length = us.length := by
  induction us generalizing k with
  | nil => rfl
  | cons u us ih => simp [delaysOut, ih]

/-- Each free-standing delay shows, and takes in, by what is driven on itself. -/
theorem delaysOut_getElem? (e : EnvTick) (us : List DelayUnit) (k i : Nat) :
    (delaysOut e k us)[i]? = us[i]?.map fun u => u.out (e.delay (k + i)) := by
  induction us generalizing k i with
  | nil => simp [delaysOut]
  | cons u us ih => cases i with
    | zero => simp [delaysOut]
    | succ i => simp [delaysOut, ih, Nat.add_assoc, Nat.add_comm 1 i]

theorem delaysNext_getElem? (e : EnvTick) (us : List DelayUnit) (k i : Nat) :
    (delaysNext e k us)[i]? = us[i]?.map fun u => u.next (e.delay (k + i)) := by
  induction us generalizing k i with
  | nil => simp [delaysNext]
  | cons u us ih => cases i with
    | zero => simp [delaysNext]
    | succ i => simp [delaysNext, ih, Nat.add_assoc, Nat.add_comm 1 i]

theorem chainOutLink_append (l : LinkFmt) (a b : List Stage) : chainOutLink l (a ++ b) = chainOutLink (chainOutLink l a) b := by
  induction a generalizing l with
  | nil => rfl
  | cons st a ih => exact ih st.outLink

theorem chainReady_append (a b : List Stage) (r : Bool) : chainReady (a ++ b) r = chainReady a (chainReady b r) := by
  induction a with
  | nil => rfl
  | cons st a ih => simp [chainReady, ih]

theorem chainForward_append (t k : Nat) (a b : List Stage) (x : Fwd) :
    chainForward t k (a ++ b) x = chainForward t (k + a.length) b (chainForward t k a x) := by
  induction a generalizing k x with
  | nil => rfl
  | cons st a ih => simp only [List.cons_append, chainForward, ih, List.length_cons]; congr 1; omega

theorem chainStream_append (a b : List Stage) (x : List Payload) : chainStream (a ++ b) x = chainStream b (chainStream a x) := by
  induction a generalizing x with
  | nil => rfl
  | cons st a ih => exact ih (st.stream x)

@[simp] theorem Pipeline.next_inLink (p : Pipeline) (t : Nat) (e : EnvTick) : (p.next t e).inLink = p.inLink := rfl

/-- A tick adds what its boundary transferred to the two sequences. -/
theorem inputs_tick (s : State) : (tick s).inputs =
    s.inputs ++ ((s.pipeline.map fun p => (p.boundary s.ticks s.drive).input).bind LinkSignals.transfer).toList := by
  cases h : s.pipeline with
  | none => simp [State.inputs, tick, h, TickRecord.taken, List.filterMap_cons]
  | some p =>
    simp only [State.inputs, tick, h, Option.map_some, List.reverse_cons, List.filterMap_append,
      List.filterMap_cons, List.filterMap_nil, TickRecord.taken, Option.bind_some]
    split <;> simp_all

theorem outputs_tick (s : State) : (tick s).outputs =
    s.outputs ++ ((s.pipeline.map fun p => (p.boundary s.ticks s.drive).output).bind LinkSignals.transfer).toList := by
  cases h : s.pipeline with
  | none => simp [State.outputs, tick, h, TickRecord.given, List.filterMap_cons]
  | some p =>
    simp only [State.outputs, tick, h, Option.map_some, List.reverse_cons, List.filterMap_append,
      List.filterMap_cons, List.filterMap_nil, TickRecord.given, Option.bind_some]
    split <;> simp_all

/-- A machine that is not being configured only ticks. -/
theorem step_of_program_nil {s : State} (h : s.program = []) : step s = .next (tick s) := by
  simp [step, fetch, h]

/-- A tick does not change the type of a stage's input link. -/
@[simp] theorem Stage.next_inLink (u : Payload) (st : Stage) (x : Fwd) (r : Bool) : (st.next u x r).inLink = st.inLink := by
  cases st <;> simp only [Stage.next, skidNext, streamDelayNext, pipeRegNext, integratorNext, combNext,
    upsamplerNext, downsamplerNext, sdfNext, r22Next, twiddleNext, threeMultNext, exchangeNext] <;>
    (repeat' split) <;> rfl

/-- What a step of a machine whose unit is one stage shows and becomes, in terms of the stage's own signals. -/
theorem StageTick.of_stage {s : State} {st after : Stage} {ready valid : Bool} {payload : Payload} (h : s.runs st)
    (hr : st.ready s.drive.ready = ready)
    (hv : (st.forward (showLink st.inLink s.ticks 0 ⟨s.drive.valid, s.offered st.inLink⟩)).valid = valid)
    (hp : valid = true →
      (st.forward (showLink st.inLink s.ticks 0 ⟨s.drive.valid, s.offered st.inLink⟩)).payload = payload)
    (ha : st.next (undefPayload st.inLink s.ticks 1)
      (showLink st.inLink s.ticks 0 ⟨s.drive.valid, s.offered st.inLink⟩) s.drive.ready = after) :
    StageTick s ready valid payload after := by
  subst hr hv ha
  refine ⟨tick s, _, _, step_of_program_nil h.1, ?_, by simp only [tick, h.2]; rfl, rfl, rfl, fun hv => ?_, rfl, rfl,
    rfl, rfl, rfl, rfl⟩
  · simp only [tick, h.2, Option.map, Pipeline.next, chainNext, Stage.next_inLink]; rfl
  · rw [← hp hv]
    simp only [Pipeline.boundary, Pipeline.output, chainForward, Pipeline.input]
    rw [showLink_of_valid]
    · rfl
    · exact hv

end Sys2Proof.Machine
end

