-- ==== Sys2Proof/Tests/Slice0.lean ====
section
/-! SUPPORT. Tests: one ill-formed term for each check of well-formedness; every constructor's decoding from
bytes written out by hand from the selectors of `30_encoding.md` R56 and the operand form of log entry 1;
operations and single ticks against the vectors of `95_test_vectors.md` (named in each comment); and, for
every statement with hypotheses, a witness that meets them. -/

namespace Sys2Proof.Tests

open Sys2Proof.Machine

set_option Elab.async false

/-! ### Well-formedness refuses -/

/-- `Q(i, f)`. -/
def q (i f : Int) : FormatParam := ⟨i, f, true⟩

/-- An unsigned format. -/
def u (i f : Int) : FormatParam := ⟨i, f, false⟩

theorem test_wf_format_negative_integer_bits : (u (-1) 4).wellFormed = false := by decide
theorem test_wf_format_negative_fraction_bits : (u 4 (-1)).wellFormed = false := by decide
theorem test_wf_format_no_bits : (u 0 0).wellFormed = false := by decide
theorem test_wf_format_signed_without_sign_bit : (q 0 4).wellFormed = false := by decide
theorem test_wf_constant_out_of_range : (Instr.fixedPointConst (q 2 1) 4).wellFormed = false := by decide
theorem test_wf_operand_out_of_range : (Instr.add ⟨4, q 2 1⟩ ⟨0, q 2 1⟩).wellFormed = false := by decide
theorem test_wf_complex_lane_out_of_range : (Instr.cAdd ⟨0, 4, q 2 1⟩ ⟨0, 0, q 2 1⟩).wellFormed = false := by decide
theorem test_wf_rounding : (Instr.reshape ⟨0, q 3 2⟩ (q 3 2) (.other 0)).wellFormed = false := by decide
theorem test_wf_shift : (Instr.rshift ⟨0, q 3 2⟩ (-1)).wellFormed = false := by decide
theorem test_wf_malformed_complex : (Instr.complex ⟨1, q 3 0⟩ ⟨1, q 3 1⟩).wellFormed = false := by decide
theorem test_wf_neg_unsigned : (Instr.neg ⟨3, u 2 0⟩).wellFormed = false := by decide
theorem test_wf_unsigned_payload : (Instr.skidBuffer (u 4 0) 1).wellFormed = false := by decide
theorem test_wf_lanes : (Instr.skidBuffer (q 4 0) 3).wellFormed = false := by decide
theorem test_wf_depth : (Instr.streamDelay (-1) (q 4 0) 1 .shiftRegister).wellFormed = false := by decide
theorem test_wf_delay_impl : (Instr.streamDelay 4 (q 4 0) 1 .fifo).wellFormed = false := by decide
theorem test_wf_pipe_function_lane : (Instr.pipeReg ⟨q 4 0, 1, some ⟨.inIm, none⟩⟩).wellFormed = false := by decide
theorem test_wf_pipe_function_result : (Instr.pipeReg ⟨q 4 0, 1, some ⟨.reshape .inRe (u 4 0) .truncate, none⟩⟩).wellFormed = false := by decide
theorem test_wf_pipe_function_lanes : (Instr.pipeReg ⟨q 4 0, 2, some ⟨.add .inRe .inIm, some .inIm⟩⟩).wellFormed = false := by decide
theorem test_wf_pipe_function_select : (Instr.pipeReg ⟨q 4 0, 2, some ⟨.select .inRe 0 (.mul .inRe .inIm) .inRe, none⟩⟩).wellFormed = false := by decide
theorem test_wf_width : (Instr.integrator 4 0 1).wellFormed = false := by decide
theorem test_wf_rate : (Instr.upsampler 0 4 1).wellFormed = false := by decide
theorem test_wf_differential_delay : (Instr.comb 4 0 none 1).wellFormed = false := by decide
theorem test_wf_order : (Instr.cicGrowth 0 5 1).wellFormed = false := by decide
theorem test_wf_width_out_above : (Instr.cicDownsamplingFilter 3 5 1 (q 8 0) 1 (some 16) none).wellFormed = false := by decide
theorem test_wf_width_out_below : (Instr.cicDownsamplingFilter 3 5 1 (q 8 0) 1 (some 0) none).wellFormed = false := by decide
theorem test_wf_out_format_width : (Instr.cicDownsamplingFilter 3 5 1 (q 8 0) 1 (some 8) (some (q 5 0))).wellFormed = false := by decide
theorem test_wf_not_power_of_two : (Instr.serialFFT 12 (q 4 0) true (q 2 8) .direct false).wellFormed = false := by decide
theorem test_wf_below_minimum : (Instr.r22TwiddleStage 2 (q 4 0)).wellFormed = false := by decide
theorem test_wf_twiddle_format : (Instr.twiddleTable 8 (q 1 8)).wellFormed = false := by decide
theorem test_wf_bit_positions : (Instr.serialBitExchange 1 1 (q 4 0) 1).wellFormed = false := by decide

/-! ### Decoding -/

theorem test_decode_fixedPointConst : decode [0x00, 0x00, 0x14, 0x00, 0xA7, 0x0B] = .ok (.fixedPointConst ⟨2, 10, true⟩ (-724), []) := by decide +kernel
theorem test_decode_add : decode [0x01, 0x06, 0x00, 0x02, 0x00, 0x09, 0x02, 0x04, 0x00] = .ok (.add ⟨3, ⟨2, 1, true⟩⟩ ⟨-5, ⟨3, 2, true⟩⟩, []) := by decide +kernel
theorem test_decode_sub : decode [0x02, 0x06, 0x00, 0x02, 0x00, 0x09, 0x02, 0x04, 0x00] = .ok (.sub ⟨3, ⟨2, 1, true⟩⟩ ⟨-5, ⟨3, 2, true⟩⟩, []) := by decide +kernel
theorem test_decode_mul : decode [0x03, 0x06, 0x00, 0x02, 0x00, 0x09, 0x02, 0x04, 0x00] = .ok (.mul ⟨3, ⟨2, 1, true⟩⟩ ⟨-5, ⟨3, 2, true⟩⟩, []) := by decide +kernel
theorem test_decode_reshape : decode [0x04, 0x36, 0x02, 0x04, 0x01, 0x04, 0x02, 0x00, 0x00] = .ok (.reshape ⟨27, ⟨3, 2, false⟩⟩ ⟨4, 1, true⟩ .truncate, []) := by decide +kernel
theorem test_decode_rshift : decode [0x05, 0x09, 0x02, 0x04, 0x00, 0x02] = .ok (.rshift ⟨-5, ⟨3, 2, true⟩⟩ 1, []) := by decide +kernel
theorem test_decode_neg : decode [0x06, 0x09, 0x02, 0x04, 0x00] = .ok (.neg ⟨-5, ⟨3, 2, true⟩⟩, []) := by decide +kernel
theorem test_decode_complex : decode [0x10, 0x06, 0x02, 0x00, 0x00, 0x01, 0x02, 0x00, 0x00] = .ok (.complex ⟨3, ⟨3, 0, true⟩⟩ ⟨-1, ⟨3, 0, true⟩⟩, []) := by decide +kernel
theorem test_decode_cAdd : decode [0x11, 0x02, 0x04, 0x02, 0x00, 0x00, 0x06, 0x01, 0x02, 0x00, 0x00] = .ok (.cAdd ⟨1, 2, ⟨3, 0, true⟩⟩ ⟨3, -1, ⟨3, 0, true⟩⟩, []) := by decide +kernel
theorem test_decode_cSub : decode [0x12, 0x02, 0x04, 0x02, 0x00, 0x00, 0x06, 0x01, 0x02, 0x00, 0x00] = .ok (.cSub ⟨1, 2, ⟨3, 0, true⟩⟩ ⟨3, -1, ⟨3, 0, true⟩⟩, []) := by decide +kernel
theorem test_decode_cMul : decode [0x13, 0x02, 0x04, 0x02, 0x00, 0x00, 0x06, 0x01, 0x02, 0x00, 0x00] = .ok (.cMul ⟨1, 2, ⟨3, 0, true⟩⟩ ⟨3, -1, ⟨3, 0, true⟩⟩, []) := by decide +kernel
theorem test_decode_cMul3 : decode [0x14, 0x02, 0x04, 0x02, 0x00, 0x00, 0x06, 0x01, 0x02, 0x00, 0x00] = .ok (.cMul3 ⟨1, 2, ⟨3, 0, true⟩⟩ ⟨3, -1, ⟨3, 0, true⟩⟩, []) := by decide +kernel
theorem test_decode_cScale : decode [0x15, 0x02, 0x04, 0x02, 0x00, 0x00, 0x06, 0x00, 0x02, 0x00] = .ok (.cScale ⟨1, 2, ⟨3, 0, true⟩⟩ ⟨3, ⟨2, 1, true⟩⟩, []) := by decide +kernel
theorem test_decode_cRshift : decode [0x16, 0x02, 0x04, 0x02, 0x00, 0x00, 0x04] = .ok (.cRshift ⟨1, 2, ⟨3, 0, true⟩⟩ 2, []) := by decide +kernel
theorem test_decode_cReshape : decode [0x17, 0x02, 0x04, 0x02, 0x00, 0x00, 0x02, 0x02, 0x00, 0x03] = .ok (.cReshape ⟨1, 2, ⟨3, 0, true⟩⟩ ⟨3, 1, true⟩ (.other 2), []) := by decide +kernel
theorem test_decode_cMulnegj : decode [0x18, 0x06, 0x01, 0x02, 0x00, 0x00] = .ok (.cMulnegj ⟨3, -1, ⟨3, 0, true⟩⟩, []) := by decide +kernel
theorem test_decode_skidBuffer : decode [0x20, 0x0C, 0x08, 0x00, 0x02] = .ok (.skidBuffer ⟨8, 4, true⟩ 2, []) := by decide +kernel
theorem test_decode_delay : decode [0x21, 0x90, 0x03, 0x02, 0x0C, 0x08, 0x00, 0x02, 0x00] = .ok (.delay 200 ⟨.tagged, ⟨8, 4, true⟩, 2⟩ .shiftRegister, []) := by decide +kernel
theorem test_decode_streamDelay : decode [0x22, 0x08, 0x06, 0x00, 0x00, 0x00, 0x01] = .ok (.streamDelay 4 ⟨5, 0, true⟩ 1 .fifo, []) := by decide +kernel
theorem test_decode_pipeReg : decode [0x23, 0x0C, 0x08, 0x00, 0x02, 0x01, 0x06, 0x05, 0x00, 0x00, 0x0C, 0x08, 0x00, 0x00, 0x01, 0x09, 0x00, 0x0F, 0x08, 0x01, 0x07, 0x01, 0x02] = .ok (.pipeReg ⟨⟨8, 4, true⟩, 2, some ⟨.reshape (.mul .inRe .inRe) ⟨8, 4, true⟩ .truncate, some (.select .inRe 15 (.neg .inIm) (.rshift .inIm 1))⟩⟩, []) := by decide +kernel
theorem test_decode_pipeReg_identity : decode [0x23, 0x0C, 0x08, 0x00, 0x02, 0x00] = .ok (.pipeReg ⟨⟨8, 4, true⟩, 2, none⟩, []) := by decide +kernel
theorem test_decode_integrator : decode [0x30, 0x06, 0x08, 0x00] = .ok (.integrator 4 5 1, []) := by decide +kernel
theorem test_decode_comb : decode [0x31, 0x06, 0x02, 0x01, 0x08, 0x00] = .ok (.comb 4 2 (some 5) 1, []) := by decide +kernel
theorem test_decode_upsampler : decode [0x32, 0x04, 0x0A, 0x02] = .ok (.upsampler 3 6 2, []) := by decide +kernel
theorem test_decode_downsampler : decode [0x33, 0x04, 0x0A, 0x02] = .ok (.downsampler 3 6 2, []) := by decide +kernel
theorem test_decode_requant : decode [0x34, 0x04, 0x0E, 0x0A, 0x00] = .ok (.requant 2 8 6 1, []) := by decide +kernel
theorem test_decode_cicGrowth : decode [0x38, 0x04, 0x08, 0x00] = .ok (.cicGrowth 3 5 1, []) := by decide +kernel
theorem test_decode_cicTruncation : decode [0x39, 0x04, 0x08, 0x00, 0x0E, 0x01, 0x0E] = .ok (.cicTruncation 3 5 1 8 (some 8), []) := by decide +kernel
theorem test_decode_cicUpsamplingFilter : decode [0x3A, 0x02, 0x04, 0x00, 0x04, 0x00, 0x00, 0x00, 0x00, 0x00] = .ok (.cicUpsamplingFilter 2 3 1 ⟨4, 0, true⟩ 1 none none, []) := by decide +kernel
theorem test_decode_cicDownsamplingFilter : decode [0x3B, 0x04, 0x08, 0x00, 0x0C, 0x00, 0x00, 0x02, 0x01, 0x0E, 0x01, 0x02, 0x0A, 0x00] = .ok (.cicDownsamplingFilter 3 5 1 ⟨8, 0, true⟩ 2 (some 8) (some ⟨3, 5, true⟩), []) := by decide +kernel
theorem test_decode_sdfRadix2Stage : decode [0x40, 0x08, 0x06, 0x00, 0x00] = .ok (.sdfRadix2Stage 8 ⟨5, 0, true⟩, []) := by decide +kernel
theorem test_decode_r22TwiddleStage : decode [0x41, 0x00, 0x06, 0x00, 0x00] = .ok (.r22TwiddleStage 4 ⟨5, 0, true⟩, []) := by decide +kernel
theorem test_decode_twiddleStageDirect : decode [0x42, 0x08, 0x04, 0x08, 0x00, 0x00, 0x10, 0x00] = .ok (.twiddleStageDirect 8 ⟨4, 4, true⟩ ⟨2, 8, true⟩, []) := by decide +kernel
theorem test_decode_twiddleStageThreeMult : decode [0x43, 0x08, 0x04, 0x08, 0x00, 0x00, 0x10, 0x00] = .ok (.twiddleStageThreeMult 8 ⟨4, 4, true⟩ ⟨2, 8, true⟩, []) := by decide +kernel
theorem test_decode_twiddleTable : decode [0x44, 0x08, 0x00, 0x10, 0x00] = .ok (.twiddleTable 8 ⟨2, 8, true⟩, []) := by decide +kernel
theorem test_decode_serialBitExchange : decode [0x50, 0x02, 0x00, 0x06, 0x00, 0x00, 0x00] = .ok (.serialBitExchange 2 0 ⟨5, 0, true⟩ 1, []) := by decide +kernel
theorem test_decode_serialBitReversal : decode [0x51, 0x18, 0x06, 0x00, 0x00, 0x02] = .ok (.serialBitReversal 16 ⟨5, 0, true⟩ 2, []) := by decide +kernel
theorem test_decode_serialFFT : decode [0x60, 0xF8, 0x01, 0x01, 0x14, 0x00, 0x01, 0x00, 0x10, 0x00, 0x01, 0x01] = .ok (.serialFFT 128 ⟨1, 10, true⟩ true ⟨2, 8, true⟩ .threeMult true, []) := by decide +kernel

/-- R57: a selector outside the table. -/
theorem test_decode_no_such_operation : decode [0x07] = .error (.noSuchOperation 7) := by decide +kernel

/-- A numeral that is not in shortest form (log entry 1). -/
theorem test_decode_not_shortest : decode [0x05, 0x80, 0x00] = .error .notShortest := by decide +kernel

/-! ### Operations -/

/-- The result an operation leaves. -/
def value (i : Instr) : Option Result :=
  match exec i State.reset with
  | .next t => some t.result
  | .fault _ => none
  | .refused _ => none

/-- The configuration error an operation stops with, on a machine whose unit has this output link. -/
def errorAfter (fed : Option LinkFmt) (i : Instr) : Option ConfigError :=
  match exec i { State.reset with pipeline := fed.map fun l => ⟨l, []⟩ } with
  | .fault (.configError e) => some e
  | .next _ => none
  | .refused _ => none

/-- The stages a construction leaves. -/
def stagesOf (i : Instr) : Option (List Stage) :=
  match exec i State.reset with
  | .next t => t.pipeline.map Pipeline.stages
  | .fault _ => none
  | .refused _ => none

/-- R72's example. -/
theorem test_fixedPointConst : value (.fixedPointConst (q 2 10) (-724)) = some (.value ⟨-724, ⟨2, 10, true⟩⟩) := by decide
/-- F1. -/
theorem test_add : value (.add ⟨3, q 2 1⟩ ⟨-5, q 3 2⟩) = some (.value ⟨1, ⟨4, 2, true⟩⟩) := by decide
/-- F5: mixed signs wrap. -/
theorem test_add_mixed : value (.add ⟨3, u 2 0⟩ ⟨1, q 2 0⟩) = some (.value ⟨-4, ⟨3, 0, true⟩⟩) := by decide
/-- F9: a negative unsigned difference wraps. -/
theorem test_sub_unsigned : value (.sub ⟨1, u 2 0⟩ ⟨3, u 2 0⟩) = some (.value ⟨6, ⟨3, 0, false⟩⟩) := by decide
/-- F11. -/
theorem test_sub : value (.sub ⟨5, q 3 1⟩ ⟨5, q 2 3⟩) = some (.value ⟨15, ⟨4, 3, true⟩⟩) := by decide
/-- F16. -/
theorem test_mul : value (.mul ⟨3, q 1 2⟩ ⟨-7, q 2 2⟩) = some (.value ⟨-21, ⟨3, 4, true⟩⟩) := by decide
/-- F17: floor. -/
theorem test_reshape_floor : value (.reshape ⟨-5, q 3 2⟩ (q 3 1) .truncate) = some (.value ⟨-3, ⟨3, 1, true⟩⟩) := by decide
/-- F22: reinterpretation. -/
theorem test_reshape_sign : value (.reshape ⟨-5, q 3 2⟩ (u 3 2) .truncate) = some (.value ⟨27, ⟨3, 2, false⟩⟩) := by decide
/-- F31: the whole width and more. -/
theorem test_rshift : value (.rshift ⟨-5, q 3 2⟩ 5) = some (.value ⟨-1, ⟨3, 2, true⟩⟩) := by decide
/-- F35: the most negative value. -/
theorem test_neg : value (.neg ⟨-16, q 3 2⟩) = some (.value ⟨-16, ⟨3, 2, true⟩⟩) := by decide
/-- R101's example. -/
theorem test_complex : value (.complex ⟨3, q 3 0⟩ ⟨-1, q 3 0⟩) = some (.complex ⟨3, -1, ⟨3, 0, true⟩⟩) := by decide
/-- K1. -/
theorem test_cAdd : value (.cAdd ⟨1, 2, q 3 0⟩ ⟨3, -1, q 3 0⟩) = some (.complex ⟨4, 1, ⟨4, 0, true⟩⟩) := by decide
/-- K2. -/
theorem test_cSub : value (.cSub ⟨1, 2, q 3 0⟩ ⟨3, -1, q 3 0⟩) = some (.complex ⟨-2, 3, ⟨4, 0, true⟩⟩) := by decide
/-- K5. -/
theorem test_cMul : value (.cMul ⟨-128, -128, q 8 0⟩ ⟨-256, -256, q 2 8⟩) = some (.complex ⟨0, 65536, ⟨11, 8, true⟩⟩) := by decide
/-- K4. -/
theorem test_cMul3 : value (.cMul3 ⟨1, 2, q 3 0⟩ ⟨3, -1, q 3 0⟩) = some (.complex ⟨5, 5, ⟨8, 0, true⟩⟩) := by decide
/-- R106, by hand: `(1 + 2j) * 1.5`. -/
theorem test_cScale : value (.cScale ⟨1, 2, q 3 0⟩ ⟨3, q 2 1⟩) = some (.complex ⟨3, 6, ⟨5, 1, true⟩⟩) := by decide
/-- R107, by hand: each lane floors. -/
theorem test_cRshift : value (.cRshift ⟨-5, 5, q 4 0⟩ 1) = some (.complex ⟨-3, 2, ⟨4, 0, true⟩⟩) := by decide
/-- K11. -/
theorem test_cReshape : value (.cReshape ⟨-5, 5, q 3 2⟩ (q 3 1) .truncate) = some (.complex ⟨-3, 2, ⟨3, 1, true⟩⟩) := by decide
/-- K10: the wrap corner. -/
theorem test_cMulnegj : value (.cMulnegj ⟨-128, 5, q 8 0⟩) = some (.complex ⟨5, -128, ⟨8, 0, true⟩⟩) := by decide
/-- S10. -/
theorem test_cicGrowth : value (.cicGrowth 4 8 1) = some (.growth [1, 2, 3, 4, 3, 5, 7, 9]) := by decide +kernel
/-- Section 2.5, the row with non-monotone counts. -/
theorem test_cicTruncation : (match value (.cicTruncation 2 2 1 16 (some 8)) with
    | some (.truncation t) => [t.k, t.b, t.bc, t.shifts, [t.sOut], t.widths]
    | _ => []) = [[3, 2, 3, 2], [0, 8, 7, 8], [0, 8, 8, 8], [0, 8, 0, 0], [2], [18, 10, 10, 10]] := by decide +kernel
/-- R176's example `h_2` of `(3,5,1)`. -/
theorem test_impulse : (List.range 14).map (impulse 3 5 2) = [1, 2, 3, 4, 5, 3, 1, -1, -3, -5, -4, -3, -2, -1] := by decide +kernel
/-- `(3,1,1)`: what the stages from the second integrator on make of an impulse, by hand `1 - z^-1`, is R176's `h_2`
(log entry 22). -/
theorem test_impulse_unit_rate : (chainStream ((downsamplingStages 3 1 1 8 0 1 none).drop 2) [⟨1, 0⟩, ⟨0, 0⟩, ⟨0, 0⟩]).map
    Payload.re = [1, -1, 0] ∧ (List.range 2).map (impulse 3 1 2) = [1, -1] := by decide +kernel
/-- R212's table for `n = 8`. -/
theorem test_twiddleTable : (match value (.twiddleTable 8 (q 2 8)) with
    | some (.table t) => t.map Cx.payload
    | _ => []) = [⟨256, 0⟩, ⟨256, 0⟩, ⟨256, 0⟩, ⟨0, -256⟩, ⟨256, 0⟩, ⟨181, -181⟩, ⟨256, 0⟩, ⟨-181, -181⟩] := by decide +kernel

/-! ### Constructions -/

/-- The link of `Q(8,0)` with two lanes. -/
def l8 : LinkFmt := ⟨⟨8, 0, true⟩, 2⟩

theorem test_skidBuffer : stagesOf (.skidBuffer (q 8 0) 2) = some [.skidBuffer l8 false ⟨0, 0⟩] := by decide
theorem test_streamDelay : stagesOf (.streamDelay 2 (q 8 0) 2 .shiftRegister) =
    some [.streamDelay 2 l8 [⟨⟨0, 0⟩, false⟩, ⟨⟨0, 0⟩, false⟩]] := by decide
theorem test_delay : (match exec (.delay 1 ⟨.bare, q 8 0, 2⟩ .shiftRegister) State.reset with
    | .next t => t.delays
    | _ => []) = [⟨⟨.bare, l8⟩, 1, [⟨⟨0, 0⟩, true, false⟩]⟩] := by decide
/-- R132 with `g = c_mulnegj` (R108). -/
theorem test_pipeReg : stagesOf (.pipeReg ⟨q 8 0, 2, some ⟨.inIm, some (.neg .inRe)⟩⟩) =
    some [.pipeReg ⟨l8, some ⟨.inIm, some (.neg .inRe)⟩, l8⟩ ⟨false, ⟨0, 0⟩⟩] := by decide
/-- A squarer of one lane: `(8,0,signed)` to `(16,0,signed)`. -/
theorem test_pipeReg_square : stagesOf (.pipeReg ⟨q 8 0, 1, some ⟨.mul .inRe .inRe, none⟩⟩) =
    some [.pipeReg ⟨⟨⟨8, 0, true⟩, 1⟩, some ⟨.mul .inRe .inRe, none⟩, ⟨⟨16, 0, true⟩, 1⟩⟩ ⟨false, ⟨0, 0⟩⟩] := by decide
theorem test_integrator : stagesOf (.integrator 4 5 1) = some [.integrator ⟨⟨4, 0, true⟩, 1⟩ ⟨⟨5, 0, true⟩, 1⟩ ⟨0, 0⟩] := by decide
theorem test_comb : stagesOf (.comb 4 2 none 1) = some [.comb ⟨⟨4, 0, true⟩, 1⟩ ⟨⟨5, 0, true⟩, 1⟩ 2 [⟨0, 0⟩, ⟨0, 0⟩]] := by decide
theorem test_upsampler : stagesOf (.upsampler 3 8 2) = some [.upsampler 3 l8 0] := by decide
theorem test_downsampler : stagesOf (.downsampler 3 8 2) = some [.downsampler 3 l8 0] := by decide
theorem test_requant : stagesOf (.requant 2 8 6 1) = some [.requant 2 ⟨⟨8, 0, true⟩, 1⟩ ⟨⟨6, 0, true⟩, 1⟩] := by decide
/-- P2's expansion: input widths `4, 5, 6, 6, 5`, output `6`. -/
theorem test_cicUpsamplingFilter : (stagesOf (.cicUpsamplingFilter 2 3 1 (q 4 0) 1 none none)).map
    (fun sts => sts.map fun st => (st.inLink.fmt.width, st.outLink.fmt.width)) =
      some [(4, 5), (5, 6), (6, 6), (6, 5), (5, 6)] := by decide +kernel
/-- P4's expansion. -/
theorem test_cicDownsamplingFilter : (stagesOf (.cicDownsamplingFilter 3 5 1 (q 8 0) 1 (some 8) none)).map
    (fun sts => sts.map fun st => (st.inLink.fmt.width, st.outLink.fmt.width)) =
      some [(8, 15), (15, 15), (15, 13), (13, 13), (13, 12), (12, 12), (12, 12), (12, 12), (12, 12), (12, 11), (11, 11),
        (11, 10), (10, 10), (10, 8)] := by decide +kernel
theorem test_sdfRadix2Stage : stagesOf (.sdfRadix2Stage 2 (q 8 0)) = some [.sdfRadix2 1 ⟨8, 0, true⟩ 0 [⟨⟨0, 0⟩, false, false⟩]] := by decide +kernel
theorem test_r22TwiddleStage : stagesOf (.r22TwiddleStage 4 (q 8 0)) = some [.r22Twiddle 2 ⟨8, 0, true⟩ 0] := by decide +kernel
theorem test_twiddleStageDirect : stagesOf (.twiddleStageDirect 4 (q 8 0) (q 2 3)) =
    some [.twiddleDirect 2 ⟨8, 0, true⟩ ⟨2, 3, true⟩ [⟨8, 0⟩, ⟨8, 0⟩, ⟨8, 0⟩, ⟨8, 0⟩] 0] := by decide +kernel
theorem test_twiddleStageThreeMult : stagesOf (.twiddleStageThreeMult 4 (q 8 0) (q 2 3)) =
    some [.twiddleThreeMult 2 ⟨8, 0, true⟩ ⟨2, 3, true⟩ [⟨8, 0⟩, ⟨8, 0⟩, ⟨8, 0⟩, ⟨8, 0⟩] 0 ⟨false, SumRecord.zero⟩
      ⟨false, ProductRecord.zero⟩ ⟨false, ⟨0, 0⟩⟩] := by decide +kernel
theorem test_serialBitExchange : stagesOf (.serialBitExchange 1 0 (q 8 0) 2) = some [.bitExchange 1 0 l8 0 [⟨⟨0, 0⟩, false⟩]] := by decide +kernel
/-- R236: `N = 16` is `(3,0), (2,1)`. -/
theorem test_serialBitReversal : (stagesOf (.serialBitReversal 16 (q 8 0) 2)).map
    (fun sts => sts.map fun st => match st with
      | .bitExchange j k _ _ d => (j, k, d.length)
      | _ => (0, 0, 0)) = some [(3, 0, 7), (2, 1, 2)] := by decide +kernel
/-- P5's expansion: the width of every link. -/
theorem test_serialFFT : (stagesOf (.serialFFT 8 (q 5 4) true (q 2 8) .threeMult true)).map
    (fun sts => sts.map fun st => st.outLink.fmt) = some [⟨6, 4, true⟩, ⟨6, 4, true⟩, ⟨7, 4, true⟩, ⟨7, 4, true⟩,
      ⟨7, 4, true⟩, ⟨8, 4, true⟩, ⟨8, 4, true⟩] := by decide +kernel
/-- Section 5: `Comb(4, 1, 5, 1) -> Integrator(6, 6, 1)`. -/
theorem test_format_mismatch : errorAfter (some ⟨⟨5, 0, true⟩, 1⟩) (.integrator 6 6 1) = some .formatMismatch := by decide
/-- Section 5: a butterfly fed by a real link. -/
theorem test_real_link : errorAfter (some ⟨⟨4, 0, true⟩, 1⟩) (.sdfRadix2Stage 4 (q 4 0)) = some .badLanes := by decide +kernel
/-- Section 5: the first in the order of R185. -/
theorem test_order_first : errorAfter none (.cicDownsamplingFilter 0 0 0 (q 8 0) 1 none none) = some .badOrder := by decide

/-! ### Ticks -/

/-- One tick of a single stage: the stage after it, the input's ready, the output's valid, and the output's
payload where it is valid. -/
def tickOf (st : Stage) (valid : Bool) (re im : Int) (ready : Bool) : Option (List Stage × Bool × Bool × Payload) :=
  match step (started ⟨st.inLink, [st]⟩ [⟨valid, ⟨re, im⟩, ready, []⟩]) with
  | .next t => match t.pipeline, t.trace with
    | some p, [⟨some b, _⟩] => some (p.stages, b.input.ready, b.output.valid, if b.output.valid then b.output.payload else ⟨0, 0⟩)
    | _, _ => none
  | .fault _ => none
  | .refused _ => none

/-- The link of `Q(8,0)` with one lane. -/
def r8 : LinkFmt := ⟨⟨8, 0, true⟩, 1⟩

/-- Section 2.3, tick 0: input consumed, output stalled, so it arms. -/
theorem test_tick_skidBuffer : tickOf (.skidBuffer r8 false ⟨0, 0⟩) true 7 0 false =
    some ([.skidBuffer r8 true ⟨7, 0⟩], true, true, ⟨7, 0⟩) := by decide +kernel
/-- Section 2.3, tick 3: the buffered value leaves, the input is still refused. -/
theorem test_tick_skidBuffer_disarms : tickOf (.skidBuffer r8 true ⟨7, 0⟩) true 8 0 true =
    some ([.skidBuffer r8 false ⟨7, 0⟩], false, true, ⟨7, 0⟩) := by decide +kernel
/-- Section 2.3, tick 3: the output is empty, so the line advances although it is not ready. -/
theorem test_tick_streamDelay : tickOf (.streamDelay 2 r8 [⟨⟨5, 0⟩, true⟩, ⟨⟨0, 0⟩, false⟩]) true 6 0 false =
    some ([.streamDelay 2 r8 [⟨⟨6, 0⟩, true⟩, ⟨⟨5, 0⟩, true⟩]], true, false, ⟨0, 0⟩) := by decide +kernel
/-- R132's example. -/
theorem test_tick_pipeReg : tickOf (.pipeReg ⟨r8, none, r8⟩ ⟨true, ⟨1, 0⟩⟩) true 2 0 true =
    some ([.pipeReg ⟨r8, none, r8⟩ ⟨true, ⟨2, 0⟩⟩], true, true, ⟨1, 0⟩) := by decide +kernel
/-- The multiplexer: the absolute value, by the sign bit. -/
theorem test_select : LaneExpr.eval ⟨8, 0, true⟩ ⟨-5, 0⟩ (.select .inRe 7 .inRe (.neg .inRe)) = ⟨5, ⟨8, 0, true⟩⟩ ∧
    LaneExpr.eval ⟨8, 0, true⟩ ⟨5, 0⟩ (.select .inRe 7 .inRe (.neg .inRe)) = ⟨5, ⟨8, 0, true⟩⟩ := by decide
/-- Section 2.4: `14 + 7` in 5 bits. -/
theorem test_tick_integrator : tickOf (.integrator ⟨⟨4, 0, true⟩, 1⟩ ⟨⟨5, 0, true⟩, 1⟩ ⟨14, 0⟩) true 7 0 true =
    some ([.integrator ⟨⟨4, 0, true⟩, 1⟩ ⟨⟨5, 0, true⟩, 1⟩ ⟨-11, 0⟩], true, true, ⟨-11, 0⟩) := by decide +kernel
/-- Section 2.4: `-8 - 3`. -/
theorem test_tick_comb : tickOf (.comb ⟨⟨4, 0, true⟩, 1⟩ ⟨⟨5, 0, true⟩, 1⟩ 2 [⟨5, 0⟩, ⟨3, 0⟩]) true (-8) 0 true =
    some ([.comb ⟨⟨4, 0, true⟩, 1⟩ ⟨⟨5, 0, true⟩, 1⟩ 2 [⟨-8, 0⟩, ⟨5, 0⟩]], true, true, ⟨-11, 0⟩) := by decide +kernel
/-- Section 2.4, tick 3: the last zero, the counter returns to 0. -/
theorem test_tick_upsampler : tickOf (.upsampler 3 r8 2) true (-2) 0 true = some ([.upsampler 3 r8 0], false, true, ⟨0, 0⟩) := by decide +kernel
/-- Section 2.4, tick 2: a dropped sample is accepted although the output is stalled. -/
theorem test_tick_downsampler : tickOf (.downsampler 3 r8 1) true 11 0 false = some ([.downsampler 3 r8 2], true, false, ⟨0, 0⟩) := by decide +kernel
/-- Section 2.4: `-5` by `2^2`. -/
theorem test_tick_requant : tickOf (.requant 2 r8 ⟨⟨6, 0, true⟩, 1⟩) true (-5) 0 true =
    some ([.requant 2 r8 ⟨⟨6, 0, true⟩, 1⟩], true, true, ⟨-2, 0⟩) := by decide +kernel
/-- S1, the tick of `x[3]`: the sum `1 + 3` leaves, the difference `1 - 3` goes back. -/
theorem test_tick_sdfRadix2 : tickOf (.sdfRadix2 2 ⟨8, 0, true⟩ 3 [⟨⟨-2, 0⟩, true, true⟩, ⟨⟨1, 0⟩, true, false⟩]) true 3 0 true =
    some ([.sdfRadix2 2 ⟨8, 0, true⟩ 0 [⟨⟨-2, 0⟩, true, true⟩, ⟨⟨-2, 0⟩, true, true⟩]], true, true, ⟨4, 0⟩) := by decide +kernel
/-- Section 2.6: the last quarter is rotated. -/
theorem test_tick_r22Twiddle : tickOf (.r22Twiddle 2 ⟨5, 0, true⟩ 3) true 5 (-16) true =
    some ([.r22Twiddle 2 ⟨5, 0, true⟩ 0], true, true, ⟨-16, -5⟩) := by decide +kernel
/-- Section 2.6, entry 5. -/
theorem test_tick_twiddleDirect : (tickOf (freshTwiddleDirect 3 ⟨4, 4, true⟩ ⟨2, 8, true⟩) true 100 (-50) true).map
    (fun r => r.2.2.2) = some ⟨100, -50⟩ ∧ rotate ⟨4, 4, true⟩ ⟨2, 8, true⟩ ⟨181, -181⟩ ⟨100, -50⟩ = ⟨35, -107⟩ := by decide +kernel
/-- R215's example, the three substages. -/
theorem test_threeMult_records :
    sumRecord ⟨4, 4, true⟩ ⟨2, 8, true⟩ ⟨181, -181⟩ ⟨100, -50⟩ = ⟨-50, 181, -181, 362, 150, 50⟩ ∧
    productRecord ⟨4, 4, true⟩ ⟨2, 8, true⟩ ⟨-50, 181, -181, 362, 150, 50⟩ = ⟨-18100, 27150, -9050⟩ ∧
    rotatedRecord ⟨4, 4, true⟩ ⟨2, 8, true⟩ ⟨-18100, 27150, -9050⟩ = ⟨35, -107⟩ := by decide +kernel
/-- R235, tick 5: the sample passes, the entry goes round. -/
theorem test_tick_bitExchange : tickOf (.bitExchange 1 0 r8 2 [⟨⟨11, 0⟩, true⟩]) true 12 0 true =
    some ([.bitExchange 1 0 r8 3 [⟨⟨11, 0⟩, true⟩]], true, true, ⟨12, 0⟩) := by decide +kernel
/-- R130: an enabled delay of depth 1 shows the entry before. -/
theorem test_tick_delay : (match step { State.reset with
      delays := [⟨⟨.flagged, r8⟩, 1, [⟨⟨9, 0⟩, true, false⟩]⟩], env := [⟨false, ⟨0, 0⟩, false, [⟨true, ⟨⟨4, 0⟩, true, false⟩⟩]⟩] } with
    | .next t => some (t.delays.map DelayUnit.d, t.trace.map TickRecord.delayOut)
    | _ => none) = some ([[⟨⟨4, 0⟩, true, false⟩]], [[⟨⟨9, 0⟩, true, false⟩]]) := by decide +kernel
/-- After the first tick nothing is built (log entry 8). -/
theorem test_no_construction_after_start : (match exec (.skidBuffer (q 8 0) 1) { State.reset with ticks := 1 } with
    | .refused .constructionAfterStart => true
    | _ => false) = true := by decide
/-- Every row of the table, with operand bytes of zero, is fetched and completes right after reset. -/
theorem test_every_row_completes : [0x00, 0x01, 0x02, 0x03, 0x04, 0x05, 0x06, 0x10, 0x11, 0x12, 0x13, 0x14, 0x15, 0x16,
    0x17, 0x18, 0x20, 0x21, 0x22, 0x23, 0x30, 0x31, 0x32, 0x33, 0x34, 0x38, 0x39, 0x3A, 0x3B, 0x40, 0x41, 0x42, 0x43,
    0x44, 0x50, 0x51, 0x60].all (fun w => match step (State.reset.withFetchWord 8 w) with
      | .next t => t.program.isEmpty
      | _ => false) = true := by decide +kernel

/-! ### Witnesses: the hypotheses of each statement can be met, clause by clause, at boundary values -/

/-- The least value of `(2,1,signed)`. -/
def low : Fx := ⟨-4, ⟨2, 1, true⟩⟩

/-- The greatest value of `(3,2,signed)`. -/
def high : Fx := ⟨15, ⟨3, 2, true⟩⟩

/-- The greatest value of `(2,1,unsigned)`. -/
def full : Fx := ⟨7, ⟨2, 1, false⟩⟩

/-- A complex value with both lanes at the ends of `(3,0,signed)`. -/
def ends : Cx := ⟨-4, 3, ⟨3, 0, true⟩⟩

/-- An unsigned complex value. -/
def plain : Cx := ⟨0, 3, ⟨2, 0, false⟩⟩

/-- A machine whose last link is `l`. -/
def fed (l : LinkFmt) : State := { State.reset with pipeline := some ⟨l, []⟩ }

/-- A configured machine whose unit is the one stage, in any state of its registers. -/
def one (st : Stage) : State := { State.reset with pipeline := some ⟨st.inLink, [st]⟩ }

theorem one_inv (st : Stage) (h : st.inLink.legal = true) (hs : st.shaped) (hr : st.registered) : (one st).Inv := by
  refine ⟨fun p hp => ?_, by simp [one], rfl, trivial⟩
  cases hp
  exact ⟨h, ⟨rfl, trivial⟩, fun st' hst => by simp at hst; subst hst; exact ⟨hs, hr⟩⟩

theorem unit_inv (st : Stage) (h : st.inLink.legal = true) (hs : st.shaped) (hr : st.registered) :
    Pipeline.Inv ⟨st.inLink, [st]⟩ := (one_inv st h hs hr).1 _ rfl

/-- The butterfly of period 2 waiting for its first, and for its second sample. -/
def feeding : Stage := .sdfRadix2 1 ⟨8, 0, true⟩ 0 [⟨⟨0, 0⟩, false, false⟩]
def combining : Stage := .sdfRadix2 1 ⟨8, 0, true⟩ 1 [⟨⟨-128, 127⟩, true, false⟩]

theorem feeding_inv : (one feeding).Inv := by
  refine one_inv _ (by decide) (by simp only [feeding, Stage.shaped]; decide) ?_
  refine ⟨by decide, by decide, ⟨by decide, fun i hi => ?_⟩⟩
  obtain rfl : i = 0 := by omega
  decide

theorem combining_inv : (one combining).Inv := by
  refine one_inv _ (by decide) (by simp only [combining, Stage.shaped]; decide) ?_
  refine ⟨by decide, by decide, ⟨by decide, fun i hi => ?_⟩⟩
  obtain rfl : i = 0 := by omega
  decide

theorem witness_EncodingIsUnique : decode [0x06, 0x06, 0x00, 0x00, 0x00] = .ok (.neg ⟨3, ⟨2, 0, true⟩⟩, []) := by decide +kernel

theorem witness_UnknownSelectorIsRefused : ({ State.reset with program := [0xFF] } : State).program = 0xFF :: [] ∧
    (0xFF : Byte).toNat ∉ [0x00, 0x60] ∧ (0x07 : Byte).toNat ∉ [0x06, 0x10] := by decide

theorem witness_StepRunsTheDecodedOperation : (State.reset.setProgram [0x06, 0x06, 0x00, 0x00, 0x00]).program ≠ [] ∧
    decode (State.reset.setProgram [0x06, 0x06, 0x00, 0x00, 0x00]).program = .ok (.neg ⟨3, ⟨2, 0, true⟩⟩, []) := by decide +kernel

theorem witness_FetchedWordRuns : decodeTableWord 8 0x00 = some (.fixedPointConst ⟨2, 0, true⟩ 0) ∧
    (decodeTableWord 8 0x60).isSome = true := by decide +kernel

theorem witness_NoTickStops : State.reset.program = [] := rfl

theorem witness_StepKeepsInvariant : (one feeding).Inv ∧ step (one feeding) = .next (tick (one feeding)) := ⟨feeding_inv, rfl⟩

theorem witness_EmergingTagFollowsMode :
    ((one feeding).Inv ∧ (one feeding).pipeline = some ⟨feeding.inLink, [feeding]⟩ ∧ feeding ∈ [feeding] ∧ 0 < 2 ^ (1 - 1)) ∧
    ((one combining).Inv ∧ (one combining).pipeline = some ⟨combining.inLink, [combining]⟩ ∧ combining ∈ [combining] ∧
      2 ^ (1 - 1) ≤ 1) :=
  ⟨⟨feeding_inv, rfl, by simp, by decide⟩, ⟨combining_inv, rfl, by simp, by decide⟩⟩

theorem witness_ConstructionGivesResetState :
    exec (.skidBuffer (q 8 0) 2) State.reset = .next (State.reset.setPipeline ⟨l8, [.skidBuffer l8 false ⟨0, 0⟩]⟩) ∧
    (∀ p, State.reset.pipeline = some p → p.fresh) := ⟨rfl, fun p h => by cases h⟩

theorem witness_WrapIsTheRepresentative : (Fmt.mk 1 0 true).legal = true ∧ (Fmt.mk 0 1 false).legal = true := by decide

theorem witness_ConstantsAreDelivered : low.legal = true ∧ full.legal = true ∧ ends.legal = true := by decide

theorem witness_AddAndSubAlignGrowAndWrap : low.legal = true ∧ high.legal = true ∧ full.legal = true := by decide

theorem witness_MulIsTheExactProduct : low.legal = true ∧ full.legal = true := by decide

theorem witness_ReshapeTruncatesAndWraps : low.legal = true ∧ (Fmt.mk 1 0 true).legal = true ∧ (Fmt.mk 0 4 false).legal = true := by decide

theorem witness_ShiftAndNegKeepTheFormat : low.legal = true ∧ (-1 : Int) < 0 ∧ low.fmt.signed = true ∧
    low.raw = -(2 ^ (low.fmt.i + low.fmt.f - 1)) ∧ full.legal = true ∧ full.fmt.signed = false := by decide

theorem witness_WhenSumsAndProductsAreExact : (low.legal = true ∧ high.legal = true ∧ full.legal = true) ∧
    low.fmt.signed = high.fmt.signed ∧ (high.fmt.signed = true ∧ full.fmt.signed = false ∧ full.fmt.i < high.fmt.i) ∧
    full.fmt.signed = full.fmt.signed ∧ (low.fmt.signed = true ∧ high.fmt.signed = true) := by decide

theorem witness_ReshapeLaws : (low.legal = true ∧ (Fmt.mk 2 1 false).legal = true ∧ low.fmt.i ≤ 2 ∧ low.fmt.f ≤ 1) ∧
    ((Fmt.mk 2 1 true).legal = true ∧ (Fmt.mk 2 1 true).signed = low.fmt.signed) ∧ ((-1 : Int) ≤ 0) ∧
    ((Fmt.mk 2 0 true).legal = true ∧ (Fmt.mk 2 0 true).signed = low.fmt.signed ∧ 0 < low.fmt.f) ∧
    (1 < low.fmt.i ∧ 1 ≤ low.fmt.f) := by decide

theorem witness_ComplexSumsAreLaneSums : ends.legal = true ∧ plain.legal = true := by decide

theorem witness_ComplexProduct : ends.legal = true ∧ plain.legal = true ∧ ends.fmt.signed = true := by decide

theorem witness_ThreeMultiplierProduct : ends.legal = true ∧ plain.legal = true ∧ ends.fmt.signed = true := by decide

theorem witness_LaneWiseOperations : ends.legal = true ∧ low.legal = true ∧ (Fmt.mk 1 0 true).legal = true := by decide

theorem witness_QuarterRotation : ends.legal = true ∧ ends.fmt.signed = true ∧
    ends.re = -(2 ^ (ends.fmt.i + ends.fmt.f - 1)) := by decide

/-- The function `re * re`, `im` chosen by the sign of `re`, of `l8`. -/
def squared : PipeFn := ⟨l8, some ⟨.mul .inRe .inRe, some (.mul .inIm (.select .inRe 7 .inRe .inIm))⟩, ⟨⟨16, 0, true⟩, 2⟩⟩

theorem witness_LinkStagesAreBuilt : (l8.legal = true ∧ State.reset.accepts l8 ∧ (fed l8).accepts l8) ∧
    (squared.legal = true ∧ squared.inLink = l8) ∧ (PipeFn.legal ⟨l8, none, l8⟩ = true) ∧ State.reset.ticks = 0 :=
  ⟨⟨by decide, ⟨rfl, .inl rfl⟩, ⟨rfl, .inr rfl⟩⟩, ⟨by decide, rfl⟩, by decide, rfl⟩

theorem witness_PipeRegTakesAnyFunction : (l8.legal = true ∧ r8.legal = true ∧ State.reset.accepts l8 ∧
      (∀ x : Payload, l8.holds x = true → r8.holds ⟨x.re, 0⟩ = true)) ∧
    (l8.holds ⟨-128, 127⟩ = true ∧ r8.holds ⟨-128, 0⟩ = true) ∧
    ((LaneExpr.eval ⟨8, 0, true⟩ ⟨-128, 127⟩ .inRe).legal = true ∧ (LaneExpr.eval ⟨8, 0, true⟩ ⟨-128, 127⟩ (.mul .inRe .inRe)).legal = true) ∧
    (ends.legal = true ∧ ends.reFx = LaneExpr.eval ⟨3, 0, true⟩ ⟨-4, 3⟩ .inRe ∧ ends.imFx = LaneExpr.eval ⟨3, 0, true⟩ ⟨-4, 3⟩ .inIm) := by
  refine ⟨⟨by decide, by decide, ⟨rfl, .inl rfl⟩, fun x h => ?_⟩, by decide, by decide, by decide⟩
  simp only [LinkFmt.holds, Bool.and_eq_true] at h ⊢
  exact ⟨h.1, by decide⟩

/-- A configured machine with a delay of depth 0 and one of depth 1. -/
def delaying : State := { State.reset with delays := [⟨⟨.flagged, r8⟩, 0, []⟩, ⟨⟨.flagged, r8⟩, 1, [⟨⟨9, 0⟩, true, false⟩]⟩] }

theorem witness_DelayShowsTheOldestEntry :
    ((DelayUnit.mk ⟨.flagged, r8⟩ 0 []).Inv ∧ (DelayUnit.mk ⟨.flagged, r8⟩ 1 [⟨⟨9, 0⟩, true, false⟩]).Inv ∧
      1 ≤ (([⟨true, ⟨⟨4, 0⟩, true, false⟩⟩] : List DelayDrive).filter DelayDrive.en).length) ∧
    (delaying.Inv ∧ delaying.program = [] ∧ (delaying.delays[0]?).map DelayUnit.depth = some 0 ∧
      (delaying.delays[1]?).map DelayUnit.depth = some 1) := by
  have h0 : (DelayUnit.mk ⟨.flagged, r8⟩ 0 []).Inv := ⟨by decide, rfl, by simp⟩
  have h1 : (DelayUnit.mk ⟨.flagged, r8⟩ 1 [⟨⟨9, 0⟩, true, false⟩]).Inv := ⟨by decide, rfl, by decide⟩
  refine ⟨⟨h0, h1, by decide⟩, ⟨fun p h => (nomatch h), fun u hu => ?_, rfl, trivial⟩, rfl, rfl, rfl⟩
  simp only [delaying, List.mem_cons, List.not_mem_nil, or_false] at hu
  rcases hu with rfl | rfl
  · exact h0
  · exact h1

theorem witness_CicStagesAreBuilt : l8.legal = true ∧ State.reset.acceptsLanes l8 ∧
    (LinkFmt.mk ⟨4, 4, true⟩ 1).legal = true ∧ (fed ⟨⟨4, 4, true⟩, 1⟩).acceptsLanes ⟨⟨4, 4, true⟩, 1⟩ ∧ 1 ≤ 1 :=
  ⟨by decide, ⟨rfl, .inr ⟨rfl, rfl⟩⟩, by decide, ⟨rfl, .inl rfl⟩, le_refl 1⟩

theorem witness_CicGrowthIsLeast : 1 ≤ 1 ∧ 1 ≤ 1 ∧ 1 ≤ 2 * 1 := by decide

theorem witness_CicTruncationFollowsHogenauer : (∀ o, some 4 = some o → 1 ≤ o ∧ ∀ k, (1 * 1) ^ 1 ≤ 2 ^ k → o ≤ 4 + k) ∧
    (∀ o, some 1 = some o → 1 ≤ o ∧ ∀ k, (3 * 2) ^ 2 ≤ 2 ^ k → o ≤ 4 + k) := by
  refine ⟨fun o h => ?_, fun o h => ?_⟩ <;> cases h <;> exact ⟨by decide, fun k _ => by omega⟩

/-- The widths `4, 5, 4` of the interpolator with `N = R = M = 1`. -/
def widths (j : Nat) : Nat := if j = 1 then 5 else 4

theorem witness_UpsamplingFilterIsComposed : (LinkFmt.mk ⟨4, 0, true⟩ 1).legal = true ∧ State.reset.accepts ⟨⟨4, 0, true⟩, 1⟩ ∧
    widths 0 = 4 ∧ (∀ j, 1 ≤ j → j ≤ 2 * 1 → ∃ g, IsGrowth 1 1 1 j g ∧ widths j = 4 + g) ∧
    (∀ o, some 4 = some o → 1 ≤ o ∧ o ≤ widths (2 * 1)) ∧
    ((Fmt.mk 1 3 true).legal = true ∧ (Fmt.mk 1 3 true).signed = true ∧ (Fmt.mk 1 3 true).width = (some 4).getD (widths (2 * 1))) := by
  refine ⟨by decide, ⟨rfl, .inl rfl⟩, rfl, fun j h1 h2 => ?_, fun o h => by cases h; decide, by decide⟩
  obtain rfl | rfl : j = 1 ∨ j = 2 := by omega
  · exact ⟨1, ⟨fun _ => rfl, fun h => absurd h (by decide)⟩, rfl⟩
  · exact ⟨0, ⟨fun h => absurd h (by decide), fun _ => ⟨by decide, fun k _ => Nat.zero_le k⟩⟩, rfl⟩

theorem witness_DownsamplingFilterIsComposed : (LinkFmt.mk ⟨4, 0, true⟩ 1).legal = true ∧
    State.reset.accepts ⟨⟨4, 0, true⟩, 1⟩ ∧ TruncationRules 1 1 1 4 (some 4) (cicTruncate 1 1 1 4 (some 4)) ∧
    (∀ o, some 4 = some o → 1 ≤ o ∧ o ≤ (cicTruncate 1 1 1 4 (some 4)).fullWidth) ∧
    ((Fmt.mk 1 3 true).legal = true ∧ (Fmt.mk 1 3 true).signed = true ∧
      (Fmt.mk 1 3 true).width = (cicTruncate 1 1 1 4 (some 4)).widthOut) := by
  refine ⟨by decide, ⟨rfl, .inl rfl⟩, ?_, fun o h => by cases h; decide +kernel, by decide +kernel⟩
  have cases12 : ∀ {P : Nat → Prop}, P 1 → P 2 → ∀ j, 1 ≤ j → j ≤ 2 * 1 → P j := by
    intro P h1 h2 j a b
    obtain rfl | rfl : j = 1 ∨ j = 2 := by omega
    · exact h1
    · exact h2
  constructor
  · exact ⟨⟨by decide +kernel, fun k _ => by
      have : (cicTruncate 1 1 1 4 (some 4)).fullWidth - 4 = 0 := by decide +kernel
      omega⟩, by decide +kernel⟩
  · decide +kernel
  · decide +kernel
  · decide +kernel
  · exact cases12 (by decide +kernel) (by decide +kernel)
  · refine cases12 ⟨by decide +kernel, fun k h => ?_⟩ ⟨by decide +kernel, fun k h => ?_⟩ <;>
    · rcases k with - | k
      · exact absurd h (by decide +kernel)
      · have : ∀ i ∈ (cicTruncate 1 1 1 4 (some 4)).k, i ≤ 1 := by decide +kernel
        exact le_trans (by decide +kernel) (Nat.le_add_left 1 k)
  · exact cases12 (by decide +kernel) (by decide +kernel)
  · decide +kernel
  · exact fun j h1 h2 => by
      obtain rfl : j = 2 := by omega
      decide +kernel
  · exact cases12 (by decide +kernel) (by decide +kernel)
  · exact cases12 (by decide +kernel) (by decide +kernel)
  · exact cases12 (by decide +kernel) (by decide +kernel)
  · decide +kernel

theorem witness_FftStagesAreBuilt : (Fmt.mk 1 0 true).legal = true ∧ (Fmt.mk 1 0 true).signed = true ∧
    State.reset.accepts ⟨⟨1, 0, true⟩, 2⟩ ∧ 1 ≤ 1 ∧ 2 ≤ 2 ∧ (Fmt.mk 2 0 true).signed = true ∧ 2 ≤ (Fmt.mk 2 0 true).i :=
  ⟨by decide, rfl, ⟨rfl, .inl rfl⟩, by decide, by decide, rfl, by decide⟩

theorem witness_TwiddleTableIsRounded : 2 ≤ 2 ∧ (Fmt.mk 2 0 true).signed = true ∧ 2 ≤ (Fmt.mk 2 0 true).i ∧ 3 < 2 ^ 2 := by decide

theorem witness_BitReversalIsComposed : l8.legal = true ∧ State.reset.accepts l8 ∧ 0 < 1 ∧ 1 ≤ 1 :=
  ⟨by decide, ⟨rfl, .inl rfl⟩, by decide, by decide⟩

theorem witness_SerialFftIsComposed : (Fmt.mk 1 0 true).legal = true ∧ (Fmt.mk 1 0 true).signed = true ∧
    State.reset.accepts ⟨⟨1, 0, true⟩, 2⟩ ∧ 1 ≤ 1 ∧
    (3 ≤ 3 → (Fmt.mk 2 0 true).param = (Fmt.mk 2 0 true).param ∧ (Fmt.mk 2 0 true).signed = true ∧ 2 ≤ (Fmt.mk 2 0 true).i) ∧
    (3 ≤ 2 → False) :=
  ⟨by decide, rfl, ⟨rfl, .inl rfl⟩, by decide, fun _ => ⟨rfl, rfl, by decide⟩, by decide⟩

theorem witness_CompletesExactlyInItsDomain : State.reset.ticks = 0 ∧ State.reset.pipeline = none ∧
    (Instr.cicGrowth 1 1 1).wellFormed = true ∧ (Instr.cicGrowth 0 1 1).wellFormed = false := by decide

theorem witness_SerialFftErrorsInOrder : (fed l8).ticks = 0 ∧ sizeFormed 2 1 = false ∧
    (sizeFormed 2 2 = true ∧ (q 0 4).wellFormed = false) ∧ ((u 4 0).wellFormed = true ∧ (u 4 0).signed = false) ∧
    ((q 4 0).payloadFormed = true ∧ (fed r8).openLink = some r8 ∧ r8.lanes ≠ 2) ∧
    ((fed l8).openLink = some l8 ∧ l8.lanes = 2 ∧ l8.fmt.param ≠ q 4 0) ∧
    (sizeFormed 2 8 = true ∧ (8 : Int) ≤ 8 ∧ (q 1 8).twiddleFormed = false ∧ State.reset.openLink = none) := by decide

theorem witness_CicFilterErrorsInOrder : State.reset.ticks = 0 ∧ (0 : Int) < 1 ∧ (1 : Int) ≤ 1 ∧ (q 0 4).wellFormed = false ∧
    (u 4 0).wellFormed = true ∧ (u 4 0).signed = false ∧ (q 4 0).payloadFormed = true := by decide

/-- The width just above the full width, 4, of `N = R = M = 1` on 4 bits. -/
theorem witness_CicFilterErrorsInOrder_above : (Fmt.mk 4 0 true).legal = true ∧ (Fmt.mk 4 0 true).signed = true ∧
    (∀ g, IsGrowth 1 1 1 (2 * 1) g → (Fmt.mk 4 0 true).width + g < 5) ∧
    (∀ g, LeastNat (fun k => (1 * 1) ^ 1 ≤ 2 ^ k) g → (Fmt.mk 4 0 true).width + g < 5) := by
  refine ⟨by decide, rfl, fun g h => ?_, fun g h => ?_⟩
  · have := (h.2 (by decide)).2 0 (by decide)
    simp only [Fmt.width]
    omega
  · have := h.2 0 (by decide)
    simp only [Fmt.width]
    omega

theorem witness_EachErrorHasItsCause : State.reset.ticks = 0 ∧ l8.legal = true ∧ (u 0 0).wellFormed = false ∧
    ((q 2 1).wellFormed = true ∧ (q 2 1).holds 4 = false ∧ (q 2 1).holds (-5) = false) ∧
    (low.legal = true ∧ high.legal = true ∧ low.fmt ≠ high.fmt) ∧ (plain.legal = true ∧ plain.fmt.signed = false) ∧
    ((u 4 0).wellFormed = true ∧ (u 4 0).signed = false) ∧ ends.legal = true ∧ (Fmt.mk 1 0 true).legal = true ∧ ((3 : Int) ≠ 1 ∧ (3 : Int) ≠ 2 ∧ (0 : Int) ≠ 1 ∧ (0 : Int) ≠ 2) ∧
    ((fed l8).openLink = some l8 ∧ r8.legal = true ∧ r8 ≠ l8) ∧ (-1 : Int) < 0 ∧ (0 : Int) < 1 ∧
    (sizeFormed 2 1 = false ∧ sizeFormed 2 3 = false ∧ sizeFormed 4 2 = false ∧ sizeFormed 4 5 = false) ∧
    ((q 1 8).twiddleFormed = false ∧ (u 2 8).twiddleFormed = false) ∧
    (¬ ((1 : Int) < 1 ∧ (0 : Int) ≤ 1) ∧ ¬ ((-1 : Int) < 0 ∧ (0 : Int) ≤ -1)) := by decide

theorem witness_NothingIsBuiltAfterStart : ({ State.reset with ticks := 1 } : State).ticks ≠ 0 ∧
    0x20 ≤ selector (.skidBuffer (q 4 0) 1) ∧ selector (.skidBuffer (q 4 0) 1) ∉ [0x38, 0x39, 0x44] ∧
    selector (.serialFFT 2 (q 4 0) true (q 2 8) .direct false) ∉ [0x38, 0x39, 0x44] := by decide

theorem witness_SkidBufferTick : (one (.skidBuffer l8 false ⟨0, 0⟩)).runs (.skidBuffer l8 false ⟨0, 0⟩) ∧
    (one (.skidBuffer l8 true ⟨1, 1⟩)).runs (.skidBuffer l8 true ⟨1, 1⟩) := ⟨⟨rfl, rfl⟩, ⟨rfl, rfl⟩⟩

theorem witness_StreamDelayTick : (one (.streamDelay 0 l8 [])).runs (.streamDelay 0 l8 []) ∧
    (one (.streamDelay 1 l8 [Slot.empty])).runs (.streamDelay 1 l8 [Slot.empty]) ∧ [Slot.empty].length = 1 :=
  ⟨⟨rfl, rfl⟩, ⟨rfl, rfl⟩, rfl⟩

theorem witness_PipeRegTick : (one (.pipeReg squared ⟨false, ⟨0, 0⟩⟩)).runs (.pipeReg squared ⟨false, ⟨0, 0⟩⟩) := ⟨rfl, rfl⟩

theorem witness_CicStageTicks : ((one (.integrator l8 l8 ⟨0, 0⟩)).runs (.integrator l8 l8 ⟨0, 0⟩) ∧
    (one (.comb l8 l8 1 [⟨0, 0⟩])).runs (.comb l8 l8 1 [⟨0, 0⟩]) ∧ [Payload.zero].getLast? = some ⟨0, 0⟩ ∧
    (one (.requant 0 l8 l8)).runs (.requant 0 l8 l8)) ∧
    ((one (.upsampler 2 l8 0)).runs (.upsampler 2 l8 0) ∧ (one (.upsampler 2 l8 1)).runs (.upsampler 2 l8 1) ∧
      (one (.downsampler 2 l8 0)).runs (.downsampler 2 l8 0) ∧ (one (.downsampler 2 l8 1)).runs (.downsampler 2 l8 1)) :=
  ⟨⟨⟨rfl, rfl⟩, ⟨rfl, rfl⟩, rfl, ⟨rfl, rfl⟩⟩, ⟨rfl, rfl⟩, ⟨rfl, rfl⟩, ⟨rfl, rfl⟩, ⟨rfl, rfl⟩⟩

theorem witness_ButterflyTick : ((one feeding).Inv ∧ (one feeding).runs feeding ∧ 0 < 2 ^ (1 - 1)) ∧
    ((one combining).Inv ∧ (one combining).runs combining ∧ 2 ^ (1 - 1) ≤ 1) :=
  ⟨⟨feeding_inv, ⟨rfl, rfl⟩, by decide⟩, ⟨combining_inv, ⟨rfl, rfl⟩, by decide⟩⟩

/-- A twiddle stage of period 4 at its last count. -/
def turning : Stage := .twiddleDirect 2 ⟨8, 0, true⟩ ⟨2, 0, true⟩ (twiddleList 2 0) 3

theorem witness_RotationTicks : ((one (.r22Twiddle 2 ⟨8, 0, true⟩ 3)).Inv ∧
      (one (.r22Twiddle 2 ⟨8, 0, true⟩ 3)).runs (.r22Twiddle 2 ⟨8, 0, true⟩ 3) ∧ 3 * 2 ^ 2 ≤ 4 * 3) ∧
    ((one turning).Inv ∧ (one turning).runs turning) :=
  ⟨⟨one_inv _ (by decide) (by simp only [Stage.shaped]; decide) (by simp only [Stage.registered]; decide), ⟨rfl, rfl⟩, by decide⟩,
   one_inv _ (by decide) ⟨by decide, by decide, rfl, rfl, by decide, rfl⟩ (by simp only [turning, Stage.registered]; decide),
   ⟨rfl, rfl⟩⟩

theorem witness_ThreeMultiplierTick : (one (freshTwiddleThreeMult 2 ⟨8, 0, true⟩ ⟨2, 0, true⟩)).runs
    (freshTwiddleThreeMult 2 ⟨8, 0, true⟩ ⟨2, 0, true⟩) ∧ (twiddleList 2 0)[0]? = some ⟨1, 0⟩ :=
  ⟨⟨rfl, rfl⟩, by decide +kernel⟩

theorem witness_BitExchangeTick : (one (.bitExchange 1 0 l8 1 [Slot.empty])).runs (.bitExchange 1 0 l8 1 [Slot.empty]) ∧
    (one (.bitExchange 1 0 l8 2 [Slot.empty])).runs (.bitExchange 1 0 l8 2 [Slot.empty]) ∧ [Slot.empty].getLast? = some Slot.empty ∧
    Nat.testBit 1 1 = false ∧ (Nat.testBit 2 1 = true ∧ Nat.testBit 2 0 = false) :=
  ⟨⟨rfl, rfl⟩, ⟨rfl, rfl⟩, rfl, by decide, by decide⟩

theorem witness_OutputsFollowTheStreamFunction : Pipeline.Inv ⟨feeding.inLink, [feeding]⟩ ∧
    Pipeline.fresh ⟨feeding.inLink, [feeding]⟩ :=
  ⟨feeding_inv.1 _ rfl, fun st h => by simp at h; subst h; decide +kernel⟩

/-- An upsampler behind a skid buffer, as built. -/
def spreading : Pipeline := ⟨l8, [.skidBuffer l8 false ⟨0, 0⟩, .upsampler 2 l8 0]⟩

theorem spreading_inv : spreading.Inv := by
  refine ⟨by decide, ⟨rfl, rfl, trivial⟩, fun st h => ?_⟩
  simp only [spreading, List.mem_cons, List.not_mem_nil, or_false] at h
  rcases h with rfl | rfl <;> simp only [Stage.shaped, Stage.registered] <;> decide

theorem spreading_fresh : spreading.fresh := by
  intro st h
  simp only [spreading, List.mem_cons, List.not_mem_nil, or_false] at h
  rcases h with rfl | rfl <;> rfl

theorem witness_NothingDueIsLost : spreading.Inv ∧ spreading.fresh := ⟨spreading_inv, spreading_fresh⟩

theorem witness_DueOutputsAreDelivered : spreading.Inv ∧ spreading.fresh ∧
    1 ≤ (([⟨false, ⟨0, 0⟩, true, []⟩] : List EnvTick).filter EnvTick.ready).length := ⟨spreading_inv, spreading_fresh, by decide⟩

theorem witness_ImmediateChainsGiveAllThatIsDue : Pipeline.Inv ⟨feeding.inLink, [feeding]⟩ ∧
    Pipeline.fresh ⟨feeding.inLink, [feeding]⟩ ∧ (∀ st ∈ [feeding], st.immediate = true) :=
  ⟨feeding_inv.1 _ rfl, fun st h => by simp at h; subst h; decide +kernel, fun st h => by simp at h; subst h; rfl⟩

theorem witness_OfferedOutputsStayOffered :
    let p : Pipeline := ⟨l8, [.skidBuffer l8 true ⟨1, 1⟩]⟩
    let e : EnvTick := ⟨true, ⟨2, 2⟩, false, []⟩
    (e.valid = true → p.ready e = false → e.valid = true ∧ e.payload = e.payload) ∧ (p.output 0 e).valid = true ∧ e.ready = false := by
  decide

theorem witness_StateMovesOnTransfersOnly : let st : Stage := .skidBuffer l8 true ⟨1, 1⟩
    consume true (st.ready false) = false ∧ consume (st.forward ⟨true, ⟨2, 2⟩⟩).valid false = false := by decide

theorem witness_BitReversalStream : 1 < (chainStream (bitReversalStages 2 l8) [⟨0, 0⟩, ⟨1, 0⟩, ⟨2, 0⟩, ⟨3, 0⟩]).length ∧
    (∀ b, b < 2 → Nat.testBit 2 b = Nat.testBit 1 (2 - 1 - b)) ∧ (∀ b, 2 ≤ b → Nat.testBit 2 b = Nat.testBit 1 b) := by
  refine ⟨by decide +kernel, by decide, fun b hb => ?_⟩
  have h : (2 : Nat) ^ 2 ≤ 2 ^ b := Nat.pow_le_pow_right (by decide) hb
  rw [Nat.testBit_lt_two_pow (by omega), Nat.testBit_lt_two_pow (by omega)]

theorem witness_FourPointTransformIsExact : (Fmt.mk 4 0 true).legal = true ∧ (Fmt.mk 4 0 true).signed = true ∧
    (∀ x ∈ List.replicate 9 (⟨-8, 7⟩ : Payload), LinkFmt.holds ⟨⟨4, 0, true⟩, 2⟩ x = true) ∧
    4 * 1 + 1 < (List.replicate 9 (⟨-8, 7⟩ : Payload)).length - 3 ∧ 4 * 1 + 0 < (List.replicate 9 (⟨-8, 7⟩ : Payload)).length - 4 := by decide

theorem witness_InterpolatorStream : l8.legal = true ∧ (∀ v ∈ [⟨-128, 127⟩, (⟨0, 0⟩ : Payload)], l8.holds v = true) ∧ 1 ≤ 1 ∧
    1 ≤ fullWidthUpsampling 1 1 1 8 := by decide +kernel

theorem witness_DecimatorStream : l8.legal = true ∧ (∀ v ∈ [⟨-128, 127⟩, (⟨0, 0⟩ : Payload)], l8.holds v = true) ∧ 1 ≤ 1 := by decide

end Sys2Proof.Tests
end

section
/-! PROOFS. The family of `40_fixed_point.md`: the arithmetic of wraps and ranges, what each fixed-point row
delivers for operands that pass their checks, and the statements. -/

namespace Sys2Proof.Machine

/-! ### Powers and shifts -/

/-- The model's power of two, as the statements write it. -/
theorem pow2_eq_two_pow (n : Nat) : pow2 n = 2 ^ n := by simp [pow2]

theorem pow2_dvd_pow2 {m n : Nat} (h : m ≤ n) : pow2 m ∣ pow2 n := by
  rw [← Nat.add_sub_cancel' h, pow2_add]
  exact dvd_mul_right _ _

@[simp] theorem shl_zero (x : Int) : shl x 0 = x := by simp [shl, pow2]

theorem shl_eq_mul_two_pow (x : Int) (n : Nat) : shl x n = x * 2 ^ n := by rw [shl, pow2_eq_two_pow]

theorem ashr_eq_div_two_pow (x : Int) (n : Nat) : ashr x n = x / 2 ^ n := by rw [ashr, pow2_eq_two_pow]

/-! ### The wrap of a format, modulo `2^W` -/

/-- A wrap keeps its argument modulo `2^W`. -/
theorem Fmt.wrap_emod (p : Fmt) (x : Int) : p.wrap x % pow2 p.width = x % pow2 p.width := by
  unfold Fmt.wrap
  cases p.signed
  · exact Int.emod_emod_of_dvd x dvd_rfl
  · exact wrapS_emod p.width x

/-- Two integers that agree modulo `2^W` have one wrap. -/
theorem Fmt.wrap_congr (p : Fmt) {x y : Int} (h : x % pow2 p.width = y % pow2 p.width) : p.wrap x = p.wrap y := by
  unfold Fmt.wrap
  cases p.signed
  · exact h
  · exact wrapS_congr p.width h

/-- A wrap into a format at least as wide is undone by the narrower wrap. -/
theorem Fmt.wrap_wrap_of_le {p q : Fmt} (h : p.width ≤ q.width) (x : Int) : p.wrap (q.wrap x) = p.wrap x := by
  have hd := pow2_dvd_pow2 h
  apply Fmt.wrap_congr
  calc q.wrap x % pow2 p.width
      = q.wrap x % pow2 q.width % pow2 p.width := (Int.emod_emod_of_dvd _ hd).symm
    _ = x % pow2 q.width % pow2 p.width := by rw [Fmt.wrap_emod]
    _ = x % pow2 p.width := Int.emod_emod_of_dvd _ hd

/-! ### Ranges -/

theorem Fmt.holds_iff_of_signed {p : Fmt} (hs : p.signed = true) {x : Int} :
    p.holds x = true ↔ -pow2 (p.width - 1) ≤ x ∧ x < pow2 (p.width - 1) := by
  simp [Fmt.holds_iff, Fmt.least, Fmt.bound, hs]

theorem Fmt.holds_iff_of_unsigned {p : Fmt} (hs : p.signed = false) {x : Int} :
    p.holds x = true ↔ 0 ≤ x ∧ x < pow2 p.width := by
  simp [Fmt.holds_iff, Fmt.least, Fmt.bound, hs]

/-- `2^W` is twice the half range. -/
theorem Fmt.pow2_width {p : Fmt} (h : p.legal = true) : pow2 p.width = 2 * pow2 (p.width - 1) := by
  rw [← pow2_succ, Nat.sub_add_cancel (Fmt.one_le_width h)]

theorem Fmt.abs_le_of_signed {p : Fmt} (hs : p.signed = true) {x : Int} (hx : p.holds x = true) :
    |x| ≤ pow2 (p.width - 1) := by
  obtain ⟨hlo, hhi⟩ := (Fmt.holds_iff_of_signed hs).1 hx
  exact abs_le.2 ⟨hlo, hhi.le⟩

/-- Whatever its signedness, a value of a legal format is below `2^W` in magnitude. -/
theorem Fmt.abs_lt_pow2_width {p : Fmt} (h : p.legal = true) {x : Int} (hx : p.holds x = true) : |x| < pow2 p.width := by
  cases hs : p.signed
  · obtain ⟨hlo, hhi⟩ := (Fmt.holds_iff_of_unsigned hs).1 hx
    rwa [abs_of_nonneg hlo]
  · have hle := Fmt.abs_le_of_signed hs hx
    have hw := Fmt.pow2_width h
    have hpos := pow2_pos (p.width - 1)
    omega

/-- An arithmetic shift to the right stays in the range it starts in (R77). -/
theorem Fmt.ashr_holds {p : Fmt} {x : Int} (hx : p.holds x = true) (n : Nat) : p.holds (ashr x n) = true := by
  obtain ⟨hlo, hhi⟩ := Fmt.holds_iff.1 hx
  obtain ⟨hleast, hbound⟩ := Fmt.holds_iff.1 (Fmt.holds_zero (p := p))
  have hpos := pow2_pos n
  refine Fmt.holds_iff.2 ⟨?_, ?_⟩
  · apply Int.le_ediv_of_mul_le hpos
    nlinarith
  · apply Int.ediv_lt_of_lt_mul hpos
    nlinarith

/-! ### The product's format (R75) -/

theorem Fmt.product_width (p q : Fmt) : (p.product q).width = p.width + q.width := by
  simp only [Fmt.product, Fmt.width]
  omega

theorem Fmt.product_comm (p q : Fmt) : p.product q = q.product p := by
  simp only [Fmt.product, Nat.add_comm, Bool.or_comm]

theorem Fmt.product_signed_iff {p q : Fmt} : (p.product q).signed = true ↔ p.signed = true ∨ q.signed = true := by
  simp [Fmt.product]

/-- With a signed first factor the other may have either sign: `|x| ≤ 2^(W_p-1)` and `|y| < 2^W_q` leave
the product strictly inside the half range of `W_p + W_q` bits. -/
theorem Fmt.product_holds_of_signed {p q : Fmt} (hp : p.legal = true) (hq : q.legal = true) (hs : p.signed = true)
    {x y : Int} (hx : p.holds x = true) (hy : q.holds y = true) : (p.product q).holds (x * y) = true := by
  have hwidth : (p.product q).width - 1 = (p.width - 1) + q.width := by
    have := Fmt.one_le_width hp
    rw [Fmt.product_width]
    omega
  have habs : |x * y| < pow2 ((p.product q).width - 1) := by
    rw [abs_mul, hwidth, pow2_add]
    exact mul_lt_mul' (Fmt.abs_le_of_signed hs hx) (Fmt.abs_lt_pow2_width hq hy) (abs_nonneg y) (pow2_pos _)
  obtain ⟨hlo, hhi⟩ := abs_lt.1 habs
  exact (Fmt.holds_iff_of_signed (Fmt.product_signed_iff.2 (.inl hs))).2 ⟨hlo.le, hhi⟩

/-- The exact product of two values lies in the range of the product's format, for every combination of
signs (R75). -/
theorem Fmt.product_holds {p q : Fmt} (hp : p.legal = true) (hq : q.legal = true) {x y : Int}
    (hx : p.holds x = true) (hy : q.holds y = true) : (p.product q).holds (x * y) = true := by
  cases hps : p.signed
  case true => exact Fmt.product_holds_of_signed hp hq hps hx hy
  case false =>
    cases hqs : q.signed
    case true =>
      rw [Fmt.product_comm, mul_comm]
      exact Fmt.product_holds_of_signed hq hp hqs hy hx
    case false =>
      obtain ⟨hx0, hx1⟩ := (Fmt.holds_iff_of_unsigned hps).1 hx
      obtain ⟨hy0, hy1⟩ := (Fmt.holds_iff_of_unsigned hqs).1 hy
      have hs : (p.product q).signed = false := by simp [Fmt.product, hps, hqs]
      rw [Fmt.holds_iff_of_unsigned hs, Fmt.product_width, pow2_add]
      exact ⟨mul_nonneg hx0 hy0, mul_lt_mul'' hx1 hy1 hx0 hy0⟩

/-! ### The operations on values -/

theorem Fx.legal_iff {v : Fx} : v.legal = true ↔ v.fmt.legal = true ∧ v.fmt.holds v.raw = true := by
  simp [Fx.legal]

/-- The wrap of the product's format leaves the exact product as it is (R75). -/
theorem Fx.wrap_mul {a b : Fx} (ha : a.legal = true) (hb : b.legal = true) :
    (a.fmt.product b.fmt).wrap (a.raw * b.raw) = a.raw * b.raw := by
  obtain ⟨hfa, hra⟩ := Fx.legal_iff.1 ha
  obtain ⟨hfb, hrb⟩ := Fx.legal_iff.1 hb
  exact Fmt.wrap_of_holds (Fmt.product_legal hfa hfb) (Fmt.product_holds hfa hfb hra hrb)

theorem Fx.mul_eq {a b : Fx} (ha : a.legal = true) (hb : b.legal = true) :
    a.mul b = ⟨a.raw * b.raw, a.fmt.product b.fmt⟩ := by
  rw [Fx.mul, Fx.wrap_mul ha hb]

/-- `neg` by way of the wider `sub` is the wrap of `-r` in the format itself (R78). -/
theorem Fx.neg_eq (v : Fx) : v.neg = ⟨v.fmt.wrap (-v.raw), v.fmt⟩ := by
  have hsub : Fx.sub ⟨0, v.fmt⟩ v = ⟨(Fmt.sum v.fmt v.fmt).wrap (-v.raw), Fmt.sum v.fmt v.fmt⟩ := by
    simp [Fx.sub, Fx.aligned, Fmt.sum]
  have hwidth : v.fmt.width ≤ (Fmt.sum v.fmt v.fmt).width := by
    simp only [Fmt.width, Fmt.sum]
    omega
  have hreshape (r : Int) : Fx.reshape ⟨r, Fmt.sum v.fmt v.fmt⟩ v.fmt = ⟨v.fmt.wrap r, v.fmt⟩ := by
    simp [Fx.reshape, Fmt.sum]
  rw [Fx.neg, hsub, hreshape, Fmt.wrap_wrap_of_le hwidth]

/-- Negation in a signed format: the most negative value stays, every other one is negated exactly (R78). -/
theorem Fmt.wrap_neg {p : Fmt} (h : p.legal = true) (hs : p.signed = true) {x : Int} (hx : p.holds x = true) :
    p.wrap (-x) = if x = -pow2 (p.width - 1) then x else -x := by
  have hw := Fmt.pow2_width h
  split
  next hmin =>
    have hcongr : -x % pow2 p.width = x % pow2 p.width := by
      rw [show -x = x + pow2 p.width by omega, Int.add_emod_right]
    rw [Fmt.wrap_congr p hcongr, Fmt.wrap_of_holds h hx]
  next hne =>
    obtain ⟨hlo, hhi⟩ := (Fmt.holds_iff_of_signed hs).1 hx
    exact Fmt.wrap_of_holds h ((Fmt.holds_iff_of_signed hs).2 ⟨by omega, by omega⟩)

/-! ### What the rows deliver -/

@[simp] theorem deliver_ok (s : State) (r : Result) : deliver s (.ok r) = .next (s.setResult r) := rfl

@[simp] theorem deliver_error (s : State) (e : ConfigError) : deliver s (.error e) = .fault (.configError e) := rfl

theorem checkShift_natCast (n : Nat) : checkShift n = .ok n := checkAtLeast_natCast (Int.natCast_nonneg n)

theorem checkShift_of_neg {n : Int} (h : n < 0) : checkShift n = .error .badShift := by
  rw [checkShift, checkAtLeast, if_pos h]

section
variable (s : State) {a b v : Fx}

theorem exec_add_param (ha : a.legal = true) (hb : b.legal = true) :
    exec (.add a.param b.param) s = .next (s.setResult (.value (a.add b))) := by
  change execAdd a.param b.param s = _
  simp [execAdd, ha, hb]

theorem exec_sub_param (ha : a.legal = true) (hb : b.legal = true) :
    exec (.sub a.param b.param) s = .next (s.setResult (.value (a.sub b))) := by
  change execSub a.param b.param s = _
  simp [execSub, ha, hb]

theorem exec_mul_param (ha : a.legal = true) (hb : b.legal = true) :
    exec (.mul a.param b.param) s = .next (s.setResult (.value (a.mul b))) := by
  change execMul a.param b.param s = _
  simp [execMul, ha, hb]

theorem exec_reshape_truncate {p : Fmt} (hv : v.legal = true) (hp : p.legal = true) :
    exec (.reshape v.param p.param .truncate) s = .next (s.setResult (.value (v.reshape p))) := by
  change execReshape v.param p.param .truncate s = _
  simp [execReshape, checkRounding, hv, hp]

theorem exec_reshape_other {p : Fmt} (hv : v.legal = true) (hp : p.legal = true) (policy) :
    exec (.reshape v.param p.param (.other policy)) s = .fault (.configError .unknownRounding) := by
  change execReshape v.param p.param (.other policy) s = _
  simp [execReshape, checkRounding, hv, hp]

theorem exec_rshift_natCast (hv : v.legal = true) (n : Nat) :
    exec (.rshift v.param n) s = .next (s.setResult (.value (v.rshift n))) := by
  change execRshift v.param n s = _
  simp [execRshift, checkShift_natCast, hv]

theorem exec_rshift_of_neg (hv : v.legal = true) {n : Int} (hn : n < 0) :
    exec (.rshift v.param n) s = .fault (.configError .badShift) := by
  change execRshift v.param n s = _
  simp [execRshift, checkShift_of_neg hn, hv]

theorem exec_neg_of_signed (hv : v.legal = true) (hs : v.fmt.signed = true) :
    exec (.neg v.param) s = .next (s.setResult (.value v.neg)) := by
  change execNeg v.param s = _
  simp [execNeg, requireSigned, hv, hs]

theorem exec_neg_of_unsigned (hv : v.legal = true) (hs : v.fmt.signed = false) :
    exec (.neg v.param) s = .fault (.configError .unsignedPayload) := by
  change execNeg v.param s = _
  simp [execNeg, requireSigned, hv, hs]

end

/-! ### The statements -/

/-- Settles O15: the row delivers `Fx.mul`, whose wrap the range of the exact product makes the identity. -/
theorem mulIsTheExactProduct : Obligations.MulIsTheExactProduct := by
  intro s a b ha hb
  refine ⟨?_, Fx.wrap_mul ha hb⟩
  rw [exec_mul_param s ha hb, Fx.mul_eq ha hb]
  rfl

/-- Settles O17, clause by clause: the shift, its refusal, the negation with its corner, its refusal. -/
theorem shiftAndNegKeepTheFormat : Obligations.ShiftAndNegKeepTheFormat := by
  intro s v hv
  obtain ⟨hf, hr⟩ := Fx.legal_iff.1 hv
  refine ⟨fun n => ?_, fun n hn => exec_rshift_of_neg s hv hn, fun hs => ?_, fun hs => exec_neg_of_unsigned s hv hs⟩
  · rw [exec_rshift_natCast s hv, Fx.rshift, ← ashr_eq_div_two_pow]
    exact ⟨rfl, Fmt.ashr_holds hr n⟩
  · rw [exec_neg_of_signed s hv hs, Fx.neg_eq, ← pow2_eq_two_pow]
    exact ⟨rfl, Fmt.wrap_neg hf hs hr⟩

/-- Settles O14: both rows deliver their operation, whose alignment is a product with a power of two. -/
theorem addAndSubAlignGrowAndWrap : Obligations.AddAndSubAlignGrowAndWrap := by
  intro s a b ha hb
  rw [exec_add_param s ha hb, exec_sub_param s ha hb]
  simp only [Fx.add, Fx.sub, Fx.aligned, shl_eq_mul_two_pow]
  exact ⟨rfl, rfl⟩

/-- Settles O16: truncation is a shift either way before the wrap, and any other policy is refused. -/
theorem reshapeTruncatesAndWraps : Obligations.ReshapeTruncatesAndWraps := by
  intro s v p hv hp
  refine ⟨?_, exec_reshape_other s hv hp⟩
  rw [exec_reshape_truncate s hv hp, Fx.reshape, shl_eq_mul_two_pow, ashr_eq_div_two_pow]

end Sys2Proof.Machine
end

section
/-! PROOFS. The family of `41_complex.md`: the lanes of a complex value, what each complex row delivers for
operands that pass their checks, and the statements. -/

namespace Sys2Proof.Machine

/-! ### Sums within one format (R73, R74) -/

/-- Two operands of one format grow by one integer bit. -/
theorem Fmt.sum_self (p : Fmt) : Fmt.sum p p = p.grow := by simp [Fmt.sum, Fmt.grow]

theorem Fmt.grow_legal {p : Fmt} (h : p.legal = true) : p.grow.legal = true := by
  rw [← Fmt.sum_self]
  exact Fmt.sum_legal h h

/-- One integer bit more doubles the half range of a signed format. -/
theorem Fmt.holds_grow_iff {p : Fmt} (h : p.legal = true) (hs : p.signed = true) {x : Int} :
    p.grow.holds x = true ↔ -(2 * pow2 (p.width - 1)) ≤ x ∧ x < 2 * pow2 (p.width - 1) := by
  have hwidth : p.grow.width - 1 = p.width := by
    simp only [Fmt.grow, Fmt.width]
    omega
  rw [Fmt.holds_iff_of_signed (p := p.grow) hs, hwidth, Fmt.pow2_width h]

section
variable {p : Fmt} (h : p.legal = true) (hs : p.signed = true) {x y : Int} (hx : p.holds x = true)
  (hy : p.holds y = true)
include h hs hx hy

/-- For signed operands of one format the grown wrap leaves the sum as it is (R79). -/
theorem Fmt.wrap_grow_add : p.grow.wrap (x + y) = x + y := by
  obtain ⟨hx0, hx1⟩ := (Fmt.holds_iff_of_signed hs).1 hx
  obtain ⟨hy0, hy1⟩ := (Fmt.holds_iff_of_signed hs).1 hy
  exact Fmt.wrap_of_holds (Fmt.grow_legal h) ((Fmt.holds_grow_iff h hs).2 ⟨by omega, by omega⟩)

/-- For signed operands of one format the grown wrap leaves the difference as it is (R79). -/
theorem Fmt.wrap_grow_sub : p.grow.wrap (x - y) = x - y := by
  obtain ⟨hx0, hx1⟩ := (Fmt.holds_iff_of_signed hs).1 hx
  obtain ⟨hy0, hy1⟩ := (Fmt.holds_iff_of_signed hs).1 hy
  exact Fmt.wrap_of_holds (Fmt.grow_legal h) ((Fmt.holds_grow_iff h hs).2 ⟨by omega, by omega⟩)

end

theorem Fx.add_same_fmt (p : Fmt) (r t : Int) : Fx.add ⟨r, p⟩ ⟨t, p⟩ = ⟨p.grow.wrap (r + t), p.grow⟩ := by
  simp [Fx.add, Fx.aligned, Fmt.sum_self, Fmt.grow]

theorem Fx.sub_same_fmt (p : Fmt) (r t : Int) : Fx.sub ⟨r, p⟩ ⟨t, p⟩ = ⟨p.grow.wrap (r - t), p.grow⟩ := by
  simp [Fx.sub, Fx.aligned, Fmt.sum_self, Fmt.grow]

/-! ### The lanes of a complex value (R100) -/

theorem Cx.legal_iff {x : Cx} :
    x.legal = true ↔ x.fmt.legal = true ∧ x.fmt.holds x.re = true ∧ x.fmt.holds x.im = true := by
  simp [Cx.legal, and_assoc]

theorem Cx.reFx_legal {x : Cx} (hx : x.legal = true) : x.reFx.legal = true := by
  obtain ⟨hf, hre, _⟩ := Cx.legal_iff.1 hx
  exact Fx.legal_iff.2 ⟨hf, hre⟩

theorem Cx.imFx_legal {x : Cx} (hx : x.legal = true) : x.imFx.legal = true := by
  obtain ⟨hf, _, him⟩ := Cx.legal_iff.1 hx
  exact Fx.legal_iff.2 ⟨hf, him⟩

@[simp] theorem Cx.reFx_raw (x : Cx) : x.reFx.raw = x.re := rfl

@[simp] theorem Cx.reFx_fmt (x : Cx) : x.reFx.fmt = x.fmt := rfl

@[simp] theorem Cx.imFx_raw (x : Cx) : x.imFx.raw = x.im := rfl

@[simp] theorem Cx.imFx_fmt (x : Cx) : x.imFx.fmt = x.fmt := rfl

/-! ### The operations on complex values -/

/-- The four lane products share the product's format, so that the sums over them align nothing (R104). -/
theorem Cx.mul_eq {x y : Cx} (hx : x.legal = true) (hy : y.legal = true) :
    x.mul y = ⟨(x.fmt.product y.fmt).grow.wrap (x.re * y.re - x.im * y.im),
      (x.fmt.product y.fmt).grow.wrap (x.re * y.im + x.im * y.re), (x.fmt.product y.fmt).grow⟩ := by
  have hxre := Cx.reFx_legal hx
  have hxim := Cx.imFx_legal hx
  have hyre := Cx.reFx_legal hy
  have hyim := Cx.imFx_legal hy
  rw [Cx.mul, Fx.mul_eq hxre hyre, Fx.mul_eq hxim hyim, Fx.mul_eq hxre hyim, Fx.mul_eq hxim hyre]
  simp [Cx.ofLanes, Fx.add_same_fmt, Fx.sub_same_fmt]

/-- No step of the complex multiply can overflow once the first operand is signed, whatever the second is
(R104, R79). -/
theorem Cx.wrap_mul_lanes {x y : Cx} (hx : x.legal = true) (hy : y.legal = true) (hs : x.fmt.signed = true) :
    (x.fmt.product y.fmt).grow.wrap (x.re * y.re - x.im * y.im) = x.re * y.re - x.im * y.im ∧
    (x.fmt.product y.fmt).grow.wrap (x.re * y.im + x.im * y.re) = x.re * y.im + x.im * y.re := by
  obtain ⟨hfx, hxre, hxim⟩ := Cx.legal_iff.1 hx
  obtain ⟨hfy, hyre, hyim⟩ := Cx.legal_iff.1 hy
  have hlegal := Fmt.product_legal hfx hfy
  have hsigned : (x.fmt.product y.fmt).signed = true := Fmt.product_signed_iff.2 (.inl hs)
  exact ⟨Fmt.wrap_grow_sub hlegal hsigned (Fmt.product_holds hfx hfy hxre hyre) (Fmt.product_holds hfx hfy hxim hyim),
    Fmt.wrap_grow_add hlegal hsigned (Fmt.product_holds hfx hfy hxre hyim) (Fmt.product_holds hfx hfy hxim hyre)⟩

theorem Cx.scale_eq {x : Cx} {k : Fx} (hx : x.legal = true) (hk : k.legal = true) :
    x.scale k = ⟨x.re * k.raw, x.im * k.raw, x.fmt.product k.fmt⟩ := by
  rw [Cx.scale, Fx.mul_eq (Cx.reFx_legal hx) hk, Fx.mul_eq (Cx.imFx_legal hx) hk]
  rfl

theorem Cx.mulnegj_eq (x : Cx) : x.mulnegj = ⟨x.im, x.fmt.wrap (-x.re), x.fmt⟩ := by
  rw [Cx.mulnegj, Fx.neg_eq]
  rfl

/-! ### What the rows deliver -/

section
variable (s : State) {x y : Cx}

theorem exec_cAdd_param (hx : x.legal = true) (hy : y.legal = true) :
    exec (.cAdd x.param y.param) s = .next (s.setResult (.complex (x.add y))) := by
  change execCAdd x.param y.param s = _
  simp [execCAdd, hx, hy]

theorem exec_cSub_param (hx : x.legal = true) (hy : y.legal = true) :
    exec (.cSub x.param y.param) s = .next (s.setResult (.complex (x.sub y))) := by
  change execCSub x.param y.param s = _
  simp [execCSub, hx, hy]

theorem exec_cMul_param (hx : x.legal = true) (hy : y.legal = true) :
    exec (.cMul x.param y.param) s = .next (s.setResult (.complex (x.mul y))) := by
  change execCMul x.param y.param s = _
  simp [execCMul, hx, hy]

theorem exec_cScale_param {k : Fx} (hx : x.legal = true) (hk : k.legal = true) :
    exec (.cScale x.param k.param) s = .next (s.setResult (.complex (x.scale k))) := by
  change execCScale x.param k.param s = _
  simp [execCScale, hx, hk]

theorem exec_cRshift_natCast (hx : x.legal = true) (n : Nat) :
    exec (.cRshift x.param n) s = .next (s.setResult (.complex (x.rshift n))) := by
  change execCRshift x.param n s = _
  simp [execCRshift, checkShift_natCast, hx]

theorem exec_cReshape_truncate {p : Fmt} (hx : x.legal = true) (hp : p.legal = true) :
    exec (.cReshape x.param p.param .truncate) s = .next (s.setResult (.complex (x.reshape p))) := by
  change execCReshape x.param p.param .truncate s = _
  simp [execCReshape, checkRounding, hx, hp]

theorem exec_cMulnegj_of_signed (hx : x.legal = true) (hs : x.fmt.signed = true) :
    exec (.cMulnegj x.param) s = .next (s.setResult (.complex x.mulnegj)) := by
  change execCMulnegj x.param s = _
  simp [execCMulnegj, requireSigned, hx, hs]

end

/-! ### The statements -/

/-- Settles O21: the row delivers `Cx.mul`, whose sums over the lane products fit one grown bit when signed. -/
theorem complexProduct : Obligations.ComplexProduct := by
  intro s x y hx hy
  refine ⟨?_, fun hs _ => Cx.wrap_mul_lanes hx hy hs⟩
  rw [exec_cMul_param s hx hy, Cx.mul_eq hx hy]
  rfl

/-- Settles O20: each lane is `add` or `sub`, whose alignment is a product with a power of two. -/
theorem complexSumsAreLaneSums : Obligations.ComplexSumsAreLaneSums := by
  intro s x y hx hy
  rw [exec_cAdd_param s hx hy, exec_cSub_param s hx hy]
  simp only [Cx.add, Cx.sub, Cx.ofLanes, Fx.add, Fx.sub, Fx.aligned, shl_eq_mul_two_pow]
  exact ⟨rfl, rfl⟩

/-- Settles O23, row by row: each is its fixed-point operation on both lanes. -/
theorem laneWiseOperations : Obligations.LaneWiseOperations := by
  intro s x hx
  refine ⟨fun k hk => ?scale, fun n => ?rshift, fun p hp => ?reshape⟩
  case scale =>
    rw [exec_cScale_param s hx hk, Cx.scale_eq hx hk]
    rfl
  case rshift =>
    rw [exec_cRshift_natCast s hx, ← ashr_eq_div_two_pow, ← ashr_eq_div_two_pow]
    rfl
  case reshape =>
    rw [exec_cReshape_truncate s hx hp]
    simp only [← shl_eq_mul_two_pow, ← ashr_eq_div_two_pow]
    rfl

/-- Settles O24: the negated lane is the wrap of `-a`, which moves only the most negative value. -/
theorem quarterRotation : Obligations.QuarterRotation := by
  intro s x hx hs
  obtain ⟨hf, hre, _⟩ := Cx.legal_iff.1 hx
  rw [exec_cMulnegj_of_signed s hx hs, Cx.mulnegj_eq, Fmt.wrap_neg hf hs hre, pow2_eq_two_pow]
  rfl

end Sys2Proof.Machine
end

section
/-! PROOFS. The family of `45_fft_stages.md`: what an invariant state knows of its unit, the mode of a butterfly
and the entry that emerges from its feedback delay, its signals in each mode, and the statement. -/

namespace Sys2Proof.Machine

/-! ### The unit of an invariant state -/

/-- The single stage of a good machine has a legal input link, legal parameters and good registers. -/
theorem State.Inv.stage {s : State} {st : Stage} (h : s.Inv) (hr : s.runs st) :
    st.inLink.legal = true ∧ st.shaped ∧ st.registered := by
  obtain ⟨hpipe, _⟩ := h
  obtain ⟨_, hunit⟩ := hr
  obtain ⟨hlink, _, hstages⟩ := hpipe _ hunit
  exact ⟨hlink, hstages st (List.mem_singleton_self st)⟩

/-! ### The ends of a delay line (R42) -/

theorem delayRead_of_getLast? {α : Type} {d : List α} {e : α} (h : d.getLast? = some e) (z : α) : delayRead z d = e := by
  simp [delayRead, List.getLastD_eq_getLast?, h]

theorem delayShift_of_getLast? {α : Type} {d : List α} {e : α} (h : d.getLast? = some e) (x : α) :
    delayShift d x = x :: d.dropLast :=
  List.dropLast_cons_of_ne_nil (List.getLast?_isSome.1 (h ▸ rfl))

/-! ### The mode of a butterfly (R201) -/

theorem combineMode_of_lt {log c : Nat} (h : c < 2 ^ (log - 1)) : combineMode log c = false :=
  Nat.testBit_lt_two_pow h

theorem combineMode_of_le {log c : Nat} (hlog : 1 ≤ log) (hc : c < 2 ^ log) (h : 2 ^ (log - 1) ≤ c) :
    combineMode log c = true :=
  Nat.testBit_of_two_pow_le_and_two_pow_add_one_gt h (by rwa [Nat.sub_add_cancel hlog])

/-- In combine mode the emerging entry is one of the raw inputs of the frame: fewer than `h` differences have
been written behind it (R205). -/
theorem feedbackTagged.emerging_combine {h c : Nat} {d : List TaggedEntry} {e : TaggedEntry} (ht : feedbackTagged h c d)
    (hlen : d.length = h) (he : d.getLast? = some e) (hle : h ≤ c) (hlt : c < 2 * h) : e.tag = false := by
  have hread : d.getD (h - 1) TaggedEntry.empty = e := by
    rw [List.getLast?_eq_getElem?, hlen] at he
    rw [List.getD_eq_getElem?_getD, he, Option.getD_some]
  obtain ⟨_, _, _, hraw⟩ := ht (h - 1) (by omega)
  exact hread ▸ (hraw hle (by omega)).2

/-! ### The arithmetic of combine mode (R203) -/

section
variable {fmt : Fmt} (hf : fmt.legal = true) (hs : fmt.signed = true) {e x : Payload}
  (he : (LinkFmt.mk fmt 2).holds e = true) (hx : (LinkFmt.mk fmt 2).holds x = true)

/-- A payload of a 2-lane link holds a value of the format in each lane. -/
theorem LinkFmt.holds_two_iff : (LinkFmt.mk fmt 2).holds x = true ↔ fmt.holds x.re = true ∧ fmt.holds x.im = true := by
  simp [LinkFmt.holds]

include hf he in
/-- Reading a stored raw input back at `W` bits leaves it as it is. -/
theorem narrow_of_holds : narrow fmt e = e := by
  obtain ⟨hre, him⟩ := LinkFmt.holds_two_iff.1 he
  simp [narrow, Payload.map, Fmt.wrap_of_holds hf hre, Fmt.wrap_of_holds hf him]

include hf hs he hx

/-- The sum sent downstream is exact. -/
theorem sdfSum_eq : sdfSum fmt e x = ⟨e.re + x.re, e.im + x.im⟩ := by
  obtain ⟨here, heim⟩ := LinkFmt.holds_two_iff.1 he
  obtain ⟨hxre, hxim⟩ := LinkFmt.holds_two_iff.1 hx
  rw [sdfSum, narrow_of_holds hf he, ← Fmt.wrap_grow_add hf hs here hxre, ← Fmt.wrap_grow_add hf hs heim hxim]
  simp [Cx.add, Cx.reFx, Cx.imFx, Fx.add_same_fmt, Cx.ofLanes, Payload.toCx, Cx.payload]

/-- The difference fed back is exact. -/
theorem sdfDifference_eq : sdfDifference fmt e x = ⟨e.re - x.re, e.im - x.im⟩ := by
  obtain ⟨here, heim⟩ := LinkFmt.holds_two_iff.1 he
  obtain ⟨hxre, hxim⟩ := LinkFmt.holds_two_iff.1 hx
  rw [sdfDifference, narrow_of_holds hf he, ← Fmt.wrap_grow_sub hf hs here hxre, ← Fmt.wrap_grow_sub hf hs heim hxim]
  simp [Cx.sub, Cx.reFx, Cx.imFx, Fx.sub_same_fmt, Cx.ofLanes, Payload.toCx, Cx.payload]

end

/-! ### The butterfly's signals in each mode (R202, R203) -/

section
variable {log c : Nat} {d : List TaggedEntry} {e : TaggedEntry} (fmt : Fmt) (he : d.getLast? = some e) (x : Fwd) (r : Bool)

theorem sdfReady_combine (hm : combineMode log c = true) : sdfReady log c d r = r := by
  simp [sdfReady, hm]

include he

theorem sdfReady_feed (hm : combineMode log c = false) : sdfReady log c d r = (r || !due e) := by
  simp [sdfReady, hm, delayRead_of_getLast? he]

theorem sdfForward_feed (hm : combineMode log c = false) : sdfForward log fmt c d x = ⟨x.valid && due e, e.payload⟩ := by
  simp [sdfForward, hm, delayRead_of_getLast? he]

theorem sdfNext_feed (hm : combineMode log c = false) : sdfNext log fmt c d x r =
    if x.valid && (r || !due e) then .sdfRadix2 log fmt ((c + 1) % 2 ^ log) (⟨x.payload, true, false⟩ :: d.dropLast)
    else .sdfRadix2 log fmt c d := by
  simp [sdfNext, sdfReady_feed he r hm, sdfEntry, hm, delayShift_of_getLast? he, consume, countUp]

theorem sdfForward_combine (hm : combineMode log c = true) :
    sdfForward log fmt c d x = ⟨x.valid, sdfSum fmt e.payload x.payload⟩ := by
  simp [sdfForward, hm, delayRead_of_getLast? he]

theorem sdfNext_combine (hm : combineMode log c = true) : sdfNext log fmt c d x r =
    if x.valid && r then
      .sdfRadix2 log fmt ((c + 1) % 2 ^ log) (⟨sdfDifference fmt e.payload x.payload, true, true⟩ :: d.dropLast)
    else .sdfRadix2 log fmt c d := by
  simp [sdfNext, sdfReady_combine r hm, sdfEntry, hm, delayRead_of_getLast? he, delayShift_of_getLast? he, consume, countUp]

end

/-! ### The butterfly's tick -/

/-- A butterfly offers an output only with an input (R206 (a)). -/
theorem valid_of_sdfForward_valid {log c : Nat} {fmt : Fmt} {d : List TaggedEntry} {x : Fwd}
    (h : (sdfForward log fmt c d x).valid = true) : x.valid = true := by
  cases hm : combineMode log c <;> simp_all [sdfForward]

/-- Without a valid input nothing moves, so the undefined payload shown then is never stored. -/
theorem sdfNext_showLink (log c : Nat) (fmt : Fmt) (d : List TaggedEntry) (l : LinkFmt) (t k : Nat) (x : Fwd) (r : Bool) :
    sdfNext log fmt c d (showLink l t k x) r = sdfNext log fmt c d x r := by
  cases hv : x.valid
  case true => rw [showLink_of_valid hv]
  case false => simp [sdfNext, consume, hv]

/-- The step of a machine whose unit is a butterfly, in terms of the wires' payload whether it is valid or not. -/
theorem StageTick.of_sdf {s : State} {log c : Nat} {fmt : Fmt} {d : List TaggedEntry} (h : s.runs (.sdfRadix2 log fmt c d)) :
    StageTick s (sdfReady log c d s.drive.ready)
      (sdfForward log fmt c d ⟨s.drive.valid, s.offered ⟨fmt, 2⟩⟩).valid
      (sdfForward log fmt c d ⟨s.drive.valid, s.offered ⟨fmt, 2⟩⟩).payload
      (sdfNext log fmt c d ⟨s.drive.valid, s.offered ⟨fmt, 2⟩⟩ s.drive.ready) := by
  refine StageTick.of_stage h rfl ?valid (fun hv => ?payload) (sdfNext_showLink ..)
  case valid => cases hm : combineMode log c <;> simp [Stage.forward, sdfForward, hm]
  case payload =>
    simp only [Stage.forward, Stage.inLink]
    rw [showLink_of_valid (valid_of_sdfForward_valid hv)]

/-! ### The statement -/

/-- Settles O46: the mode is the counter's half. In feed mode the counter cannot reach its modulus; in combine
mode the emerging entry is a raw input, a `W`-bit value, so that sum and difference fit the grown bit. -/
theorem butterflyTick : Obligations.ButterflyTick := by
  intro s log c fmt d hinv hruns
  obtain ⟨hlink, ⟨hlog, hf, hs⟩, hc, hlen, hheld, htags⟩ := hinv.stage hruns
  have hn : 2 ^ log = 2 * 2 ^ (log - 1) := (mul_pow_sub_one (by omega) 2).symm
  obtain ⟨e, he⟩ : ∃ e, d.getLast? = some e := by
    refine Option.isSome_iff_exists.1 (List.getLast?_isSome.2 (List.ne_nil_of_length_pos ?_))
    exact hlen ▸ Nat.two_pow_pos _
  have htick := StageTick.of_sdf hruns
  refine ⟨e, he, fun hfeed dueNow hdue => ?feed, fun hcombine => ?combine⟩
  case feed =>
    have hm := combineMode_of_lt hfeed
    have hmod : (c + 1) % 2 ^ log = c + 1 := Nat.mod_eq_of_lt (by omega)
    rw [sdfReady_feed he _ hm, sdfForward_feed fmt he _ hm, sdfNext_feed fmt he _ _ hm, hmod] at htick
    exact hdue ▸ htick
  case combine =>
    have hm := combineMode_of_le hlog hc hcombine
    have hraw : (LinkFmt.mk fmt 2).holds e.payload = true :=
      (hheld e (List.mem_of_getLast? he)).2 (htags.emerging_combine hlen he hcombine (hn ▸ hc))
    have hx : (LinkFmt.mk fmt 2).holds (s.offered ⟨fmt, 2⟩) = true := LinkFmt.clip_holds hlink _
    rw [sdfReady_combine _ hm, sdfForward_combine fmt he _ hm, sdfNext_combine fmt he _ _ hm, sdfSum_eq hf hs hraw hx,
      sdfDifference_eq hf hs hraw hx] at htick
    exact htick

end Sys2Proof.Machine
end

section
/-! PROOFS. The family of `47_serial_fft.md`: one radix-2² group of the transform, the builder's loop and the
model's recursion as the same sequence of groups, the links along it, and the statement. -/

namespace Sys2Proof.Machine

/-! ### One turn of the loop (R246) -/

section
variable (f : Nat) (tw : Fmt) (variant : TwVariant) (skid : Bool)

/-- The stages of one turn for the remaining size `2^(bits+2)`: the radix-2² group, then its twiddle stage unless
the remaining size is 4. -/
def radix22Group (bits ig : Nat) : List Stage :=
  [freshSdf (bits + 2) (sampleFmt f ig), Stage.r22Twiddle (bits + 2) (sampleFmt f (ig + 1)) 0,
    freshSdf (bits + 1) (sampleFmt f (ig + 1))]
  ++ (if bits = 0 then [] else twiddleStages (bits + 2) (sampleFmt f (ig + 2)) tw variant skid)

theorem transformStages_zero (ig : Nat) : transformStages f tw variant skid 0 ig = [] := rfl

theorem transformStages_one (ig : Nat) : transformStages f tw variant skid 1 ig = [freshSdf 1 (sampleFmt f ig)] := rfl

theorem transformStages_add_two (bits ig : Nat) : transformStages f tw variant skid (bits + 2) ig =
    radix22Group f tw variant skid bits ig ++ transformStages f tw variant skid bits (ig + 2) := rfl

theorem transformLoop_one (fuel ig : Nat) : transformLoop f tw variant skid fuel 1 ig = [] := by
  cases fuel <;> rfl

theorem transformLoop_two (fuel ig : Nat) :
    transformLoop f tw variant skid (fuel + 1) 2 ig = [freshSdf 1 (sampleFmt f ig)] := rfl

/-- A turn with at least 4 left lays one group and leaves a quarter of the size. -/
theorem transformLoop_two_pow_add_two (fuel bits ig : Nat) : transformLoop f tw variant skid (fuel + 1) (2 ^ (bits + 2)) ig =
    radix22Group f tw variant skid bits ig ++ transformLoop f tw variant skid fuel (2 ^ bits) (ig + 2) := by
  have hge : 4 ≤ 2 ^ (bits + 2) := Nat.pow_le_pow_right Nat.two_pos (Nat.le_add_left 2 bits)
  have hquarter : 2 ^ (bits + 2) / 4 = 2 ^ bits := Nat.pow_div (Nat.le_add_left 2 bits) Nat.two_pos
  have hhalf : 2 ^ (bits + 2) / 2 = 2 ^ (bits + 1) := Nat.pow_div (Nat.le_add_left 1 (bits + 1)) Nat.two_pos
  have hgt : 4 < 2 ^ (bits + 2) ↔ bits ≠ 0 := by
    rw [show 4 = 2 ^ 2 from rfl, Nat.pow_lt_pow_iff_right (by decide)]
    omega
  simp only [transformLoop, if_pos hge, hquarter, hhalf, Nat.log2_two_pow, hgt, ite_not]
  rfl

/-- With a turn for each bit at hand, the loop lays the stages of the transform. -/
theorem transformLoop_two_pow {fuel bits : Nat} (ig : Nat) (h : bits ≤ fuel) :
    transformLoop f tw variant skid fuel (2 ^ bits) ig = transformStages f tw variant skid bits ig := by
  induction bits using Nat.twoStepInduction generalizing fuel ig with
  | zero => exact transformLoop_one f tw variant skid fuel ig
  | one =>
    obtain ⟨fuel, rfl⟩ := Nat.exists_eq_add_of_le' h
    exact transformLoop_two f tw variant skid fuel ig
  | more bits ih _ =>
    obtain ⟨fuel, rfl⟩ := Nat.exists_eq_add_of_le' (Nat.le_of_add_left_le h)
    rw [transformLoop_two_pow_add_two, transformStages_add_two, ih _ (by omega)]

/-- Below `N = 8` no twiddle stage is laid, and so the twiddle format is not used (R254). -/
theorem transformStages_of_lt_three {bits : Nat} (h : bits < 3) (tw' : Fmt) (ig : Nat) :
    transformStages f tw variant skid bits ig = transformStages f tw' variant skid bits ig := by
  match bits, h with
  | 0, _ => rfl
  | 1, _ => rfl
  | 2, _ => rfl

/-! ### The links along the transform (R245, R248) -/

@[simp] theorem chainOutLink_twiddleStages (log : Nat) (fmt : Fmt) (l : LinkFmt) :
    chainOutLink l (twiddleStages log fmt tw variant skid) = ⟨fmt, 2⟩ := by
  cases variant <;> cases skid <;> rfl

/-- A group grows the running format by its two butterflies' bits. -/
@[simp] theorem chainOutLink_radix22Group (bits ig : Nat) (l : LinkFmt) :
    chainOutLink l (radix22Group f tw variant skid bits ig) = ⟨sampleFmt f (ig + 2), 2⟩ := by
  rw [radix22Group, chainOutLink_append]
  split
  · rfl
  · exact chainOutLink_twiddleStages tw variant skid _ _ _

/-- The transform grows the running format by one bit per bit of its size. -/
theorem chainOutLink_transformStages (bits ig : Nat) :
    chainOutLink ⟨sampleFmt f ig, 2⟩ (transformStages f tw variant skid bits ig) = ⟨sampleFmt f (ig + bits), 2⟩ := by
  induction bits using Nat.twoStepInduction generalizing ig with
  | zero => rfl
  | one => rfl
  | more bits ih _ =>
    rw [transformStages_add_two, chainOutLink_append, chainOutLink_radix22Group, ih, Nat.add_right_comm, Nat.add_assoc]

end

/-! ### The bit-reversal network (R236) -/

/-- The exchanges of the network are those of the positions in the lower half. -/
theorem range_half_eq_filter (bits : Nat) :
    List.range (bits / 2) = (List.range bits).filter (fun i => i < bits - 1 - i) := by
  obtain ⟨k, hk⟩ := Nat.exists_eq_add_of_le (Nat.div_le_self bits 2)
  conv_rhs => arg 2; rw [hk, List.range_add]
  rw [List.filter_append, List.filter_eq_self.2, List.filter_eq_nil_iff.2, List.append_nil]
  all_goals
    simp only [List.mem_map, List.mem_range, decide_eq_true_eq]
    omega

theorem bitReversalStages_eq_filter (bits : Nat) (l : LinkFmt) : bitReversalStages bits l =
    ((List.range bits).filter (fun i => i < bits - 1 - i)).map (fun i => freshExchange (bits - 1 - i) i l) := by
  rw [bitReversalStages, range_half_eq_filter]

/-- A chain whose stages all put out the type of its input link ends in that type. -/
theorem chainOutLink_of_forall_outLink {l : LinkFmt} {sts : List Stage} (h : ∀ st ∈ sts, st.outLink = l) :
    chainOutLink l sts = l := by
  induction sts with
  | nil => rfl
  | cons st rest ih =>
    obtain ⟨hst, hrest⟩ := List.forall_mem_cons.1 h
    rw [chainOutLink, hst, ih hrest]

@[simp] theorem chainOutLink_bitReversalStages (bits : Nat) (l : LinkFmt) : chainOutLink l (bitReversalStages bits l) = l :=
  chainOutLink_of_forall_outLink (List.forall_mem_map.2 fun _ _ => rfl)

/-! ### The whole unit (R245, R254) -/

section
variable {fmt tw : Fmt} {variant : TwVariant} {skid : Bool}

/-- The model's stages are those of the loop, with the exchanges behind them. -/
theorem fftStages_eq_transformLoop (bits : Nat) (bitrev : Bool) : fftStages bits fmt tw bitrev variant skid =
    transformLoop fmt.f tw variant skid bits (2 ^ bits) fmt.i ++
      (if bitrev then ((List.range bits).filter (fun i => i < bits - 1 - i)).map
        (fun i => freshExchange (bits - 1 - i) i ⟨⟨fmt.i + bits, fmt.f, true⟩, 2⟩) else []) := by
  rw [fftStages, transformLoop_two_pow _ _ _ _ _ le_rfl, bitReversalStages_eq_filter]
  rfl

theorem fftStages_of_lt_three {bits : Nat} (h : bits < 3) (tw' : Fmt) (bitrev : Bool) :
    fftStages bits fmt tw bitrev variant skid = fftStages bits fmt tw' bitrev variant skid := by
  rw [fftStages, fftStages, transformStages_of_lt_three _ _ _ _ h tw']

theorem sampleFmt_self (hs : fmt.signed = true) : sampleFmt fmt.f fmt.i = fmt := by
  rw [sampleFmt, ← hs]

theorem chainOutLink_fftStages (hs : fmt.signed = true) (bits : Nat) (bitrev : Bool) :
    chainOutLink ⟨fmt, 2⟩ (fftStages bits fmt tw bitrev variant skid) = ⟨sampleFmt fmt.f (fmt.i + bits), 2⟩ := by
  have htransform := chainOutLink_transformStages fmt.f tw variant skid bits fmt.i
  rw [sampleFmt_self hs] at htransform
  rw [fftStages, chainOutLink_append, htransform]
  cases bitrev
  · rfl
  · exact chainOutLink_bitReversalStages _ _

end

theorem checkFftTwiddle_of_lt_three {bits : Nat} (h : bits < 3) (tw : FormatParam) :
    checkFftTwiddle bits tw = .ok ⟨2, 0, true⟩ := if_pos h

theorem checkFftTwiddle_param {bits : Nat} {tw : Fmt} (h : 3 ≤ bits) (hs : tw.signed = true) (hi : 2 ≤ tw.i) :
    checkFftTwiddle bits tw.param = .ok tw := by
  rw [checkFftTwiddle, if_neg (by omega), checkTwiddleFormat_param hs hi]

/-- A machine that accepts a complex link feeds a unit no real one. -/
theorem requireComplex_of_accepts {s : State} {fmt : Fmt} (h : s.accepts ⟨fmt, 2⟩) : requireComplex s.openLink = .ok () := by
  obtain ⟨_, hlink | hlink⟩ := h <;> rw [hlink] <;> rfl

/-- With a twiddle format that passes, or that is not looked at, the unit is built and joined. -/
theorem exec_serialFFT_of_accepts {s : State} {fmt tw' : Fmt} {bits : Nat} {tw : FormatParam} (bitrev skid : Bool)
    (variant : TwVariant) (hbits : 1 ≤ bits) (hf : fmt.legal = true) (hs : fmt.signed = true) (ha : s.accepts ⟨fmt, 2⟩)
    (htw : checkFftTwiddle bits tw = .ok tw') : exec (.serialFFT (2 ^ bits : Nat) fmt.param bitrev tw variant skid) s =
      .next (s.withUnit ⟨⟨fmt, 2⟩, fftStages bits fmt tw' bitrev variant skid⟩) := by
  have hsize : (2 : Int) ≤ ((2 ^ bits : Nat) : Int) := by exact_mod_cast Nat.pow_le_pow_right (by decide : 0 < 2) hbits
  change execSerialFft _ _ _ _ _ _ s = _
  apply construct_of_accepts ha
  rw [checkSize_two_pow hsize, checkPayloadFormat_param hf hs, requireComplex_of_accepts ha]
  simp only [Build.ok_bind, htw]

/-! ### The statement -/

/-- Settles O36: the loop lays the model's stages, and where the twiddle format is not checked it is not used. -/
theorem serialFftIsComposed : Obligations.SerialFftIsComposed := by
  intro s fmt bits bitrev skid tw twFmt variant hbits hf hs ha htw
  dsimp only
  rw [← fftStages_eq_transformLoop]
  refine ⟨?_, chainOutLink_fftStages hs bits bitrev⟩
  obtain hlt | hle := Nat.lt_or_ge bits 3
  · rw [fftStages_of_lt_three hlt ⟨2, 0, true⟩]
    exact exec_serialFFT_of_accepts bitrev skid variant hbits hf hs ha (checkFftTwiddle_of_lt_three hlt tw)
  · obtain ⟨rfl, htws, htwi⟩ := htw hle
    exact exec_serialFFT_of_accepts bitrev skid variant hbits hf hs ha (checkFftTwiddle_param hle htws htwi)

end Sys2Proof.Machine
end

section
/-! PROOFS. The family of `30_encoding.md`: each reader accepts exactly what its writer puts, so that decoding is
the inverse of encoding in both directions; the step runs what is decoded. -/

namespace Sys2Proof

/-! ### Readers -/

theorem Reader.bind_eq_ok {α β : Type} {r : Reader α} {k : α → Reader β} {bs rest : List Byte} {b : β} :
    (r.bind k) bs = .ok (b, rest) ↔ ∃ a mid, r bs = .ok (a, mid) ∧ k a mid = .ok (b, rest) := by
  unfold Reader.bind
  rcases r bs with e | ⟨a, mid⟩ <;> simp

@[simp] theorem Reader.pure_eq_ok {α : Type} {a b : α} {bs rest : List Byte} :
    (Reader.pure a) bs = .ok (b, rest) ↔ a = b ∧ bs = rest := by
  simp [Reader.pure]

@[simp] theorem Reader.fail_ne_ok {α : Type} {e : DecodeError} {bs : List Byte} {p : α × List Byte} :
    (Reader.fail e : Reader α) bs ≠ .ok p := by
  simp [Reader.fail]

/-- A reader and a writer agree: what is read is exactly what is put, and the bytes after it. -/
def Reader.Inverts {α : Type} (r : Reader α) (put : α → List Byte) : Prop :=
  ∀ bs a rest, r bs = .ok (a, rest) ↔ bs = put a ++ rest

/-- One direction is enough where the reader reads back what was put. -/
theorem Reader.Inverts.of_reads {α : Type} {r : Reader α} {put : α → List Byte}
    (hread : ∀ a rest, r (put a ++ rest) = .ok (a, rest))
    (hput : ∀ bs a rest, r bs = .ok (a, rest) → bs = put a ++ rest) : r.Inverts put :=
  fun bs a rest => ⟨hput bs a rest, fun h => h ▸ hread a rest⟩

/-! ### Numbers -/

/-- Any fuel that is enough gives the same numeral. -/
theorem putNatFuel_eq_putNat {fuel n : Nat} (h : n ≤ fuel) : putNatFuel fuel n = putNat n := by
  suffices ∀ n a b, n ≤ a → n ≤ b → putNatFuel a n = putNatFuel b n from this n fuel n h le_rfl
  intro n
  induction n using Nat.strongRecOn with
  | ind n ih =>
    intro a b ha hb
    by_cases hn : n < 128
    · cases a <;> cases b <;> simp [putNatFuel, hn]
    · obtain ⟨a, rfl⟩ := Nat.exists_eq_add_of_le' (show 1 ≤ a by omega)
      obtain ⟨b, rfl⟩ := Nat.exists_eq_add_of_le' (show 1 ≤ b by omega)
      simp only [putNatFuel, if_neg hn]
      rw [ih (n / 128) (by omega) a b (by omega) (by omega)]

theorem putNat_of_lt {n : Nat} (h : n < 128) : putNat n = [BitVec.ofNat 8 n] := by
  rw [← putNatFuel_eq_putNat (Nat.le_succ n), putNatFuel, if_pos h]

theorem putNat_of_le {n : Nat} (h : 128 ≤ n) : putNat n = BitVec.ofNat 8 (n % 128 + 128) :: putNat (n / 128) := by
  rw [← putNatFuel_eq_putNat (Nat.le_succ n), putNatFuel, if_neg (by omega), putNatFuel_eq_putNat (by omega)]

/-- A numeral that is read is the shortest one. -/
theorem readNat_inverts : readNat.Inverts putNat := by
  refine .of_reads readNat_putNat fun bs => ?_
  induction bs with
  | nil => simp [readNat]
  | cons b bs ih =>
    intro n rest h
    unfold readNat at h
    split at h
    next hb =>
      cases h
      simp [putNat_of_lt hb]
    next hb =>
      split at h
      next m rest' hm =>
        split at h
        · cases h
        next hm0 =>
          cases h
          have hlt := b.isLt
          have hdigit : (b.toNat - 128 + 128 * m) % 128 + 128 = b.toNat := by omega
          have hquot : (b.toNat - 128 + 128 * m) / 128 = m := by omega
          rw [putNat_of_le (by omega), hdigit, hquot, ih m rest hm]
          simp
      · cases h

theorem foldInt_unfoldInt (n : Nat) : foldInt (unfoldInt n) = n := by
  unfold foldInt unfoldInt
  split <;> split <;> omega

theorem readInt_inverts (o : Int) : (readInt o).Inverts (putInt o) := by
  refine .of_reads (readInt_putInt o) fun bs x rest h => ?_
  simp only [readInt, Reader.bind_eq_ok, Reader.pure_eq_ok, readNat_inverts _ _ _] at h
  obtain ⟨n, mid, rfl, rfl, rfl⟩ := h
  rw [putInt, add_sub_cancel_right, foldInt_unfoldInt]

/-! ### Choices -/

@[simp] theorem readByte_eq_ok {bs rest : List Byte} {n : Nat} :
    readByte bs = .ok (n, rest) ↔ n < 256 ∧ bs = putChoice n ++ rest := by
  cases bs with
  | nil => simp [readByte, putChoice]
  | cons b bs =>
    simp only [readByte, putChoice, Except.ok.injEq, Prod.mk.injEq, List.singleton_append, List.cons.injEq]
    constructor
    · rintro ⟨rfl, rfl⟩
      exact ⟨b.isLt, by simp, rfl⟩
    · rintro ⟨hn, rfl, rfl⟩
      exact ⟨by simpa using hn, rfl⟩

/-- A reader that looks at a choice byte first. -/
theorem Reader.readByte_bind_eq_ok {β : Type} {k : Nat → Reader β} {bs rest : List Byte} {b : β} :
    (readByte.bind k) bs = .ok (b, rest) ↔ ∃ n mid, (n < 256 ∧ bs = putChoice n ++ mid) ∧ k n mid = .ok (b, rest) := by
  simp only [Reader.bind_eq_ok, readByte_eq_ok]

theorem readBool_inverts : readBool.Inverts putBool := by
  refine .of_reads readBool_putBool fun bs b rest h => ?_
  obtain ⟨n, mid, ⟨-, rfl⟩, hk⟩ := Reader.readByte_bind_eq_ok.1 h
  split at hk <;> simp only [Reader.pure_eq_ok, Reader.fail_ne_ok] at hk <;> obtain ⟨rfl, rfl⟩ := hk <;> rfl

theorem readImpl_inverts : readImpl.Inverts putImpl := by
  refine .of_reads (fun i _ => by cases i <;> rfl) fun bs i rest h => ?_
  obtain ⟨n, mid, ⟨-, rfl⟩, hk⟩ := Reader.readByte_bind_eq_ok.1 h
  split at hk <;> simp only [Reader.pure_eq_ok, Reader.fail_ne_ok] at hk <;> obtain ⟨rfl, rfl⟩ := hk <;> rfl

theorem readVariant_inverts : readVariant.Inverts putVariant := by
  refine .of_reads (fun i _ => by cases i <;> rfl) fun bs i rest h => ?_
  obtain ⟨n, mid, ⟨-, rfl⟩, hk⟩ := Reader.readByte_bind_eq_ok.1 h
  split at hk <;> simp only [Reader.pure_eq_ok, Reader.fail_ne_ok] at hk <;> obtain ⟨rfl, rfl⟩ := hk <;> rfl

theorem readKind_inverts : readKind.Inverts putKind := by
  refine .of_reads (fun i _ => by cases i <;> rfl) fun bs i rest h => ?_
  obtain ⟨n, mid, ⟨-, rfl⟩, hk⟩ := Reader.readByte_bind_eq_ok.1 h
  split at hk <;> simp only [Reader.pure_eq_ok, Reader.fail_ne_ok] at hk <;> obtain ⟨rfl, rfl⟩ := hk <;> rfl

theorem readRounding_inverts : readRounding.Inverts putRounding := by
  refine .of_reads readRounding_putRounding fun bs r rest h => ?_
  simp only [readRounding, Reader.bind_eq_ok, readNat_inverts _ _ _] at h
  obtain ⟨n, mid, rfl, h⟩ := h
  split at h <;> obtain ⟨rfl, rfl⟩ := Reader.pure_eq_ok.1 h <;> rfl

theorem readOption_inverts {α : Type} {read : Reader α} {put : α → List Byte} (h : read.Inverts put) :
    (readOption read).Inverts (putOption put) := by
  refine .of_reads (readOption_putOption fun a rest => (h _ _ _).2 rfl) fun bs o rest ho => ?_
  obtain ⟨n, mid, ⟨-, rfl⟩, hk⟩ := Reader.readByte_bind_eq_ok.1 ho
  split at hk
  · obtain ⟨rfl, rfl⟩ := Reader.pure_eq_ok.1 hk
    rfl
  · simp only [Reader.bind_eq_ok, Reader.pure_eq_ok, h _ _ _] at hk
    obtain ⟨a, mid, rfl, rfl, rfl⟩ := hk
    simp [putOption]
  · simp at hk

/-! ### Operand records -/

theorem readFormat_inverts : readFormat.Inverts putFormat := by
  refine .of_reads readFormat_putFormat fun bs p rest h => ?_
  simp only [readFormat, Reader.bind_eq_ok, Reader.pure_eq_ok, readInt_inverts _ _ _ _, readBool_inverts _ _ _] at h
  obtain ⟨i, _, rfl, f, _, rfl, u, _, rfl, rfl, rfl⟩ := h
  simp [putFormat]

theorem readValue_inverts : readValue.Inverts putValue := by
  refine .of_reads readValue_putValue fun bs v rest h => ?_
  simp only [readValue, Reader.bind_eq_ok, Reader.pure_eq_ok, readInt_inverts _ _ _ _, readFormat_inverts _ _ _] at h
  obtain ⟨raw, _, rfl, fmt, _, rfl, rfl, rfl⟩ := h
  simp [putValue]

theorem readComplex_inverts : readComplex.Inverts putComplex := by
  intro bs x rest
  obtain ⟨re, im, fmt⟩ := x
  simp only [readComplex, Reader.bind_eq_ok, Reader.pure_eq_ok, readInt_inverts _ _ _ _, readFormat_inverts _ _ _,
    ComplexParam.mk.injEq]
  constructor
  · rintro ⟨_, _, rfl, _, _, rfl, _, _, rfl, ⟨rfl, rfl, rfl⟩, rfl⟩
    simp [putComplex]
  · rintro rfl
    simp [putComplex]

theorem readEntryType_inverts : readEntryType.Inverts putEntryType := by
  intro bs e rest
  obtain ⟨kind, fmt, lanes⟩ := e
  simp only [readEntryType, Reader.bind_eq_ok, Reader.pure_eq_ok, readInt_inverts _ _ _ _, readFormat_inverts _ _ _,
    readKind_inverts _ _ _, EntryTypeParam.mk.injEq]
  constructor
  · rintro ⟨_, _, rfl, _, _, rfl, _, _, rfl, ⟨rfl, rfl, rfl⟩, rfl⟩
    simp [putEntryType]
  · rintro rfl
    simp [putEntryType]

/-! ### The function of a `PipeReg` -/

/-- Whatever the fuel, an expression that is read is the one that is written. -/
theorem putLaneExpr_of_readLaneExprFuel (fuel : Nat) : ∀ (bs : List Byte) (e : LaneExprParam) (rest : List Byte),
    readLaneExprFuel fuel bs = .ok (e, rest) → bs = putLaneExpr e ++ rest := by
  induction fuel with
  | zero => simp [readLaneExprFuel]
  | succ fuel ih =>
    intro bs e rest h
    obtain ⟨n, mid, ⟨-, rfl⟩, hk⟩ := Reader.readByte_bind_eq_ok.1 h
    split at hk
    all_goals simp only [Reader.bind_eq_ok, Reader.pure_eq_ok, readValue_inverts _ _ _, readFormat_inverts _ _ _,
      readRounding_inverts _ _ _, readInt_inverts _ _ _ _, readNat_inverts _ _ _, Reader.fail_ne_ok] at hk
    case h_1 | h_2 =>
      obtain ⟨rfl, rfl⟩ := hk
      rfl
    case h_3 =>
      obtain ⟨v, _, rfl, rfl, rfl⟩ := hk
      simp [putLaneExpr]
    case h_4 | h_5 | h_6 =>
      obtain ⟨a, _, ha, b, _, hb, rfl, rfl⟩ := hk
      simp [putLaneExpr, ih _ _ _ ha, ih _ _ _ hb]
    case h_7 =>
      obtain ⟨a, _, ha, p, _, rfl, r, _, rfl, rfl, rfl⟩ := hk
      simp [putLaneExpr, ih _ _ _ ha]
    case h_8 =>
      obtain ⟨a, _, ha, n, _, rfl, rfl, rfl⟩ := hk
      simp [putLaneExpr, ih _ _ _ ha]
    case h_9 =>
      obtain ⟨a, _, ha, rfl, rfl⟩ := hk
      simp [putLaneExpr, ih _ _ _ ha]
    case h_10 =>
      obtain ⟨s, _, hs, bit, _, rfl, a, _, ha, b, _, hb, rfl, rfl⟩ := hk
      simp [putLaneExpr, ih _ _ _ hs, ih _ _ _ ha, ih _ _ _ hb]

theorem readLaneExpr_inverts : readLaneExpr.Inverts putLaneExpr :=
  .of_reads readLaneExpr_putLaneExpr fun bs => putLaneExpr_of_readLaneExprFuel bs.length bs

theorem readCombFn_inverts : readCombFn.Inverts putCombFn := by
  intro bs c rest
  obtain ⟨re, im⟩ := c
  simp only [readCombFn, Reader.bind_eq_ok, Reader.pure_eq_ok, readLaneExpr_inverts _ _ _,
    readOption_inverts readLaneExpr_inverts _ _ _, CombFnParam.mk.injEq]
  constructor
  · rintro ⟨_, _, rfl, _, _, rfl, ⟨rfl, rfl⟩, rfl⟩
    simp [putCombFn]
  · rintro rfl
    simp [putCombFn]

theorem readPipeFn_inverts : readPipeFn.Inverts putPipeFn := by
  refine .of_reads readPipeFn_putPipeFn fun bs g rest h => ?_
  simp only [readPipeFn, Reader.bind_eq_ok, Reader.pure_eq_ok, readFormat_inverts _ _ _, readInt_inverts _ _ _ _,
    readOption_inverts readCombFn_inverts _ _ _] at h
  obtain ⟨fmt, _, rfl, lanes, _, rfl, g, _, rfl, rfl, rfl⟩ := h
  simp [putPipeFn]

/-! ### Operations -/

/-- The operands that are read after a selector are those of an operation with that selector, as they are
written. -/
theorem readOperands_eq_ok {n : Nat} {bs rest : List Byte} {i : Instr} (h : readOperands n bs = .ok (i, rest)) :
    n = selector i ∧ bs = putOperands i ++ rest := by
  unfold readOperands at h
  split at h
  all_goals simp only [readTwoValues, readTwoComplex, readThree, readFilter, readTwiddle, readSized, Reader.bind_eq_ok,
    Reader.pure_eq_ok, Reader.fail_ne_ok, readInt_inverts _ _ _ _, readFormat_inverts _ _ _, readValue_inverts _ _ _,
    readComplex_inverts _ _ _, readRounding_inverts _ _ _, readEntryType_inverts _ _ _, readImpl_inverts _ _ _,
    readVariant_inverts _ _ _, readBool_inverts _ _ _, readPipeFn_inverts _ _ _,
    readOption_inverts (readInt_inverts _) _ _ _, readOption_inverts readFormat_inverts _ _ _] at h
  case h_7 | h_16 | h_20 =>
    obtain ⟨_, _, rfl, rfl, rfl⟩ := h
    exact ⟨rfl, rfl⟩
  case h_1 | h_2 | h_3 | h_4 | h_6 | h_8 | h_9 | h_10 | h_11 | h_12 | h_13 | h_14 | h_17 | h_30 | h_31 | h_34 =>
    obtain ⟨_, _, rfl, _, _, rfl, rfl, rfl⟩ := h
    simp [selector, putOperands]
  case h_5 | h_15 | h_18 | h_21 | h_23 | h_24 | h_26 | h_32 | h_33 | h_36 =>
    obtain ⟨_, _, rfl, _, _, rfl, _, _, rfl, rfl, rfl⟩ := h
    simp [selector, putOperands, putThree]
  case h_19 | h_22 | h_25 | h_35 =>
    obtain ⟨_, _, rfl, _, _, rfl, _, _, rfl, _, _, rfl, rfl, rfl⟩ := h
    simp [selector, putOperands, putThree]
  case h_27 =>
    obtain ⟨_, _, rfl, _, _, rfl, _, _, rfl, _, _, rfl, _, _, rfl, rfl, rfl⟩ := h
    simp [selector, putOperands, putThree]
  case h_37 =>
    obtain ⟨_, _, rfl, _, _, rfl, _, _, rfl, _, _, rfl, _, _, rfl, _, _, rfl, rfl, rfl⟩ := h
    simp [selector, putOperands]
  case h_28 | h_29 =>
    obtain ⟨_, _, rfl, _, _, rfl, _, _, rfl, _, _, rfl, _, _, rfl, _, _, rfl, _, _, rfl, rfl, rfl⟩ := h
    simp [selector, putOperands, putFilter, putThree]

@[simp] theorem readComplex_putComplex (x : ComplexParam) (rest : List Byte) :
    readComplex (putComplex x ++ rest) = .ok (x, rest) := (readComplex_inverts _ _ _).2 rfl

@[simp] theorem readEntryType_putEntryType (e : EntryTypeParam) (rest : List Byte) :
    readEntryType (putEntryType e ++ rest) = .ok (e, rest) := (readEntryType_inverts _ _ _).2 rfl

@[simp] theorem readImpl_putImpl (i : DelayImpl) (rest : List Byte) : readImpl (putImpl i ++ rest) = .ok (i, rest) :=
  (readImpl_inverts _ _ _).2 rfl

@[simp] theorem readVariant_putVariant (v : TwVariant) (rest : List Byte) :
    readVariant (putVariant v ++ rest) = .ok (v, rest) := (readVariant_inverts _ _ _).2 rfl

@[simp] theorem readOption_putInt (o : Int) (x : Option Int) (rest : List Byte) :
    readOption (readInt o) (putOption (putInt o) x ++ rest) = .ok (x, rest) :=
  (readOption_inverts (readInt_inverts o) _ _ _).2 rfl

@[simp] theorem readOption_putFormat (p : Option FormatParam) (rest : List Byte) :
    readOption readFormat (putOption putFormat p ++ rest) = .ok (p, rest) :=
  (readOption_inverts readFormat_inverts _ _ _).2 rfl

/-- The operands of every row read back after its selector. -/
theorem readOperands_putOperands (i : Instr) (rest : List Byte) :
    readOperands (selector i) (putOperands i ++ rest) = .ok (i, rest) := by
  cases i <;> simp [selector, putOperands, putThree, putFilter, readOperands, readTwoValues, readTwoComplex, readThree,
    readFilter, readTwiddle, readSized, Reader.bind, Reader.pure]

theorem selector_lt (i : Instr) : selector i < 256 := by
  cases i <;> simp [selector]

theorem decode_cons (b : Byte) (bs : List Byte) : decode (b :: bs) = readOperands b.toNat bs := rfl

/-! ### The statements of the codec -/

/-- Settles O1: the first byte is the selector, and behind it the operands of that row read back. -/
theorem decodeReadsEncode : Obligations.DecodeReadsEncode := by
  intro i rest
  have hsel : (BitVec.ofNat 8 (selector i)).toNat = selector i := Nat.mod_eq_of_lt (selector_lt i)
  rw [encode, List.cons_append, decode_cons, hsel, readOperands_putOperands]

/-- Settles O2: each reader accepts only what its writer puts. -/
theorem encodingIsUnique : Obligations.EncodingIsUnique := by
  intro bytes rest i h
  cases bytes with
  | nil => cases h
  | cons b bs =>
    obtain ⟨hsel, rfl⟩ := readOperands_eq_ok h
    simp [encode, ← hsel]

/-- Settles O4, each string by evaluation. -/
theorem wordsDecodeToTheirRows : Obligations.WordsDecodeToTheirRows := by
  unfold Obligations.WordsDecodeToTheirRows
  decide +kernel

end Sys2Proof

namespace Sys2Proof.Machine

/-! ### The step -/

/-- The step of a machine whose program decodes to an operation. -/
theorem step_of_decode {s : State} {i : Instr} {rest : List Byte} (hp : s.program ≠ [])
    (h : decode s.program = .ok (i, rest)) : step s = exec i (s.setProgram rest) := by
  rcases step_cases s with ⟨hnil, _⟩ | ⟨i', rest', hd, -, hs⟩ | ⟨e, hd, -, -⟩
  · exact absurd hnil hp
  · cases h.symm.trans hd
    exact hs
  · cases h.symm.trans hd

/-- Settles O5: what the step fetches is what the program decodes to. -/
theorem stepRunsTheDecodedOperation : Obligations.StepRunsTheDecodedOperation :=
  fun _ _ _ => step_of_decode

/-- The bytes fetched of a table word are those of its operation. -/
theorem fetchBytes_eq_encode {nbits w : Nat} {i : Instr} (h : decodeTableWord nbits w = some i) :
    fetchBytes nbits w = encode i := by
  unfold decodeTableWord at h
  unfold fetchBytes
  cases hd : decode (tableBytes nbits w) with
  | error e => simp [hd] at h
  | ok r =>
    obtain ⟨j, rest⟩ := r
    simp only [hd, Option.some.injEq] at h
    subst h
    have henc := encodingIsUnique _ _ _ hd
    simp only [hd]
    simp [henc]

/-- Settles O6: the bytes of the word read back, and what they are taken from is the program that stood there. -/
theorem fetchedWordRuns : Obligations.FetchedWordRuns := by
  intro s w i h
  have hprog : (s.withFetchWord 8 w).program = encode i ++ s.program := by
    rw [State.withFetchWord, fetchBytes_eq_encode h, State.setProgram_program]
  rw [step_of_decode (by simp [hprog, encode]) (hprog ▸ decodeReadsEncode i s.program)]
  rfl

/-- A selector outside the table is refused by number. -/
theorem readOperands_of_not_mem {n : Nat} (bs : List Byte)
    (h : n ∉ [0x00, 0x01, 0x02, 0x03, 0x04, 0x05, 0x06, 0x10, 0x11, 0x12, 0x13, 0x14, 0x15, 0x16, 0x17, 0x18,
      0x20, 0x21, 0x22, 0x23, 0x30, 0x31, 0x32, 0x33, 0x34, 0x38, 0x39, 0x3A, 0x3B, 0x40, 0x41, 0x42, 0x43, 0x44,
      0x50, 0x51, 0x60]) : readOperands n bs = .error (.noSuchOperation n) := by
  unfold readOperands
  split
  case h_38 => rfl
  all_goals exact absurd (by decide) h

/-- Settles O3: the decoder has no row for the byte, and the step refuses what does not decode. -/
theorem unknownSelectorIsRefused : Obligations.UnknownSelectorIsRefused := by
  intro s b bs hp hb
  have hd : decode s.program = .error (.noSuchOperation b.toNat) := by
    rw [hp, decode_cons, readOperands_of_not_mem bs hb]
  rcases step_cases s with ⟨hnil, _⟩ | ⟨i, rest, hd', _⟩ | ⟨e, hd', -, hs⟩
  · simp [hp] at hnil
  · cases hd.symm.trans hd'
  · cases hd.symm.trans hd'
    exact hs

/-- Settles O7, by induction on the number of steps: a tick leaves the program empty. -/
theorem noTickStops : Obligations.NoTickStops := by
  intro n
  induction n with
  | zero => exact fun s _ => rfl
  | succ n ih =>
    intro s hs
    simp only [run, step_of_program_nil hs, ticks]
    exact ih (tick s) hs

/-- Settles O8: nothing is built, and nothing was delivered. -/
theorem resetMeetsInvariant : Obligations.ResetMeetsInvariant :=
  ⟨fun p h => by simp at h, fun u h => by simp at h, rfl, trivial⟩

end Sys2Proof.Machine
end

section
/-! PROOFS. The family of `42_stream_skid_delay.md` section 1: what a tick cannot change, what a stalled stage keeps
offering, and when a stage's registers move. -/

namespace Sys2Proof.Machine

/-! ### Structural parameters (R9) -/

/-- A tick moves registers only. -/
@[simp] theorem Stage.next_cleared (u : Payload) (st : Stage) (x : Fwd) (r : Bool) : (st.next u x r).cleared = st.cleared := by
  cases st <;> simp only [Stage.next, skidNext, streamDelayNext, pipeRegNext, integratorNext, combNext,
    upsamplerNext, downsamplerNext, sdfNext, r22Next, twiddleNext, threeMultNext, exchangeNext] <;>
    (repeat' split) <;> rfl

@[simp] theorem Stage.cleared_inLink (st : Stage) : st.cleared.inLink = st.inLink := by cases st <;> rfl

@[simp] theorem Stage.cleared_outLink (st : Stage) : st.cleared.outLink = st.outLink := by cases st <;> rfl

/-- A tick does not change the type of a stage's output link. -/
@[simp] theorem Stage.next_outLink (u : Payload) (st : Stage) (x : Fwd) (r : Bool) : (st.next u x r).outLink = st.outLink := by
  rw [← Stage.cleared_outLink, Stage.next_cleared, Stage.cleared_outLink]

@[simp] theorem chainNext_map_cleared (t k : Nat) (sts : List Stage) (x : Fwd) (r : Bool) :
    (chainNext t k sts x r).map Stage.cleared = sts.map Stage.cleared := by
  induction sts generalizing k x with
  | nil => rfl
  | cons st rest ih => simp [chainNext, ih]

theorem DelayUnit.next_structure (u : DelayUnit) (x : DelayDrive) :
    ((u.next x).entry, (u.next x).depth, (u.next x).d.length) = (u.entry, u.depth, u.d.length) := by
  unfold DelayUnit.next
  split <;> simp

theorem delaysNext_map_structure (e : EnvTick) (k : Nat) (us : List DelayUnit) :
    (delaysNext e k us).map (fun u => (u.entry, u.depth, u.d.length)) = us.map (fun u => (u.entry, u.depth, u.d.length)) := by
  induction us generalizing k with
  | nil => rfl
  | cons u us ih => rw [delaysNext, List.map_cons, List.map_cons, ih, DelayUnit.next_structure]

/-- Settles O55, by induction on the number of ticks. -/
theorem ticksKeepStructure : Obligations.TicksKeepStructure := by
  intro n
  induction n with
  | zero => exact fun s => ⟨rfl, rfl⟩
  | succ n ih =>
    intro s
    obtain ⟨hpipe, hdelays⟩ := ih (tick s)
    rw [ticks, hpipe, hdelays, tick_pipeline, tick_delays, delaysNext_map_structure, Option.map_map]
    refine ⟨congrArg (Option.map · s.pipeline) (funext fun p => ?_), rfl⟩
    simp [Pipeline.next]

/-! ### Offering until taken (R123) -/

theorem produce_true_false : produce true false = false := rfl

/-- A stage that offers an output on a stalled link offers the same one in the next tick, if its own input is kept
offered while it is refused. -/
theorem Stage.forward_next_of_stalled (u : Payload) (st : Stage) {x x' : Fwd} (hv : (st.forward x).valid = true)
    (hkeep : x.valid = true → st.ready false = false → x' = x) : (st.next u x false).forward x' = st.forward x := by
  cases st with
  | skidBuffer l armed buf =>
    cases armed
    · simp_all [Stage.forward, skidForward, Stage.next, skidNext]
    · simp [Stage.forward, skidForward, Stage.next, skidNext]
  | streamDelay depth l d =>
    by_cases h : depth = 0
    · simp_all [Stage.forward, streamDelayForward, Stage.ready, streamDelayReady, Stage.next, streamDelayNext]
    · simp_all [Stage.forward, streamDelayForward, streamDelayReady, Stage.next, streamDelayNext, produce]
  | pipeReg g reg =>
    simp_all [Stage.forward, pipeRegForward, Stage.next, pipeRegNext, PipeSlot.load, PipeSlot.ready, produce]
  | integrator a b acc =>
    simp_all [Stage.forward, integratorForward, Stage.ready, Stage.next, integratorNext, consume]
  | comb a b m d =>
    simp_all [Stage.forward, combForward, Stage.ready, Stage.next, combNext, consume]
  | upsampler r l c =>
    by_cases h : c = 0
    · simp_all [Stage.forward, upsamplerForward, Stage.ready, upsamplerReady, Stage.next, upsamplerNext, consume]
    · simp [Stage.forward, upsamplerForward, Stage.next, upsamplerNext, consume, h]
  | downsampler r l c =>
    simp_all [Stage.forward, downsamplerForward, Stage.ready, downsamplerReady, Stage.next, downsamplerNext, consume]
  | requant k a b =>
    simp_all [Stage.forward, requantForward, Stage.ready, Stage.next]
  | sdfRadix2 log fmt c d =>
    cases hm : combineMode log c
    all_goals simp_all [Stage.forward, sdfForward, Stage.ready, sdfReady, Stage.next, sdfNext, consume]
  | r22Twiddle log fmt c =>
    simp_all [Stage.forward, r22Forward, Stage.ready, Stage.next, r22Next, consume]
  | twiddleDirect log fmt tw table c =>
    simp_all [Stage.forward, twiddleForward, Stage.ready, Stage.next, twiddleNext, consume]
  | twiddleThreeMult log fmt tw table c s1 s2 s3 =>
    simp_all [Stage.forward, pipeRegForward, Stage.next, threeMultNext, PipeSlot.load, PipeSlot.ready, produce]
  | bitExchange j k l c d =>
    cases hs : exchangeBit j k c
    all_goals simp_all [Stage.forward, exchangeForward, Stage.ready, exchangeReady, Stage.next, exchangeNext, consume]

/-- The same of a chain: stalled, it keeps what it offers, since each stage keeps it for the one behind. -/
theorem chainForward_chainNext_of_stalled (t k : Nat) (sts : List Stage) {x x' : Fwd}
    (hv : (chainForward t k sts x).valid = true)
    (hkeep : x.valid = true → chainReady sts false = false → x' = x) :
    chainForward (t + 1) k (chainNext t k sts x false) x' = chainForward t k sts x := by
  induction sts generalizing k x x' with
  | nil => exact hkeep hv rfl
  | cons st rest ih =>
    refine ih (k + 1) hv fun (hmid : (st.forward x).valid = true) hstall => ?_
    have hst := Stage.forward_next_of_stalled (undefPayload st.inLink t (2 * k + 1)) st hmid
      fun hx hr => hkeep hx (by rw [chainReady, hstall, hr])
    rw [hstall, hst, Stage.next_outLink, showLink_of_valid hmid, showLink_of_valid hmid]

/-- Settles O54: the environment keeps the unit's input, and the chain keeps it from link to link. -/
theorem offeredOutputsStayOffered : Obligations.OfferedOutputsStayOffered := by
  intro p t e e' hkeep hv hr
  suffices h : Pipeline.output (p.next t e) (t + 1) e' = p.output t e from ⟨h ▸ hv, h ▸ rfl⟩
  have hin : (p.input t e).valid = true → chainReady p.stages false = false → (p.next t e).input (t + 1) e' = p.input t e := by
    intro hx hstall
    obtain ⟨hvalid, hpayload⟩ := hkeep hx (hr ▸ hstall)
    have hx : e.valid = true := hx
    simp [Pipeline.input, showLink, hvalid, hpayload, hx]
  rw [Pipeline.output, Pipeline.next, hr]
  exact chainForward_chainNext_of_stalled t 0 p.stages hv hin

/-! ### Registers move on transfers (R126) -/

/-- Settles O56, stage by stage: each register's update is guarded by a transfer of one of the two links. -/
theorem stateMovesOnTransfersOnly : Obligations.StateMovesOnTransfersOnly := by
  intro st u x r hdelay hmult hin hout
  cases st with
  | skidBuffer l armed buf =>
    cases armed
    · simp_all [Stage.ready, skidReady, Stage.next, skidNext, consume]
    · simp_all [Stage.forward, skidForward, Stage.next, skidNext, consume]
  | streamDelay depth l d => exact absurd rfl (hdelay depth l d)
  | pipeReg g reg =>
    obtain ⟨v, p⟩ := reg
    cases v <;> cases r <;>
      simp_all [Stage.ready, Stage.forward, pipeRegForward, Stage.next, pipeRegNext, PipeSlot.load, PipeSlot.ready, produce, consume]
  | integrator a b acc => simp_all [Stage.ready, Stage.next, integratorNext]
  | comb a b m d => simp_all [Stage.ready, Stage.next, combNext]
  | upsampler n l c => simp_all [Stage.forward, Stage.next, upsamplerNext]
  | downsampler n l c => simp_all [Stage.ready, Stage.next, downsamplerNext]
  | requant k a b => rfl
  | sdfRadix2 log fmt c d => simp_all [Stage.ready, Stage.next, sdfNext]
  | r22Twiddle log fmt c => simp_all [Stage.ready, Stage.next, r22Next]
  | twiddleDirect log fmt tw table c => simp_all [Stage.ready, Stage.next, twiddleNext]
  | twiddleThreeMult log fmt tw table c s1 s2 s3 => exact absurd rfl (hmult log fmt tw table c s1 s2 s3)
  | bitExchange j k l c d => simp_all [Stage.ready, Stage.next, exchangeNext]

end Sys2Proof.Machine
end

section
/-! PROOFS. The twiddle table of `45_fft_stages.md` section 4: the exact comparison of a cosine with a fraction, the
search that rounds it, and the statement. -/

namespace Sys2Proof.Machine

/-! ### The angle `2*pi*e/2^l` -/

/-- The angle of `e` parts of a whole turn cut into `2^l`. -/
noncomputable def turnAngle (l e : Nat) : ℝ := 2 * Real.pi * e / 2 ^ l

theorem cos_turnAngle_zero (e : Nat) : Real.cos (turnAngle 0 e) = 1 := by
  rw [turnAngle, pow_zero, div_one, mul_comm, Real.cos_nat_mul_two_pi]

/-- The doubling formula, from a turn cut into `2^(l+1)` to one cut into `2^l`. -/
theorem cos_turnAngle_succ (l e : Nat) : Real.cos (turnAngle l e) = 2 * Real.cos (turnAngle (l + 1) e) ^ 2 - 1 := by
  rw [← Real.cos_two_mul]
  congr 1
  simp only [turnAngle, pow_succ]
  field_simp

/-- Only the part of a whole turn counts. -/
theorem cos_turnAngle_mod (l e : Nat) : Real.cos (turnAngle l (e % 2 ^ l)) = Real.cos (turnAngle l e) := by
  have hdiv : (e : ℝ) = (e % 2 ^ l : Nat) + 2 ^ l * (e / 2 ^ l : Nat) := by exact_mod_cast (Nat.mod_add_div e (2 ^ l)).symm
  have hangle : turnAngle l e = turnAngle l (e % 2 ^ l) + (e / 2 ^ l : Nat) * (2 * Real.pi) := by
    simp only [turnAngle]
    rw [hdiv]
    field_simp
  rw [hangle, Real.cos_add_nat_mul_two_pi]

/-- A quarter turn on, the cosine is the negated sine. -/
theorem cos_turnAngle_add_quarter {l : Nat} (hl : 2 ≤ l) (e : Nat) :
    Real.cos (turnAngle l (e + 2 ^ l / 4)) = -Real.sin (turnAngle l e) := by
  obtain ⟨k, rfl⟩ := Nat.exists_eq_add_of_le' hl
  have hquarter : 2 ^ (k + 2) / 4 = 2 ^ k := Nat.pow_div (Nat.le_add_left 2 k) Nat.two_pos
  have hangle : turnAngle (k + 2) (e + 2 ^ (k + 2) / 4) = turnAngle (k + 2) e + Real.pi / 2 := by
    rw [hquarter]
    simp only [turnAngle, pow_add]
    push_cast
    field_simp
  rw [hangle, Real.cos_add_pi_div_two]

/-- The quadrant of `e` says the sign of the cosine. -/
theorem cosNonneg_iff (l e : Nat) : cosNonneg l e = true ↔ 0 ≤ Real.cos (turnAngle l e) := by
  rw [← cos_turnAngle_mod]
  have hpi := Real.pi_pos
  have hn : (0 : ℝ) < 2 ^ l := by positivity
  have hr : ((e % 2 ^ l : Nat) : ℝ) < 2 ^ l := by exact_mod_cast Nat.mod_lt e (Nat.two_pow_pos l)
  have hr0 : (0 : ℝ) ≤ (e % 2 ^ l : Nat) := Nat.cast_nonneg _
  have hle (c : ℝ) : turnAngle l (e % 2 ^ l) ≤ c ↔ 2 * Real.pi * (e % 2 ^ l : Nat) ≤ c * 2 ^ l := div_le_iff₀ hn
  have hge (c : ℝ) : c ≤ turnAngle l (e % 2 ^ l) ↔ c * 2 ^ l ≤ 2 * Real.pi * (e % 2 ^ l : Nat) := le_div_iff₀ hn
  have hgt (c : ℝ) : c < turnAngle l (e % 2 ^ l) ↔ c * 2 ^ l < 2 * Real.pi * (e % 2 ^ l : Nat) := lt_div_iff₀ hn
  have hlt (c : ℝ) : turnAngle l (e % 2 ^ l) < c ↔ 2 * Real.pi * (e % 2 ^ l : Nat) < c * 2 ^ l := div_lt_iff₀ hn
  simp only [cosNonneg, Bool.or_eq_true, decide_eq_true_eq]
  by_cases hfirst : 4 * (e % 2 ^ l) ≤ 2 ^ l
  case pos =>
    have hfirst : 4 * ((e % 2 ^ l : Nat) : ℝ) ≤ 2 ^ l := by exact_mod_cast hfirst
    refine iff_of_true (.inl (by exact_mod_cast hfirst)) (Real.cos_nonneg_of_neg_pi_div_two_le_of_le ?_ ?_)
    · rw [hge]
      nlinarith
    · rw [hle]
      nlinarith
  by_cases hlast : 3 * 2 ^ l ≤ 4 * (e % 2 ^ l)
  case pos =>
    have hlast : 3 * (2 : ℝ) ^ l ≤ 4 * ((e % 2 ^ l : Nat) : ℝ) := by exact_mod_cast hlast
    refine iff_of_true (.inr (by exact_mod_cast hlast)) ?_
    rw [← Real.cos_sub_two_pi]
    refine Real.cos_nonneg_of_neg_pi_div_two_le_of_le ?_ ?_
    · rw [neg_le_sub_iff_le_add, ← sub_le_iff_le_add, hge]
      nlinarith
    · rw [sub_le_iff_le_add, hle]
      nlinarith
  refine iff_of_false (by tauto) (not_le.2 (Real.cos_neg_of_pi_div_two_lt_of_lt ?_ ?_))
  · have hfirst : (2 : ℝ) ^ l < 4 * ((e % 2 ^ l : Nat) : ℝ) := by exact_mod_cast not_le.1 hfirst
    rw [hgt]
    nlinarith
  · have hlast : 4 * ((e % 2 ^ l : Nat) : ℝ) < 3 * 2 ^ l := by exact_mod_cast not_le.1 hlast
    rw [hlt]
    nlinarith

/-! ### The comparison -/

/-- What the doubling formula makes of a cosine grows with it on the nonnegative side. -/
theorem strictMonoOn_doubled : StrictMonoOn (fun x : ℝ => 2 * x ^ 2 - 1) (Set.Ici 0) := by
  intro x hx y hy hxy
  simp only [Set.mem_Ici] at hx hy
  dsimp only
  nlinarith

/-- And falls with it on the other side. -/
theorem strictAntiOn_doubled : StrictAntiOn (fun x : ℝ => 2 * x ^ 2 - 1) (Set.Iic 0) := by
  intro x hx y hy hxy
  simp only [Set.mem_Iic] at hx hy
  dsimp only
  nlinarith

/-- The comparison in exact integers is that of the real numbers, by induction on the doublings. -/
theorem cosCompare_eq_cmp (l e : Nat) (a : Int) (m : Nat) :
    cosCompare l e a m = cmp (Real.cos (turnAngle l e)) ((a : ℝ) / 2 ^ m) := by
  induction l generalizing a m with
  | zero =>
    have hm : (0 : ℝ) < 2 ^ m := by positivity
    rw [cosCompare, cos_turnAngle_zero, ← cmp_eq_compare, ← cmp_mul_pos_right hm, div_mul_cancel₀ _ hm.ne', one_mul,
      ← (Int.cast_strictMono (R := ℝ)).cmp_map_eq, pow2_eq_two_pow]
    push_cast
    rfl
  | succ l ih =>
    have hm : (0 : ℝ) < 2 ^ m := by positivity
    have hdoubled : (((2 * (a * a) - pow2 (2 * m) : Int)) : ℝ) / 2 ^ (2 * m) = 2 * ((a : ℝ) / 2 ^ m) ^ 2 - 1 := by
      rw [pow2_eq_two_pow, mul_comm 2 m, pow_mul]
      push_cast
      field_simp
      ring
    rw [cosCompare, ih, hdoubled, cos_turnAngle_succ]
    cases hcos : cosNonneg (l + 1) e
    case true =>
      have hcos := (cosNonneg_iff _ _).1 hcos
      rw [if_pos rfl]
      by_cases ha : a < 0
      · have hneg : (a : ℝ) / 2 ^ m < 0 := div_neg_of_neg_of_pos (by exact_mod_cast ha) hm
        rw [if_pos ha, (hneg.trans_le hcos).cmp_eq_gt]
      · have hpos : 0 ≤ (a : ℝ) / 2 ^ m := div_nonneg (by exact_mod_cast not_lt.1 ha) hm.le
        rw [if_neg ha]
        exact strictMonoOn_doubled.cmp_map_eq hcos hpos
    case false =>
      have hcos : Real.cos (turnAngle (l + 1) e) < 0 := not_le.1 fun h => by simp [(cosNonneg_iff _ _).2 h] at hcos
      rw [if_neg (by simp)]
      by_cases ha : 0 ≤ a
      · have hpos : 0 ≤ (a : ℝ) / 2 ^ m := div_nonneg (by exact_mod_cast ha) hm.le
        rw [if_pos ha, (hcos.trans_le hpos).cmp_eq_lt]
      · have hneg : (a : ℝ) / 2 ^ m ≤ 0 := div_nonpos_of_nonpos_of_nonneg (by exact_mod_cast (not_le.1 ha).le) hm.le
        rw [if_neg ha, cmp_swap]
        exact strictAntiOn_doubled.cmp_map_eq hneg hcos.le

/-! ### The rounded cosine (R212) -/

/-- The search finds the last integer that passes, where those up to it pass and no later one does. -/
theorem searchBits_eq {test : Int → Bool} {r : Int} (htest : ∀ t, test t = true ↔ t ≤ r) (b : Nat) :
    ∀ t, t ≤ r → r < t + pow2 b → searchBits test b t = r := by
  induction b with
  | zero =>
    intro t hlo hhi
    simp only [pow2, pow_zero, Nat.cast_one] at hhi
    exact (by omega : t = r)
  | succ b ih =>
    intro t hlo hhi
    rw [pow2_succ] at hhi
    unfold searchBits
    split
    next h => exact ih _ ((htest _).1 h) (by omega)
    next h =>
      have := mt (htest _).2 h
      exact ih _ hlo (by omega)

/-- The constant nearest to the cosine, ties toward plus infinity. -/
theorem roundedCos_eq_floor (l e f : Nat) : roundedCos l e f = ⌊Real.cos (turnAngle l e) * 2 ^ f + 1 / 2⌋ := by
  have hf : (1 : ℝ) ≤ 2 ^ f := one_le_pow₀ one_le_two
  have hlo := Real.neg_one_le_cos (turnAngle l e)
  have hhi := Real.cos_le_one (turnAngle l e)
  refine searchBits_eq (fun t => ?_) _ _ ?_ ?_
  · rw [cosCompare_eq_cmp, bne_iff_ne, ne_eq, cmp_eq_lt_iff, not_lt, div_le_iff₀ (by positivity), Int.le_floor, pow_succ]
    push_cast
    constructor <;> intro h <;> linarith
  · rw [Int.le_floor, pow2_eq_two_pow]
    push_cast
    nlinarith
  · rw [Int.floor_lt, pow2_add, pow2_eq_two_pow, pow2_eq_two_pow]
    push_cast
    nlinarith

/-- A rounded cosine fits a format with a sign bit and one integer bit more. -/
theorem holds_roundedCos {tw : Fmt} (hs : tw.signed = true) (hi : 2 ≤ tw.i) (l e : Nat) : tw.holds (roundedCos l e tw.f) = true := by
  have hf : (1 : ℝ) ≤ 2 ^ tw.f := one_le_pow₀ one_le_two
  have hlo := Real.neg_one_le_cos (turnAngle l e)
  have hhi := Real.cos_le_one (turnAngle l e)
  have hleast : -pow2 tw.f ≤ roundedCos l e tw.f := by
    rw [roundedCos_eq_floor, Int.le_floor, pow2_eq_two_pow]
    push_cast
    nlinarith
  have hbound : roundedCos l e tw.f < pow2 (tw.f + 1) := by
    rw [roundedCos_eq_floor, Int.floor_lt, pow2_eq_two_pow, pow_succ]
    push_cast
    nlinarith
  have hwidth : tw.width - 1 = (tw.i - 2) + (tw.f + 1) := by
    simp only [Fmt.width]
    omega
  have hroom : pow2 (tw.f + 1) ≤ pow2 (tw.width - 1) := by
    rw [hwidth, pow2_add (tw.i - 2)]
    exact le_mul_of_one_le_left (pow2_pos _).le (pow2_pos _)
  rw [pow2_succ] at hbound hroom
  have := pow2_pos tw.f
  exact (Fmt.holds_iff_of_signed hs).2 ⟨by omega, by omega⟩

/-! ### The table (R210, R212) -/

theorem blockMultiplier_eq {b : Nat} (h : b < 4) : blockMultiplier b = [0, 2, 1, 3].getD b 0 := by
  interval_cases b <;> rfl

theorem twiddleExponent_eq {log idx : Nat} (hlog : 2 ≤ log) (h : idx < 2 ^ log) :
    twiddleExponent log idx = idx % (2 ^ log / 4) * [0, 2, 1, 3].getD (idx / (2 ^ log / 4)) 0 := by
  obtain ⟨k, rfl⟩ := Nat.exists_eq_add_of_le' hlog
  have hquarter : 2 ^ (k + 2) / 4 = 2 ^ k := Nat.pow_div (Nat.le_add_left 2 k) Nat.two_pos
  have hblock : idx / (2 ^ (k + 2) / 4) < 4 := by
    rw [hquarter, Nat.div_lt_iff_lt_mul (Nat.two_pow_pos k)]
    rw [pow_add] at h
    omega
  rw [twiddleExponent, blockMultiplier_eq hblock]

@[simp] theorem twiddleList_length (log f : Nat) : (twiddleList log f).length = 2 ^ log := by simp [twiddleList]

theorem twiddleList_getElem? {log idx : Nat} (f : Nat) (h : idx < 2 ^ log) :
    (twiddleList log f)[idx]? = some (twiddleFactor log f idx) := by
  simp [twiddleList, h]

/-- Every factor lies in its format. -/
theorem holds_of_mem_twiddleList {log : Nat} {tw : Fmt} (hs : tw.signed = true) (hi : 2 ≤ tw.i) {t : Payload}
    (h : t ∈ twiddleList log tw.f) : tw.holds t.re = true ∧ tw.holds t.im = true := by
  obtain ⟨idx, -, rfl⟩ := List.mem_map.1 h
  exact ⟨holds_roundedCos hs hi _ _, holds_roundedCos hs hi _ _⟩

theorem exec_twiddleTable_param (s : State) {log : Nat} {tw : Fmt} (hlog : 2 ≤ log) (hs : tw.signed = true) (hi : 2 ≤ tw.i) :
    exec (.twiddleTable (2 ^ log : Nat) tw.param) s =
      .next (s.setResult (.table ((twiddleList log tw.f).map fun t => t.toCx tw))) := by
  have hsize : (4 : Int) ≤ ((2 ^ log : Nat) : Int) := by exact_mod_cast Nat.pow_le_pow_right (by decide : 0 < 2) hlog
  change execTwiddleTable _ _ s = _
  rw [execTwiddleTable, checkSize_two_pow hsize, checkTwiddleFormat_param hs hi]
  rfl

/-- Settles O34: the entries are the rounded cosine of the entry's angle and the one a quarter turn on. -/
theorem twiddleTableIsRounded : Obligations.TwiddleTableIsRounded := by
  intro s log tw hlog hs hi
  refine ⟨_, exec_twiddleTable_param s hlog hs hi, rfl, by simp, fun idx hidx => ?_⟩
  have hre := roundedCos_eq_floor log (twiddleExponent log idx) tw.f
  have him := roundedCos_eq_floor log (twiddleExponent log idx + 2 ^ log / 4) tw.f
  rw [cos_turnAngle_add_quarter hlog] at him
  have hhre := hre ▸ holds_roundedCos hs hi log (twiddleExponent log idx)
  have hhim := him ▸ holds_roundedCos hs hi log (twiddleExponent log idx + 2 ^ log / 4)
  rw [twiddleExponent_eq hlog hidx] at hre him hhre hhim
  refine ⟨?_, hhre, hhim⟩
  rw [List.getElem?_map, twiddleList_getElem? _ hidx, Option.map_some, twiddleFactor, twiddleExponent_eq hlog hidx, hre, him]
  rfl

end Sys2Proof.Machine
end

section
/-! PROOFS. The invariant (`10_state.md`, `45_fft_stages.md` section 2): payloads stay payloads of their links, a tick
keeps the registers of every stage good, the butterfly's tags among them. -/

namespace Sys2Proof.Machine

/-! ### Payloads of a link -/

/-- Whatever its lanes, a link's payload has both lanes in range, the second zero where there is one lane. -/
theorem LinkFmt.holds_iff {l : LinkFmt} {p : Payload} :
    l.holds p = true ↔ l.fmt.holds p.re = true ∧ l.fmt.holds p.im = true ∧ (l.lanes ≠ 2 → p.im = 0) := by
  unfold LinkFmt.holds
  by_cases h : l.lanes = 2
  · simp [h]
  · simp only [h, if_false, Bool.and_eq_true, beq_iff_eq, ne_eq, not_false_eq_true, true_implies]
    exact ⟨fun ⟨hre, him⟩ => ⟨hre, him ▸ Fmt.holds_zero, him⟩, fun ⟨hre, _, him⟩ => ⟨hre, him⟩⟩

@[simp] theorem LinkFmt.holds_zero (l : LinkFmt) : l.holds Payload.zero = true :=
  LinkFmt.holds_iff.2 ⟨Fmt.holds_zero, Fmt.holds_zero, fun _ => rfl⟩

theorem LinkFmt.legal_of_signed {p : Fmt} {lanes : Nat} (h : p.legal = true) (hs : p.signed = true)
    (hl : lanes = 1 ∨ lanes = 2) : (LinkFmt.mk p lanes).legal = true := LinkFmt.legal_iff.2 ⟨h, hs, hl⟩

/-- A legal link is signed, so that its wrap is the signed one. -/
theorem LinkFmt.wrap_eq_wrapS {l : LinkFmt} (h : l.legal = true) (x : Int) : l.fmt.wrap x = wrapS l.fmt.width x := by
  simp [Fmt.wrap, (LinkFmt.legal_iff.1 h).2.1]

theorem wrapS_zero {w : Nat} (hw : 1 ≤ w) : wrapS w 0 = 0 := by
  have := pow2_pos (w - 1)
  exact wrapS_of_range hw ⟨by omega, by omega⟩

/-- Two wrapped lanes are a payload, where the second is zero on a 1-lane link. -/
theorem LinkFmt.holds_wrapS {l : LinkFmt} (h : l.legal = true) {re im : Int} (him : l.lanes ≠ 2 → im = 0) :
    l.holds ⟨wrapS l.fmt.width re, wrapS l.fmt.width im⟩ = true := by
  have hf := (LinkFmt.legal_iff.1 h).1
  refine LinkFmt.holds_iff.2 ⟨?_, ?_, fun h1 => ?_⟩
  · exact LinkFmt.wrap_eq_wrapS h re ▸ Fmt.wrap_holds hf re
  · exact LinkFmt.wrap_eq_wrapS h im ▸ Fmt.wrap_holds hf im
  · rw [him h1, wrapS_zero (Fmt.one_le_width hf)]

/-- What a consumer sees on a link is a payload of the link, valid or not. -/
theorem showLink_holds {l : LinkFmt} (h : l.legal = true) (t k : Nat) {f : Fwd}
    (hf : f.valid = true → l.holds f.payload = true) : l.holds (showLink l t k f).payload = true := by
  cases hv : f.valid
  · simp [showLink, hv, undefPayload_holds h]
  · rw [showLink_of_valid hv]
    exact hf hv

/-- A signed format's values are values of the format grown by a bit. -/
theorem Fmt.holds_grow {p : Fmt} (h : p.legal = true) (hs : p.signed = true) {x : Int} (hx : p.holds x = true) :
    p.grow.holds x = true := by
  obtain ⟨hlo, hhi⟩ := (Fmt.holds_iff_of_signed hs).1 hx
  have := pow2_pos (p.width - 1)
  exact (Fmt.holds_grow_iff h hs).2 ⟨by omega, by omega⟩

/-! ### Registers that are loaded -/

/-- What every value offered to a register has, and the one it holds, it has after the tick. -/
theorem PipeSlot.load_p_of {α : Type} {P : α → Prop} {r : PipeSlot α} {rdy v : Bool} {p : α} (hr : P r.p)
    (hp : v = true → P p) : P (r.load rdy v p).p := by
  obtain ⟨-, h⟩ | ⟨-, h⟩ := PipeSlot.load_cases r rdy v p <;> rw [h]
  · exact hr
  · cases v
    · exact hr
    · exact hp rfl

theorem forall_mem_delayShift {α : Type} {P : α → Prop} {d : List α} {e : α} (hd : ∀ x ∈ d, P x) (he : P e) :
    ∀ x ∈ delayShift d e, P x := by
  intro x hx
  obtain rfl | hx := mem_delayShift hx
  · exact he
  · exact hd x hx

theorem delayRead_of_forall {α : Type} {P : α → Prop} {d : List α} {z : α} (hd : ∀ x ∈ d, P x) (hz : P z) :
    P (delayRead z d) := by
  obtain hmem | ⟨-, h⟩ := delayRead_mem z d
  · exact hd _ hmem
  · rwa [h]

theorem getD_delayShift_zero {α : Type} {d : List α} (h : d ≠ []) (e z : α) : (delayShift d e).getD 0 z = e := by
  cases d with
  | nil => exact absurd rfl h
  | cons a d => rfl

/-! ### Links of a stage -/

theorem Stage.shaped.inLink_legal {st : Stage} (h : st.shaped) : st.inLink.legal = true := by
  cases st with
  | skidBuffer | streamDelay => exact h
  | pipeReg =>
    simp only [Stage.shaped, PipeFn.legal, Bool.and_eq_true] at h
    exact h.1.1
  | integrator | comb | requant | upsampler | downsampler => exact h.1
  | bitExchange => exact h.2
  | sdfRadix2 | r22Twiddle =>
    obtain ⟨-, hf, hs⟩ := h
    exact LinkFmt.legal_of_signed hf hs (.inr rfl)
  | twiddleDirect | twiddleThreeMult =>
    obtain ⟨-, hf, hs, -⟩ := h
    exact LinkFmt.legal_of_signed hf hs (.inr rfl)

theorem Stage.shaped.outLink_legal {st : Stage} (h : st.shaped) : st.outLink.legal = true := by
  cases st with
  | skidBuffer | streamDelay => exact h
  | pipeReg =>
    simp only [Stage.shaped, PipeFn.legal, Bool.and_eq_true] at h
    exact h.1.2
  | upsampler | downsampler => exact h.1
  | integrator | requant =>
    obtain ⟨-, hb, -⟩ := h
    exact hb
  | comb =>
    obtain ⟨-, hb, -⟩ := h
    exact hb
  | bitExchange => exact h.2
  | sdfRadix2 =>
    obtain ⟨-, hf, hs⟩ := h
    exact LinkFmt.legal_of_signed (Fmt.grow_legal hf) hs (.inr rfl)
  | r22Twiddle =>
    obtain ⟨-, hf, hs⟩ := h
    exact LinkFmt.legal_of_signed hf hs (.inr rfl)
  | twiddleDirect | twiddleThreeMult =>
    obtain ⟨-, hf, hs, -⟩ := h
    exact LinkFmt.legal_of_signed hf hs (.inr rfl)

/-- Being shaped is a matter of the structural parameters. -/
@[simp] theorem Stage.cleared_shaped (st : Stage) : st.cleared.shaped ↔ st.shaped := by cases st <;> rfl

theorem Stage.shaped.next {st : Stage} (h : st.shaped) (u : Payload) (x : Fwd) (r : Bool) : (st.next u x r).shaped := by
  rw [← Stage.cleared_shaped, Stage.next_cleared, Stage.cleared_shaped]
  exact h

/-! ### The butterfly's tags (R205) -/

section
variable {h c : Nat} {d : List TaggedEntry} {e : TaggedEntry}

/-- In feed mode a raw input goes in. -/
theorem feedbackTagged.feed (ht : feedbackTagged h c d) (hlen : d.length = h) (hc : c < h) (hv : e.valid = true)
    (htag : e.tag = false) : feedbackTagged h (c + 1) (delayShift d e) := by
  have hne : d ≠ [] := List.ne_nil_of_length_pos (by omega)
  intro i hi
  rcases i with _ | i
  · rw [getD_delayShift_zero hne]
    exact ⟨fun _ _ => ⟨hv, htag⟩, fun _ h0 => by omega, fun _ h0 => by omega, fun _ _ => ⟨hv, htag⟩⟩
  · rw [getD_delayShift_succ _ _ _ _ (by omega)]
    obtain ⟨hraw, hold, -, -⟩ := ht i (by omega)
    exact ⟨fun _ h1 => hraw hc (by omega), fun _ h1 => hold hc (by omega), fun _ h1 => by omega,
      fun _ _ => hraw hc (by omega)⟩

/-- In combine mode a difference goes in. -/
theorem feedbackTagged.combine (ht : feedbackTagged h c d) (hlen : d.length = h) (hle : h ≤ c) (hlt : c + 1 < 2 * h)
    (hv : e.valid = true) (htag : e.tag = true) : feedbackTagged h (c + 1) (delayShift d e) := by
  have hne : d ≠ [] := List.ne_nil_of_length_pos (by omega)
  intro i hi
  rcases i with _ | i
  · rw [getD_delayShift_zero hne]
    exact ⟨fun _ _ => by omega, fun _ _ _ => htag, fun _ _ => ⟨hv, htag⟩, fun _ h0 => by omega⟩
  · rw [getD_delayShift_succ _ _ _ _ (by omega)]
    obtain ⟨-, -, hdiff, hraw⟩ := ht i (by omega)
    exact ⟨fun _ _ => by omega, fun _ _ => by omega, fun _ h1 => hdiff hle (by omega), fun _ h1 => hraw hle (by omega)⟩

/-- With the last difference of a frame the next frame begins. -/
theorem feedbackTagged.wrapAround (ht : feedbackTagged h c d) (hlen : d.length = h) (hle : h ≤ c) (hlt : c + 1 = 2 * h)
    (htag : e.tag = true) : feedbackTagged h 0 (delayShift d e) := by
  intro i hi
  have hne : d ≠ [] := List.ne_nil_of_length_pos (by omega)
  rcases i with _ | i
  · rw [getD_delayShift_zero hne]
    exact ⟨fun _ _ => by omega, fun _ _ _ => htag, fun _ _ => by omega, fun _ _ => by omega⟩
  · rw [getD_delayShift_succ _ _ _ _ (by omega)]
    obtain ⟨-, -, hdiff, -⟩ := ht i (by omega)
    exact ⟨fun _ h1 => by omega, fun _ _ _ => (hdiff hle (by omega)).2, fun _ _ => by omega, fun _ _ => by omega⟩

/-- Right after reset no entry is valid. -/
theorem feedbackTagged_replicate (h : Nat) (hpos : 0 < h) : feedbackTagged h 0 (List.replicate h TaggedEntry.empty) := by
  intro i hi
  have hread : (List.replicate h TaggedEntry.empty).getD i TaggedEntry.empty = TaggedEntry.empty := by
    simp [List.getD_eq_getElem?_getD, hi]
  rw [hread]
  exact ⟨fun _ h1 => by omega, fun _ _ hv => absurd hv (by decide), fun h1 => by omega, fun h1 => by omega⟩

end

/-- The modes of a butterfly of period `2 * h` are the halves of its counter. -/
theorem combineMode_eq {log c : Nat} (hlog : 1 ≤ log) (hc : c < 2 ^ log) :
    combineMode log c = decide (2 ^ (log - 1) ≤ c) := by
  by_cases h : 2 ^ (log - 1) ≤ c
  · simp [h, combineMode_of_le hlog hc h]
  · simp [h, combineMode_of_lt (not_le.1 h)]

theorem two_pow_eq_two_mul {log : Nat} (hlog : 1 ≤ log) : 2 ^ log = 2 * 2 ^ (log - 1) :=
  (mul_pow_sub_one (by omega) 2).symm

/-- A transfer into a butterfly keeps the tags right. -/
theorem feedbackTagged.transfer {log c : Nat} {fmt : Fmt} {d : List TaggedEntry} (hlog : 1 ≤ log) (hc : c < 2 ^ log)
    (hlen : d.length = 2 ^ (log - 1)) (ht : feedbackTagged (2 ^ (log - 1)) c d) (x : Payload) :
    feedbackTagged (2 ^ (log - 1)) (countUp c (2 ^ log)) (delayShift d (sdfEntry log fmt c d x)) := by
  have hn := two_pow_eq_two_mul hlog
  unfold sdfEntry countUp
  rw [combineMode_eq hlog hc]
  by_cases hle : 2 ^ (log - 1) ≤ c
  · simp only [hle, decide_true, if_true]
    by_cases hlast : c + 1 = 2 ^ log
    · rw [hlast, Nat.mod_self]
      exact ht.wrapAround hlen hle (by omega) rfl
    · rw [Nat.mod_eq_of_lt (by omega)]
      exact ht.combine hlen hle (by omega) rfl rfl
  · simp only [hle, decide_false, Bool.false_eq_true, if_false]
    rw [Nat.mod_eq_of_lt (by omega)]
    exact ht.feed hlen (by omega) rfl rfl

/-! ### Values of the stages -/

section
variable {fmt tw : Fmt}

theorem sdfSum_holds (hf : fmt.legal = true) (e x : Payload) : (LinkFmt.mk fmt.grow 2).holds (sdfSum fmt e x) = true := by
  simp only [sdfSum, Cx.add, Cx.reFx, Cx.imFx, Payload.toCx, Fx.add_same_fmt, Cx.ofLanes, Cx.payload]
  exact LinkFmt.holds_two_iff.2 ⟨Fmt.wrap_holds (Fmt.grow_legal hf) _, Fmt.wrap_holds (Fmt.grow_legal hf) _⟩

theorem sdfDifference_holds (hf : fmt.legal = true) (e x : Payload) :
    (LinkFmt.mk fmt.grow 2).holds (sdfDifference fmt e x) = true := by
  simp only [sdfDifference, Cx.sub, Cx.reFx, Cx.imFx, Payload.toCx, Fx.sub_same_fmt, Cx.ofLanes, Cx.payload]
  exact LinkFmt.holds_two_iff.2 ⟨Fmt.wrap_holds (Fmt.grow_legal hf) _, Fmt.wrap_holds (Fmt.grow_legal hf) _⟩

theorem mulnegj_holds (hf : fmt.legal = true) {x : Payload} (hx : (LinkFmt.mk fmt 2).holds x = true) :
    (LinkFmt.mk fmt 2).holds (x.toCx fmt).mulnegj.payload = true := by
  rw [Cx.mulnegj_eq]
  exact LinkFmt.holds_two_iff.2 ⟨(LinkFmt.holds_two_iff.1 hx).2, Fmt.wrap_holds hf _⟩

theorem rotate_holds (hf : fmt.legal = true) (t x : Payload) : (LinkFmt.mk fmt 2).holds (rotate fmt tw t x) = true :=
  LinkFmt.holds_two_iff.2 ⟨Fmt.wrap_holds hf _, Fmt.wrap_holds hf _⟩

theorem rotatedRecord_holds (hf : fmt.legal = true) (r : ProductRecord) :
    (LinkFmt.mk fmt 2).holds (rotatedRecord fmt tw r) = true :=
  LinkFmt.holds_two_iff.2 ⟨Fmt.wrap_holds hf _, Fmt.wrap_holds hf _⟩

/-- The lanes of substage 1's record lie in the formats of R105. -/
def SumRecord.Holds (fmt tw : Fmt) (r : SumRecord) : Prop :=
  fmt.holds r.b = true ∧ tw.holds r.tc = true ∧ tw.holds r.td = true ∧ (Fmt.sum tw tw).holds r.u1 = true ∧
    (Fmt.sum fmt fmt).holds r.u2 = true ∧ (Fmt.sum fmt fmt).holds r.u3 = true

/-- The products of substage 2 lie in the formats of R105. -/
def ProductRecord.Holds (fmt tw : Fmt) (r : ProductRecord) : Prop :=
  (Fmt.product fmt (Fmt.sum tw tw)).holds r.p1 = true ∧ (Fmt.product tw (Fmt.sum fmt fmt)).holds r.p2 = true ∧
    (Fmt.product tw (Fmt.sum fmt fmt)).holds r.p3 = true

theorem sumRecord_holds (hf : fmt.legal = true) (htw : tw.legal = true) {t x : Payload}
    (ht : tw.holds t.re = true ∧ tw.holds t.im = true) (hx : (LinkFmt.mk fmt 2).holds x = true) :
    (sumRecord fmt tw t x).Holds fmt tw :=
  ⟨(LinkFmt.holds_two_iff.1 hx).2, ht.1, ht.2, Fmt.wrap_holds (Fmt.sum_legal htw htw) _,
    Fmt.wrap_holds (Fmt.sum_legal hf hf) _, Fmt.wrap_holds (Fmt.sum_legal hf hf) _⟩

theorem productRecord_holds (hf : fmt.legal = true) (htw : tw.legal = true) (r : SumRecord) :
    (productRecord fmt tw r).Holds fmt tw :=
  ⟨Fmt.wrap_holds (Fmt.product_legal hf (Fmt.sum_legal htw htw)) _,
    Fmt.wrap_holds (Fmt.product_legal htw (Fmt.sum_legal hf hf)) _,
    Fmt.wrap_holds (Fmt.product_legal htw (Fmt.sum_legal hf hf)) _⟩

theorem registered_twiddleThreeMult {log c : Nat} {table : List Payload} {s1 : PipeSlot SumRecord} {s2 : PipeSlot ProductRecord}
    {s3 : PipeSlot Payload} : (Stage.twiddleThreeMult log fmt tw table c s1 s2 s3).registered ↔
      c < 2 ^ log ∧ s1.p.Holds fmt tw ∧ s2.p.Holds fmt tw ∧ (LinkFmt.mk fmt 2).holds s3.p = true := by
  simp only [Stage.registered, SumRecord.Holds, ProductRecord.Holds, and_assoc]

theorem Fmt.legal_of_twiddle (hi : 2 ≤ tw.i) : tw.legal = true :=
  Fmt.legal_iff.2 ⟨by omega, fun _ => by omega⟩

/-- A table's factor lies in its format, at any index. -/
theorem romRead_twiddleList_holds (hs : tw.signed = true) (hi : 2 ≤ tw.i) (log c : Nat) :
    tw.holds (romRead (twiddleList log tw.f) c).re = true ∧ tw.holds (romRead (twiddleList log tw.f) c).im = true := by
  unfold romRead
  rw [List.getD_eq_getElem?_getD]
  cases h : (twiddleList log tw.f)[c]? with
  | none => exact ⟨Fmt.holds_zero, Fmt.holds_zero⟩
  | some t => exact holds_of_mem_twiddleList hs hi (List.mem_of_getElem? h)

end

/-! ### A stage's tick -/

/-- A stage offers payloads of its output link. -/
theorem Stage.registered.forward_holds {st : Stage} (hr : st.registered) (hs : st.shaped) {x : Fwd}
    (hx : st.inLink.holds x.payload = true) (hv : (st.forward x).valid = true) :
    st.outLink.holds (st.forward x).payload = true := by
  cases st with
  | skidBuffer l armed buf =>
    cases armed
    · exact hx
    · exact hr
  | streamDelay depth l d =>
    obtain ⟨-, hd⟩ := hr
    simp only [Stage.forward, streamDelayForward]
    split
    · exact hx
    · exact delayRead_of_forall hd (LinkFmt.holds_zero l)
  | pipeReg g reg => exact hr
  | integrator a b acc =>
    obtain ⟨-, hb, hlanes⟩ := hs
    refine LinkFmt.holds_wrapS hb fun h1 => ?_
    obtain ⟨-, -, hacc⟩ := LinkFmt.holds_iff.1 hr
    obtain ⟨-, -, hx0⟩ := LinkFmt.holds_iff.1 hx
    rw [hacc h1, hx0 (hlanes ▸ h1), add_zero]
  | comb a b m d =>
    obtain ⟨-, hb, hlanes, -⟩ := hs
    refine LinkFmt.holds_wrapS hb fun h1 => ?_
    obtain ⟨-, hd⟩ := hr
    obtain ⟨-, -, hx0⟩ := LinkFmt.holds_iff.1 hx
    obtain ⟨-, -, hd0⟩ := LinkFmt.holds_iff.1 (delayRead_of_forall hd (LinkFmt.holds_zero a))
    rw [hd0 (hlanes ▸ h1), hx0 (hlanes ▸ h1), sub_zero]
  | upsampler r l c =>
    simp only [Stage.forward, upsamplerForward]
    split
    · exact hx
    · exact LinkFmt.holds_zero l
  | downsampler r l c => exact hx
  | requant k a b =>
    obtain ⟨-, hb, hlanes⟩ := hs
    refine LinkFmt.holds_wrapS hb fun h1 => ?_
    obtain ⟨-, -, hx0⟩ := LinkFmt.holds_iff.1 hx
    rw [hx0 (hlanes ▸ h1), ashr, Int.zero_ediv]
  | sdfRadix2 log fmt c d =>
    obtain ⟨-, hf, -⟩ := hs
    obtain ⟨-, -, hd, -⟩ := hr
    simp only [Stage.forward, sdfForward]
    split
    · exact sdfSum_holds hf _ _
    · exact delayRead_of_forall (fun e he => (hd e he).1) (LinkFmt.holds_zero _)
  | r22Twiddle log fmt c =>
    obtain ⟨-, hf, -⟩ := hs
    simp only [Stage.forward, r22Forward]
    split
    · exact mulnegj_holds hf hx
    · exact hx
  | twiddleDirect log fmt tw table c =>
    obtain ⟨-, hf, -⟩ := hs
    exact rotate_holds hf _ _
  | twiddleThreeMult log fmt tw table c s1 s2 s3 =>
    obtain ⟨-, -, -, h3⟩ := registered_twiddleThreeMult.1 hr
    exact h3
  | bitExchange j k l c d =>
    obtain ⟨-, -, hd⟩ := hr
    simp only [Stage.forward, exchangeForward]
    split
    · exact delayRead_of_forall hd (LinkFmt.holds_zero l)
    · exact hx

/-- A butterfly's registers after a tick. -/
theorem registered_sdfNext {log c : Nat} {fmt : Fmt} {d : List TaggedEntry} (hs : (Stage.sdfRadix2 log fmt c d).shaped)
    (hr : (Stage.sdfRadix2 log fmt c d).registered) {x : Fwd} (hx : (LinkFmt.mk fmt 2).holds x.payload = true) (r : Bool) :
    (sdfNext log fmt c d x r).registered := by
  obtain ⟨hlog, hf, hsigned⟩ := hs
  unfold sdfNext
  split
  · obtain ⟨hc, hlen, hd, ht⟩ := hr
    refine ⟨countUp_lt (Nat.two_pow_pos log), by rw [delayShift_length, hlen], forall_mem_delayShift hd ?_,
      ht.transfer hlog hc hlen x.payload⟩
    unfold sdfEntry
    split
    · exact ⟨sdfDifference_holds hf _ _, fun h => nomatch h⟩
    · obtain ⟨hre, him⟩ := LinkFmt.holds_two_iff.1 hx
      exact ⟨LinkFmt.holds_two_iff.2 ⟨Fmt.holds_grow hf hsigned hre, Fmt.holds_grow hf hsigned him⟩, fun _ => hx⟩
  · exact hr

/-- The registers of a `THREE_MULT` stage after a tick. -/
theorem registered_threeMultNext {log c : Nat} {fmt tw : Fmt} {table : List Payload} {s1 : PipeSlot SumRecord}
    {s2 : PipeSlot ProductRecord} {s3 : PipeSlot Payload}
    (hs : (Stage.twiddleThreeMult log fmt tw table c s1 s2 s3).shaped)
    (hr : (Stage.twiddleThreeMult log fmt tw table c s1 s2 s3).registered) {x : Fwd}
    (hx : (LinkFmt.mk fmt 2).holds x.payload = true) (r : Bool) :
    (threeMultNext log fmt tw table c s1 s2 s3 x r).registered := by
  obtain ⟨-, hf, -, hsigned, hi, rfl⟩ := hs
  obtain ⟨hc, h1, h2, h3⟩ := registered_twiddleThreeMult.1 hr
  have htw := Fmt.legal_of_twiddle hi
  refine registered_twiddleThreeMult.2 ⟨?_, PipeSlot.load_p_of h1 fun _ => ?_, PipeSlot.load_p_of h2 fun _ => ?_,
    PipeSlot.load_p_of (P := fun p => LinkFmt.holds _ p = true) h3 fun _ => rotatedRecord_holds hf _⟩
  · split
    · exact countUp_lt (Nat.two_pow_pos log)
    · exact hc
  · exact sumRecord_holds hf htw (romRead_twiddleList_holds hsigned hi log c) hx
  · exact productRecord_holds hf htw _

/-- A tick keeps the registers of a stage good. -/
theorem Stage.registered.next {st : Stage} (hr : st.registered) (hs : st.shaped) {u : Payload} {x : Fwd}
    (hu : st.inLink.holds u = true) (hx : st.inLink.holds x.payload = true) (r : Bool) : (st.next u x r).registered := by
  cases st with
  | skidBuffer l armed buf =>
    simp only [Stage.next, skidNext]
    split
    · exact hr
    · split
      · exact hx
      · exact hr
  | streamDelay depth l d =>
    obtain ⟨hlen, hd⟩ := hr
    simp only [Stage.next, streamDelayNext]
    split
    · refine ⟨by rw [delayShift_length, hlen], forall_mem_delayShift hd ?_⟩
      cases x.valid
      · exact hu
      · exact hx
    · exact ⟨hlen, hd⟩
  | pipeReg g reg =>
    exact PipeSlot.load_p_of (P := fun p => g.outLink.holds p = true) hr fun _ => LinkFmt.clip_holds hs.outLink_legal _
  | integrator a b acc =>
    simp only [Stage.next, integratorNext]
    split
    next hm => exact Stage.registered.forward_holds (st := .integrator a b acc) hr hs hx (Bool.and_eq_true_iff.1 hm).1
    next => exact hr
  | comb a b m d =>
    obtain ⟨hlen, hd⟩ := hr
    simp only [Stage.next, combNext]
    split
    · exact ⟨by rw [delayShift_length, hlen], forall_mem_delayShift hd hx⟩
    · exact ⟨hlen, hd⟩
  | upsampler n l c =>
    simp only [Stage.next, upsamplerNext, Stage.registered]
    split
    · exact countUp_lt hs.2
    · exact hr
  | downsampler n l c =>
    simp only [Stage.next, downsamplerNext, Stage.registered]
    split
    · exact countUp_lt hs.2
    · exact hr
  | requant k a b => exact hr
  | sdfRadix2 log fmt c d => exact registered_sdfNext hs hr hx r
  | r22Twiddle log fmt c =>
    simp only [Stage.next, r22Next, Stage.registered]
    split
    · exact countUp_lt (Nat.two_pow_pos log)
    · exact hr
  | twiddleDirect log fmt tw table c =>
    simp only [Stage.next, twiddleNext, Stage.registered]
    split
    · exact countUp_lt (Nat.two_pow_pos log)
    · exact hr
  | twiddleThreeMult log fmt tw table c s1 s2 s3 => exact registered_threeMultNext hs hr hx r
  | bitExchange j k l c d =>
    simp only [Stage.next, exchangeNext]
    split
    · obtain ⟨-, hlen, hd⟩ := hr
      refine ⟨countUp_lt (Nat.two_pow_pos _), by rw [delayShift_length, hlen], forall_mem_delayShift hd ?_⟩
      split
      · exact hx
      · exact delayRead_of_forall hd (LinkFmt.holds_zero l)
    · exact hr

/-- Reset values are good. -/
theorem Stage.registered_cleared {st : Stage} (hs : st.shaped) : st.cleared.registered := by
  cases st with
  | skidBuffer l _ _ => exact LinkFmt.holds_zero l
  | streamDelay depth l _ => exact ⟨List.length_replicate, fun e he => List.eq_of_mem_replicate he ▸ LinkFmt.holds_zero l⟩
  | pipeReg g _ => exact LinkFmt.holds_zero _
  | integrator _ b _ => exact LinkFmt.holds_zero b
  | comb a _ m _ => exact ⟨List.length_replicate, fun e he => List.eq_of_mem_replicate he ▸ LinkFmt.holds_zero a⟩
  | upsampler r _ _ => exact hs.2
  | downsampler r _ _ => exact hs.2
  | requant => trivial
  | sdfRadix2 log fmt _ _ =>
    refine ⟨Nat.two_pow_pos _, List.length_replicate, fun e he => ?_, feedbackTagged_replicate _ (Nat.two_pow_pos _)⟩
    rw [List.eq_of_mem_replicate he]
    exact ⟨LinkFmt.holds_zero _, fun _ => LinkFmt.holds_zero _⟩
  | r22Twiddle => exact Nat.two_pow_pos _
  | twiddleDirect => exact Nat.two_pow_pos _
  | twiddleThreeMult log fmt tw table _ _ _ _ =>
    exact registered_twiddleThreeMult.2 ⟨Nat.two_pow_pos _,
      ⟨Fmt.holds_zero, Fmt.holds_zero, Fmt.holds_zero, Fmt.holds_zero, Fmt.holds_zero, Fmt.holds_zero⟩,
      ⟨Fmt.holds_zero, Fmt.holds_zero, Fmt.holds_zero⟩, LinkFmt.holds_zero _⟩
  | bitExchange j k l _ _ =>
    exact ⟨Nat.two_pow_pos _, List.length_replicate, fun e he => List.eq_of_mem_replicate he ▸ LinkFmt.holds_zero l⟩

/-! ### A chain's tick -/

/-- Being joined is a matter of the structural parameters. -/
theorem chainJoined_map_cleared (l : LinkFmt) (sts : List Stage) :
    chainJoined l (sts.map Stage.cleared) ↔ chainJoined l sts := by
  induction sts generalizing l with
  | nil => rfl
  | cons st rest ih => simp [chainJoined, ih]

theorem chainJoined.chainNext {l : LinkFmt} {sts : List Stage} (h : chainJoined l sts) (t k : Nat) (x : Fwd) (r : Bool) :
    chainJoined l (chainNext t k sts x r) := by
  rw [← chainJoined_map_cleared, chainNext_map_cleared, chainJoined_map_cleared]
  exact h

/-- The stages of a joined chain have legal parameters and good registers. -/
def chainGood (sts : List Stage) : Prop := ∀ st ∈ sts, st.shaped ∧ st.registered

theorem chainGood_cons {st : Stage} {sts : List Stage} :
    chainGood (st :: sts) ↔ (st.shaped ∧ st.registered) ∧ chainGood sts := List.forall_mem_cons

/-- What a good stage shows on its output link is a payload of the link. -/
theorem Stage.showLink_forward_holds {st : Stage} (hs : st.shaped) (hr : st.registered) {x : Fwd}
    (hx : st.inLink.holds x.payload = true) (t k : Nat) :
    st.outLink.holds (showLink st.outLink t k (st.forward x)).payload = true :=
  showLink_holds hs.outLink_legal t k (hr.forward_holds hs hx)

theorem chainGood.chainNext {l : LinkFmt} {sts : List Stage} (hj : chainJoined l sts) (hg : chainGood sts) (t k : Nat)
    {x : Fwd} (hx : l.holds x.payload = true) (r : Bool) : chainGood (chainNext t k sts x r) := by
  induction sts generalizing l k x with
  | nil => exact hg
  | cons st rest ih =>
    obtain ⟨rfl, hj⟩ := hj
    obtain ⟨⟨hs, hr⟩, hg⟩ := chainGood_cons.1 hg
    refine chainGood_cons.2 ⟨⟨hs.next _ _ _, hr.next hs (undefPayload_holds hs.inLink_legal _ _) hx _⟩, ?_⟩
    exact ih hj hg (k + 1) (Stage.showLink_forward_holds hs hr hx _ _)

theorem Pipeline.Inv.input_holds {p : Pipeline} (h : p.Inv) (t : Nat) (e : EnvTick) :
    p.inLink.holds (p.input t e).payload = true := by
  obtain ⟨hl, -, -⟩ := h
  exact showLink_holds hl t 0 fun _ => LinkFmt.clip_holds hl _

theorem Pipeline.Inv.next {p : Pipeline} (h : p.Inv) (t : Nat) (e : EnvTick) : (p.next t e).Inv := by
  have hx := h.input_holds t e
  obtain ⟨hl, hj, hg⟩ := h
  exact ⟨hl, hj.chainNext t 0 _ _, chainGood.chainNext hj hg t 0 hx _⟩

/-! ### The free-standing delays -/

theorem EntryType.normalize_normalize {t : EntryType} (h : t.link.legal = true) (e : TaggedEntry) :
    t.normalize (t.normalize e) = t.normalize e := by
  obtain ⟨kind, l⟩ := t
  cases kind <;> simp [EntryType.normalize, LinkFmt.clip_of_holds h (LinkFmt.clip_holds h _)]

theorem DelayUnit.Inv.next {u : DelayUnit} (h : u.Inv) (x : DelayDrive) : (u.next x).Inv := by
  obtain ⟨hl, hlen, hd⟩ := h
  unfold DelayUnit.next
  split
  · exact ⟨hl, by rw [delayShift_length, hlen], forall_mem_delayShift hd (EntryType.normalize_normalize hl _)⟩
  · exact ⟨hl, hlen, hd⟩

theorem DelayUnit.fresh_inv {t : EntryType} (h : t.link.legal = true) (n : Nat) : (DelayUnit.fresh t n).Inv :=
  ⟨h, List.length_replicate, fun _ he => List.eq_of_mem_replicate he ▸ EntryType.normalize_normalize h _⟩

/-! ### The machine's tick -/

theorem State.Inv.tick {s : State} (h : s.Inv) : (tick s).Inv := by
  obtain ⟨hp, hd, ht, hr⟩ := h
  refine ⟨fun p hp' => ?_, fun u hu => ?_, by simp [ht], hr⟩
  · obtain ⟨q, hq, rfl⟩ := Option.map_eq_some_iff.1 hp'
    exact (hp q hq).next _ _
  · obtain ⟨i, hi⟩ := List.getElem?_of_mem hu
    rw [tick_delays, delaysNext_getElem?] at hi
    obtain ⟨v, hv, rfl⟩ := Option.map_eq_some_iff.1 hi
    exact (hd v (List.mem_of_getElem? hv)).next _

/-! ### The emerging entry -/

/-- Settles O10: the emerging entry is the last one of the line, which the tags of R205 are about. -/
theorem emergingTagFollowsMode : Obligations.EmergingTagFollowsMode := by
  intro s p log c fmt d hinv hp hmem
  obtain ⟨hpipe, -⟩ := hinv
  obtain ⟨-, -, hg⟩ := hpipe p hp
  obtain ⟨⟨hlog, -⟩, hc, hlen, -, htags⟩ := hg _ hmem
  have hn := two_pow_eq_two_mul hlog
  have hpos := Nat.two_pow_pos (log - 1)
  have hread : d.getD (2 ^ (log - 1) - 1) TaggedEntry.empty = delayRead TaggedEntry.empty d := by
    rw [delayRead, List.getLastD_eq_getLast?, List.getLast?_eq_getElem?, hlen, List.getD_eq_getElem?_getD]
  obtain ⟨-, hold, -, hraw⟩ := htags (2 ^ (log - 1) - 1) (by omega)
  rw [hread] at hold hraw
  exact ⟨fun hle => hraw hle (by omega), fun hlt => hold hlt (by omega)⟩

end Sys2Proof.Machine
end

section
/-! PROOFS. Construction (`60_exceptions.md` R261): what each operation can leave behind. A delivered value is a value
of its format; a unit is built at reset, its stages legal and joined. From this every step keeps the invariant, and
whatever is built begins in its reset state. -/

namespace Sys2Proof.Machine

/-! ### Delivered values are legal (R71) -/

theorem Fx.legal_mk_wrap {p : Fmt} (h : p.legal = true) (x : Int) : (Fx.mk (p.wrap x) p).legal = true :=
  Fx.legal_iff.2 ⟨h, Fmt.wrap_holds h x⟩

section
variable {a b v : Fx}

theorem Fx.add_legal (ha : a.legal = true) (hb : b.legal = true) : (a.add b).legal = true :=
  Fx.legal_mk_wrap (Fmt.sum_legal (Fx.legal_iff.1 ha).1 (Fx.legal_iff.1 hb).1) _

theorem Fx.sub_legal (ha : a.legal = true) (hb : b.legal = true) : (a.sub b).legal = true :=
  Fx.legal_mk_wrap (Fmt.sum_legal (Fx.legal_iff.1 ha).1 (Fx.legal_iff.1 hb).1) _

theorem Fx.mul_legal (ha : a.legal = true) (hb : b.legal = true) : (a.mul b).legal = true :=
  Fx.legal_mk_wrap (Fmt.product_legal (Fx.legal_iff.1 ha).1 (Fx.legal_iff.1 hb).1) _

theorem Fx.reshape_legal (v : Fx) {p : Fmt} (hp : p.legal = true) : (v.reshape p).legal = true := Fx.legal_mk_wrap hp _

theorem Fx.rshift_legal (hv : v.legal = true) (n : Nat) : (v.rshift n).legal = true := by
  obtain ⟨hf, hr⟩ := Fx.legal_iff.1 hv
  exact Fx.legal_iff.2 ⟨hf, Fmt.ashr_holds hr n⟩

theorem Fx.neg_legal (hv : v.legal = true) : v.neg.legal = true := by
  rw [Fx.neg_eq]
  exact Fx.legal_mk_wrap (Fx.legal_iff.1 hv).1 _

/-- Two legal lanes of one format are a legal complex value. -/
theorem Cx.ofLanes_legal (ha : a.legal = true) (hb : b.legal = true) (h : b.fmt = a.fmt) : (Cx.ofLanes a b).legal = true := by
  obtain ⟨hf, hra⟩ := Fx.legal_iff.1 ha
  obtain ⟨-, hrb⟩ := Fx.legal_iff.1 hb
  rw [h] at hrb
  exact Cx.legal_iff.2 ⟨hf, hra, hrb⟩

end

section
variable {x y : Cx} (hx : x.legal = true) (hy : y.legal = true)
include hx

theorem Cx.rshift_legal (n : Nat) : (x.rshift n).legal = true :=
  Cx.ofLanes_legal (Fx.rshift_legal (Cx.reFx_legal hx) n) (Fx.rshift_legal (Cx.imFx_legal hx) n) rfl

theorem Cx.mulnegj_legal : x.mulnegj.legal = true :=
  Cx.ofLanes_legal (Cx.imFx_legal hx) (Fx.neg_legal (Cx.reFx_legal hx)) rfl

theorem Cx.scale_legal {k : Fx} (hk : k.legal = true) : (x.scale k).legal = true :=
  Cx.ofLanes_legal (Fx.mul_legal (Cx.reFx_legal hx) hk) (Fx.mul_legal (Cx.imFx_legal hx) hk) rfl

include hy

theorem Cx.add_legal : (x.add y).legal = true :=
  Cx.ofLanes_legal (Fx.add_legal (Cx.reFx_legal hx) (Cx.reFx_legal hy)) (Fx.add_legal (Cx.imFx_legal hx) (Cx.imFx_legal hy)) rfl

theorem Cx.sub_legal : (x.sub y).legal = true :=
  Cx.ofLanes_legal (Fx.sub_legal (Cx.reFx_legal hx) (Cx.reFx_legal hy)) (Fx.sub_legal (Cx.imFx_legal hx) (Cx.imFx_legal hy)) rfl

theorem Cx.mul_legal : (x.mul y).legal = true :=
  have hp {a b : Fx} := @Fx.mul_legal a b
  Cx.ofLanes_legal (Fx.sub_legal (hp (Cx.reFx_legal hx) (Cx.reFx_legal hy)) (hp (Cx.imFx_legal hx) (Cx.imFx_legal hy)))
    (Fx.add_legal (hp (Cx.reFx_legal hx) (Cx.imFx_legal hy)) (hp (Cx.imFx_legal hx) (Cx.reFx_legal hy))) rfl

theorem Cx.mul3_legal : (x.mul3 y).legal = true := by
  have hp1 := Fx.mul_legal (Cx.imFx_legal hx) (Fx.sub_legal (Cx.reFx_legal hy) (Cx.imFx_legal hy))
  have hp2 := Fx.mul_legal (Cx.reFx_legal hy) (Fx.sub_legal (Cx.reFx_legal hx) (Cx.imFx_legal hx))
  have hp3 := Fx.mul_legal (Cx.imFx_legal hy) (Fx.add_legal (Cx.reFx_legal hx) (Cx.imFx_legal hx))
  exact Cx.ofLanes_legal (Fx.add_legal hp1 hp2) (Fx.add_legal hp1 hp3) rfl

end

theorem Cx.reshape_legal (x : Cx) {p : Fmt} (hp : p.legal = true) : (x.reshape p).legal = true :=
  Cx.ofLanes_legal (Fx.reshape_legal _ hp) (Fx.reshape_legal _ hp) rfl

/-! ### What passes a check -/

theorem requireSigned_eq_ok {p q : Fmt} : requireSigned p = .ok q ↔ p.signed = true ∧ p = q := by
  unfold requireSigned
  split <;> simp_all

theorem checkPayloadFormat_legal {q : FormatParam} {p : Fmt} (h : checkPayloadFormat q = .ok p) :
    p.legal = true ∧ p.signed = true ∧ p.param = q := by
  obtain ⟨p', h1, h2⟩ := Build.bind_eq_ok.1 h
  obtain ⟨hs, rfl⟩ := requireSigned_eq_ok.1 h2
  obtain ⟨hl, hq⟩ := checkFormat_legal h1
  exact ⟨hl, hs, hq⟩

theorem checkTwiddleFormat_legal {q : FormatParam} {p : Fmt} (h : checkTwiddleFormat q = .ok p) :
    p.signed = true ∧ 2 ≤ p.i ∧ p.param = q := by
  obtain ⟨p', h1, h2⟩ := Build.bind_eq_ok.1 h
  split at h2
  next hp =>
    cases h2
    exact ⟨hp.1, hp.2, (checkFormat_legal h1).2⟩
  next => cases h2

theorem checkComplex_legal {q : ComplexParam} {x : Cx} (h : checkComplex q = .ok x) : x.legal = true := by
  obtain ⟨fmt, h1, h2⟩ := Build.bind_eq_ok.1 h
  split at h2 <;> cases h2
  next hx =>
    obtain ⟨hre, him⟩ := Bool.and_eq_true_iff.1 hx
    exact Cx.legal_iff.2 ⟨(checkFormat_legal h1).1, hre, him⟩

theorem checkLanes_eq_ok {n : Int} {k : Nat} : checkLanes n = .ok k ↔ (k = 1 ∨ k = 2) ∧ n = k := by
  unfold checkLanes
  split <;> simp <;> omega

theorem isPow2_iff {n : Nat} : isPow2 n = true ↔ ∃ k, n = 2 ^ k := by
  constructor
  · intro h
    simp only [isPow2, Bool.and_eq_true, beq_iff_eq] at h
    exact ⟨_, h.1⟩
  · rintro ⟨k, rfl⟩
    exact isPow2_two_pow k

/-- What passes the check of a size is the logarithm of a power of two, at least `least`. -/
theorem checkSize_eq_ok {least n : Int} (hleast : 0 ≤ least) {k : Nat} :
    checkSize least n = .ok k ↔ n = ((2 ^ k : Nat) : Int) ∧ least ≤ n := by
  constructor
  · intro h
    unfold checkSize at h
    split at h
    · cases h
    next hn =>
      simp only [not_or, not_lt, Bool.not_eq_false] at hn
      obtain ⟨hle, hpow⟩ := hn
      obtain ⟨j, hj⟩ := isPow2_iff.1 hpow
      rw [hj, Nat.log2_two_pow] at h
      cases h
      exact ⟨by omega, hle⟩
  · rintro ⟨rfl, hle⟩
    exact checkSize_two_pow hle

theorem le_log_of_checkSize {k log : Nat} {n : Int} (h : checkSize ((2 ^ k : Nat) : Int) n = .ok log) : k ≤ log := by
  obtain ⟨rfl, hle⟩ := (checkSize_eq_ok (Int.natCast_nonneg _)).1 h
  exact (Nat.pow_le_pow_iff_right (by decide)).1 (Int.ofNat_le.1 hle)

theorem checkWidthOut_eq_ok {full : Nat} {w : Option Int} {o : Option Nat} :
    checkWidthOut full w = .ok o ↔ w = o.map Nat.cast ∧ ∀ k, o = some k → 1 ≤ k ∧ k ≤ full := by
  cases w with
  | none =>
    cases o <;> simp [checkWidthOut]
  | some w =>
    unfold checkWidthOut
    cases o with
    | none => simp; split <;> simp
    | some k =>
      simp only [Option.map_some, Option.some.injEq]
      split <;> simp <;> omega

theorem checkOutFmt_legal {width : Nat} {q : Option FormatParam} {p : Fmt} (h : checkOutFmt width q = .ok (some p)) :
    p.legal = true ∧ p.signed = true := by
  cases q with
  | none => cases h
  | some q =>
    obtain ⟨p', h1, h2⟩ := Build.bind_eq_ok.1 h
    split at h2 <;> cases h2
    obtain ⟨hl, hs, -⟩ := checkPayloadFormat_legal h1
    exact ⟨hl, hs⟩

/-! ### Chains that lead from link to link -/

/-- The chain takes payloads of the first link to payloads of the second, joined in between. -/
def chainConnects (l : LinkFmt) (sts : List Stage) (out : LinkFmt) : Prop := chainJoined l sts ∧ chainOutLink l sts = out

@[simp] theorem chainConnects_nil {l out : LinkFmt} : chainConnects l [] out ↔ l = out := by simp [chainConnects, chainJoined, chainOutLink]

@[simp] theorem chainConnects_cons {l out : LinkFmt} {st : Stage} {sts : List Stage} :
    chainConnects l (st :: sts) out ↔ st.inLink = l ∧ chainConnects st.outLink sts out := by
  simp [chainConnects, chainJoined, chainOutLink, and_assoc]

theorem chainJoined_append {l : LinkFmt} {a b : List Stage} :
    chainJoined l (a ++ b) ↔ chainJoined l a ∧ chainJoined (chainOutLink l a) b := by
  induction a generalizing l with
  | nil => simp [chainJoined, chainOutLink]
  | cons st a ih => simp [chainJoined, chainOutLink, ih, and_assoc]

theorem chainConnects.append {l mid out : LinkFmt} {a b : List Stage} (ha : chainConnects l a mid) (hb : chainConnects mid b out) :
    chainConnects l (a ++ b) out := by
  obtain ⟨hja, rfl⟩ := ha
  exact ⟨chainJoined_append.2 ⟨hja, hb.1⟩, by rw [chainOutLink_append, hb.2]⟩

/-- Segment after segment, each from its link to the next. -/
theorem chainConnects_flatMap_range {g : Nat → List Stage} {link : Nat → LinkFmt} {n : Nat}
    (h : ∀ j < n, chainConnects (link j) (g j) (link (j + 1))) : chainConnects (link 0) ((List.range n).flatMap g) (link n) := by
  induction n with
  | zero => simp
  | succ n ih =>
    rw [List.range_succ, List.flatMap_append, List.flatMap_singleton]
    exact (ih fun j hj => h j (by omega)).append (h n (by omega))

theorem chainConnects_map_range {g : Nat → Stage} {link : Nat → LinkFmt} {n : Nat}
    (h : ∀ j < n, (g j).inLink = link j ∧ (g j).outLink = link (j + 1)) :
    chainConnects (link 0) ((List.range n).map g) (link n) := by
  rw [← List.flatMap_singleton' ((List.range n).map g), List.flatMap_map]
  exact chainConnects_flatMap_range fun j hj => chainConnects_cons.2 ⟨(h j hj).1, chainConnects_nil.2 (h j hj).2⟩

/-! ### Units as they are built -/

/-- What the construction of a unit gives, where it is fed by the link `fed`: its registers are at reset, and if
that link is a legal one, so are the unit's links and parameters, and the unit is joined. -/
structure Pipeline.Built (fed : Option LinkFmt) (u : Pipeline) : Prop where
  fresh : u.fresh
  legal : (∀ l, fed = some l → l.legal = true) →
    u.inLink.legal = true ∧ chainJoined u.inLink u.stages ∧ ∀ st ∈ u.stages, st.shaped

/-- A unit of one stage is joined by itself. -/
theorem Stage.unit_built {fed : Option LinkFmt} {st : Stage} (hfresh : st.cleared = st)
    (hs : (∀ l, fed = some l → l.legal = true) → st.shaped) : st.unit.Built fed where
  fresh := by simp [Pipeline.fresh, Stage.unit, hfresh]
  legal hfed := ⟨(hs hfed).inLink_legal, ⟨rfl, trivial⟩, by simpa [Stage.unit] using hs hfed⟩

/-- What an operation can leave behind: a value of its format, a good delay, or a unit joined to what was built. -/
inductive Leaves (s : State) : State → Prop
  | result {r : Result} : r.Inv → Leaves s (s.setResult r)
  | delay {d : DelayUnit} : d.Inv → Leaves s (s.setDelays (s.delays ++ [d]))
  | unit {u p : Pipeline} : u.Built s.openLink → join s.pipeline u = .ok p → Leaves s (s.setPipeline p)

theorem Leaves.of_deliver {s t : State} {b : Build Result} (h : deliver s b = .next t) (hb : ∀ r, b = .ok r → r.Inv) :
    Leaves s t := by
  obtain ⟨r, hr, rfl⟩ := deliver_eq_next.1 h
  exact .result (hb r hr)

theorem Leaves.of_construct {s t : State} {build : Option LinkFmt → Build Pipeline} (h : construct s build = .next t)
    (hb : ∀ fed u, build fed = .ok u → u.Built fed) : Leaves s t := by
  obtain ⟨-, u, p, hu, hj, rfl⟩ := construct_eq_next.1 h
  exact .unit (hb _ u hu) hj

/-! ### CIC labels (R150, R186) -/

theorem cicLabel_signed (w f : Nat) : (cicLabel w f).signed = true := by
  unfold cicLabel
  split <;> rfl

@[simp] theorem cicLabel_width (w f : Nat) : (cicLabel w f).width = w := by
  unfold cicLabel Fmt.width
  split <;> dsimp only <;> omega

theorem cicLabel_legal {w : Nat} (hw : 1 ≤ w) (f : Nat) : (cicLabel w f).legal = true := by
  unfold cicLabel
  split <;> exact Fmt.legal_iff.2 ⟨by dsimp only; omega, fun _ => by dsimp only; omega⟩

/-- A signed format is the label of its own width. -/
theorem cicLabel_self {p : Fmt} (h : p.legal = true) (hs : p.signed = true) : cicLabel p.width p.f = p := by
  have hi := (Fmt.legal_iff.1 h).2 hs
  obtain ⟨i, f, s⟩ := p
  obtain rfl : s = true := hs
  have hlt : f < i + f := by dsimp only at hi; omega
  simp [cicLabel, Fmt.width, hlt]

theorem cicLink_legal {w lanes : Nat} (hw : 1 ≤ w) (f : Nat) (hl : lanes = 1 ∨ lanes = 2) : (cicLink f lanes w).legal = true :=
  LinkFmt.legal_of_signed (cicLabel_legal hw f) (cicLabel_signed w f) hl

@[simp] theorem cicInLink_lanes (fed : Option LinkFmt) (w lanes : Nat) : (cicInLink fed w lanes).lanes = lanes := by
  unfold cicInLink
  split
  · split <;> rfl
  · rfl

theorem cicInLink_legal {fed : Option LinkFmt} (hfed : ∀ l, fed = some l → l.legal = true) {w lanes : Nat} (hw : 1 ≤ w)
    (hl : lanes = 1 ∨ lanes = 2) : (cicInLink fed w lanes).legal = true := by
  unfold cicInLink
  split
  next l =>
    obtain ⟨hf, hs, -⟩ := LinkFmt.legal_iff.1 (hfed l rfl)
    split
    · exact LinkFmt.legal_of_signed hf hs hl
    · exact cicLink_legal hw 0 hl
  next => exact cicLink_legal hw 0 hl

theorem cicOutLink_legal {l : LinkFmt} {w : Nat} (hw : 1 ≤ w) (hl : l.lanes = 1 ∨ l.lanes = 2) : (cicOutLink l w).legal = true :=
  cicLink_legal hw _ hl

/-- What passes the check of a width, of a rate, of a comb's delay. -/
theorem one_le_of_checkAtLeast {e : ConfigError} {x : Int} {n : Nat} (h : checkAtLeast 1 e x = .ok n) : 1 ≤ n := by
  obtain ⟨h1, rfl⟩ := checkAtLeast_eq_ok.1 h
  omega

section
variable {fed : Option LinkFmt} {w b lanes : Nat} (hw : 1 ≤ w) (hl : lanes = 1 ∨ lanes = 2)
include hw hl

/-- The stages built on an input and an output width. -/
theorem cicLinks_legal (hfed : ∀ l, fed = some l → l.legal = true) (hb : 1 ≤ b) :
    (cicInLink fed w lanes).legal = true ∧ (cicOutLink (cicInLink fed w lanes) b).legal = true ∧
      (cicInLink fed w lanes).lanes = (cicOutLink (cicInLink fed w lanes) b).lanes :=
  ⟨cicInLink_legal hfed hw hl, cicOutLink_legal hb (by simpa using hl), rfl⟩

end

/-! ### Relabelled filters (R186) -/

theorem Stage.relabel_cleared (p : Fmt) (st : Stage) : (st.relabel p).cleared = st.cleared.relabel p := by
  cases st <;> rfl

@[simp] theorem Stage.relabel_inLink (p : Fmt) (st : Stage) : (st.relabel p).inLink = st.inLink := by cases st <;> rfl

theorem Stage.shaped.relabel {st : Stage} (h : st.shaped) {p : Fmt} (hp : p.legal = true) (hs : p.signed = true) :
    (st.relabel p).shaped := by
  cases st with
  | integrator | requant =>
    obtain ⟨ha, hb, hlanes⟩ := h
    exact ⟨ha, LinkFmt.legal_of_signed hp hs (LinkFmt.legal_iff.1 hb).2.2, hlanes⟩
  | _ => exact h

/-- The stages of a relabelled chain are those of the chain, the last one with its label put on. -/
theorem mem_relabelLast {p : Option Fmt} {sts : List Stage} {st : Stage} (h : st ∈ relabelLast p sts) :
    st ∈ sts ∨ ∃ q st', p = some q ∧ st' ∈ sts ∧ st = st'.relabel q := by
  induction sts with
  | nil => exact .inl h
  | cons a rest ih =>
    cases rest with
    | nil =>
      cases p with
      | none => exact .inl h
      | some q => exact .inr ⟨q, a, rfl, List.mem_singleton_self a, List.mem_singleton.1 h⟩
    | cons b rest =>
      obtain rfl | h := List.mem_cons.1 h
      · exact .inl (List.mem_cons_self ..)
      · obtain h | ⟨q, st', hq, hmem, heq⟩ := ih h
        · exact .inl (List.mem_cons_of_mem _ h)
        · exact .inr ⟨q, st', hq, List.mem_cons_of_mem _ hmem, heq⟩

/-- Relabelling the last link leaves the links in between as they are. -/
theorem chainJoined.relabelLast {l : LinkFmt} {sts : List Stage} (h : chainJoined l sts) (p : Option Fmt) :
    chainJoined l (relabelLast p sts) := by
  induction sts generalizing l with
  | nil => exact h
  | cons a rest ih =>
    cases rest with
    | nil =>
      cases p with
      | none => exact h
      | some q => exact ⟨(Stage.relabel_inLink q a).trans h.1, trivial⟩
    | cons b rest => exact ⟨h.1, ih h.2⟩

/-- A filter whose stages lead from its input link on is built, whatever label its last link gets. -/
theorem filter_built {fed : Option LinkFmt} {l out : LinkFmt} {sts : List Stage} {p : Option Fmt} (hl : l.legal = true)
    (hc : chainConnects l sts out) (hfresh : ∀ st ∈ sts, st.cleared = st) (hs : ∀ st ∈ sts, st.shaped)
    (hp : ∀ q, p = some q → q.legal = true ∧ q.signed = true) : (Pipeline.mk l (relabelLast p sts)).Built fed where
  fresh st hst := by
    obtain h | ⟨q, st', -, h, rfl⟩ := mem_relabelLast hst
    · exact hfresh st h
    · rw [Stage.relabel_cleared, hfresh st' h]
  legal _ := ⟨hl, hc.1.relabelLast p, fun st hst => by
    obtain h | ⟨q, st', hq, h, rfl⟩ := mem_relabelLast hst
    · exact hs st h
    · exact (hs st' h).relabel (hp q hq).1 (hp q hq).2⟩

/-! ### The stages of the filters (R173, R181) -/

section
variable {n r m wIn f lanes : Nat} {widthOut : Option Nat}

/-- A property of every stage of the interpolator, from the kinds of its stages. -/
theorem forall_mem_upsamplingStages {P : Stage → Prop}
    (hcomb : ∀ j < n, P (freshComb (cicLink f lanes (upWidth n r m wIn j)) (cicLink f lanes (upWidth n r m wIn (j + 1))) m))
    (hup : 1 < r → P (.upsampler r (cicLink f lanes (upWidth n r m wIn n)) 0))
    (hint : ∀ j < n, P (freshIntegrator (cicLink f lanes (upWidth n r m wIn (n + j)))
      (cicLink f lanes (upWidth n r m wIn (n + j + 1)))))
    (hout : ∀ o, widthOut = some o → P (.requant (upWidth n r m wIn (2 * n) - o)
      (cicLink f lanes (upWidth n r m wIn (2 * n))) (cicLink f lanes o))) :
    ∀ st ∈ upsamplingStages n r m wIn f lanes widthOut, P st := by
  intro st hst
  simp only [upsamplingStages, List.mem_append, List.mem_map, List.mem_range] at hst
  obtain ((⟨j, hj, rfl⟩ | hst) | ⟨j, hj, rfl⟩) | hst := hst
  · exact hcomb j hj
  · split at hst
    next hr => exact List.mem_singleton.1 hst ▸ hup hr
    next => cases hst
  · exact hint j hj
  · split at hst
    · cases hst
    next o =>
      split at hst
      · exact List.mem_singleton.1 hst ▸ hout o rfl
      · cases hst

/-- The width of link `j` of the decimator. -/
def downWidth (n r m wIn : Nat) (widthOut : Option Nat) (j : Nat) : Nat :=
  if j = 0 then wIn else (cicTruncate n r m wIn widthOut).widths.getD (j - 1) 0

/-- A property of every stage of the decimator, from the kinds of its stages. -/
theorem forall_mem_downsamplingStages {P : Stage → Prop}
    (hshift : ∀ j k, j < 2 * n → P (.requant k (cicLink f lanes (downWidth n r m wIn widthOut j))
      (cicLink f lanes (downWidth n r m wIn widthOut (j + 1)))))
    (hint : ∀ j < n, P (freshIntegrator (cicLink f lanes (downWidth n r m wIn widthOut (j + 1)))
      (cicLink f lanes (downWidth n r m wIn widthOut (j + 1)))))
    (hdown : 1 < r → P (.downsampler r (cicLink f lanes (downWidth n r m wIn widthOut n)) 0))
    (hcomb : ∀ j < n, P (freshComb (cicLink f lanes (downWidth n r m wIn widthOut (n + j + 1)))
      (cicLink f lanes (downWidth n r m wIn widthOut (n + j + 1))) m))
    (hout : ∀ k, P (.requant k (cicLink f lanes (downWidth n r m wIn widthOut (2 * n)))
      (cicLink f lanes (cicTruncate n r m wIn widthOut).widthOut))) :
    ∀ st ∈ downsamplingStages n r m wIn f lanes widthOut, P st := by
  intro st hst
  simp only [downsamplingStages, List.mem_append, List.mem_flatMap, List.mem_range, List.mem_cons, List.not_mem_nil,
    or_false] at hst
  obtain ((⟨j, hj, rfl | rfl⟩ | hst) | ⟨j, hj, rfl | rfl⟩) | rfl := hst
  · exact hshift j _ (by omega)
  · exact hint j hj
  · split at hst
    next hr => exact List.mem_singleton.1 hst ▸ hdown hr
    next => cases hst
  · exact hshift (n + j) _ (by omega)
  · exact hcomb j hj
  · exact hout _

theorem upWidth_zero : upWidth n r m wIn 0 = wIn := by simp [upWidth, cicGrowthAt]

theorem cicLink_self {l : LinkFmt} (h : l.legal = true) : cicLink l.fmt.f l.lanes l.fmt.width = l := by
  obtain ⟨hf, hs, -⟩ := LinkFmt.legal_iff.1 h
  rw [cicLink, cicLabel_self hf hs]

theorem upsamplingStages_connects (hout : ∀ o, widthOut = some o → o ≤ upWidth n r m wIn (2 * n)) :
    chainConnects (cicLink f lanes wIn) (upsamplingStages n r m wIn f lanes widthOut)
      (cicLink f lanes (widthOut.getD (upWidth n r m wIn (2 * n)))) := by
  have hcombs : chainConnects (cicLink f lanes (upWidth n r m wIn 0)) _ (cicLink f lanes (upWidth n r m wIn n)) :=
    chainConnects_map_range (g := fun j => freshComb (cicLink f lanes (upWidth n r m wIn j))
      (cicLink f lanes (upWidth n r m wIn (j + 1))) m)
      (link := fun j => cicLink f lanes (upWidth n r m wIn j)) fun j _ => ⟨rfl, rfl⟩
  have hrate : chainConnects (cicLink f lanes (upWidth n r m wIn n))
      (if 1 < r then [Stage.upsampler r (cicLink f lanes (upWidth n r m wIn n)) 0] else [])
      (cicLink f lanes (upWidth n r m wIn (n + 0))) := by
    split <;> simp [Stage.inLink, Stage.outLink]
  have hints : chainConnects (cicLink f lanes (upWidth n r m wIn (n + 0))) _ (cicLink f lanes (upWidth n r m wIn (n + n))) :=
    chainConnects_map_range (g := fun j => freshIntegrator (cicLink f lanes (upWidth n r m wIn (n + j)))
      (cicLink f lanes (upWidth n r m wIn (n + j + 1))))
      (link := fun j => cicLink f lanes (upWidth n r m wIn (n + j))) fun j _ => ⟨rfl, rfl⟩
  rw [upWidth_zero] at hcombs
  rw [← two_mul] at hints
  refine ((hcombs.append hrate).append hints).append ?_
  cases widthOut with
  | none => simp
  | some o =>
    have hle := hout o rfl
    dsimp only [Option.getD_some]
    split
    · simp [Stage.inLink, Stage.outLink]
    · simp only [chainConnects_nil]
      congr 1
      omega

theorem downsamplingStages_connects : chainConnects (cicLink f lanes wIn)
    (downsamplingStages n r m wIn f lanes widthOut) (cicLink f lanes (cicTruncate n r m wIn widthOut).widthOut) := by
  have hints : chainConnects (cicLink f lanes (downWidth n r m wIn widthOut 0)) _
      (cicLink f lanes (downWidth n r m wIn widthOut n)) :=
    chainConnects_flatMap_range (g := fun j =>
      [Stage.requant ((cicTruncate n r m wIn widthOut).shifts.getD j 0) (cicLink f lanes (downWidth n r m wIn widthOut j))
          (cicLink f lanes (downWidth n r m wIn widthOut (j + 1))),
        freshIntegrator (cicLink f lanes (downWidth n r m wIn widthOut (j + 1)))
          (cicLink f lanes (downWidth n r m wIn widthOut (j + 1)))])
      (link := fun j => cicLink f lanes (downWidth n r m wIn widthOut j))
      fun j _ => by simp [Stage.inLink, Stage.outLink, freshIntegrator]
  have hrate : chainConnects (cicLink f lanes (downWidth n r m wIn widthOut n))
      (if 1 < r then [Stage.downsampler r (cicLink f lanes (downWidth n r m wIn widthOut n)) 0] else [])
      (cicLink f lanes (downWidth n r m wIn widthOut (n + 0))) := by
    split <;> simp [Stage.inLink, Stage.outLink]
  have hcombs : chainConnects (cicLink f lanes (downWidth n r m wIn widthOut (n + 0))) _
      (cicLink f lanes (downWidth n r m wIn widthOut (n + n))) :=
    chainConnects_flatMap_range (g := fun j =>
      [Stage.requant ((cicTruncate n r m wIn widthOut).shifts.getD (n + j) 0)
          (cicLink f lanes (downWidth n r m wIn widthOut (n + j))) (cicLink f lanes (downWidth n r m wIn widthOut (n + j + 1))),
        freshComb (cicLink f lanes (downWidth n r m wIn widthOut (n + j + 1)))
          (cicLink f lanes (downWidth n r m wIn widthOut (n + j + 1))) m])
      (link := fun j => cicLink f lanes (downWidth n r m wIn widthOut (n + j)))
      fun j _ => by simp [Stage.inLink, Stage.outLink, freshComb, Nat.add_assoc]
  rw [← two_mul] at hcombs
  exact ((hints.append hrate).append hcombs).append (by simp [Stage.inLink, Stage.outLink, downWidth])

/-! ### Widths (R171, R179) -/

@[simp] theorem runningMax_length (a : Nat) (bs : List Nat) : (runningMax a bs).length = bs.length := by
  induction bs generalizing a with
  | nil => rfl
  | cons b bs ih => simp [runningMax, ih]

theorem runningMax_le {a k : Nat} {bs : List Nat} (ha : a ≤ k) (hbs : ∀ b ∈ bs, b ≤ k) : ∀ b ∈ runningMax a bs, b ≤ k := by
  induction bs generalizing a with
  | nil => simp [runningMax]
  | cons b bs ih =>
    obtain ⟨hb, hbs⟩ := List.forall_mem_cons.1 hbs
    have hmax : max a b ≤ k := max_le ha hb
    exact List.forall_mem_cons.2 ⟨hmax, ih hmax hbs⟩

@[simp] theorem forceFirst_length (bs : List Nat) : (forceFirst bs).length = bs.length := by cases bs <;> rfl

theorem forceFirst_le {k : Nat} {bs : List Nat} (hbs : ∀ b ∈ bs, b ≤ k) : ∀ b ∈ forceFirst bs, b ≤ k := by
  cases bs with
  | nil => exact hbs
  | cons b bs => exact List.forall_mem_cons.2 ⟨Nat.zero_le k, (List.forall_mem_cons.1 hbs).2⟩

/-- No more bits are cut than the last shift and the ones before it cut in all. -/
theorem cicTruncate_bc_le : ∀ b ∈ (cicTruncate n r m wIn widthOut).bc, b ≤ (cicTruncate n r m wIn widthOut).bLast := by
  refine runningMax_le (Nat.zero_le _) (forceFirst_le fun b hb => ?_)
  obtain ⟨k, -, rfl⟩ := List.mem_map.1 hb
  exact Nat.sub_le _ _

@[simp] theorem cicTruncate_widths_length : (cicTruncate n r m wIn widthOut).widths.length = 2 * n := by simp [cicTruncate]

/-- Every width of the decimator is at least the requested one, so at least 1. -/
theorem one_le_downWidth (hw : 1 ≤ wIn) (hout : ∀ o, widthOut = some o → 1 ≤ o ∧ o ≤ fullWidth n r m wIn) {j : Nat}
    (hj : j ≤ 2 * n) : 1 ≤ downWidth n r m wIn widthOut j := by
  unfold downWidth
  split
  · exact hw
  next hj0 =>
    have hlt : j - 1 < (cicTruncate n r m wIn widthOut).widths.length := by
      rw [cicTruncate_widths_length]
      omega
    rw [List.getD_eq_getElem _ _ hlt]
    obtain ⟨b, hb, hwidth⟩ := List.mem_map.1 (List.getElem_mem hlt)
    have hle : b ≤ fullWidth n r m wIn - widthOut.getD (fullWidth n r m wIn) := cicTruncate_bc_le b hb
    have hfull : wIn ≤ fullWidth n r m wIn := Nat.le_add_right _ _
    have hgetD : 1 ≤ widthOut.getD (fullWidth n r m wIn) ∧ widthOut.getD (fullWidth n r m wIn) ≤ fullWidth n r m wIn := by
      cases widthOut with
      | none => exact ⟨hw.trans hfull, le_rfl⟩
      | some o => exact hout o rfl
    rw [← hwidth]
    omega

theorem upsamplingStages_shaped (hr : 1 ≤ r) (hm : 1 ≤ m) (hw : 1 ≤ wIn) (hl : lanes = 1 ∨ lanes = 2)
    (hout : ∀ o, widthOut = some o → 1 ≤ o) : ∀ st ∈ upsamplingStages n r m wIn f lanes widthOut, st.shaped := by
  have hlink (j : Nat) : (cicLink f lanes (upWidth n r m wIn j)).legal = true :=
    cicLink_legal (hw.trans (Nat.le_add_right _ _)) f hl
  exact forall_mem_upsamplingStages (fun j _ => ⟨hlink j, hlink (j + 1), rfl, hm⟩) (fun _ => ⟨hlink n, hr⟩)
    (fun j _ => ⟨hlink (n + j), hlink (n + j + 1), rfl⟩)
    fun o ho => ⟨hlink (2 * n), cicLink_legal (hout o ho) f hl, rfl⟩

theorem downsamplingStages_shaped (hr : 1 ≤ r) (hm : 1 ≤ m) (hw : 1 ≤ wIn) (hl : lanes = 1 ∨ lanes = 2)
    (hout : ∀ o, widthOut = some o → 1 ≤ o ∧ o ≤ fullWidth n r m wIn) :
    ∀ st ∈ downsamplingStages n r m wIn f lanes widthOut, st.shaped := by
  have hlink (j : Nat) (hj : j ≤ 2 * n) : (cicLink f lanes (downWidth n r m wIn widthOut j)).legal = true :=
    cicLink_legal (one_le_downWidth hw hout hj) f hl
  have hlast : 1 ≤ (cicTruncate n r m wIn widthOut).widthOut := by
    cases widthOut with
    | none => exact hw.trans (Nat.le_add_right _ _)
    | some o => exact (hout o rfl).1
  exact forall_mem_downsamplingStages (fun j _ hj => ⟨hlink j hj.le, hlink (j + 1) hj, rfl⟩)
    (fun j hj => ⟨hlink _ (by omega), hlink _ (by omega), rfl⟩) (fun _ => ⟨hlink n (by omega), hr⟩)
    (fun j hj => ⟨hlink _ (by omega), hlink _ (by omega), rfl, hm⟩) fun _ => ⟨hlink _ le_rfl, cicLink_legal hlast f hl, rfl⟩

theorem upsamplingStages_fresh : ∀ st ∈ upsamplingStages n r m wIn f lanes widthOut, st.cleared = st :=
  forall_mem_upsamplingStages (fun _ _ => rfl) (fun _ => rfl) (fun _ _ => rfl) fun _ _ => rfl

theorem downsamplingStages_fresh : ∀ st ∈ downsamplingStages n r m wIn f lanes widthOut, st.cleared = st :=
  forall_mem_downsamplingStages (fun _ _ _ => rfl) (fun _ _ => rfl) (fun _ => rfl) (fun _ _ => rfl) fun _ => rfl

end

/-- Both filters are built, given what their stages lead to and that these are legal. -/
theorem buildFilter_built {fed : Option LinkFmt} {n r m : Int} {fmtIn : FormatParam} {lanes : Int} {widthOut : Option Int}
    {outFmt : Option FormatParam} {full : Nat → Nat → Nat → Nat → Nat}
    {stages : Nat → Nat → Nat → Nat → Nat → Nat → Option Nat → List Stage} {u : Pipeline}
    (h : buildFilter n r m fmtIn lanes widthOut outFmt full stages = .ok u)
    (hconn : ∀ {n r m w f l : Nat} {o : Option Nat}, (∀ k, o = some k → 1 ≤ k ∧ k ≤ full n r m w) →
      ∃ out, chainConnects (cicLink f l w) (stages n r m w f l o) out)
    (hfresh : ∀ {n r m w f l : Nat} {o : Option Nat}, ∀ st ∈ stages n r m w f l o, st.cleared = st)
    (hshaped : ∀ {n r m w f l : Nat} {o : Option Nat}, 1 ≤ r → 1 ≤ m → 1 ≤ w → (l = 1 ∨ l = 2) →
      (∀ k, o = some k → 1 ≤ k ∧ k ≤ full n r m w) → ∀ st ∈ stages n r m w f l o, st.shaped) : u.Built fed := by
  obtain ⟨n, -, h⟩ := Build.bind_eq_ok.1 h
  obtain ⟨r, hr, h⟩ := Build.bind_eq_ok.1 h
  obtain ⟨m, hm, h⟩ := Build.bind_eq_ok.1 h
  obtain ⟨p, hp, h⟩ := Build.bind_eq_ok.1 h
  obtain ⟨o, ho, h⟩ := Build.bind_eq_ok.1 h
  obtain ⟨label, hlabel, h⟩ := Build.bind_eq_ok.1 h
  obtain ⟨l, hl, h⟩ := Build.bind_eq_ok.1 h
  cases h
  obtain ⟨hpl, hps, -⟩ := checkPayloadFormat_legal hp
  obtain ⟨hl, -⟩ := checkLanes_eq_ok.1 hl
  obtain ⟨-, ho⟩ := checkWidthOut_eq_ok.1 ho
  have hlink : (LinkFmt.mk p l).legal = true := LinkFmt.legal_of_signed hpl hps hl
  obtain ⟨out, hout⟩ := hconn (f := p.f) (l := l) ho
  rw [cicLink_self (l := ⟨p, l⟩) hlink] at hout
  refine filter_built hlink hout hfresh (hshaped (one_le_of_checkAtLeast hr) (one_le_of_checkAtLeast hm)
    (Fmt.one_le_width hpl) hl ho) fun q hq => ?_
  subst hq
  exact checkOutFmt_legal hlabel

/-! ### The stages of the transform (R246) -/

section
variable {f : Nat} {tw : Fmt} {variant : TwVariant} {skid : Bool}

/-- A property of every stage of the transform, from the kinds of its stages. -/
theorem forall_mem_transformStages {P : Stage → Prop} {i : Nat}
    (hsdf : ∀ log ig, 1 ≤ log → i ≤ ig → P (freshSdf log (sampleFmt f ig)))
    (hr22 : ∀ log ig, 2 ≤ log → i ≤ ig → P (.r22Twiddle log (sampleFmt f ig) 0))
    (hdirect : ∀ log ig, 2 ≤ log → i ≤ ig → P (freshTwiddleDirect log (sampleFmt f ig) tw))
    (hthree : ∀ log ig, 2 ≤ log → i ≤ ig → P (freshTwiddleThreeMult log (sampleFmt f ig) tw))
    (hskid : ∀ ig, i ≤ ig → P (.skidBuffer ⟨sampleFmt f ig, 2⟩ false Payload.zero)) (bits ig : Nat) (hig : i ≤ ig) :
    ∀ st ∈ transformStages f tw variant skid bits ig, P st := by
  induction bits using Nat.twoStepInduction generalizing ig with
  | zero => exact fun st hst => nomatch hst
  | one => exact fun st hst => List.mem_singleton.1 hst ▸ hsdf 1 ig le_rfl hig
  | more bits ih _ =>
    intro st hst
    rw [transformStages_add_two, radix22Group, List.mem_append, List.mem_append] at hst
    obtain (hst | hst) | hst := hst
    · simp only [List.mem_cons, List.not_mem_nil, or_false] at hst
      obtain rfl | rfl | rfl := hst
      · exact hsdf _ _ (by omega) hig
      · exact hr22 _ _ (by omega) (by omega)
      · exact hsdf _ _ (by omega) (by omega)
    · split at hst
      · cases hst
      · obtain rfl | hst := List.mem_cons.1 hst
        · cases variant
          · exact hdirect _ _ (by omega) (by omega)
          · exact hthree _ _ (by omega) (by omega)
        · split at hst
          · exact List.mem_singleton.1 hst ▸ hskid _ (by omega)
          · cases hst
    · exact ih (ig + 2) (by omega) st hst

theorem forall_mem_bitReversalStages {P : Stage → Prop} {bits : Nat} {l : LinkFmt}
    (h : ∀ j k, k < j → P (freshExchange j k l)) : ∀ st ∈ bitReversalStages bits l, P st := by
  intro st hst
  obtain ⟨i, hi, rfl⟩ := List.mem_map.1 hst
  have := List.mem_range.1 hi
  exact h _ _ (by omega)

theorem bitReversalStages_connects (bits : Nat) (l : LinkFmt) : chainConnects l (bitReversalStages bits l) l :=
  chainConnects_map_range (link := fun _ => l) fun _ _ => ⟨rfl, rfl⟩

theorem radix22Group_connects (bits ig : Nat) :
    chainConnects ⟨sampleFmt f ig, 2⟩ (radix22Group f tw variant skid bits ig) ⟨sampleFmt f (ig + 2), 2⟩ := by
  refine ⟨?_, chainOutLink_radix22Group ..⟩
  unfold radix22Group twiddleStages
  split
  · exact ⟨rfl, rfl, rfl, trivial⟩
  · cases variant <;> cases skid
    · exact ⟨rfl, rfl, rfl, rfl, trivial⟩
    · exact ⟨rfl, rfl, rfl, rfl, rfl, trivial⟩
    · exact ⟨rfl, rfl, rfl, rfl, trivial⟩
    · exact ⟨rfl, rfl, rfl, rfl, rfl, trivial⟩

theorem transformStages_connects (bits ig : Nat) :
    chainConnects ⟨sampleFmt f ig, 2⟩ (transformStages f tw variant skid bits ig) ⟨sampleFmt f (ig + bits), 2⟩ := by
  induction bits using Nat.twoStepInduction generalizing ig with
  | zero => exact ⟨trivial, rfl⟩
  | one => exact ⟨⟨rfl, trivial⟩, rfl⟩
  | more bits ih _ =>
    rw [transformStages_add_two, show ig + (bits + 2) = ig + 2 + bits by omega]
    exact (radix22Group_connects bits ig).append (ih (ig + 2))

end

/-- The stages of the whole transform lead from its input link on. -/
theorem fftStages_connects {p : Fmt} (hs : p.signed = true) (bits : Nat) (tw : Fmt) (bitrev : Bool) (variant : TwVariant)
    (skid : Bool) : chainConnects ⟨p, 2⟩ (fftStages bits p tw bitrev variant skid) ⟨sampleFmt p.f (p.i + bits), 2⟩ := by
  have h := transformStages_connects (f := p.f) (tw := tw) (variant := variant) (skid := skid) bits p.i
  rw [sampleFmt_self hs] at h
  refine h.append ?_
  cases bitrev
  · exact chainConnects_nil.2 rfl
  · exact bitReversalStages_connects _ _

theorem sampleFmt_legal (f : Nat) {ig : Nat} (h : 1 ≤ ig) : (sampleFmt f ig).legal = true :=
  Fmt.legal_iff.2 ⟨by dsimp only [sampleFmt]; omega, fun _ => h⟩

theorem fftStages_fresh (bits : Nat) (p tw : Fmt) (bitrev : Bool) (variant : TwVariant) (skid : Bool) :
    ∀ st ∈ fftStages bits p tw bitrev variant skid, st.cleared = st := by
  refine List.forall_mem_append.2 ⟨forall_mem_transformStages (fun _ _ _ _ => rfl) (fun _ _ _ _ => rfl) (fun _ _ _ _ => rfl)
    (fun _ _ _ _ => rfl) (fun _ _ => rfl) bits p.i le_rfl, ?_⟩
  cases bitrev
  · exact fun st hst => nomatch hst
  · exact forall_mem_bitReversalStages fun _ _ _ => rfl

theorem fftStages_shaped {p tw : Fmt} (hp : p.legal = true) (hs : p.signed = true) (htw : tw.signed = true) (hi : 2 ≤ tw.i)
    (bits : Nat) (bitrev : Bool) (variant : TwVariant) (skid : Bool) :
    ∀ st ∈ fftStages bits p tw bitrev variant skid, st.shaped := by
  have hpi := (Fmt.legal_iff.1 hp).2 hs
  have hl {ig : Nat} (h : p.i ≤ ig) : (sampleFmt p.f ig).legal = true := sampleFmt_legal p.f (hpi.trans h)
  have hlink {ig : Nat} (h : p.i ≤ ig) : (LinkFmt.mk (sampleFmt p.f ig) 2).legal = true :=
    LinkFmt.legal_of_signed (hl h) rfl (.inr rfl)
  refine List.forall_mem_append.2 ⟨forall_mem_transformStages (fun _ _ h h' => ⟨h, hl h', rfl⟩) (fun _ _ h h' => ⟨h, hl h', rfl⟩)
    (fun _ _ h h' => ⟨h, hl h', rfl, htw, hi, rfl⟩) (fun _ _ h h' => ⟨h, hl h', rfl, htw, hi, rfl⟩)
    (fun _ h => hlink h) bits p.i le_rfl, ?_⟩
  cases bitrev
  · exact fun st hst => nomatch hst
  · exact forall_mem_bitReversalStages fun _ _ h => ⟨h, hlink (Nat.le_add_right _ _)⟩

/-! ### What each operation leaves -/

/-- Two checked operands, and what a legal operation delivers of them. -/
theorem leaves_of_two {α β : Type} {s t : State} {ca : Build α} {cb : Build β} {op : α → β → Result}
    (h : deliver s (ca.bind fun a => cb.bind fun b => .ok (op a b)) = .next t)
    (hop : ∀ a b, ca = .ok a → cb = .ok b → (op a b).Inv) : Leaves s t :=
  .of_deliver h fun r hr => by
    obtain ⟨a, ha, hr⟩ := Build.bind_eq_ok.1 hr
    obtain ⟨b, hb, hr⟩ := Build.bind_eq_ok.1 hr
    cases hr
    exact hop a b ha hb

/-- A checked link, and the one stage built on it. -/
theorem leaves_of_link {s t : State} {p : FormatParam} {n : Int} {g : LinkFmt → Stage}
    (h : construct s (fun _ => (checkLink p n).bind fun l => .ok (g l).unit) = .next t)
    (hfresh : ∀ l, (g l).cleared = g l) (hs : ∀ l : LinkFmt, l.legal = true → (g l).shaped) : Leaves s t :=
  .of_construct h fun _ u hu => by
    obtain ⟨l, hl, hu⟩ := Build.bind_eq_ok.1 hu
    cases hu
    exact Stage.unit_built (hfresh l) fun _ => hs l (checkLink_legal hl)

theorem checkFftTwiddle_legal {bits : Nat} {q : FormatParam} {tw : Fmt} (h : checkFftTwiddle bits q = .ok tw) :
    tw.signed = true ∧ 2 ≤ tw.i := by
  unfold checkFftTwiddle at h
  split at h
  · cases h
    exact ⟨rfl, le_rfl⟩
  · obtain ⟨hs, hi, -⟩ := checkTwiddleFormat_legal h
    exact ⟨hs, hi⟩

/-- A twiddle stage of either variant passes the same checks. -/
theorem checkTwiddleStage_legal {n : Int} {fmt twFmt : FormatParam} {fed : Option LinkFmt} {r : Nat × Fmt × Fmt}
    (h : checkTwiddleStage n fmt twFmt fed = .ok r) : 2 ≤ r.1 ∧ r.2.1.legal = true ∧ r.2.1.signed = true ∧
      r.2.2.signed = true ∧ 2 ≤ r.2.2.i := by
  obtain ⟨log, hlog, h⟩ := Build.bind_eq_ok.1 h
  obtain ⟨p, hp, h⟩ := Build.bind_eq_ok.1 h
  obtain ⟨_, -, h⟩ := Build.bind_eq_ok.1 h
  obtain ⟨tw, htw, h⟩ := Build.bind_eq_ok.1 h
  cases h
  obtain ⟨hpl, hps, -⟩ := checkPayloadFormat_legal hp
  obtain ⟨hts, hti, -⟩ := checkTwiddleFormat_legal htw
  exact ⟨le_log_of_checkSize (k := 2) hlog, hpl, hps, hts, hti⟩

/-- What a fixed-point or complex row leaves. -/
theorem exec_leaves_of_op {i : Instr} {s t : State} (hsel : selector i < 0x20) (h : exec i s = .next t) : Leaves s t := by
  cases i with
  | fixedPointConst fmt raw =>
    refine .of_deliver h fun r hr => ?_
    obtain ⟨v, hv, hr⟩ := Build.bind_eq_ok.1 hr
    cases hr
    exact checkValue_legal hv
  | add a b => exact leaves_of_two h fun _ _ ha hb => Fx.add_legal (checkValue_legal ha) (checkValue_legal hb)
  | sub a b => exact leaves_of_two h fun _ _ ha hb => Fx.sub_legal (checkValue_legal ha) (checkValue_legal hb)
  | mul a b => exact leaves_of_two h fun _ _ ha hb => Fx.mul_legal (checkValue_legal ha) (checkValue_legal hb)
  | reshape v p rounding =>
    refine .of_deliver h fun r hr => ?_
    obtain ⟨v, -, hr⟩ := Build.bind_eq_ok.1 hr
    obtain ⟨p, hp, hr⟩ := Build.bind_eq_ok.1 hr
    obtain ⟨_, -, hr⟩ := Build.bind_eq_ok.1 hr
    cases hr
    exact Fx.reshape_legal v (checkFormat_legal hp).1
  | rshift v n =>
    exact leaves_of_two h fun _ n hv _ => Fx.rshift_legal (checkValue_legal hv) n
  | neg v =>
    refine .of_deliver h fun r hr => ?_
    obtain ⟨v, hv, hr⟩ := Build.bind_eq_ok.1 hr
    obtain ⟨_, -, hr⟩ := Build.bind_eq_ok.1 hr
    cases hr
    exact Fx.neg_legal (checkValue_legal hv)
  | complex re im =>
    refine .of_deliver h fun r hr => ?_
    obtain ⟨a, ha, hr⟩ := Build.bind_eq_ok.1 hr
    obtain ⟨b, hb, hr⟩ := Build.bind_eq_ok.1 hr
    split at hr
    next heq =>
      cases hr
      exact Cx.ofLanes_legal (checkValue_legal ha) (checkValue_legal hb) heq.symm
    next => cases hr
  | cAdd x y => exact leaves_of_two h fun _ _ hx hy => Cx.add_legal (checkComplex_legal hx) (checkComplex_legal hy)
  | cSub x y => exact leaves_of_two h fun _ _ hx hy => Cx.sub_legal (checkComplex_legal hx) (checkComplex_legal hy)
  | cMul x y => exact leaves_of_two h fun _ _ hx hy => Cx.mul_legal (checkComplex_legal hx) (checkComplex_legal hy)
  | cMul3 x y => exact leaves_of_two h fun _ _ hx hy => Cx.mul3_legal (checkComplex_legal hx) (checkComplex_legal hy)
  | cScale x k => exact leaves_of_two h fun _ _ hx hk => Cx.scale_legal (checkComplex_legal hx) (checkValue_legal hk)
  | cRshift x n =>
    exact leaves_of_two h fun _ n hx _ => Cx.rshift_legal (checkComplex_legal hx) n
  | cReshape x p rounding =>
    refine .of_deliver h fun r hr => ?_
    obtain ⟨x, -, hr⟩ := Build.bind_eq_ok.1 hr
    obtain ⟨p, hp, hr⟩ := Build.bind_eq_ok.1 hr
    obtain ⟨_, -, hr⟩ := Build.bind_eq_ok.1 hr
    cases hr
    exact Cx.reshape_legal x (checkFormat_legal hp).1
  | cMulnegj x =>
    refine .of_deliver h fun r hr => ?_
    obtain ⟨x, hx, hr⟩ := Build.bind_eq_ok.1 hr
    obtain ⟨_, -, hr⟩ := Build.bind_eq_ok.1 hr
    cases hr
    exact Cx.mulnegj_legal (checkComplex_legal hx)
  | _ => simp [selector] at hsel

/-- What a `STAGE`, a `COMP` or a `BUILD` row leaves. -/
theorem exec_leaves_of_unit {i : Instr} {s t : State} (hsel : 0x20 ≤ selector i) (h : exec i s = .next t) : Leaves s t := by
  cases i with
  | skidBuffer fmt lanes =>
    change execSkidBuffer _ _ s = _ at h
    exact leaves_of_link h (fun _ => rfl) fun _ hl => hl
  | delay depth entry impl =>
    change execDelay _ _ _ s = _ at h
    obtain ⟨-, d, hd, rfl⟩ := constructDelay_eq_next.1 h
    obtain ⟨n, -, hd⟩ := Build.bind_eq_ok.1 hd
    obtain ⟨l, hl, hd⟩ := Build.bind_eq_ok.1 hd
    obtain ⟨_, -, hd⟩ := Build.bind_eq_ok.1 hd
    cases hd
    exact .delay (DelayUnit.fresh_inv (checkLink_legal hl) n)
  | streamDelay depth fmt lanes impl =>
    change execStreamDelay _ _ _ _ s = _ at h
    refine .of_construct h fun _ u hu => ?_
    obtain ⟨n, -, hu⟩ := Build.bind_eq_ok.1 hu
    obtain ⟨l, hl, hu⟩ := Build.bind_eq_ok.1 hu
    obtain ⟨_, -, hu⟩ := Build.bind_eq_ok.1 hu
    cases hu
    exact Stage.unit_built rfl fun _ => checkLink_legal hl
  | pipeReg g =>
    change execPipeReg _ s = _ at h
    refine .of_construct h fun _ u hu => ?_
    obtain ⟨g, hg, hu⟩ := Build.bind_eq_ok.1 hu
    cases hu
    exact Stage.unit_built rfl fun _ => checkPipeFn_legal hg
  | integrator wIn w lanes =>
    change execIntegrator _ _ _ s = _ at h
    refine .of_construct h fun _ u hu => ?_
    obtain ⟨a, ha, hu⟩ := Build.bind_eq_ok.1 hu
    obtain ⟨b, hb, hu⟩ := Build.bind_eq_ok.1 hu
    obtain ⟨n, hn, hu⟩ := Build.bind_eq_ok.1 hu
    cases hu
    exact Stage.unit_built rfl fun hfed => cicLinks_legal (one_le_of_checkAtLeast ha) (checkLanes_eq_ok.1 hn).1 hfed
      (one_le_of_checkAtLeast hb)
  | comb wIn m wOut lanes =>
    change execComb _ _ _ _ s = _ at h
    refine .of_construct h fun _ u hu => ?_
    obtain ⟨a, ha, hu⟩ := Build.bind_eq_ok.1 hu
    obtain ⟨m, hm, hu⟩ := Build.bind_eq_ok.1 hu
    obtain ⟨b, hb, hu⟩ := Build.bind_eq_ok.1 hu
    obtain ⟨n, hn, hu⟩ := Build.bind_eq_ok.1 hu
    cases hu
    refine Stage.unit_built rfl fun hfed => ?_
    obtain ⟨hin, hout, hlanes⟩ := cicLinks_legal (one_le_of_checkAtLeast ha) (checkLanes_eq_ok.1 hn).1 hfed
      (one_le_of_checkAtLeast hb)
    exact ⟨hin, hout, hlanes, one_le_of_checkAtLeast hm⟩
  | upsampler r w lanes =>
    change execUpsampler _ _ _ s = _ at h
    refine .of_construct h fun _ u hu => ?_
    obtain ⟨r, hr, hu⟩ := Build.bind_eq_ok.1 hu
    obtain ⟨a, ha, hu⟩ := Build.bind_eq_ok.1 hu
    obtain ⟨n, hn, hu⟩ := Build.bind_eq_ok.1 hu
    cases hu
    exact Stage.unit_built rfl fun hfed => ⟨cicInLink_legal hfed (one_le_of_checkAtLeast ha) (checkLanes_eq_ok.1 hn).1,
      one_le_of_checkAtLeast hr⟩
  | downsampler r w lanes =>
    change execDownsampler _ _ _ s = _ at h
    refine .of_construct h fun _ u hu => ?_
    obtain ⟨r, hr, hu⟩ := Build.bind_eq_ok.1 hu
    obtain ⟨a, ha, hu⟩ := Build.bind_eq_ok.1 hu
    obtain ⟨n, hn, hu⟩ := Build.bind_eq_ok.1 hu
    cases hu
    exact Stage.unit_built rfl fun hfed => ⟨cicInLink_legal hfed (one_le_of_checkAtLeast ha) (checkLanes_eq_ok.1 hn).1,
      one_le_of_checkAtLeast hr⟩
  | requant k wIn wOut lanes =>
    change execRequant _ _ _ _ s = _ at h
    refine .of_construct h fun _ u hu => ?_
    obtain ⟨k, -, hu⟩ := Build.bind_eq_ok.1 hu
    obtain ⟨a, ha, hu⟩ := Build.bind_eq_ok.1 hu
    obtain ⟨b, hb, hu⟩ := Build.bind_eq_ok.1 hu
    obtain ⟨n, hn, hu⟩ := Build.bind_eq_ok.1 hu
    cases hu
    exact Stage.unit_built rfl fun hfed => cicLinks_legal (one_le_of_checkAtLeast ha) (checkLanes_eq_ok.1 hn).1 hfed
      (one_le_of_checkAtLeast hb)
  | cicGrowth n r m =>
    refine .of_deliver h fun r hr => ?_
    obtain ⟨n, -, hr⟩ := Build.bind_eq_ok.1 hr
    obtain ⟨r, -, hr⟩ := Build.bind_eq_ok.1 hr
    obtain ⟨m, -, hr⟩ := Build.bind_eq_ok.1 hr
    cases hr
    trivial
  | cicTruncation n r m wIn widthOut =>
    refine .of_deliver h fun r hr => ?_
    obtain ⟨n, -, hr⟩ := Build.bind_eq_ok.1 hr
    obtain ⟨r, -, hr⟩ := Build.bind_eq_ok.1 hr
    obtain ⟨m, -, hr⟩ := Build.bind_eq_ok.1 hr
    obtain ⟨w, -, hr⟩ := Build.bind_eq_ok.1 hr
    obtain ⟨o, -, hr⟩ := Build.bind_eq_ok.1 hr
    cases hr
    trivial
  | cicUpsamplingFilter n r m fmtIn lanes widthOut outFmt =>
    change execCicUpsamplingFilter _ _ _ _ _ _ _ s = _ at h
    refine .of_construct h fun _ u hu => buildFilter_built hu (fun ho => ⟨_, upsamplingStages_connects fun o h => (ho o h).2⟩)
      upsamplingStages_fresh fun hr hm hw hl ho => upsamplingStages_shaped hr hm hw hl fun o h => (ho o h).1
  | cicDownsamplingFilter n r m fmtIn lanes widthOut outFmt =>
    change execCicDownsamplingFilter _ _ _ _ _ _ _ s = _ at h
    exact .of_construct h fun _ u hu => buildFilter_built hu (fun _ => ⟨_, downsamplingStages_connects⟩)
      downsamplingStages_fresh downsamplingStages_shaped
  | sdfRadix2Stage n fmtIn =>
    change execSdfRadix2Stage _ _ s = _ at h
    refine .of_construct h fun _ u hu => ?_
    obtain ⟨log, hlog, hu⟩ := Build.bind_eq_ok.1 hu
    obtain ⟨p, hp, hu⟩ := Build.bind_eq_ok.1 hu
    obtain ⟨_, -, hu⟩ := Build.bind_eq_ok.1 hu
    cases hu
    obtain ⟨hpl, hps, -⟩ := checkPayloadFormat_legal hp
    exact Stage.unit_built rfl fun _ => ⟨le_log_of_checkSize (k := 1) hlog, hpl, hps⟩
  | r22TwiddleStage n fmt =>
    change execR22TwiddleStage _ _ s = _ at h
    refine .of_construct h fun _ u hu => ?_
    obtain ⟨log, hlog, hu⟩ := Build.bind_eq_ok.1 hu
    obtain ⟨p, hp, hu⟩ := Build.bind_eq_ok.1 hu
    obtain ⟨_, -, hu⟩ := Build.bind_eq_ok.1 hu
    cases hu
    obtain ⟨hpl, hps, -⟩ := checkPayloadFormat_legal hp
    exact Stage.unit_built rfl fun _ => ⟨le_log_of_checkSize (k := 2) hlog, hpl, hps⟩
  | twiddleStageDirect n fmt twFmt =>
    change execTwiddleStageDirect _ _ _ s = _ at h
    refine .of_construct h fun _ u hu => ?_
    obtain ⟨r, hr, hu⟩ := Build.bind_eq_ok.1 hu
    cases hu
    obtain ⟨hlog, hpl, hps, hts, hti⟩ := checkTwiddleStage_legal hr
    exact Stage.unit_built rfl fun _ => ⟨hlog, hpl, hps, hts, hti, rfl⟩
  | twiddleStageThreeMult n fmt twFmt =>
    change execTwiddleStageThreeMult _ _ _ s = _ at h
    refine .of_construct h fun _ u hu => ?_
    obtain ⟨r, hr, hu⟩ := Build.bind_eq_ok.1 hu
    cases hu
    obtain ⟨hlog, hpl, hps, hts, hti⟩ := checkTwiddleStage_legal hr
    exact Stage.unit_built rfl fun _ => ⟨hlog, hpl, hps, hts, hti, rfl⟩
  | twiddleTable n twFmt =>
    refine .of_deliver h fun r hr => ?_
    obtain ⟨log, -, hr⟩ := Build.bind_eq_ok.1 hr
    obtain ⟨tw, htw, hr⟩ := Build.bind_eq_ok.1 hr
    cases hr
    obtain ⟨hs, hi, -⟩ := checkTwiddleFormat_legal htw
    refine List.forall_mem_map.2 fun t ht => Cx.legal_iff.2 ⟨Fmt.legal_of_twiddle hi, ?_⟩
    exact holds_of_mem_twiddleList hs hi ht
  | serialBitExchange j k fmt lanes =>
    change execSerialBitExchange _ _ _ _ s = _ at h
    refine .of_construct h fun _ u hu => ?_
    obtain ⟨jk, hjk, hu⟩ := Build.bind_eq_ok.1 hu
    obtain ⟨l, hl, hu⟩ := Build.bind_eq_ok.1 hu
    cases hu
    unfold checkPositions at hjk
    split at hjk <;> cases hjk
    exact Stage.unit_built rfl fun _ => ⟨by dsimp only; omega, checkLink_legal hl⟩
  | serialBitReversal n fmt lanes =>
    change execSerialBitReversal _ _ _ s = _ at h
    refine .of_construct h fun _ u hu => ?_
    obtain ⟨bits, -, hu⟩ := Build.bind_eq_ok.1 hu
    obtain ⟨l, hl, hu⟩ := Build.bind_eq_ok.1 hu
    cases hu
    have hll := checkLink_legal hl
    exact ⟨forall_mem_bitReversalStages fun _ _ _ => rfl, fun _ =>
      ⟨hll, (bitReversalStages_connects bits l).1, forall_mem_bitReversalStages fun _ _ hjk => ⟨hjk, hll⟩⟩⟩
  | serialFFT n fmtIn bitrev twFmt variant skid =>
    change execSerialFft _ _ _ _ _ _ s = _ at h
    refine .of_construct h fun _ u hu => ?_
    obtain ⟨bits, -, hu⟩ := Build.bind_eq_ok.1 hu
    obtain ⟨p, hp, hu⟩ := Build.bind_eq_ok.1 hu
    obtain ⟨_, -, hu⟩ := Build.bind_eq_ok.1 hu
    obtain ⟨tw, htw, hu⟩ := Build.bind_eq_ok.1 hu
    cases hu
    obtain ⟨hpl, hps, -⟩ := checkPayloadFormat_legal hp
    obtain ⟨hts, hti⟩ := checkFftTwiddle_legal htw
    exact ⟨fftStages_fresh bits p tw bitrev variant skid, fun _ => ⟨LinkFmt.legal_of_signed hpl hps (.inr rfl), (fftStages_connects hps ..).1,
      fftStages_shaped hpl hps hts hti bits bitrev variant skid⟩⟩
  | _ => simp [selector] at hsel

theorem exec_leaves {i : Instr} {s t : State} (h : exec i s = .next t) : Leaves s t :=
  (Nat.lt_or_ge (selector i) 0x20).elim (exec_leaves_of_op · h) (exec_leaves_of_unit · h)

/-! ### The statements -/

/-- Settles O11: a unit is built at reset, and joining moves no register. -/
theorem constructionGivesResetState : Obligations.ConstructionGivesResetState := by
  intro i s t h hfresh p hp
  cases exec_leaves h with
  | result => exact hfresh p hp
  | delay => exact hfresh p hp
  | unit hu hj =>
    cases hp
    obtain ⟨-, rfl⟩ | ⟨q, hq, -, rfl⟩ := join_eq_ok.1 hj
    · exact hu.fresh
    · exact List.forall_mem_append.2 ⟨hfresh q hq, hu.fresh⟩

/-- The link behind a good chain is a legal one. -/
theorem chainOutLink_legal {l : LinkFmt} (hl : l.legal = true) {sts : List Stage} (hs : ∀ st ∈ sts, st.shaped) :
    (chainOutLink l sts).legal = true := by
  induction sts generalizing l with
  | nil => exact hl
  | cons st rest ih =>
    obtain ⟨hst, hs⟩ := List.forall_mem_cons.1 hs
    exact ih hst.outLink_legal hs

theorem State.Inv.openLink_legal {s : State} (h : s.Inv) : ∀ l, s.openLink = some l → l.legal = true := by
  intro l hl
  obtain ⟨hp, -⟩ := h
  obtain ⟨p, hp', rfl⟩ := Option.map_eq_some_iff.1 hl
  obtain ⟨hlink, -, hg⟩ := hp p hp'
  exact chainOutLink_legal hlink fun st hst => (hg st hst).1

/-- A unit fed by a legal link, as it is built, meets the invariant. -/
theorem Pipeline.Built.inv {fed : Option LinkFmt} {u : Pipeline} (h : u.Built fed) (hfed : ∀ l, fed = some l → l.legal = true) :
    u.Inv := by
  obtain ⟨hl, hj, hs⟩ := h.legal hfed
  refine ⟨hl, hj, fun st hst => ⟨hs st hst, ?_⟩⟩
  rw [← h.fresh st hst]
  exact Stage.registered_cleared (hs st hst)

/-- What an operation leaves behind keeps the invariant. -/
theorem Leaves.inv {s t : State} (h : Leaves s t) (hs : s.Inv) : t.Inv := by
  have hfed := hs.openLink_legal
  obtain ⟨hp, hd, ht, hr⟩ := hs
  cases h with
  | result hres => exact ⟨hp, hd, ht, hres⟩
  | delay hdel => exact ⟨hp, List.forall_mem_append.2 ⟨hd, List.forall_mem_singleton.2 hdel⟩, ht, hr⟩
  | @unit u p hu hj =>
    refine ⟨fun p' hp' => ?_, hd, ht, hr⟩
    cases hp'
    obtain ⟨hul, huj, hug⟩ := hu.inv hfed
    obtain ⟨-, rfl⟩ | ⟨q, hq, hlink, rfl⟩ := join_eq_ok.1 hj
    · exact ⟨hul, huj, hug⟩
    · obtain ⟨hql, hqj, hqg⟩ := hp q hq
      have hlink : chainOutLink q.inLink q.stages = u.inLink := hlink
      exact ⟨hql, chainJoined_append.2 ⟨hqj, hlink ▸ huj⟩, List.forall_mem_append.2 ⟨hqg, hug⟩⟩

/-- Settles O9: a step is a tick, which moves registers of good stages, or an operation, which leaves behind what is
good. -/
theorem stepKeepsInvariant : Obligations.StepKeepsInvariant := by
  intro s t hs h
  rcases step_cases s with ⟨-, hstep⟩ | ⟨i, rest, -, -, hstep⟩ | ⟨e, -, -, hstep⟩
  · cases hstep.symm.trans h
    exact hs.tick
  · exact (exec_leaves (hstep.symm.trans h)).inv hs
  · cases hstep.symm.trans h

end Sys2Proof.Machine
end

section
/-! PROOFS. The rest of `40_fixed_point.md` and `41_complex.md`: ranges as a matter of width and sign, the rows of
R79's table, the laws of `reshape`, the three-multiplier product, and the statements. -/

namespace Sys2Proof.Machine

/-! ### The wrap (R13) -/

theorem Fmt.pow2_width_dvd_iff {p : Fmt} {x y : Int} : pow2 p.width ∣ y - x ↔ y % pow2 p.width = x % pow2 p.width :=
  (Int.emod_eq_emod_iff_emod_sub_eq_zero.trans Int.dvd_iff_emod_eq_zero.symm).symm

/-- Settles O12: the formula is the definition's; two elements of the range that agree modulo `2^W` are one. -/
theorem wrapIsTheRepresentative : Obligations.WrapIsTheRepresentative := by
  intro p x hp
  rw [← Fmt.width, ← pow2_eq_two_pow, ← pow2_eq_two_pow]
  refine ⟨rfl, fun y => ⟨fun ⟨hy, hdvd⟩ => ?_, ?_⟩⟩
  · rw [← Fmt.wrap_of_holds hp hy]
    exact Fmt.wrap_congr p (Fmt.pow2_width_dvd_iff.1 hdvd)
  · rintro rfl
    exact ⟨Fmt.wrap_holds hp x, Fmt.pow2_width_dvd_iff.2 (Fmt.wrap_emod p x)⟩

/-- Settles O13: both rows deliver their checked operands. -/
theorem constantsAreDelivered : Obligations.ConstantsAreDelivered := by
  refine fun s => ⟨fun v hv => ?_, fun x hx => ?_⟩
  · change execFixedPointConst v.param.fmt v.param.raw s = _
    rw [execFixedPointConst, checkValue_param hv]
    rfl
  · change execComplex x.reFx.param x.imFx.param s = _
    rw [execComplex, checkValue_param (Cx.reFx_legal hx), checkValue_param (Cx.imFx_legal hx)]
    simp [Cx.ofLanes]

/-! ### Ranges by width and sign -/

section
variable {p q : Fmt} {x y : Int} (hs : q.signed = p.signed)
include hs

/-- A range grows with its width. -/
theorem Fmt.holds_of_width_le (hw : p.width ≤ q.width) (hx : p.holds x = true) : q.holds x = true := by
  have hmono {m n : Nat} (h : m ≤ n) : pow2 m ≤ pow2 n := Int.le_of_dvd (pow2_pos n) (pow2_dvd_pow2 h)
  have hfull := hmono hw
  have hhalf := hmono (Nat.sub_le_sub_right hw 1)
  cases hp : p.signed
  · obtain ⟨hlo, hhi⟩ := (Fmt.holds_iff_of_unsigned hp).1 hx
    exact (Fmt.holds_iff_of_unsigned (hs.trans hp)).2 ⟨hlo, by omega⟩
  · obtain ⟨hlo, hhi⟩ := (Fmt.holds_iff_of_signed hp).1 hx
    exact (Fmt.holds_iff_of_signed (hs.trans hp)).2 ⟨by omega, by omega⟩

/-- `n` zero bits appended take `n` bits of width. -/
theorem Fmt.holds_shl {n : Nat} (hw : q.width = p.width + n) (h1 : p.signed = true → 1 ≤ p.width) (hx : p.holds x = true) :
    q.holds (shl x n) = true := by
  have hpos := pow2_pos n
  cases hp : p.signed
  · obtain ⟨hlo, hhi⟩ := (Fmt.holds_iff_of_unsigned hp).1 hx
    rw [Fmt.holds_iff_of_unsigned (hs.trans hp), hw, pow2_add, shl]
    exact ⟨mul_nonneg hlo hpos.le, mul_lt_mul_of_pos_right hhi hpos⟩
  · obtain ⟨hlo, hhi⟩ := (Fmt.holds_iff_of_signed hp).1 hx
    have h1 := h1 hp
    rw [Fmt.holds_iff_of_signed (hs.trans hp), hw, show p.width + n - 1 = p.width - 1 + n by omega, pow2_add, shl, ← neg_mul]
    exact ⟨mul_le_mul_of_nonneg_right hlo hpos.le, mul_lt_mul_of_pos_right hhi hpos⟩

/-- `n` low bits dropped give `n` bits of width back. -/
theorem Fmt.holds_ashr {n : Nat} (hw : p.width = q.width + n) (h1 : q.signed = true → 1 ≤ q.width) (hx : p.holds x = true) :
    q.holds (ashr x n) = true := by
  have hpos := pow2_pos n
  cases hp : p.signed
  · obtain ⟨hlo, hhi⟩ := (Fmt.holds_iff_of_unsigned hp).1 hx
    rw [hw, pow2_add] at hhi
    exact (Fmt.holds_iff_of_unsigned (hs.trans hp)).2 ⟨Int.ediv_nonneg hlo hpos.le, Int.ediv_lt_of_lt_mul hpos hhi⟩
  · obtain ⟨hlo, hhi⟩ := (Fmt.holds_iff_of_signed hp).1 hx
    have h1 := h1 (hs.trans hp)
    rw [hw, show q.width + n - 1 = q.width - 1 + n by omega, pow2_add] at hlo hhi
    rw [← neg_mul] at hlo
    exact (Fmt.holds_iff_of_signed (hs.trans hp)).2 ⟨Int.le_ediv_of_mul_le hpos hlo, Int.ediv_lt_of_lt_mul hpos hhi⟩

end

/-- An unsigned value is a signed one of a bit more. -/
theorem Fmt.holds_of_unsigned_lt {p q : Fmt} (hp : p.signed = false) (hq : q.signed = true) (hw : p.width < q.width) {x : Int}
    (hx : p.holds x = true) : q.holds x = true := by
  obtain ⟨hlo, hhi⟩ := (Fmt.holds_iff_of_unsigned hp).1 hx
  have hle : pow2 p.width ≤ pow2 (q.width - 1) := Int.le_of_dvd (pow2_pos _) (pow2_dvd_pow2 (by omega))
  have hpos := pow2_pos (q.width - 1)
  exact (Fmt.holds_iff_of_signed hq).2 ⟨by omega, by omega⟩

/-! ### Alignment (R60) -/

/-- The format that both operands of a sum are brought to, one integer bit below the result's (R73). -/
def Fmt.common (p q : Fmt) : Fmt := ⟨max p.i q.i, max p.f q.f, p.signed || q.signed⟩

theorem Fmt.sum_eq_grow_common (p q : Fmt) : Fmt.sum p q = (Fmt.common p q).grow := rfl

theorem Fmt.common_legal {p q : Fmt} (hp : p.legal = true) (hq : q.legal = true) : (Fmt.common p q).legal = true := by
  rw [Fmt.legal_iff] at *
  simp only [Fmt.common, Bool.or_eq_true]
  exact ⟨by omega, fun h => by rcases h with h | h <;> [have := hp.2 h; have := hq.2 h] <;> omega⟩

/-- An aligned value is a value of every format with those fraction bits, as many integer bits or more, and its
sign. -/
theorem Fx.aligned_holds {a : Fx} (ha : a.legal = true) {q : Fmt} (hs : q.signed = a.fmt.signed) (hi : a.fmt.i ≤ q.i)
    (hf : a.fmt.f ≤ q.f) : q.holds (a.aligned q.f) = true := by
  obtain ⟨hl, hr⟩ := Fx.legal_iff.1 ha
  have hshl : (Fmt.mk a.fmt.i q.f a.fmt.signed).holds (shl a.raw (q.f - a.fmt.f)) = true :=
    Fmt.holds_shl (p := a.fmt) (q := ⟨a.fmt.i, q.f, a.fmt.signed⟩) rfl (by simp only [Fmt.width]; omega) (fun _ => Fmt.one_le_width hl) hr
  exact Fmt.holds_of_width_le (p := ⟨a.fmt.i, q.f, a.fmt.signed⟩) hs (by simp only [Fmt.width]; omega) hshl

/-- An aligned unsigned value beside a signed operand with more integer bits. -/
theorem Fx.aligned_holds_of_unsigned {a : Fx} (ha : a.legal = true) {q : Fmt} (hu : a.fmt.signed = false)
    (hq : q.signed = true) (hi : a.fmt.i < q.i) (hf : a.fmt.f ≤ q.f) : q.holds (a.aligned q.f) = true :=
  Fmt.holds_of_unsigned_lt (p := ⟨a.fmt.i, q.f, false⟩) rfl hq (by simp only [Fmt.width]; omega)
    (Fx.aligned_holds ha (q := ⟨a.fmt.i, q.f, false⟩) hu.symm le_rfl hf)

/-- For unsigned operands of one format the grown wrap leaves the sum as it is (R79). -/
theorem Fmt.wrap_grow_add_of_unsigned {p : Fmt} (h : p.legal = true) (hs : p.signed = false) {x y : Int}
    (hx : p.holds x = true) (hy : p.holds y = true) : p.grow.wrap (x + y) = x + y := by
  obtain ⟨hx0, hx1⟩ := (Fmt.holds_iff_of_unsigned hs).1 hx
  obtain ⟨hy0, hy1⟩ := (Fmt.holds_iff_of_unsigned hs).1 hy
  have hwidth : p.grow.width = p.width + 1 := by
    simp only [Fmt.grow, Fmt.width]
    omega
  refine Fmt.wrap_of_holds (Fmt.grow_legal h) ((Fmt.holds_iff_of_unsigned (p := p.grow) hs).2 ⟨by omega, ?_⟩)
  rw [hwidth, pow2_succ]
  omega

/-- An unsigned difference that is negative is stored plus `2^W` (R79). -/
theorem Fmt.wrap_grow_sub_of_unsigned {p : Fmt} (hs : p.signed = false) {x y : Int}
    (hx : p.holds x = true) (hy : p.holds y = true) :
    p.grow.wrap (x - y) = if y ≤ x then x - y else x - y + pow2 p.grow.width := by
  obtain ⟨hx0, hx1⟩ := (Fmt.holds_iff_of_unsigned hs).1 hx
  obtain ⟨hy0, hy1⟩ := (Fmt.holds_iff_of_unsigned hs).1 hy
  have hwidth : p.grow.width = p.width + 1 := by
    simp only [Fmt.grow, Fmt.width]
    omega
  have hdouble := pow2_succ p.width
  have hwrap : p.grow.wrap (x - y) = (x - y) % pow2 p.grow.width := by simp [Fmt.wrap, Fmt.grow, hs, wrapU]
  rw [hwrap, hwidth]
  split
  · exact Int.emod_eq_of_lt (by omega) (by omega)
  · rw [← Int.add_emod_right, Int.emod_eq_of_lt (by omega) (by omega)]

/-! ### The table of R79 -/

section
variable {a b : Fx} (ha : a.legal = true) (hb : b.legal = true)

/-- Both aligned operands lie in the common format where they share its sign. -/
theorem Fx.add_raw (a b : Fx) : (a.add b).raw =
    (Fmt.common a.fmt b.fmt).grow.wrap (a.aligned (max a.fmt.f b.fmt.f) + b.aligned (max a.fmt.f b.fmt.f)) := rfl

theorem Fx.sub_raw (a b : Fx) : (a.sub b).raw =
    (Fmt.common a.fmt b.fmt).grow.wrap (a.aligned (max a.fmt.f b.fmt.f) - b.aligned (max a.fmt.f b.fmt.f)) := rfl

include ha hb

/-- Where the common format, a signed one, holds both aligned operands, the sum is exact. -/
theorem Fx.add_raw_of_holds (hs : (Fmt.common a.fmt b.fmt).signed = true)
    (hxa : (Fmt.common a.fmt b.fmt).holds (a.aligned (max a.fmt.f b.fmt.f)) = true)
    (hxb : (Fmt.common a.fmt b.fmt).holds (b.aligned (max a.fmt.f b.fmt.f)) = true) :
    (a.add b).raw = a.aligned (max a.fmt.f b.fmt.f) + b.aligned (max a.fmt.f b.fmt.f) :=
  Fmt.wrap_grow_add (Fmt.common_legal (Fx.legal_iff.1 ha).1 (Fx.legal_iff.1 hb).1) hs hxa hxb

/-- Operands of one sign both lie in the common format. -/
theorem Fx.aligned_holds_common (hs : a.fmt.signed = b.fmt.signed) :
    (Fmt.common a.fmt b.fmt).holds (a.aligned (max a.fmt.f b.fmt.f)) = true ∧
      (Fmt.common a.fmt b.fmt).holds (b.aligned (max a.fmt.f b.fmt.f)) = true :=
  ⟨Fx.aligned_holds ha (q := Fmt.common a.fmt b.fmt) (by simp [Fmt.common, hs]) (le_max_left ..) (le_max_left ..),
    Fx.aligned_holds hb (q := Fmt.common a.fmt b.fmt) (by simp [Fmt.common, hs]) (le_max_right ..) (le_max_right ..)⟩

theorem Fx.add_raw_of_same_sign (hs : a.fmt.signed = b.fmt.signed) :
    (a.add b).raw = a.aligned (max a.fmt.f b.fmt.f) + b.aligned (max a.fmt.f b.fmt.f) := by
  have hcommon := Fmt.common_legal (Fx.legal_iff.1 ha).1 (Fx.legal_iff.1 hb).1
  obtain ⟨hxa, hxb⟩ := Fx.aligned_holds_common ha hb hs
  rw [Fx.add_raw]
  cases hc : (Fmt.common a.fmt b.fmt).signed
  · exact Fmt.wrap_grow_add_of_unsigned hcommon hc hxa hxb
  · exact Fmt.wrap_grow_add hcommon hc hxa hxb

theorem Fx.add_raw_of_mixed_left (hsa : a.fmt.signed = true) (hsb : b.fmt.signed = false) (hi : b.fmt.i < a.fmt.i) :
    (a.add b).raw = a.aligned (max a.fmt.f b.fmt.f) + b.aligned (max a.fmt.f b.fmt.f) := by
  have hs : (Fmt.common a.fmt b.fmt).signed = true := by simp [Fmt.common, hsa]
  exact Fx.add_raw_of_holds ha hb hs
    (Fx.aligned_holds ha (q := Fmt.common a.fmt b.fmt) (hs.trans hsa.symm) (le_max_left ..) (le_max_left ..))
    (Fx.aligned_holds_of_unsigned hb (q := Fmt.common a.fmt b.fmt) hsb hs (lt_max_of_lt_left hi) (le_max_right ..))

theorem Fx.add_raw_of_mixed_right (hsa : a.fmt.signed = false) (hsb : b.fmt.signed = true) (hi : a.fmt.i < b.fmt.i) :
    (a.add b).raw = a.aligned (max a.fmt.f b.fmt.f) + b.aligned (max a.fmt.f b.fmt.f) := by
  have hs : (Fmt.common a.fmt b.fmt).signed = true := by simp [Fmt.common, hsb]
  exact Fx.add_raw_of_holds ha hb hs
    (Fx.aligned_holds_of_unsigned ha (q := Fmt.common a.fmt b.fmt) hsa hs (lt_max_of_lt_right hi) (le_max_left ..))
    (Fx.aligned_holds hb (q := Fmt.common a.fmt b.fmt) (hs.trans hsb.symm) (le_max_right ..) (le_max_right ..))

theorem Fx.sub_raw_of_signed (hsa : a.fmt.signed = true) (hsb : b.fmt.signed = true) :
    (a.sub b).raw = a.aligned (max a.fmt.f b.fmt.f) - b.aligned (max a.fmt.f b.fmt.f) := by
  obtain ⟨hxa, hxb⟩ := Fx.aligned_holds_common ha hb (hsa.trans hsb.symm)
  exact Fmt.wrap_grow_sub (Fmt.common_legal (Fx.legal_iff.1 ha).1 (Fx.legal_iff.1 hb).1) (by simp [Fmt.common, hsa]) hxa hxb

theorem Fx.sub_raw_of_unsigned (hsa : a.fmt.signed = false) (hsb : b.fmt.signed = false) :
    (a.sub b).raw = if b.aligned (max a.fmt.f b.fmt.f) ≤ a.aligned (max a.fmt.f b.fmt.f)
      then a.aligned (max a.fmt.f b.fmt.f) - b.aligned (max a.fmt.f b.fmt.f)
      else a.aligned (max a.fmt.f b.fmt.f) - b.aligned (max a.fmt.f b.fmt.f) + pow2 (Fmt.sum a.fmt b.fmt).width := by
  obtain ⟨hxa, hxb⟩ := Fx.aligned_holds_common ha hb (hsa.trans hsb.symm)
  exact Fmt.wrap_grow_sub_of_unsigned (by simp [Fmt.common, hsa, hsb]) hxa hxb

end

/-- Settles O18, row by row: where both aligned operands lie in the common format the grown bit takes their sum. -/
theorem whenSumsAndProductsAreExact : Obligations.WhenSumsAndProductsAreExact := by
  refine ⟨fun a b ha hb => ?_, by decide, by decide, by decide⟩
  simp only [← pow2_eq_two_pow]
  refine ⟨Fx.add_raw_of_same_sign ha hb, Fx.add_raw_of_mixed_left ha hb, Fx.add_raw_of_mixed_right ha hb,
    Fx.sub_raw_of_signed ha hb, Fx.sub_raw_of_unsigned ha hb, congrArg Fx.raw (Fx.mul_eq ha hb), ?_, ?_⟩
  · exact Fmt.pow2_width_dvd_iff.2 (Fmt.wrap_emod (Fmt.sum a.fmt b.fmt) _)
  · exact Fmt.pow2_width_dvd_iff.2 (Fmt.wrap_emod (Fmt.sum a.fmt b.fmt) _)

/-! ### The laws of `reshape` (R80) -/

theorem ashr_zero (x : Int) : ashr x 0 = x := by simp [ashr, pow2]

theorem ashr_mono {x y : Int} (h : x ≤ y) (k : Nat) : ashr x k ≤ ashr y k := Int.ediv_le_ediv (pow2_pos k) h

theorem ashr_ashr (x : Int) (a b : Nat) : ashr (ashr x a) b = ashr x (a + b) := by
  rw [ashr, ashr, ashr, pow2_add, Int.ediv_ediv_of_nonneg (pow2_pos a).le]

/-- A reshape sees the stored integer and its fraction bits. -/
theorem Fx.reshape_congr {v w : Fx} (hr : v.raw = w.raw) (hf : v.fmt.f = w.fmt.f) (q : Fmt) : v.reshape q = w.reshape q := by
  rw [Fx.reshape, Fx.reshape, hr, hf]

theorem Fx.reshape_of_le {v : Fx} {p : Fmt} (h : v.fmt.f ≤ p.f) : v.reshape p = ⟨p.wrap (v.aligned p.f), p⟩ := by
  rw [Fx.reshape, if_pos h]
  rfl

theorem Fx.reshape_of_ge {v : Fx} {p : Fmt} (h : p.f ≤ v.fmt.f) : v.reshape p = ⟨p.wrap (ashr v.raw (v.fmt.f - p.f)), p⟩ := by
  rw [Fx.reshape]
  split
  · rw [show v.fmt.f - p.f = 0 by omega, show p.f - v.fmt.f = 0 by omega, shl_zero, ashr_zero]
  · rfl

/-- Bits appended and dropped again leave the value modulo the bits that remain. -/
theorem Fmt.wrap_ashr_wrap_shl {p q : Fmt} {n : Nat} (h : q.width + n ≤ p.width) (x : Int) :
    q.wrap (ashr (p.wrap (shl x n)) n) = q.wrap x := by
  obtain ⟨k, hk⟩ : pow2 p.width ∣ p.wrap (shl x n) - shl x n := Fmt.pow2_width_dvd_iff.2 (Fmt.wrap_emod p _)
  obtain ⟨m, hm⟩ := Nat.exists_eq_add_of_le h
  have hwrap : p.wrap (shl x n) = (x + k * pow2 m * pow2 q.width) * pow2 n := by
    have hpow : pow2 p.width = pow2 q.width * pow2 n * pow2 m := by rw [hm, pow2_add, pow2_add]
    rw [hpow, shl] at hk
    rw [shl]
    linear_combination hk
  rw [hwrap, ashr, Int.mul_ediv_cancel _ (pow2_pos n).ne']
  exact Fmt.wrap_congr q (by rw [mul_comm, Int.add_mul_emod_self_left])

section
variable {v : Fx} {p : Fmt} (hv : v.legal = true) (hp : p.legal = true)
include hv hp

/-- Extending the fraction of a value that fits only appends zeros. -/
theorem Fx.reshape_raw_of_extend (hs : p.signed = v.fmt.signed) (hi : v.fmt.i ≤ p.i) (hf : v.fmt.f ≤ p.f) :
    (v.reshape p).raw = v.aligned p.f := by
  rw [Fx.reshape_of_le hf]
  exact Fmt.wrap_of_holds hp (Fx.aligned_holds hv hs hi hf)

/-- Cutting the fraction of a value that fits only drops bits. -/
theorem Fx.reshape_raw_of_truncate (hs : p.signed = v.fmt.signed) (hi : v.fmt.i ≤ p.i) (hf : p.f ≤ v.fmt.f) :
    (v.reshape p).raw = ashr v.raw (v.fmt.f - p.f) := by
  obtain ⟨hl, hr⟩ := Fx.legal_iff.1 hv
  rw [Fx.reshape_of_ge hf]
  refine Fmt.wrap_of_holds hp (Fmt.holds_of_width_le (p := ⟨v.fmt.i, p.f, v.fmt.signed⟩) hs ?_ ?_)
  · simp only [Fmt.width]
    omega
  · refine Fmt.holds_ashr (p := v.fmt) (q := ⟨v.fmt.i, p.f, v.fmt.signed⟩) rfl (by simp only [Fmt.width]; omega) (fun h => ?_) hr
    have := (Fmt.legal_iff.1 hl).2 h
    simp only [Fmt.width]
    omega

end

/-- What a shift to the right leaves, read by a format with as many bits less. -/
theorem Fmt.wrap_ashr_of_width {p q : Fmt} (hs : q.signed = p.signed) {n : Nat} (hw : p.width = q.width + n) (hq : q.legal = true)
    {x : Int} (hx : p.holds x = true) : q.wrap (ashr x n) = ashr x n :=
  Fmt.wrap_of_holds hq (Fmt.holds_ashr hs hw (fun _ => Fmt.one_le_width hq) hx)

/-- The dropped bits are a remainder. -/
theorem sub_ashr_div (x : Int) (d f : Nat) :
    0 ≤ (x : ℚ) / 2 ^ (f + d) - (ashr x d : ℚ) / 2 ^ f ∧ (x : ℚ) / 2 ^ (f + d) - (ashr x d : ℚ) / 2 ^ f < 1 / 2 ^ f := by
  have hx := Int.emod_add_mul_ediv x (2 ^ d)
  have hlo : 0 ≤ x % 2 ^ d := Int.emod_nonneg x (by positivity)
  have hhi : x % 2 ^ d < 2 ^ d := Int.emod_lt_of_pos x (by positivity)
  rw [← ashr_eq_div_two_pow] at hx
  have hdiff : (x : ℚ) / 2 ^ (f + d) - (ashr x d : ℚ) / 2 ^ f = (x % 2 ^ d : Int) / 2 ^ d / 2 ^ f := by
    have hx : (x : ℚ) = (x % 2 ^ d : Int) + 2 ^ d * (ashr x d : Int) := by exact_mod_cast hx.symm
    conv_lhs => rw [hx]
    rw [pow_add]
    field_simp
    ring
  have hlo : (0 : ℚ) ≤ (x % 2 ^ d : Int) := by exact_mod_cast hlo
  have hhi : ((x % 2 ^ d : Int) : ℚ) < 2 ^ d := by exact_mod_cast hhi
  rw [hdiff]
  refine ⟨by positivity, ?_⟩
  rw [div_lt_div_iff_of_pos_right (by positivity), div_lt_one (by positivity)]
  exact hhi

/-- Settles O19, law by law. -/
theorem reshapeLaws : Obligations.ReshapeLaws := by
  refine ⟨?back, ?extend, fun _ _ k h => ashr_mono h k, ?truncate, ashr_ashr, ?shift⟩
  case back =>
    intro v p hv hp hi hf
    obtain ⟨hl, hr⟩ := Fx.legal_iff.1 hv
    rw [Fx.reshape_of_le hf, Fx.reshape_of_ge hf]
    have hw : v.fmt.width + (p.f - v.fmt.f) ≤ p.width := by
      simp only [Fmt.width]
      omega
    rw [Fx.aligned, Fmt.wrap_ashr_wrap_shl hw, Fmt.wrap_of_holds hl hr]
  case extend =>
    intro v p hv hp hs hi hf
    obtain ⟨d, hd⟩ := Nat.exists_eq_add_of_le hf
    rw [Fx.reshape_raw_of_extend hv hp hs hi hf, Fx.aligned, shl_eq_mul_two_pow, hd, Nat.add_sub_cancel_left, pow_add]
    push_cast
    field_simp
  case truncate =>
    intro v p hv hp hs hi hf
    obtain ⟨d, hd⟩ := Nat.exists_eq_add_of_le hf.le
    rw [Fx.reshape_raw_of_truncate hv hp hs hi hf.le, hd, Nat.add_sub_cancel_left]
    exact sub_ashr_div v.raw d p.f
  case shift =>
    intro v n hv hi hf
    obtain ⟨hl, hr⟩ := Fx.legal_iff.1 hv
    have hlegal1 : (Fmt.mk (v.fmt.i - n) v.fmt.f v.fmt.signed).legal = true :=
      Fmt.legal_iff.2 ⟨by dsimp only; omega, fun _ => by dsimp only; omega⟩
    have hlegal2 : (Fmt.mk v.fmt.i (v.fmt.f - n) v.fmt.signed).legal = true :=
      Fmt.legal_iff.2 ⟨by dsimp only; omega, fun _ => by dsimp only; omega⟩
    rw [← ashr_eq_div_two_pow]
    constructor
    · rw [Fx.reshape_of_ge (v := v.rshift n) (p := ⟨v.fmt.i - n, v.fmt.f, v.fmt.signed⟩) le_rfl]
      simp only [Fx.rshift, Nat.sub_self, ashr_zero]
      exact Fmt.wrap_ashr_of_width (p := v.fmt) (q := ⟨v.fmt.i - n, v.fmt.f, v.fmt.signed⟩) rfl
        (by simp only [Fmt.width]; omega) hlegal1 hr
    · rw [Fx.reshape_of_ge (p := ⟨v.fmt.i, v.fmt.f - n, v.fmt.signed⟩) (Nat.sub_le _ _)]
      simp only [Nat.sub_sub_self hf]
      exact Fmt.wrap_ashr_of_width (p := v.fmt) (q := ⟨v.fmt.i, v.fmt.f - n, v.fmt.signed⟩) rfl
        (by simp only [Fmt.width]; omega) hlegal2 hr

/-! ### The three-multiplier product (R105) -/

section
variable {x t : Cx} (hx : x.legal = true) (ht : t.legal = true)

/-- The format that the three products share. -/
theorem Fmt.product_grow_comm (p q : Fmt) : p.product q.grow = (p.product q).grow ∧ q.product p.grow = (p.product q).grow := by
  simp only [Fmt.product, Fmt.grow, Fmt.mk.injEq]
  exact ⟨⟨by omega, trivial, trivial⟩, by omega, by omega, Bool.or_comm ..⟩

include hx ht

/-- The three products are exact, and share a format, so that the two sums align nothing. -/
theorem Cx.mul3_eq : x.mul3 t =
    ⟨(x.fmt.product t.fmt).grow.grow.wrap (x.im * t.fmt.grow.wrap (t.re - t.im) + t.re * x.fmt.grow.wrap (x.re - x.im)),
      (x.fmt.product t.fmt).grow.grow.wrap (x.im * t.fmt.grow.wrap (t.re - t.im) + t.im * x.fmt.grow.wrap (x.re + x.im)),
      (x.fmt.product t.fmt).grow.grow⟩ := by
  have hxre := Cx.reFx_legal hx
  have hxim := Cx.imFx_legal hx
  have htre := Cx.reFx_legal ht
  have htim := Cx.imFx_legal ht
  obtain ⟨hq1, hq2⟩ := Fmt.product_grow_comm x.fmt t.fmt
  have hu1 : t.reFx.sub t.imFx = ⟨t.fmt.grow.wrap (t.re - t.im), t.fmt.grow⟩ := Fx.sub_same_fmt ..
  have hu2 : x.reFx.sub x.imFx = ⟨x.fmt.grow.wrap (x.re - x.im), x.fmt.grow⟩ := Fx.sub_same_fmt ..
  have hu3 : x.reFx.add x.imFx = ⟨x.fmt.grow.wrap (x.re + x.im), x.fmt.grow⟩ := Fx.add_same_fmt ..
  rw [Cx.mul3, Fx.mul_eq hxim (Fx.sub_legal htre htim), Fx.mul_eq htre (Fx.sub_legal hxre hxim),
    Fx.mul_eq htim (Fx.add_legal hxre hxim), hu1, hu2, hu3]
  simp only [Cx.imFx_fmt, Cx.reFx_fmt, hq1, hq2, Fx.add_same_fmt, Cx.ofLanes, Cx.imFx_raw, Cx.reFx_raw]

theorem exec_cMul3_param (s : State) : exec (.cMul3 x.param t.param) s = .next (s.setResult (.complex (x.mul3 t))) := by
  change execCMul3 x.param t.param s = _
  simp [execCMul3, hx, ht]

/-- For signed operands the identity of the three multipliers holds on the stored integers. -/
theorem Cx.mul3_lanes (hsx : x.fmt.signed = true) (hst : t.fmt.signed = true) :
    (x.mul3 t).re = (x.mul t).re ∧ (x.mul3 t).im = (x.mul t).im := by
  obtain ⟨hfx, hxre, hxim⟩ := Cx.legal_iff.1 hx
  obtain ⟨hft, htre, htim⟩ := Cx.legal_iff.1 ht
  have hgrow := Fmt.grow_legal (Fmt.product_legal hfx hft)
  have hsigned : (x.fmt.product t.fmt).grow.signed = true := Fmt.product_signed_iff.2 (.inl hsx)
  obtain ⟨hre, him⟩ := Cx.wrap_mul_lanes hx ht hsx
  have hfits {y : Int} (hy : (x.fmt.product t.fmt).grow.wrap y = y) : (x.fmt.product t.fmt).grow.grow.wrap y = y :=
    Fmt.wrap_of_holds (Fmt.grow_legal hgrow) (Fmt.holds_grow hgrow hsigned (hy ▸ Fmt.wrap_holds hgrow y))
  rw [Cx.mul3_eq hx ht, Cx.mul_eq hx ht, Fmt.wrap_grow_sub hft hst htre htim, Fmt.wrap_grow_sub hfx hsx hxre hxim,
    Fmt.wrap_grow_add hfx hsx hxre hxim]
  dsimp only
  rw [hre, him, ← hfits hre, ← hfits him]
  exact ⟨congrArg _ (by ring), congrArg _ (by ring)⟩

end

/-- Settles O22: the products are exact, and for signed operands their sums are the lanes of the direct product. -/
theorem threeMultiplierProduct : Obligations.ThreeMultiplierProduct := by
  intro s x t hx ht
  refine ⟨?_, fun hsx hst => ?_⟩
  · rw [exec_cMul3_param hx ht, Cx.mul3_eq hx ht]
    rfl
  · obtain ⟨hre, him⟩ := Cx.mul3_lanes hx ht hsx hst
    obtain ⟨hwre, hwim⟩ := Cx.wrap_mul_lanes hx ht hsx
    refine ⟨?_, ?_, fun q => ?_⟩
    · rw [hre, Cx.mul_eq hx ht, hwre]
    · rw [him, Cx.mul_eq hx ht, hwim]
    · have hf : (x.mul3 t).fmt.f = (x.mul t).fmt.f := by
        rw [Cx.mul3_eq hx ht, Cx.mul_eq hx ht]
        rfl
      rw [Cx.reshape, Cx.reshape, Fx.reshape_congr (v := (x.mul3 t).reFx) (w := (x.mul t).reFx) hre hf,
        Fx.reshape_congr (v := (x.mul3 t).imFx) (w := (x.mul t).imFx) him hf]

end Sys2Proof.Machine
end

section
/-! PROOFS. Units as they are built, one by one (`42_stream_skid_delay.md` to `46_bit_reversal.md`): each row, with
parameters in their domains, lays its stages at reset on the link the machine accepts. -/

namespace Sys2Proof.Machine

/-! ### Checks that pass -/

theorem checkDepth_natCast (n : Nat) : checkDepth n = .ok n := checkAtLeast_natCast (Int.natCast_nonneg n)

theorem checkWidth_natCast {w : Nat} (h : 1 ≤ w) : checkWidth w = .ok w := checkAtLeast_natCast (Int.ofNat_le.2 h)

theorem checkAtLeast_one {e : ConfigError} {n : Nat} (h : 1 ≤ n) : checkAtLeast 1 e n = .ok n :=
  checkAtLeast_natCast (Int.ofNat_le.2 h)

theorem checkLanes_of_legal {l : LinkFmt} (h : l.legal = true) : checkLanes l.lanes = .ok l.lanes :=
  checkLanes_natCast (LinkFmt.legal_iff.1 h).2.2

theorem checkPositions_natCast {j k : Nat} (h : k < j) : checkPositions j k = .ok (j, k) := by
  unfold checkPositions
  rw [if_pos (by omega)]
  rfl

theorem checkSize_of_le {k log : Nat} (h : k ≤ log) : checkSize ((2 ^ k : Nat) : Int) ((2 ^ log : Nat) : Int) = .ok log :=
  checkSize_two_pow (Int.ofNat_le.2 (Nat.pow_le_pow_right Nat.two_pos h))

/-! ### Units of one link (R128, R130, R131, R132) -/

section
variable {s : State} {l : LinkFmt} (hl : l.legal = true) (ha : s.accepts l)
include hl ha

theorem exec_skidBuffer_of_accepts :
    exec (.skidBuffer l.fmt.param l.lanes) s = .next (s.withUnit ⟨l, [.skidBuffer l false Payload.zero]⟩) := by
  change execSkidBuffer _ _ s = _
  refine construct_of_accepts ha ?_
  rw [checkLink_param hl]
  rfl

theorem exec_streamDelay_of_accepts (n : Nat) : exec (.streamDelay n l.fmt.param l.lanes .shiftRegister) s =
    .next (s.withUnit ⟨l, [.streamDelay n l (List.replicate n Slot.empty)]⟩) := by
  change execStreamDelay _ _ _ _ s = _
  refine construct_of_accepts ha ?_
  rw [checkDepth_natCast, checkLink_param hl]
  rfl

end

theorem exec_pipeReg_of_accepts {s : State} {g : PipeFn} {q : PipeFnParam} (hq : checkPipeFn q = .ok g)
    (ha : s.accepts g.inLink) : exec (.pipeReg q) s = .next (s.withUnit ⟨g.inLink, [.pipeReg g ⟨false, Payload.zero⟩]⟩) := by
  change execPipeReg _ s = _
  refine construct_of_accepts ha ?_
  rw [hq]
  rfl

/-- A reset entry of each kind (R22). -/
theorem normalize_empty {l : LinkFmt} (hl : l.legal = true) (kind : EntryKind) :
    EntryType.normalize ⟨kind, l⟩ TaggedEntry.empty = ⟨⟨0, 0⟩, kind == .bare, false⟩ := by
  have hzero : l.clip TaggedEntry.empty.payload = ⟨0, 0⟩ := LinkFmt.clip_of_holds hl (LinkFmt.holds_zero l)
  simp only [EntryType.normalize, hzero]
  cases kind <;> rfl

/-- Settles O25: each row passes its checks on the parameters of a legal link. -/
theorem linkStagesAreBuilt : Obligations.LinkStagesAreBuilt := by
  refine ⟨fun s l hl ha => ⟨exec_skidBuffer_of_accepts hl ha, exec_streamDelay_of_accepts hl ha, ?_⟩, ?_⟩
  · rintro g hg rfl
    exact exec_pipeReg_of_accepts (checkPipeFn_param hg) ha
  · intro s l kind n hl h0
    change execDelay _ _ _ s = _
    simp only [execDelay, constructDelay, h0, if_true, checkDepth_natCast, checkLink_param hl, Build.ok_bind, checkImpl,
      DelayUnit.fresh, normalize_empty hl]

/-! ### CIC stages (R151 to R157) -/

section
variable {s : State} {l : LinkFmt}

theorem State.acceptsLanes.accepts (h : s.acceptsLanes l) : s.accepts l := by
  obtain ⟨h0, hlink | ⟨hlink, -⟩⟩ := h
  · exact ⟨h0, .inr hlink⟩
  · exact ⟨h0, .inl hlink⟩

/-- The stage's input link is the link it is fed by, or the first one with no fraction bits. -/
theorem cicInLink_of_acceptsLanes (hl : l.legal = true) (h : s.acceptsLanes l) :
    cicInLink s.openLink l.fmt.width l.lanes = l := by
  obtain ⟨hf, hs, -⟩ := LinkFmt.legal_iff.1 hl
  obtain ⟨-, hlink | ⟨hlink, hf0⟩⟩ := h
  · simp [cicInLink, hlink]
  · rw [hlink, cicInLink, ← hf0, cicLabel_self hf hs]

variable (hl : l.legal = true) (ha : s.acceptsLanes l)
include hl ha

theorem exec_integrator_of_acceptsLanes {w : Nat} (hw : 1 ≤ w) : exec (.integrator l.fmt.width w l.lanes) s =
    .next (s.withUnit ⟨l, [freshIntegrator l (cicOutLink l w)]⟩) := by
  have hwidth := Fmt.one_le_width (LinkFmt.legal_iff.1 hl).1
  change execIntegrator _ _ _ s = _
  refine construct_of_accepts ha.accepts ?_
  rw [checkWidth_natCast hwidth, checkWidth_natCast hw, checkLanes_of_legal hl]
  simp only [Build.ok_bind, cicInLink_of_acceptsLanes hl ha]
  rfl

theorem exec_comb_of_acceptsLanes {m w : Nat} {wOut : Option Int} (hm : 1 ≤ m) (hw : 1 ≤ w)
    (hout : wOut.getD ((l.fmt.width : Int) + 1) = w) : exec (.comb l.fmt.width m wOut l.lanes) s =
      .next (s.withUnit ⟨l, [freshComb l (cicOutLink l w) m]⟩) := by
  have hwidth := Fmt.one_le_width (LinkFmt.legal_iff.1 hl).1
  change execComb _ _ _ _ s = _
  refine construct_of_accepts ha.accepts ?_
  rw [checkWidth_natCast hwidth, checkAtLeast_one hm, hout, checkWidth_natCast hw, checkLanes_of_legal hl]
  simp only [Build.ok_bind, cicInLink_of_acceptsLanes hl ha]
  rfl

theorem exec_requant_of_acceptsLanes (k : Nat) {w : Nat} (hw : 1 ≤ w) : exec (.requant k l.fmt.width w l.lanes) s =
    .next (s.withUnit ⟨l, [.requant k l (cicOutLink l w)]⟩) := by
  have hwidth := Fmt.one_le_width (LinkFmt.legal_iff.1 hl).1
  change execRequant _ _ _ _ s = _
  refine construct_of_accepts ha.accepts ?_
  rw [checkShift_natCast, checkWidth_natCast hwidth, checkWidth_natCast hw, checkLanes_of_legal hl]
  simp only [Build.ok_bind, cicInLink_of_acceptsLanes hl ha]
  rfl

theorem exec_upsampler_of_acceptsLanes {r : Nat} (hr : 1 ≤ r) : exec (.upsampler r l.fmt.width l.lanes) s =
    .next (s.withUnit ⟨l, [.upsampler r l 0]⟩) := by
  have hwidth := Fmt.one_le_width (LinkFmt.legal_iff.1 hl).1
  change execUpsampler _ _ _ s = _
  refine construct_of_accepts ha.accepts ?_
  rw [checkAtLeast_one hr, checkWidth_natCast hwidth, checkLanes_of_legal hl]
  simp only [Build.ok_bind, cicInLink_of_acceptsLanes hl ha]
  rfl

theorem exec_downsampler_of_acceptsLanes {r : Nat} (hr : 1 ≤ r) : exec (.downsampler r l.fmt.width l.lanes) s =
    .next (s.withUnit ⟨l, [.downsampler r l 0]⟩) := by
  have hwidth := Fmt.one_le_width (LinkFmt.legal_iff.1 hl).1
  change execDownsampler _ _ _ s = _
  refine construct_of_accepts ha.accepts ?_
  rw [checkAtLeast_one hr, checkWidth_natCast hwidth, checkLanes_of_legal hl]
  simp only [Build.ok_bind, cicInLink_of_acceptsLanes hl ha]
  rfl

end

/-- Settles O28, row by row. -/
theorem cicStagesAreBuilt : Obligations.CicStagesAreBuilt := by
  intro s l hl ha
  refine ⟨fun w hw => ⟨exec_integrator_of_acceptsLanes hl ha hw, fun m hm => exec_comb_of_acceptsLanes hl ha hm hw rfl,
    fun m hm => exec_comb_of_acceptsLanes hl ha hm (Nat.le_add_left 1 _) rfl,
    fun k => exec_requant_of_acceptsLanes hl ha k hw, cicLabel_width w _⟩,
    fun r hr => ⟨exec_upsampler_of_acceptsLanes hl ha hr, exec_downsampler_of_acceptsLanes hl ha hr⟩⟩

/-! ### FFT stages (R201, R207, R213, R215) -/

section
variable {s : State} {fmt : Fmt} {log : Nat} (hf : fmt.legal = true) (hs : fmt.signed = true) (ha : s.accepts ⟨fmt, 2⟩)
include hf hs ha

theorem exec_sdfRadix2Stage_of_accepts (hlog : 1 ≤ log) : exec (.sdfRadix2Stage (2 ^ log : Nat) fmt.param) s =
    .next (s.withUnit ⟨⟨fmt, 2⟩, [freshSdf log fmt]⟩) := by
  change execSdfRadix2Stage _ _ s = _
  refine construct_of_accepts ha ?_
  rw [show (2 : Int) = ((2 ^ 1 : Nat) : Int) from rfl, checkSize_of_le hlog, checkPayloadFormat_param hf hs,
    requireComplex_of_accepts ha]
  rfl

theorem exec_r22TwiddleStage_of_accepts (hlog : 2 ≤ log) : exec (.r22TwiddleStage (2 ^ log : Nat) fmt.param) s =
    .next (s.withUnit ⟨⟨fmt, 2⟩, [.r22Twiddle log fmt 0]⟩) := by
  change execR22TwiddleStage _ _ s = _
  refine construct_of_accepts ha ?_
  rw [show (4 : Int) = ((2 ^ 2 : Nat) : Int) from rfl, checkSize_of_le hlog, checkPayloadFormat_param hf hs,
    requireComplex_of_accepts ha]
  rfl

theorem checkTwiddleStage_of_accepts {tw : Fmt} (hlog : 2 ≤ log) (hts : tw.signed = true) (hti : 2 ≤ tw.i) :
    checkTwiddleStage (2 ^ log : Nat) fmt.param tw.param s.openLink = .ok (log, fmt, tw) := by
  rw [checkTwiddleStage, show (4 : Int) = ((2 ^ 2 : Nat) : Int) from rfl, checkSize_of_le hlog,
    checkPayloadFormat_param hf hs, requireComplex_of_accepts ha, checkTwiddleFormat_param hts hti]
  rfl

end

/-- Settles O33, row by row. -/
theorem fftStagesAreBuilt : Obligations.FftStagesAreBuilt := by
  intro s fmt log hf hs ha
  refine ⟨exec_sdfRadix2Stage_of_accepts hf hs ha, exec_r22TwiddleStage_of_accepts hf hs ha, fun hlog tw hts hti => ⟨?_, ?_⟩⟩
  · change execTwiddleStageDirect _ _ _ s = _
    refine construct_of_accepts ha ?_
    rw [checkTwiddleStage_of_accepts hf hs ha hlog hts hti]
    rfl
  · change execTwiddleStageThreeMult _ _ _ s = _
    refine construct_of_accepts ha ?_
    rw [checkTwiddleStage_of_accepts hf hs ha hlog hts hti]
    rfl

/-! ### Bit reversal (R231, R236) -/

/-- Settles O35: the network is a row of exchanges at reset, one for each position of the lower half. -/
theorem bitReversalIsComposed : Obligations.BitReversalIsComposed := by
  refine fun s l hl ha => ⟨fun j k hjk => ?_, fun bits hbits => ?_⟩
  · change execSerialBitExchange _ _ _ _ s = _
    refine construct_of_accepts ha ?_
    rw [checkPositions_natCast hjk, checkLink_param hl]
    rfl
  · change execSerialBitReversal _ _ _ s = _
    refine construct_of_accepts ha ?_
    rw [show (2 : Int) = ((2 ^ 1 : Nat) : Int) from rfl, checkSize_of_le hbits, checkLink_param hl]
    simp only [Build.ok_bind, bitReversalStages_eq_filter]
    rfl

end Sys2Proof.Machine
end

section
/-! PROOFS. The CIC build-time functions and the two CIC filters (`44_cic_sizing_filters.md`): the exact integer forms
deliver the least numbers the rules ask for, and the filters are composed of the stages those numbers size. -/

namespace Sys2Proof.Machine

/-! ### Least numbers (R12, R171, R177) -/

theorem LeastNat.of_le_iff {P : Nat → Prop} {g : Nat} (h : ∀ k, g ≤ k ↔ P k) : LeastNat P g :=
  ⟨(h g).1 le_rfl, fun k hk => (h k).2 hk⟩

theorem LeastNat.unique {P : Nat → Prop} {a b : Nat} (ha : LeastNat P a) (hb : LeastNat P b) : a = b :=
  le_antisymm (ha.2 b hb.1) (hb.2 a ha.1)

theorem clog2_le_iff {x k : Nat} : clog2 x ≤ k ↔ x ≤ 2 ^ k := by
  unfold clog2
  have hpos : 0 < 2 ^ k := Nat.two_pow_pos k
  split
  · omega
  · rw [Nat.succ_le_iff, Nat.log2_lt (by omega)]
    omega

theorem clog2Ratio_le_iff {p q k : Nat} (hq : 1 ≤ q) : clog2Ratio p q ≤ k ↔ p ≤ 2 ^ k * q := by
  rw [clog2Ratio, clog2_le_iff, Nat.div_le_iff_le_mul_add_pred hq, Nat.mul_comm q]
  omega

theorem noiseBits_le_iff {n f k : Nat} : noiseBits n f ≤ k ↔ 2 * n * f ≤ 4 ^ k := by
  have hhalf : noiseBits n f ≤ k ↔ clog2 (2 * n * f) ≤ 2 * k := by unfold noiseBits; omega
  rw [hhalf, clog2_le_iff, Nat.pow_mul]

/-! ### Bit growth (R171) -/

/-- The rule of the growth determines it. -/
theorem isGrowth_iff {n r m j g : Nat} (hr : 1 ≤ r) : IsGrowth n r m j g ↔ g = cicGrowthAt n r m j := by
  unfold IsGrowth cicGrowthAt
  split
  case isTrue hj => exact ⟨fun h => h.1 hj, fun h => ⟨fun _ => h, fun hlt => absurd hj (Nat.not_le.2 hlt)⟩⟩
  case isFalse hj =>
    have hleast := LeastNat.of_le_iff fun k => clog2Ratio_le_iff (p := 2 ^ (2 * n - j) * (r * m) ^ (j - n)) (k := k) hr
    exact ⟨fun h => (h.2 (Nat.lt_of_not_le hj)).unique hleast, fun h => ⟨fun hle => absurd hle hj, fun _ => h ▸ hleast⟩⟩

theorem cicGrowthList_length (n r m : Nat) : (cicGrowthList n r m).length = 2 * n := by simp [cicGrowthList]

theorem getD_map_range {α : Type} (f : Nat → α) (z : α) {j k : Nat} (h : j < k) : ((List.range k).map f).getD j z = f j := by
  simp [List.getD_eq_getElem?_getD, List.getElem?_map, List.getElem?_range h]

theorem getD_cicGrowthList {n r m j : Nat} (h1 : 1 ≤ j) (h2 : j ≤ 2 * n) :
    (cicGrowthList n r m).getD (j - 1) 0 = cicGrowthAt n r m j := by
  rw [cicGrowthList, getD_map_range _ _ (by omega), Nat.sub_add_cancel h1]

theorem exec_cicGrowth_natCast {n r m : Nat} (s : State) (hn : 1 ≤ n) (hr : 1 ≤ r) (hm : 1 ≤ m) :
    exec (.cicGrowth n r m) s = .next (s.setResult (.growth (cicGrowthList n r m))) := by
  change deliver _ _ = _
  rw [checkAtLeast_one hn, checkAtLeast_one hr, checkAtLeast_one hm]
  rfl

/-- Settles O29. -/
theorem cicGrowthIsLeast : Obligations.CicGrowthIsLeast := fun s n r m hn hr hm =>
  ⟨cicGrowthList n r m, exec_cicGrowth_natCast s hn hr hm, cicGrowthList_length n r m,
    fun _ h1 h2 => (isGrowth_iff hr).2 (getD_cicGrowthList h1 h2)⟩

/-! ### The impulse responses (R176) -/

theorem factorial_eq (k : Nat) : factorial k = k.factorial := by
  induction k with
  | zero => rfl
  | succ k ih => rw [factorial, ih, Nat.factorial_succ]

theorem fallingProduct_eq (n k : Nat) : fallingProduct n k = n.descFactorial k := by
  induction k with
  | zero => rfl
  | succ k ih => rw [fallingProduct, ih, Nat.descFactorial_succ]

theorem binom_eq_choose (n k : Nat) : binom n k = n.choose k := by
  unfold binom
  split
  case isTrue h => exact (Nat.choose_eq_zero_of_lt h).symm
  case isFalse h =>
    dsimp only
    rw [fallingProduct_eq, factorial_eq, ← Nat.choose_eq_descFactorial_div_factorial]
    obtain hmin | hmin : min k (n - k) = k ∨ min k (n - k) = n - k := by omega
    · rw [hmin]
    · rw [hmin, Nat.choose_symm (Nat.le_of_not_lt h)]

theorem altSign_eq (k : Nat) : altSign k = (-1) ^ k := by
  unfold altSign
  split
  case isTrue h => rw [Even.neg_one_pow (Nat.even_iff.2 h)]
  case isFalse h => rw [Odd.neg_one_pow (Nat.odd_iff.2 (by omega))]

theorem sumTo_eq_sum (f : Nat → Int) (n : Nat) : sumTo f n = ((List.range (n + 1)).map f).sum := by
  induction n with
  | zero => simp [sumTo]
  | succ n ih => rw [sumTo, ih, List.range_succ (n := n + 1), List.map_append, List.sum_append]; simp

theorem impulse_eq (n rm j k : Nat) : impulse n rm j k = impulseResponse n rm j k := by
  unfold impulse impulseResponse
  simp only [sumTo_eq_sum, altSign_eq, binom_eq_choose, Nat.cast_mul]

/-- A variance is a sum of squares, so nothing is lost in its natural form. -/
theorem noiseGain_eq (n rm j : Nat) : (noiseGain n rm j : Int) = noiseVariance n rm j := by
  have hsum : sumTo (fun k => impulse n rm j k * impulse n rm j k) (impulseEnd n rm j) = noiseVariance n rm j := by
    rw [sumTo_eq_sum]
    simp only [noiseVariance, impulseEnd, impulse_eq, pow_two]
  have hnonneg : 0 ≤ noiseVariance n rm j := List.sum_nonneg fun y hy => by
    obtain ⟨k, -, rfl⟩ := List.mem_map.1 hy
    exact sq_nonneg _
  rw [noiseGain, hsum, Int.toNat_of_nonneg hnonneg]

/-! ### Running maxima (R179) -/

theorem getD_runningMax_zero (a : Nat) {bs : List Nat} (h : 0 < bs.length) : (runningMax a bs).getD 0 0 = max a (bs.getD 0 0) := by
  cases bs with
  | nil => cases h
  | cons b bs => rfl

theorem getD_runningMax_succ (a j : Nat) {bs : List Nat} (h : j + 1 < bs.length) :
    (runningMax a bs).getD (j + 1) 0 = max ((runningMax a bs).getD j 0) (bs.getD (j + 1) 0) := by
  induction bs generalizing a j with
  | nil => cases h
  | cons b bs ih =>
    have hlen : j < bs.length := Nat.lt_of_succ_lt_succ h
    simp only [runningMax, List.getD_cons_succ]
    cases j with
    | zero => rw [getD_runningMax_zero _ hlen, List.getD_cons_zero]
    | succ j => rw [ih (max a b) j hlen, List.getD_cons_succ]

theorem getD_increments_zero (a : Nat) {bs : List Nat} (h : 0 < bs.length) : (increments a bs).getD 0 0 = bs.getD 0 0 - a := by
  cases bs with
  | nil => cases h
  | cons b bs => rfl

theorem getD_increments_succ (a j : Nat) {bs : List Nat} (h : j + 1 < bs.length) :
    (increments a bs).getD (j + 1) 0 = bs.getD (j + 1) 0 - bs.getD j 0 := by
  induction bs generalizing a j with
  | nil => cases h
  | cons b bs ih =>
    have hlen : j < bs.length := Nat.lt_of_succ_lt_succ h
    simp only [increments, List.getD_cons_succ]
    cases j with
    | zero => rw [getD_increments_zero _ hlen, List.getD_cons_zero]
    | succ j => rw [ih b j hlen, List.getD_cons_succ]

@[simp] theorem increments_length (a : Nat) (bs : List Nat) : (increments a bs).length = bs.length := by
  induction bs generalizing a with
  | nil => rfl
  | cons b bs ih => simp [increments, ih]

/-- The counts `b`, by stage number, as the rules write them. -/
def stageEntry (b : List Nat) (j : Nat) : Nat := b.getD (j - 1) 0

theorem getD_runningMax (b : List Nat) {j : Nat} (h : j < b.length) :
    (runningMax 0 b).getD j 0 = cumulative (stageEntry b) (j + 1) := by
  induction j with
  | zero => rw [getD_runningMax_zero 0 h]; rfl
  | succ j ih => rw [getD_runningMax_succ 0 j h, ih (Nat.lt_of_succ_lt h)]; rfl

theorem getD_increments_runningMax (b : List Nat) {j : Nat} (h : j < b.length) :
    (increments 0 (runningMax 0 b)).getD j 0 = cumulative (stageEntry b) (j + 1) - cumulative (stageEntry b) j := by
  cases j with
  | zero => rw [getD_increments_zero 0 (by simpa using h), getD_runningMax b h]; rfl
  | succ j =>
    rw [getD_increments_succ 0 j (by simpa using h), getD_runningMax b h, getD_runningMax b (Nat.lt_of_succ_lt h)]

theorem getLastD_runningMax {b : List Nat} (h : 0 < b.length) :
    (runningMax 0 b).getLastD 0 = cumulative (stageEntry b) b.length := by
  have hlast := getD_runningMax b (Nat.sub_lt h one_pos)
  rw [show b.length - 1 + 1 = b.length by omega] at hlast
  rw [← hlast, List.getLastD_eq_getLast?, List.getLast?_eq_getElem?, List.getD_eq_getElem?_getD, runningMax_length]

/-! ### The truncation rules (R175 to R179) -/

section
variable {n r m wIn : Nat} {widthOut : Option Nat}

theorem getD_map {α β : Type} (f : α → β) {l : List α} {j : Nat} (h : j < l.length) (z : α) (z' : β) :
    (l.map f).getD j z' = f (l.getD j z) := by
  simp [List.getD_eq_getElem?_getD, List.getElem?_eq_getElem h]

theorem forceFirst_getD_zero (bs : List Nat) : (forceFirst bs).getD 0 0 = 0 := by cases bs <;> rfl

theorem forceFirst_getD_succ (bs : List Nat) (j : Nat) : (forceFirst bs).getD (j + 1) 0 = bs.getD (j + 1) 0 := by
  cases bs <;> rfl

@[simp] theorem cicTruncate_noise_length : (cicTruncate n r m wIn widthOut).noise.length = 2 * n := by simp [cicTruncate]

@[simp] theorem cicTruncate_k_length : (cicTruncate n r m wIn widthOut).k.length = 2 * n := by simp [cicTruncate]

@[simp] theorem cicTruncate_bCalc_length : (cicTruncate n r m wIn widthOut).bCalc.length = 2 * n := by simp [cicTruncate]

@[simp] theorem cicTruncate_b_length : (cicTruncate n r m wIn widthOut).b.length = 2 * n := by simp [cicTruncate]

@[simp] theorem cicTruncate_bc_length : (cicTruncate n r m wIn widthOut).bc.length = 2 * n := by simp [cicTruncate]

@[simp] theorem cicTruncate_shifts_length : (cicTruncate n r m wIn widthOut).shifts.length = 2 * n := by simp [cicTruncate]

theorem fullWidth_least : LeastNat (fun k => (r * m) ^ n ≤ 2 ^ k) (fullWidth n r m wIn - wIn) := by
  rw [fullWidth, Nat.add_sub_cancel_left]
  exact LeastNat.of_le_iff fun _ => clog2_le_iff

theorem cicTruncate_rules (hn : 1 ≤ n) : TruncationRules n r m wIn widthOut (cicTruncate n r m wIn widthOut) where
  full := ⟨fullWidth_least, Nat.le_add_right _ _⟩
  out := rfl
  last := rfl
  lengths := by simp
  noise j h1 h2 := by
    rw [← noiseGain_eq]
    exact congrArg Nat.cast ((getD_map_range _ _ (by omega)).trans (by rw [Nat.sub_add_cancel h1]))
  least j h1 h2 := by
    have hk : (cicTruncate n r m wIn widthOut).k.getD (j - 1) 0 =
        noiseBits n ((cicTruncate n r m wIn widthOut).noise.getD (j - 1) 0) :=
      getD_map _ (by simp; omega) _ _
    rw [hk]
    exact LeastNat.of_le_iff fun _ => noiseBits_le_iff
  calc_ j h1 h2 := getD_map _ (by simp; omega) _ _
  first := forceFirst_getD_zero _
  counts j h1 h2 := by
    obtain ⟨i, rfl⟩ := Nat.exists_eq_add_of_le h1
    rw [show 2 + i - 1 = i + 1 by omega]
    exact forceFirst_getD_succ _ _
  running j h1 h2 := by
    rw [show (cicTruncate n r m wIn widthOut).bc = runningMax 0 (cicTruncate n r m wIn widthOut).b from rfl,
      getD_runningMax _ (by rw [cicTruncate_b_length]; omega), Nat.sub_add_cancel h1]
    rfl
  shift j h1 h2 := by
    rw [show (cicTruncate n r m wIn widthOut).shifts = increments 0 (runningMax 0 (cicTruncate n r m wIn widthOut).b) from rfl,
      getD_increments_runningMax _ (by rw [cicTruncate_b_length]; omega), Nat.sub_add_cancel h1]
    rfl
  width j h1 h2 := getD_map _ (by simp; omega) _ _
  lastShift := by
    have hlast := getLastD_runningMax (b := (cicTruncate n r m wIn widthOut).b) (by rw [cicTruncate_b_length]; omega)
    rw [cicTruncate_b_length] at hlast
    exact congrArg ((cicTruncate n r m wIn widthOut).bLast - ·) hlast

end

/-- A requested width within its bounds is taken as it is. -/
theorem checkWidthOut_natCast {full : Nat} {w : Option Nat} (h : ∀ o, w = some o → 1 ≤ o ∧ o ≤ full) :
    checkWidthOut full (w.map Nat.cast) = .ok w := checkWidthOut_eq_ok.2 ⟨rfl, h⟩

/-- Settles O30. -/
theorem cicTruncationFollowsHogenauer : Obligations.CicTruncationFollowsHogenauer := by
  intro s n r m wIn widthOut hn hr hm hw hout
  refine ⟨cicTruncate n r m wIn widthOut, ?_, cicTruncate_rules hn⟩
  change deliver _ _ = _
  have hbounds : ∀ o, widthOut = some o → 1 ≤ o ∧ o ≤ fullWidth n r m wIn := fun o ho =>
    ⟨(hout o ho).1, (hout o ho).2 _ (clog2_le_iff.1 le_rfl)⟩
  rw [checkAtLeast_one hn, checkAtLeast_one hr, checkAtLeast_one hm, checkWidth_natCast hw]
  simp only [Build.ok_bind, checkWidthOut_natCast hbounds, deliver_ok]

/-- Lists that agree stage by stage are equal. -/
theorem eq_of_stageEntry {k : Nat} {a b : List Nat} (ha : a.length = k) (hb : b.length = k)
    (h : ∀ j, 1 ≤ j → j ≤ k → a.getD (j - 1) 0 = b.getD (j - 1) 0) : a = b := by
  refine List.ext_getElem (ha.trans hb.symm) fun i hi hi' => ?_
  have hentry := h (i + 1) (Nat.le_add_left 1 i) (by omega)
  rwa [Nat.add_sub_cancel, List.getD_eq_getElem _ _ hi, List.getD_eq_getElem _ _ hi'] at hentry

/-- The truncation rules leave nothing open. -/
theorem TruncationRules.unique {n r m wIn : Nat} {widthOut : Option Nat} {t u : Truncation}
    (ht : TruncationRules n r m wIn widthOut t) (hu : TruncationRules n r m wIn widthOut u) : t = u := by
  obtain ⟨lNoise, lK, lCalc, lB, lBc, lShifts, lWidths⟩ := ht.lengths
  obtain ⟨lNoise', lK', lCalc', lB', lBc', lShifts', lWidths'⟩ := hu.lengths
  have hfull : t.fullWidth = u.fullWidth := by
    have := ht.full.1.unique hu.full.1
    have := ht.full.2
    have := hu.full.2
    omega
  have hout : t.widthOut = u.widthOut := by rw [ht.out, hu.out, hfull]
  have hlast : t.bLast = u.bLast := by rw [ht.last, hu.last, hfull, hout]
  have hnoise : t.noise = u.noise := eq_of_stageEntry lNoise lNoise' fun j h1 h2 =>
    Int.ofNat_inj.1 ((ht.noise j h1 h2).trans (hu.noise j h1 h2).symm)
  have hk : t.k = u.k := eq_of_stageEntry lK lK' fun j h1 h2 => (ht.least j h1 h2).unique (hnoise ▸ hu.least j h1 h2)
  have hcalc : t.bCalc = u.bCalc := eq_of_stageEntry lCalc lCalc' fun j h1 h2 => by
    rw [ht.calc_ j h1 h2, hu.calc_ j h1 h2, hlast, hk]
  have hb : t.b = u.b := eq_of_stageEntry lB lB' fun j h1 h2 => by
    obtain rfl | hj : j = 1 ∨ 2 ≤ j := by omega
    · exact ht.first.trans hu.first.symm
    · rw [ht.counts j hj h2, hu.counts j hj h2, hcalc]
  have hbc : t.bc = u.bc := eq_of_stageEntry lBc lBc' fun j h1 h2 => by rw [ht.running j h1 h2, hu.running j h1 h2, hb]
  have hshifts : t.shifts = u.shifts := eq_of_stageEntry lShifts lShifts' fun j h1 h2 => by
    rw [ht.shift j h1 h2, hu.shift j h1 h2, hb]
  have hwidths : t.widths = u.widths := eq_of_stageEntry lWidths lWidths' fun j h1 h2 => by
    rw [ht.width j h1 h2, hu.width j h1 h2, hfull, hbc]
  have hsOut : t.sOut = u.sOut := by rw [ht.lastShift, hu.lastShift, hlast, hb]
  cases t
  cases u
  simp_all only

/-! ### The filters (R173, R181, R186) -/

@[simp] theorem relabelLast_none (sts : List Stage) : relabelLast none sts = sts := by
  induction sts with
  | nil => rfl
  | cons a rest ih =>
    cases rest with
    | nil => rfl
    | cons b rest => exact congrArg (a :: ·) ih

theorem relabelLast_append_singleton (p : Fmt) (sts : List Stage) (st : Stage) :
    relabelLast (some p) (sts ++ [st]) = sts ++ [st.relabel p] := by
  induction sts with
  | nil => rfl
  | cons a rest ih =>
    cases rest with
    | nil => rfl
    | cons b rest => exact congrArg (a :: ·) ih

/-- A chain that ends in an integrator or a requantizer shows the label it is given. -/
theorem chainOutLink_relabelLast {p : Fmt} {l : LinkFmt} {lanes : Nat} {sts : List Stage} {st : Stage}
    (h : (st.relabel p).outLink = ⟨p, lanes⟩) : chainOutLink l (relabelLast (some p) (sts ++ [st])) = ⟨p, lanes⟩ := by
  rw [relabelLast_append_singleton, chainOutLink_append]
  exact h

theorem checkOutFmt_param {width : Nat} {label : Option Fmt}
    (h : ∀ p, label = some p → p.legal = true ∧ p.signed = true ∧ p.width = width) :
    checkOutFmt width (label.map Fmt.param) = .ok label := by
  cases label with
  | none => rfl
  | some p =>
    obtain ⟨hp, hs, hw⟩ := h p rfl
    simp only [Option.map_some, checkOutFmt, checkPayloadFormat_param hp hs, Build.ok_bind, if_pos hw]

theorem buildFilter_of_legal {n r m : Nat} {l : LinkFmt} {widthOut : Option Nat} {label : Option Fmt}
    {full : Nat → Nat → Nat → Nat → Nat} {stages : Nat → Nat → Nat → Nat → Nat → Nat → Option Nat → List Stage}
    (hn : 1 ≤ n) (hr : 1 ≤ r) (hm : 1 ≤ m) (hl : l.legal = true)
    (hout : ∀ o, widthOut = some o → 1 ≤ o ∧ o ≤ full n r m l.fmt.width)
    (hlabel : ∀ p, label = some p → p.legal = true ∧ p.signed = true ∧ p.width = widthOut.getD (full n r m l.fmt.width)) :
    buildFilter n r m l.fmt.param l.lanes (widthOut.map Nat.cast) (label.map Fmt.param) full stages =
      .ok ⟨l, relabelLast label (stages n r m l.fmt.width l.fmt.f l.lanes widthOut)⟩ := by
  obtain ⟨hf, hs, -⟩ := LinkFmt.legal_iff.1 hl
  rw [buildFilter, checkAtLeast_one hn, checkAtLeast_one hr, checkAtLeast_one hm, checkPayloadFormat_param hf hs]
  simp only [Build.ok_bind, checkWidthOut_natCast hout, checkOutFmt_param hlabel, checkLanes_of_legal hl]

section
variable {s : State} {n r m : Nat} {l : LinkFmt} {widthOut : Option Nat} {label : Option Fmt} (hn : 1 ≤ n) (hr : 1 ≤ r)
  (hm : 1 ≤ m) (hl : l.legal = true) (ha : s.accepts l)
include hn hr hm hl ha

theorem exec_cicUpsamplingFilter_of_accepts
    (hout : ∀ o, widthOut = some o → 1 ≤ o ∧ o ≤ fullWidthUpsampling n r m l.fmt.width)
    (hlabel : ∀ p, label = some p →
      p.legal = true ∧ p.signed = true ∧ p.width = widthOut.getD (fullWidthUpsampling n r m l.fmt.width)) :
    exec (.cicUpsamplingFilter n r m l.fmt.param l.lanes (widthOut.map Nat.cast) (label.map Fmt.param)) s =
      .next (s.withUnit ⟨l, relabelLast label (upsamplingStages n r m l.fmt.width l.fmt.f l.lanes widthOut)⟩) := by
  change execCicUpsamplingFilter _ _ _ _ _ _ _ s = _
  exact construct_of_accepts ha (buildFilter_of_legal hn hr hm hl hout hlabel)

theorem exec_cicDownsamplingFilter_of_accepts
    (hout : ∀ o, widthOut = some o → 1 ≤ o ∧ o ≤ fullWidth n r m l.fmt.width)
    (hlabel : ∀ p, label = some p →
      p.legal = true ∧ p.signed = true ∧ p.width = widthOut.getD (fullWidth n r m l.fmt.width)) :
    exec (.cicDownsamplingFilter n r m l.fmt.param l.lanes (widthOut.map Nat.cast) (label.map Fmt.param)) s =
      .next (s.withUnit ⟨l, relabelLast label (downsamplingStages n r m l.fmt.width l.fmt.f l.lanes widthOut)⟩) := by
  change execCicDownsamplingFilter _ _ _ _ _ _ _ s = _
  exact construct_of_accepts ha (buildFilter_of_legal hn hr hm hl hout hlabel)

end

/-- The interpolator ends in its last integrator or in its requantizer. -/
theorem chainOutLink_upsamplingStages_relabelled {n r m wIn f lanes : Nat} (widthOut : Option Nat) (hn : 1 ≤ n) (p : Fmt)
    (l : LinkFmt) : chainOutLink l (relabelLast (some p) (upsamplingStages n r m wIn f lanes widthOut)) = ⟨p, lanes⟩ := by
  obtain ⟨k, rfl⟩ := Nat.exists_eq_add_of_le' hn
  unfold upsamplingStages
  dsimp only
  have hintegrator (comb integrator : Nat → Stage) (up : List Stage) (h : ((integrator k).relabel p).outLink = ⟨p, lanes⟩) :
      chainOutLink l (relabelLast (some p) ((List.range (k + 1)).map comb ++ up ++ (List.range (k + 1)).map integrator ++ [])) =
        ⟨p, lanes⟩ := by
    rw [List.append_nil, List.range_succ, List.map_append (f := integrator), ← List.append_assoc]
    exact chainOutLink_relabelLast h
  cases widthOut with
  | none => exact hintegrator _ _ _ rfl
  | some o =>
    dsimp only
    by_cases ho : o < upWidth (k + 1) r m wIn (2 * (k + 1))
    · rw [if_pos ho]
      exact chainOutLink_relabelLast rfl
    · rw [if_neg ho]
      exact hintegrator _ _ _ rfl

/-- Settles O31: the widths are those of the growth, which its rule determines. -/
theorem upsamplingFilterIsComposed : Obligations.UpsamplingFilterIsComposed := by
  intro s n r m l widthOut w hn hr hm hl ha hw0 hw hout link stages
  have hwidth : ∀ j ≤ 2 * n, w j = upWidth n r m l.fmt.width j := by
    intro j hj
    obtain rfl | hpos := Nat.eq_zero_or_pos j
    · rw [hw0, upWidth_zero]
    · obtain ⟨g, hg, hwj⟩ := hw j hpos hj
      rw [hwj, (isGrowth_iff hr).1 hg, upWidth]
  have hfull : w (2 * n) = fullWidthUpsampling n r m l.fmt.width := hwidth _ le_rfl
  have hstages : upsamplingStages n r m l.fmt.width l.fmt.f l.lanes widthOut = stages := by
    unfold upsamplingStages
    dsimp only
    refine congrArg₂ (· ++ ·) (congrArg₂ (· ++ ·) (congrArg₂ (· ++ ·) ?_ ?_) ?_) ?_
    · refine List.map_congr_left fun j hj => ?_
      have hj := List.mem_range.1 hj
      rw [← hwidth j (by omega), ← hwidth (j + 1) (by omega)]
      rfl
    · rw [← hwidth n (by omega)]
      rfl
    · refine List.map_congr_left fun j hj => ?_
      have hj := List.mem_range.1 hj
      rw [← hwidth (n + j) (by omega), ← hwidth (n + j + 1) (by omega)]
      rfl
    · rw [← hwidth _ le_rfl]
      cases widthOut with
      | none => simp
      | some o => rfl
  rw [← hstages]
  rw [hfull] at hout
  refine ⟨?_, fun p hp hs hpw => ⟨?_, chainOutLink_upsamplingStages_relabelled widthOut hn p l⟩⟩
  · have h := exec_cicUpsamplingFilter_of_accepts (label := none) hn hr hm hl ha hout (fun _ h => nomatch h)
    rwa [relabelLast_none] at h
  · refine exec_cicUpsamplingFilter_of_accepts (label := some p) hn hr hm hl ha hout ?_
    rintro q ⟨⟩
    exact ⟨hp, hs, by rw [hpw, hfull]⟩

/-- Settles O32: the rules determine the sizing, so it is the one the filter computes. -/
theorem downsamplingFilterIsComposed : Obligations.DownsamplingFilterIsComposed := by
  intro s n r m l widthOut t hn hr hm hl ha ht hout
  obtain rfl := ht.unique (cicTruncate_rules hn)
  refine ⟨?_, fun p hp hs hpw => ⟨?_, chainOutLink_relabelLast rfl⟩⟩
  · have h := exec_cicDownsamplingFilter_of_accepts (label := none) hn hr hm hl ha hout (fun _ h => nomatch h)
    rwa [relabelLast_none] at h
  · refine exec_cicDownsamplingFilter_of_accepts (label := some p) hn hr hm hl ha hout ?_
    rintro q ⟨⟩
    exact ⟨hp, hs, hpw⟩

end Sys2Proof.Machine
end

section
/-! PROOFS. Configuration errors (`60_exceptions.md` R260 to R263): each check as a decision on its parameter's domain,
so that an operation completes exactly in its domain and stops with its first failing check. -/

namespace Sys2Proof

/-- The checked form of a legal format. -/
def FormatParam.checked (p : FormatParam) : Machine.Fmt := ⟨p.i.toNat, p.f.toNat, p.signed⟩

@[simp] theorem FormatParam.checked_signed (p : FormatParam) : p.checked.signed = p.signed := rfl

theorem FormatParam.wellFormed_iff {p : FormatParam} :
    p.wellFormed = true ↔ 0 ≤ p.i ∧ 0 ≤ p.f ∧ 1 ≤ p.i + p.f ∧ (p.signed = true → 1 ≤ p.i) := by
  simp only [FormatParam.wellFormed, Bool.and_eq_true, Bool.or_eq_true, decide_eq_true_eq, Bool.not_eq_true', and_assoc,
    Bool.eq_false_iff, ne_eq, ← imp_iff_not_or]

theorem FormatParam.payloadFormed_iff {p : FormatParam} : p.payloadFormed = true ↔ p.wellFormed = true ∧ p.signed = true :=
  Bool.and_eq_true_iff

theorem FormatParam.twiddleFormed_iff {p : FormatParam} : p.twiddleFormed = true ↔ p.payloadFormed = true ∧ 2 ≤ p.i := by
  simp [FormatParam.twiddleFormed]

/-- Checking loses nothing. -/
theorem FormatParam.param_checked {p : FormatParam} (h : p.wellFormed = true) : p.checked.param = p := by
  obtain ⟨hi, hf, -, -⟩ := FormatParam.wellFormed_iff.1 h
  obtain ⟨i, f, s⟩ := p
  simp only [FormatParam.checked, Machine.Fmt.param, Int.toNat_of_nonneg hi, Int.toNat_of_nonneg hf]

theorem FormatParam.checked_width {p : FormatParam} (h : p.wellFormed = true) : (p.checked.width : Int) = p.i + p.f := by
  obtain ⟨hi, hf, -, -⟩ := FormatParam.wellFormed_iff.1 h
  simp only [FormatParam.checked, Machine.Fmt.width]
  omega

theorem FormatParam.checked_holds {p : FormatParam} (h : p.wellFormed = true) (x : Int) : p.checked.holds x = p.holds x := by
  have hw := FormatParam.checked_width h
  have hnat : p.checked.width = (p.i + p.f).toNat := by omega
  unfold Machine.Fmt.holds FormatParam.holds Machine.Fmt.least Machine.Fmt.bound
  rw [hnat, FormatParam.checked_signed]
  split <;> rfl

end Sys2Proof

namespace Sys2Proof.Machine

/-! ### Checks as decisions on domains -/

theorem Fmt.param_wellFormed (p : Fmt) : p.param.wellFormed = p.legal := by
  rw [Bool.eq_iff_iff, FormatParam.wellFormed_iff, Fmt.legal_iff]
  simp only [Fmt.param]
  cases p.signed <;> simp <;> omega

theorem Fmt.param_injective {p q : Fmt} : p.param = q.param ↔ p = q := by
  obtain ⟨i, f, s⟩ := p
  obtain ⟨i', f', s'⟩ := q
  simp [Fmt.param]

theorem checkFormat_eq (p : FormatParam) : checkFormat p = if p.wellFormed = true then .ok p.checked else .error .badFormat := by
  unfold checkFormat
  rw [← ite_not]
  refine if_congr ?_ rfl rfl
  rw [FormatParam.wellFormed_iff]
  constructor
  · intro h
    refine ⟨?_, ?_, ?_, fun hs => ?_⟩ <;> by_contra hlt <;> exact h (by simp only [*, true_and]; omega)
  · rintro ⟨hi, hf, hw, hs⟩ (h | h | h | ⟨hs', h⟩)
    · omega
    · omega
    · omega
    · have := hs hs'
      omega

theorem checkPayloadFormat_eq (p : FormatParam) : checkPayloadFormat p =
    if p.wellFormed = true then if p.signed = true then .ok p.checked else .error .unsignedPayload else .error .badFormat := by
  rw [checkPayloadFormat, checkFormat_eq]
  split <;> rfl

theorem checkTwiddleFormat_eq (p : FormatParam) :
    checkTwiddleFormat p = if p.twiddleFormed = true then .ok p.checked else .error .badFormat := by
  rw [checkTwiddleFormat, checkFormat_eq]
  by_cases h : p.wellFormed = true
  · have hi := (FormatParam.wellFormed_iff.1 h).1
    have htwo : 2 ≤ p.checked.i ↔ 2 ≤ p.i := by
      simp only [FormatParam.checked]
      omega
    rw [if_pos h, Build.ok_bind]
    refine if_congr ?_ rfl rfl
    simp only [FormatParam.twiddleFormed_iff, FormatParam.payloadFormed_iff, h, true_and, htwo, FormatParam.checked_signed]
  · rw [if_neg h, if_neg fun hf => h (FormatParam.payloadFormed_iff.1 (FormatParam.twiddleFormed_iff.1 hf).1).1]
    rfl

theorem checkValue_eq (v : ValueParam) : checkValue v = if v.fmt.wellFormed = true then
    if v.fmt.holds v.raw = true then .ok ⟨v.raw, v.fmt.checked⟩ else .error .constOutOfRange else .error .badFormat := by
  rw [checkValue, checkFormat_eq]
  split
  next h => rw [Build.ok_bind, FormatParam.checked_holds h]
  next => rfl

theorem checkComplex_eq (x : ComplexParam) : checkComplex x = if x.fmt.wellFormed = true then
    if (x.fmt.holds x.re && x.fmt.holds x.im) = true then .ok ⟨x.re, x.im, x.fmt.checked⟩ else .error .constOutOfRange
    else .error .badFormat := by
  rw [checkComplex, checkFormat_eq]
  split
  next h => rw [Build.ok_bind, FormatParam.checked_holds h, FormatParam.checked_holds h]
  next => rfl

theorem checkLanes_eq (lanes : Int) : checkLanes lanes = if lanesFormed lanes = true then .ok lanes.toNat else .error .badLanes := by
  unfold checkLanes
  refine if_congr ?_ rfl rfl
  simp [lanesFormed]

theorem checkSize_eq (least n : Int) :
    checkSize least n = if sizeFormed least n = true then .ok (Nat.log2 n.toNat) else .error .notPowerOfTwo := by
  unfold checkSize
  rw [← ite_not]
  refine if_congr ?_ rfl rfl
  simp [sizeFormed]

theorem checkPositions_eq (j k : Int) :
    checkPositions j k = if k < j ∧ 0 ≤ k then .ok (j.toNat, k.toNat) else .error .badBitPositions := rfl

theorem checkAtLeast_of_lt {least x : Int} {e : ConfigError} (h : x < least) : checkAtLeast least e x = .error e := if_pos h

theorem checkAtLeast_of_le {least x : Int} {e : ConfigError} (h : least ≤ x) : checkAtLeast least e x = .ok x.toNat :=
  if_neg (Int.not_lt.2 h)

/-! ### Checks that pass -/

/-- Every check of it passes. -/
def Build.Passes {α : Type} (x : Build α) : Prop := ∃ a, x = .ok a

@[simp] theorem Build.passes_ok {α : Type} (a : α) : Build.Passes (.ok a) := ⟨a, rfl⟩

@[simp] theorem Build.not_passes_error {α : Type} (e : ConfigError) : ¬ Build.Passes (.error e : Build α) := by
  rintro ⟨a, ⟨⟩⟩

theorem Build.passes_bind {α β : Type} {x : Build α} {g : α → Build β} :
    Build.Passes (x.bind g) ↔ ∃ a, x = .ok a ∧ Build.Passes (g a) := by
  cases x <;> simp

theorem Build.passes_ite {α : Type} {c : Prop} [Decidable c] {a : α} {e : ConfigError} :
    Build.Passes (if c then .ok a else .error e) ↔ c := by
  split <;> simp [*]

theorem Build.ite_eq_ok {α : Type} {c : Prop} [Decidable c] {a b : α} {e : ConfigError} :
    (if c then .ok a else .error e : Build α) = .ok b ↔ c ∧ a = b := by
  split <;> simp [*]

theorem checkFormat_eq_ok {p : FormatParam} {q : Fmt} : checkFormat p = .ok q ↔ p.wellFormed = true ∧ p.checked = q := by
  rw [checkFormat_eq, Build.ite_eq_ok]

theorem checkPayloadFormat_eq_ok {p : FormatParam} {q : Fmt} :
    checkPayloadFormat p = .ok q ↔ p.payloadFormed = true ∧ p.checked = q := by
  rw [checkPayloadFormat_eq, FormatParam.payloadFormed_iff]
  split <;> simp [Build.ite_eq_ok, *]

theorem checkTwiddleFormat_eq_ok {p : FormatParam} {q : Fmt} :
    checkTwiddleFormat p = .ok q ↔ p.twiddleFormed = true ∧ p.checked = q := by
  rw [checkTwiddleFormat_eq, Build.ite_eq_ok]

theorem checkValue_eq_ok {v : ValueParam} {u : Fx} :
    checkValue v = .ok u ↔ v.wellFormed = true ∧ Fx.mk v.raw v.fmt.checked = u := by
  rw [checkValue_eq, ValueParam.wellFormed, Bool.and_eq_true]
  split <;> simp [Build.ite_eq_ok, *]

theorem checkComplex_eq_ok {x : ComplexParam} {y : Cx} :
    checkComplex x = .ok y ↔ x.wellFormed = true ∧ Cx.mk x.re x.im x.fmt.checked = y := by
  rw [checkComplex_eq, ComplexParam.wellFormed, Bool.and_assoc]
  simp only [Bool.and_eq_true (x.fmt.wellFormed)]
  split <;> simp only [Build.ite_eq_ok, *, true_and, false_and, reduceCtorEq]

theorem checkLanes_eq_ok_iff {n : Int} {k : Nat} : checkLanes n = .ok k ↔ lanesFormed n = true ∧ n.toNat = k := by
  rw [checkLanes_eq, Build.ite_eq_ok]

theorem checkLink_eq_ok {p : FormatParam} {n : Int} {l : LinkFmt} :
    checkLink p n = .ok l ↔ p.payloadFormed = true ∧ lanesFormed n = true ∧ LinkFmt.mk p.checked n.toNat = l := by
  simp only [checkLink, Build.bind_eq_ok, checkPayloadFormat_eq_ok, checkLanes_eq_ok_iff, Except.ok.injEq, and_assoc,
    exists_and_left, exists_eq_left']

theorem checkSize_eq_ok_iff {least n : Int} {k : Nat} :
    checkSize least n = .ok k ↔ sizeFormed least n = true ∧ Nat.log2 n.toNat = k := by
  rw [checkSize_eq, Build.ite_eq_ok]

theorem checkRounding_eq_ok {r : Rounding} {u : Unit} : checkRounding r = .ok u ↔ r.wellFormed = true := by
  cases r <;> simp [checkRounding, Rounding.wellFormed]

theorem checkImpl_eq_ok {d : DelayImpl} {u : Unit} : checkImpl d = .ok u ↔ d.wellFormed = true := by
  cases d <;> simp [checkImpl, DelayImpl.wellFormed]

theorem checkTwiddleStage_passes {n : Int} {p tw : FormatParam} :
    Build.Passes (checkTwiddleStage n p tw none) ↔ sizeFormed 4 n = true ∧ p.payloadFormed = true ∧ tw.twiddleFormed = true := by
  simp only [checkTwiddleStage, requireComplex, Build.passes_bind, checkSize_eq_ok_iff, checkPayloadFormat_eq_ok,
    checkTwiddleFormat_eq_ok, Build.passes_ok, and_assoc, exists_and_left, exists_eq_left', exists_const, true_and, and_true,
    exists_eq']

theorem checkPositions_eq_ok {j k : Int} {r : Nat × Nat} :
    checkPositions j k = .ok r ↔ (k < j ∧ 0 ≤ k) ∧ (j.toNat, k.toNat) = r := Build.ite_eq_ok

/-- The twiddle format counts from size 8 on only. -/
theorem checkFftTwiddle_passes {n : Int} (hn : sizeFormed 2 n = true) {tw : FormatParam} :
    Build.Passes (checkFftTwiddle (Nat.log2 n.toNat) tw) ↔ n < 8 ∨ tw.twiddleFormed = true := by
  have hsmall : Nat.log2 n.toNat < 3 ↔ n < 8 := by
    have hpos : 2 ≤ n := (by simpa [sizeFormed] using hn : 2 ≤ n ∧ _).1
    rw [Nat.log2_lt (by omega)]
    omega
  unfold checkFftTwiddle
  by_cases h : n < 8
  · simp [hsmall.2 h, h]
  · rw [if_neg (mt hsmall.1 h), checkTwiddleFormat_eq, Build.passes_ite]
    simp [h]

/-! ### A `PipeReg`'s function (log entry 11) -/

theorem Build.toOption_bind {α β : Type} (x : Build α) (g : α → Build β) :
    (x.bind g).toOption = x.toOption.bind fun a => (g a).toOption := by cases x <;> rfl

/-- What a written lane gives, where every part of it is legal, is the format its check finds. -/
theorem resultFormat_param {l : LinkFmt} (e : LaneExprParam) :
    e.resultFormat l.lanes l.fmt.param = (checkLaneExpr l e).toOption.map fun c => (c.resultFmt l.fmt).param := by
  induction e with
  | inRe => rfl
  | inIm =>
    by_cases h : l.lanes = 2
    · simp [LaneExprParam.resultFormat, checkLaneExpr, requireTwoLanes, h, LaneExpr.resultFmt, Except.toOption]
    · have h' : ¬ (l.lanes : Int) = 2 := by omega
      simp [LaneExprParam.resultFormat, checkLaneExpr, requireTwoLanes, h, h', Except.toOption]
  | const v =>
    by_cases h : v.wellFormed = true
    · have hv := checkValue_eq_ok.2 ⟨h, rfl⟩
      have hfmt : v.fmt.wellFormed = true := (Bool.and_eq_true_iff.1 h).1
      simp [LaneExprParam.resultFormat, checkLaneExpr, hv, h, LaneExpr.resultFmt, FormatParam.param_checked hfmt,
        Except.toOption]
    · cases hv : checkValue v with
      | ok u => exact absurd (checkValue_eq_ok.1 hv).1 h
      | error e => simp [LaneExprParam.resultFormat, checkLaneExpr, hv, h, Except.toOption]
  | add a b iha ihb | sub a b iha ihb | mul a b iha ihb =>
    simp only [LaneExprParam.resultFormat, checkLaneExpr, iha, ihb, Build.toOption_bind]
    cases (checkLaneExpr l a).toOption <;> cases (checkLaneExpr l b).toOption <;>
      simp [Except.toOption, LaneExpr.resultFmt, Fmt.sum, Fmt.product, Fmt.param]
  | reshape a p rounding ih =>
    simp only [LaneExprParam.resultFormat, checkLaneExpr, ih, Build.toOption_bind]
    cases (checkLaneExpr l a).toOption with
    | none => rfl
    | some c =>
      by_cases hp : p.wellFormed = true
      · cases rounding <;>
          simp [checkFormat_eq, hp, checkRounding, Rounding.wellFormed, Except.toOption, LaneExpr.resultFmt,
            FormatParam.param_checked hp]
      · simp [checkFormat_eq, hp, Except.toOption]
  | rshift a n ih =>
    simp only [LaneExprParam.resultFormat, checkLaneExpr, ih, Build.toOption_bind]
    cases (checkLaneExpr l a).toOption with
    | none => rfl
    | some c =>
      by_cases hn : n < 0
      · simp [checkShift, checkAtLeast, hn, Int.not_le.2 hn, Except.toOption]
      · simp [checkShift, checkAtLeast, hn, Int.not_lt.1 hn, Except.toOption, LaneExpr.resultFmt]
  | neg a ih =>
    simp only [LaneExprParam.resultFormat, checkLaneExpr, ih, Build.toOption_bind]
    cases (checkLaneExpr l a).toOption with
    | none => rfl
    | some c =>
      cases hs : (c.resultFmt l.fmt).signed <;> simp [requireSigned, hs, Except.toOption, LaneExpr.resultFmt, Fmt.param]
  | select s bit a b ihs iha ihb =>
    simp only [LaneExprParam.resultFormat, checkLaneExpr, ihs, iha, ihb, Build.toOption_bind]
    cases (checkLaneExpr l s).toOption with
    | none => rfl
    | some cs =>
      cases (checkLaneExpr l a).toOption with
      | none => rfl
      | some ca =>
        cases (checkLaneExpr l b).toOption with
        | none => rfl
        | some cb =>
          by_cases h : ca.resultFmt l.fmt = cb.resultFmt l.fmt <;>
            simp [h, Fmt.param_injective, Except.toOption, LaneExpr.resultFmt]

/-- A written function passes exactly where its lanes are legal and share one signed format. -/
theorem checkCombFn_passes {l : LinkFmt} (c : CombFnParam) :
    Build.Passes (checkCombFn l c) ↔ c.wellFormed l.lanes l.fmt.param = true := by
  unfold checkCombFn CombFnParam.wellFormed
  rw [resultFormat_param]
  cases hre : checkLaneExpr l c.re with
  | error e => simp [Except.toOption]
  | ok re =>
    simp only [Except.toOption, Option.map_some, Build.ok_bind]
    cases hs : (re.resultFmt l.fmt).signed with
    | false => simp [requireSigned, hs, Fmt.param]
    | true =>
      have hparam : (re.resultFmt l.fmt).param.signed = true := hs
      simp only [requireSigned, hs, if_true, Build.ok_bind, hparam, Bool.true_and]
      cases c.im with
      | none => simp
      | some im =>
        dsimp only
        rw [resultFormat_param]
        cases him : checkLaneExpr l im with
        | error e => simp [Except.toOption]
        | ok im' =>
          rw [Build.ok_bind, Build.passes_ite]
          simp [Except.toOption, Fmt.param_injective]

theorem lanesFormed_toNat {n : Int} (h : lanesFormed n = true) : (n.toNat : Int) = n := by
  obtain h | h : n = 1 ∨ n = 2 := by simpa [lanesFormed] using h
  all_goals omega

theorem checkPipeFn_passes (g : PipeFnParam) : Build.Passes (checkPipeFn g) ↔ g.wellFormed = true := by
  unfold checkPipeFn PipeFnParam.wellFormed
  simp only [Build.passes_bind, checkLink_eq_ok, and_assoc, exists_and_left, exists_eq_left', Bool.and_eq_true]
  refine and_congr_right fun hp => and_congr_right fun hlanes => ?_
  cases g.g with
  | none => simp
  | some c =>
    have hwf := (FormatParam.payloadFormed_iff.1 hp).1
    have hc := checkCombFn_passes (l := ⟨g.fmt.checked, g.lanes.toNat⟩) c
    rwa [lanesFormed_toNat hlanes, FormatParam.param_checked hwf] at hc

/-! ### The CIC filters (R173, R181, R185) -/

theorem checkWidthOut_eq_ok_iff {full : Nat} {w : Option Int} {o : Option Nat} :
    checkWidthOut full w = .ok o ↔ widthOutFormed full w = true ∧ w.map Int.toNat = o := by
  cases w with
  | none => simp [checkWidthOut, widthOutFormed]
  | some w =>
    simp only [checkWidthOut, widthOutFormed]
    rw [← ite_not, Build.ite_eq_ok]
    simp [not_or]

theorem checkOutFmt_eq_ok {width : Nat} {q : Option FormatParam} {o : Option Fmt} :
    checkOutFmt width q = .ok o ↔ outFmtFormed width q = true ∧ q.map FormatParam.checked = o := by
  cases q with
  | none => simp [checkOutFmt, outFmtFormed]
  | some q =>
    simp only [checkOutFmt, Build.bind_eq_ok, checkPayloadFormat_eq_ok, and_assoc, exists_and_left, exists_eq_left',
      Build.ite_eq_ok, outFmtFormed, Bool.and_eq_true, beq_iff_eq, Option.map_some]
    refine and_congr_right fun hq => and_congr_left fun _ => ?_
    rw [← FormatParam.checked_width (FormatParam.payloadFormed_iff.1 hq).1]
    exact Int.ofNat_inj.symm

theorem getD_toNat_of_widthOutFormed {full : Nat} {w : Option Int} (h : widthOutFormed full w = true) :
    (((w.map Int.toNat).getD full : Nat) : Int) = w.getD full := by
  cases w with
  | none => rfl
  | some w =>
    have hw : 1 ≤ w ∧ w ≤ full := by simpa [widthOutFormed] using h
    exact Int.toNat_of_nonneg (by omega)

/-- The filters' checks pass exactly on their domain, whose bound of the width is the full width. -/
theorem buildFilter_passes {n r m : Int} {p : FormatParam} {lanes : Int} {widthOut : Option Int}
    {outFmt : Option FormatParam} {full : Nat → Nat → Nat → Nat → Nat} {fullInt : Int}
    {stages : Nat → Nat → Nat → Nat → Nat → Nat → Option Nat → List Stage}
    (hfull : 1 ≤ n → 1 ≤ r → 1 ≤ m → p.payloadFormed = true → full n.toNat r.toNat m.toNat p.checked.width = fullInt) :
    Build.Passes (buildFilter n r m p lanes widthOut outFmt full stages) ↔
      (1 ≤ n && 1 ≤ r && 1 ≤ m && p.payloadFormed && lanesFormed lanes && widthOutFormed fullInt widthOut &&
        outFmtFormed (widthOut.getD fullInt) outFmt) = true := by
  simp only [buildFilter, Build.passes_bind, checkAtLeast_eq_ok, checkPayloadFormat_eq_ok, checkWidthOut_eq_ok_iff,
    checkOutFmt_eq_ok, checkLanes_eq_ok_iff, Build.passes_ok, and_assoc, exists_and_left, exists_eq_left, exists_eq_left',
    and_true, exists_eq', Bool.and_eq_true, decide_eq_true_eq]
  refine and_congr_right fun hn => and_congr_right fun hr => and_congr_right fun hm => and_congr_right fun hp => ?_
  rw [← hfull hn hr hm hp, and_left_comm (a := lanesFormed lanes = true)]
  refine and_congr_right fun hw => ?_
  rw [getD_toNat_of_widthOutFormed hw, and_comm]

theorem fullWidth_toNat {n r m : Int} {w : Nat} (hr : 1 ≤ r) (hm : 1 ≤ m) :
    (fullWidth n.toNat r.toNat m.toNat w : Int) = fullWidthDown n r m w := by
  rw [fullWidth, fullWidthDown, Int.toNat_mul (by omega) (by omega), Nat.cast_add]

theorem fullWidthUpsampling_toNat {n r m : Int} {w : Nat} (hn : 1 ≤ n) (hr : 1 ≤ r) (hm : 1 ≤ m) :
    (fullWidthUpsampling n.toNat r.toNat m.toNat w : Int) = fullWidthUp n r m w := by
  have hlast : ¬ 2 * n.toNat ≤ n.toNat := by omega
  rw [fullWidthUpsampling, upWidth, cicGrowthAt, if_neg hlast, fullWidthUp, Int.toNat_mul (by omega) (by omega), Nat.cast_add,
    Nat.sub_self, pow_zero, one_mul, show 2 * n.toNat - n.toNat = n.toNat by omega]

/-! ### Completion (R11, R57, R260) -/

/-- The operation ends in a next state where `ok` is true, in a configuration error where it is false. -/
def Completes (o : Outcome) (ok : Bool) : Prop :=
  (ok = true → ∃ t, o = .next t) ∧ (ok = false → ∃ e, o = .fault (.configError e))

theorem Completes.deliver {s : State} {b : Build Result} {ok : Bool} (h : b.Passes ↔ ok = true) :
    Completes (deliver s b) ok := by
  cases b with
  | ok r => exact ⟨fun _ => ⟨_, rfl⟩, fun hf => absurd (h.1 (Build.passes_ok r)) (by simp [hf])⟩
  | error e => exact ⟨fun ht => absurd (h.2 ht) (Build.not_passes_error e), fun _ => ⟨e, rfl⟩⟩

theorem Completes.construct {s : State} {build : Option LinkFmt → Build Pipeline} {ok : Bool} (h0 : s.ticks = 0)
    (hp : s.pipeline = none) (h : (build none).Passes ↔ ok = true) : Completes (construct s build) ok := by
  have hopen : s.openLink = none := by rw [State.openLink, hp]; rfl
  unfold Machine.construct
  rw [if_pos h0, hopen, hp]
  cases hb : build none with
  | ok u => exact ⟨fun _ => ⟨_, rfl⟩, fun hf => absurd (h.1 ⟨u, hb⟩) (by simp [hf])⟩
  | error e => exact ⟨fun ht => absurd (hb ▸ h.2 ht) (Build.not_passes_error e), fun _ => ⟨e, rfl⟩⟩

theorem Completes.constructDelay {s : State} {b : Build DelayUnit} {ok : Bool} (h0 : s.ticks = 0)
    (h : b.Passes ↔ ok = true) : Completes (constructDelay s b) ok := by
  unfold Machine.constructDelay
  rw [if_pos h0]
  cases b with
  | ok u => exact ⟨fun _ => ⟨_, rfl⟩, fun hf => absurd (h.1 (Build.passes_ok u)) (by simp [hf])⟩
  | error e => exact ⟨fun ht => absurd (h.2 ht) (Build.not_passes_error e), fun _ => ⟨e, rfl⟩⟩

/-- A construction from one check of its parameters passes exactly where the check does. -/
theorem Build.passes_bind_ok {α β : Type} {x : Build α} {g : α → β} : Build.Passes (x.bind fun a => .ok (g a)) ↔ x.Passes := by
  cases x <;> simp

theorem execComplex_passes {re im : ValueParam} : Build.Passes ((checkValue re).bind fun re => (checkValue im).bind fun im =>
      if re.fmt = im.fmt then .ok (Result.complex (Cx.ofLanes re im)) else .error .malformedComplex) ↔
    (re.wellFormed && im.wellFormed && re.fmt == im.fmt) = true := by
  simp only [Build.passes_bind, checkValue_eq_ok, and_assoc, exists_and_left, exists_eq_left', Build.passes_ite,
    Bool.and_eq_true, beq_iff_eq]
  refine and_congr_right fun hre => and_congr_right fun him => ?_
  rw [← Fmt.param_injective, FormatParam.param_checked (Bool.and_eq_true_iff.1 hre).1,
    FormatParam.param_checked (Bool.and_eq_true_iff.1 him).1]

theorem execCicTruncation_passes {n r m wIn : Int} {widthOut : Option Int} :
    Build.Passes ((checkAtLeast 1 .badOrder n).bind fun n => (checkAtLeast 1 .badRate r).bind fun r =>
      (checkAtLeast 1 .badDelay m).bind fun m => (checkWidth wIn).bind fun w =>
        (checkWidthOut (fullWidth n r m w) widthOut).bind fun out => .ok (Result.truncation (cicTruncate n r m w out))) ↔
      (1 ≤ n && 1 ≤ r && 1 ≤ m && 1 ≤ wIn && widthOutFormed (fullWidthDown n r m wIn) widthOut) = true := by
  simp only [Build.passes_bind, checkWidth, checkAtLeast_eq_ok, checkWidthOut_eq_ok_iff, Build.passes_ok, and_assoc,
    exists_and_left, exists_eq_left, and_true, exists_eq', Bool.and_eq_true, decide_eq_true_eq]
  refine and_congr_right fun hn => and_congr_right fun hr => and_congr_right fun hm => and_congr_right fun hw => ?_
  rw [fullWidth_toNat hr hm, Int.toNat_of_nonneg (by omega)]

theorem execSerialFft_passes {n : Int} {p tw : FormatParam} {f : Nat → Fmt → Fmt → Pipeline} :
    Build.Passes ((checkSize 2 n).bind fun bits => (checkPayloadFormat p).bind fun p => (requireComplex none).bind fun _ =>
      (checkFftTwiddle bits tw).bind fun tw => .ok (f bits p tw)) ↔
      (sizeFormed 2 n && p.payloadFormed && (n < 8 || tw.twiddleFormed)) = true := by
  simp only [requireComplex, Build.ok_bind, Build.passes_bind, checkSize_eq_ok_iff,
    checkPayloadFormat_eq_ok, and_assoc, exists_and_left, exists_eq_left', Bool.and_eq_true, Bool.or_eq_true, decide_eq_true_eq]
  refine and_congr_right fun hn => and_congr_right fun _ => ?_
  rw [← checkFftTwiddle_passes hn]
  simp only [Build.passes_ok, and_true]
  rfl

/-- Every operation, on a machine with nothing built. -/
theorem exec_completes (i : Instr) {s : State} (h0 : s.ticks = 0) (hp : s.pipeline = none) : Completes (exec i s) i.wellFormed := by
  unfold exec Instr.wellFormed
  cases i with
  | fixedPointConst | add | sub | mul =>
    exact Completes.deliver (by simp [Build.passes_bind, checkValue_eq_ok, ValueParam.wellFormed])
  | reshape | rshift | neg =>
    exact Completes.deliver (by
      simp [Build.passes_bind, checkValue_eq_ok, checkFormat_eq_ok, checkRounding_eq_ok, checkShift, checkAtLeast_eq_ok,
        requireSigned_eq_ok, and_assoc])
  | complex => exact Completes.deliver execComplex_passes
  | cAdd | cSub | cMul | cMul3 | cScale =>
    exact Completes.deliver (by simp [Build.passes_bind, checkComplex_eq_ok, checkValue_eq_ok])
  | cRshift | cReshape | cMulnegj =>
    exact Completes.deliver (by
      simp [Build.passes_bind, checkComplex_eq_ok, checkFormat_eq_ok, checkRounding_eq_ok, checkShift, checkAtLeast_eq_ok,
        requireSigned_eq_ok, and_assoc])
  | delay =>
    exact Completes.constructDelay h0 (by
      simp [Build.passes_bind, checkDepth, checkAtLeast_eq_ok, checkLink_eq_ok, checkImpl_eq_ok, EntryTypeParam.wellFormed,
        and_assoc])
  | skidBuffer | streamDelay =>
    exact Completes.construct h0 hp (by
      simp [Build.passes_bind, checkDepth, checkAtLeast_eq_ok, checkLink_eq_ok, checkImpl_eq_ok, and_assoc])
  | pipeReg g => exact Completes.construct h0 hp (Build.passes_bind_ok.trans (checkPipeFn_passes g))
  | integrator | comb | upsampler | downsampler | requant =>
    exact Completes.construct h0 hp (by
      simp [Build.passes_bind, checkShift, checkWidth, checkAtLeast_eq_ok, checkLanes_eq_ok_iff, and_assoc])
  | cicGrowth => exact Completes.deliver (by simp [Build.passes_bind, checkAtLeast_eq_ok, and_assoc])
  | cicTruncation => exact Completes.deliver execCicTruncation_passes
  | cicUpsamplingFilter n r m p =>
    refine Completes.construct h0 hp (buildFilter_passes fun hn hr hm hf => ?_)
    rw [fullWidthUpsampling_toNat hn hr hm, FormatParam.checked_width (FormatParam.payloadFormed_iff.1 hf).1]
  | cicDownsamplingFilter n r m p =>
    refine Completes.construct h0 hp (buildFilter_passes fun _ hr hm hf => ?_)
    rw [fullWidth_toNat hr hm, FormatParam.checked_width (FormatParam.payloadFormed_iff.1 hf).1]
  | sdfRadix2Stage | r22TwiddleStage =>
    exact Completes.construct h0 hp (by
      simp [Build.passes_bind, checkSize_eq_ok_iff, checkPayloadFormat_eq_ok, requireComplex])
  | twiddleStageDirect | twiddleStageThreeMult =>
    exact Completes.construct h0 hp (Build.passes_bind_ok.trans (checkTwiddleStage_passes.trans (by simp [and_assoc])))
  | twiddleTable =>
    exact Completes.deliver (by simp [Build.passes_bind, checkSize_eq_ok_iff, checkTwiddleFormat_eq_ok])
  | serialBitExchange | serialBitReversal =>
    exact Completes.construct h0 hp (by
      simp [Build.passes_bind, checkPositions_eq_ok, checkSize_eq_ok_iff, checkLink_eq_ok, and_assoc])
  | serialFFT => exact Completes.construct h0 hp execSerialFft_passes

/-- Settles O37. -/
theorem completesExactlyInItsDomain : Obligations.CompletesExactlyInItsDomain := fun i _ h0 hp => exec_completes i h0 hp

/-! ### The order of the checks (R254, R185, R263) -/

/-- A unit on a link the machine does not end in is not joined (R60). -/
theorem construct_of_mismatch {s : State} {l : LinkFmt} {u : Pipeline} {build : Option LinkFmt → Build Pipeline}
    (h0 : s.ticks = 0) (hopen : s.openLink = some l) (hb : build s.openLink = .ok u) (hne : l ≠ u.inLink) :
    construct s build = .fault (.configError .formatMismatch) := by
  obtain ⟨p, hp, rfl⟩ := Option.map_eq_some_iff.1 hopen
  rw [construct, if_pos h0, hb, hp, Build.ok_bind, join, if_neg hne]
  rfl

/-- Settles O38: each clause names the first check that fails. -/
theorem serialFftErrorsInOrder : Obligations.SerialFftErrorsInOrder := by
  intro s n p tw bitrev skid variant t h0 ht
  change t = execSerialFft n p bitrev tw variant skid s at ht
  have hpayload (h : p.payloadFormed = true) : checkPayloadFormat p = .ok p.checked := checkPayloadFormat_eq_ok.2 ⟨h, rfl⟩
  have hsize (h : sizeFormed 2 n = true) : checkSize 2 n = .ok (Nat.log2 n.toNat) := checkSize_eq_ok_iff.2 ⟨h, rfl⟩
  refine ⟨fun hn => ?_, fun hn hp => ?_, fun hn hp hs => ?_, fun hn hp l hl => ⟨fun hlanes => ?_, fun hlanes htw hne => ?_⟩,
    fun hn hp hlanes h8 htw => ?_⟩
  · exact ht.trans (construct_of_error h0 (by simp [checkSize_eq, hn]))
  · exact ht.trans (construct_of_error h0 (by simp [hsize hn, checkPayloadFormat_eq, hp]))
  · exact ht.trans (construct_of_error h0 (by simp [hsize hn, checkPayloadFormat_eq, hp, hs]))
  · exact ht.trans (construct_of_error h0 (by simp [hsize hn, hpayload hp, hl, requireComplex, hlanes]))
  · obtain ⟨tw', htw'⟩ : Build.Passes (checkFftTwiddle (Nat.log2 n.toNat) tw) :=
      (checkFftTwiddle_passes hn).2 ((Int.lt_or_le n 8).imp_right htw)
    refine ht.trans (construct_of_mismatch h0 hl
      (u := ⟨⟨p.checked, 2⟩, fftStages (Nat.log2 n.toNat) p.checked tw' bitrev variant skid⟩)
      (by simp [hsize hn, hpayload hp, hl, requireComplex, hlanes, htw']) ?_)
    rintro rfl
    exact hne (FormatParam.param_checked (FormatParam.payloadFormed_iff.1 hp).1)
  · have hcomplex : requireComplex s.openLink = .ok () := by
      cases hl : s.openLink with
      | none => rfl
      | some l => exact if_pos (hlanes l hl)
    have htwiddle : checkFftTwiddle (Nat.log2 n.toNat) tw = .error .badFormat := by
      have hlog : ¬ Nat.log2 n.toNat < 3 := by
        rw [Nat.log2_lt (by omega)]
        omega
      rw [checkFftTwiddle, if_neg hlog, checkTwiddleFormat_eq, if_neg (by simp [htw])]
    exact ht.trans (construct_of_error h0 (by simp [hsize hn, hpayload hp, hcomplex, htwiddle]))

section
variable {n r m : Int} {p : FormatParam} {lanes : Int} {widthOut : Option Int} {outFmt : Option FormatParam}
  {full : Nat → Nat → Nat → Nat → Nat} {stages : Nat → Nat → Nat → Nat → Nat → Nat → Option Nat → List Stage}

/-- The order of the checks both filters share. -/
theorem buildFilter_errors {b : Build Pipeline} (hb : b = buildFilter n r m p lanes widthOut outFmt full stages) :
    (n < 1 → b = .error .badOrder) ∧ (1 ≤ n → r < 1 → b = .error .badRate) ∧
    (1 ≤ n → 1 ≤ r → m < 1 → b = .error .badDelay) ∧
    (1 ≤ n → 1 ≤ r → 1 ≤ m → p.wellFormed = false → b = .error .badFormat) ∧
    (1 ≤ n → 1 ≤ r → 1 ≤ m → p.wellFormed = true → p.signed = false → b = .error .unsignedPayload) ∧
    (1 ≤ n → 1 ≤ r → 1 ≤ m → p.payloadFormed = true → ∀ w, widthOut = some w →
      w < 1 ∨ (full n.toNat r.toNat m.toNat p.checked.width : Int) < w → b = .error .badWidth) := by
  subst hb
  unfold buildFilter
  refine ⟨fun hn => ?_, fun hn hr => ?_, fun hn hr hm => ?_, fun hn hr hm hp => ?_, fun hn hr hm hp hs => ?_,
    fun hn hr hm hp w hw hbound => ?_⟩
  · rw [checkAtLeast_of_lt hn, Build.error_bind]
  · rw [checkAtLeast_of_le hn, Build.ok_bind, checkAtLeast_of_lt hr, Build.error_bind]
  · simp [checkAtLeast_of_le, hn, hr, checkAtLeast_of_lt hm]
  · simp [checkAtLeast_of_le, hn, hr, hm, checkPayloadFormat_eq, hp]
  · simp [checkAtLeast_of_le, hn, hr, hm, checkPayloadFormat_eq, hp, hs]
  · simp [checkAtLeast_of_le, hn, hr, hm, checkPayloadFormat_eq_ok.2 ⟨hp, rfl⟩, hw, checkWidthOut, hbound]

end

theorem exec_cicTruncation_errors {s : State} {n r m wIn : Int} {widthOut : Option Int} {t : Outcome}
    (ht : t = exec (.cicTruncation n r m wIn widthOut) s) :
    (n < 1 → t = .fault (.configError .badOrder)) ∧ (1 ≤ n → r < 1 → t = .fault (.configError .badRate)) ∧
    (1 ≤ n → 1 ≤ r → m < 1 → t = .fault (.configError .badDelay)) ∧
    (1 ≤ n → 1 ≤ r → 1 ≤ m → wIn < 1 → t = .fault (.configError .badWidth)) ∧
    (1 ≤ n → 1 ≤ r → 1 ≤ m → 1 ≤ wIn → ∀ w, widthOut = some w →
      w < 1 ∨ (fullWidth n.toNat r.toNat m.toNat wIn.toNat : Int) < w → t = .fault (.configError .badWidth)) := by
  change t = execCicTruncation n r m wIn widthOut s at ht
  subst ht
  unfold execCicTruncation
  refine ⟨fun hn => ?_, fun hn hr => ?_, fun hn hr hm => ?_, fun hn hr hm hw => ?_, fun hn hr hm hw w ho hbound => ?_⟩
  · rw [checkAtLeast_of_lt hn, Build.error_bind, deliver_error]
  · rw [checkAtLeast_of_le hn, Build.ok_bind, checkAtLeast_of_lt hr, Build.error_bind, deliver_error]
  · simp [checkAtLeast_of_le, hn, hr, checkAtLeast_of_lt hm]
  · simp [checkWidth, checkAtLeast_of_le, hn, hr, hm, checkAtLeast_of_lt hw]
  · simp [checkWidth, checkAtLeast_of_le, hn, hr, hm, hw, ho, checkWidthOut, hbound]

/-- Settles O39. -/
theorem cicFilterErrorsInOrder : Obligations.CicFilterErrorsInOrder := by
  refine ⟨?_, ?_, ?_⟩
  · intro s n r m p lanes widthOut outFmt t h0 ht
    obtain ⟨full, stages, rfl⟩ : ∃ full stages, t = construct s fun _ => buildFilter n r m p lanes widthOut outFmt full stages := by
      obtain rfl | rfl := ht
      · exact ⟨fullWidthUpsampling, upsamplingStages, rfl⟩
      · exact ⟨fullWidth, downsamplingStages, rfl⟩
    obtain ⟨horder, hrate, hdelay, hformat, hsigned, hwidth⟩ :=
      buildFilter_errors (rfl : _ = buildFilter n r m p lanes widthOut outFmt full stages)
    exact ⟨fun hn => construct_of_error h0 (horder hn), fun hn hr => construct_of_error h0 (hrate hn hr),
      fun hn hr hm => construct_of_error h0 (hdelay hn hr hm), fun hn hr hm hp => construct_of_error h0 (hformat hn hr hm hp),
      fun hn hr hm hp hs => construct_of_error h0 (hsigned hn hr hm hp hs),
      fun hn hr hm hp w ho hw => construct_of_error h0 (hwidth hn hr hm hp w ho (.inl hw))⟩
  · intro s n r m p lanes w outFmt hn hr hm hp hs
    have hn' : (1 : Int) ≤ n := by omega
    have hr' : (1 : Int) ≤ r := by omega
    have hm' : (1 : Int) ≤ m := by omega
    have hpf : p.param.payloadFormed = true := FormatParam.payloadFormed_iff.2 ⟨(Fmt.param_wellFormed p).trans hp, hs⟩
    have hchecked : p.param.checked = p := Fmt.param_injective.1 (FormatParam.param_checked (FormatParam.payloadFormed_iff.1 hpf).1)
    have hfilter {full stages} (hfull : full n r m p.width < w) :
        buildFilter n r m p.param lanes (some (w : Int)) outFmt full stages = .error .badWidth :=
      (buildFilter_errors rfl).2.2.2.2.2 hn' hr' hm' hpf w rfl (.inr (by simpa [hchecked] using hfull))
    refine ⟨fun hg h0 => ?_, fun hg => ?_⟩
    · change execCicUpsamplingFilter _ _ _ _ _ _ _ s = _
      exact construct_of_error h0 (hfilter (hg _ ((isGrowth_iff hr).2 rfl)))
    · have hfull : fullWidth n r m p.width < w := by
        have hlt := hg _ (fullWidth_least (wIn := p.width))
        unfold fullWidth at *
        omega
      refine ⟨fun h0 => ?_, ?_⟩
      · change execCicDownsamplingFilter _ _ _ _ _ _ _ s = _
        exact construct_of_error h0 (hfilter hfull)
      refine (exec_cicTruncation_errors rfl).2.2.2.2 hn' hr' hm' ?_ w rfl (.inr (by simpa using hfull))
      have := Fmt.one_le_width hp
      omega
  · intro s n r m wIn widthOut t ht
    obtain ⟨horder, hrate, hdelay, hwidthIn, hwidth⟩ := exec_cicTruncation_errors ht
    exact ⟨horder, hrate, hdelay, hwidthIn, fun hn hr hm hw w ho hlt => hwidth hn hr hm hw w ho (.inl hlt)⟩

/-! ### What raises each error (R262) -/

theorem sizeFormed_false {least n : Int} (h : sizeFormed least n = false) : checkSize least n = .error .notPowerOfTwo := by
  rw [checkSize_eq, if_neg (by simp [h])]

section
variable {s : State} {fmt tw : FormatParam}

theorem exec_fixedPointConst_badFormat {raw : Int} (h : fmt.wellFormed = false) :
    exec (.fixedPointConst fmt raw) s = .fault (.configError .badFormat) := by
  change deliver _ _ = _
  simp [checkValue_eq, h]

theorem exec_fixedPointConst_out_of_range {raw : Int} (h : fmt.wellFormed = true) (hr : fmt.holds raw = false) :
    exec (.fixedPointConst fmt raw) s = .fault (.configError .constOutOfRange) := by
  change deliver _ _ = _
  simp [checkValue_eq, h, hr]

theorem exec_complex_malformed {a b : Fx} (ha : a.legal = true) (hb : b.legal = true) (hne : a.fmt ≠ b.fmt) :
    exec (.complex a.param b.param) s = .fault (.configError .malformedComplex) := by
  change deliver _ _ = _
  simp [ha, hb, hne]

theorem exec_cMulnegj_of_unsigned {x : Cx} (hx : x.legal = true) (hs : x.fmt.signed = false) :
    exec (.cMulnegj x.param) s = .fault (.configError .unsignedPayload) := by
  change deliver _ _ = _
  simp [hx, requireSigned, hs]

theorem exec_cReshape_other {x : Cx} {p : Fmt} (hx : x.legal = true) (hp : p.legal = true) (policy : Nat) :
    exec (.cReshape x.param p.param (.other policy)) s = .fault (.configError .unknownRounding) := by
  change deliver _ _ = _
  simp [hx, hp, checkRounding]

theorem exec_cRshift_of_neg {x : Cx} (hx : x.legal = true) {n : Int} (hn : n < 0) :
    exec (.cRshift x.param n) s = .fault (.configError .badShift) := by
  change deliver _ _ = _
  simp [hx, checkShift_of_neg hn]

theorem exec_cicGrowth_badOrder {n : Int} (r m : Int) (hn : n < 1) :
    exec (.cicGrowth n r m) s = .fault (.configError .badOrder) := by
  change deliver _ _ = _
  simp [checkAtLeast_of_lt hn]

theorem exec_twiddleTable_notPowerOfTwo {n : Int} (h : sizeFormed 4 n = false) :
    exec (.twiddleTable n tw) s = .fault (.configError .notPowerOfTwo) := by
  change deliver _ _ = _
  simp [sizeFormed_false h]

theorem exec_twiddleTable_badFormat (h : tw.twiddleFormed = false) :
    exec (.twiddleTable 4 tw) s = .fault (.configError .badFormat) := by
  change deliver _ _ = _
  have hsize : checkSize 4 4 = .ok 2 := checkSize_two_pow (k := 2) le_rfl
  simp [hsize, checkTwiddleFormat_eq, h]

variable (h0 : s.ticks = 0)
include h0

theorem exec_skidBuffer_unsigned (h : fmt.wellFormed = true) (hs : fmt.signed = false) :
    exec (.skidBuffer fmt 1) s = .fault (.configError .unsignedPayload) := by
  change execSkidBuffer _ _ s = _
  exact construct_of_error h0 (by simp [checkLink, checkPayloadFormat_eq, h, hs])

theorem exec_upsampler_badRate {r : Int} (w : Int) (hr : r < 1) :
    exec (.upsampler r w 1) s = .fault (.configError .badRate) := by
  change execUpsampler _ _ _ s = _
  exact construct_of_error h0 (by simp [checkAtLeast_of_lt hr])

theorem exec_downsampler_badRate {r : Int} (w : Int) (hr : r < 1) :
    exec (.downsampler r w 1) s = .fault (.configError .badRate) := by
  change execDownsampler _ _ _ s = _
  exact construct_of_error h0 (by simp [checkAtLeast_of_lt hr])

/-- Every width a CIC stage is built on is checked. -/
theorem exec_cic_badWidth {w : Int} (hw : w < 1) :
    exec (.integrator 4 w 1) s = .fault (.configError .badWidth) ∧
    exec (.integrator w 4 1) s = .fault (.configError .badWidth) ∧
    exec (.comb 4 1 (some w) 1) s = .fault (.configError .badWidth) ∧
    exec (.requant 0 4 w 1) s = .fault (.configError .badWidth) := by
  have hbad : checkWidth w = .error .badWidth := checkAtLeast_of_lt hw
  have hgood : checkWidth 4 = .ok 4 := rfl
  have hdelay : checkAtLeast 1 .badDelay 1 = .ok 1 := rfl
  have hshift : checkShift 0 = .ok 0 := rfl
  change execIntegrator _ _ _ s = _ ∧ execIntegrator _ _ _ s = _ ∧ execComb _ _ _ _ s = _ ∧ execRequant _ _ _ _ s = _
  exact ⟨construct_of_error h0 (by simp [hgood, hbad]), construct_of_error h0 (by simp [hbad]),
    construct_of_error h0 (by simp [hgood, hdelay, hbad]), construct_of_error h0 (by simp [hshift, hgood, hbad])⟩

theorem exec_comb_badDelay {m : Int} (hm : m < 1) : exec (.comb 4 m none 1) s = .fault (.configError .badDelay) := by
  change execComb _ _ _ _ s = _
  have hgood : checkWidth 4 = .ok 4 := rfl
  exact construct_of_error h0 (by simp [hgood, checkAtLeast_of_lt hm])

theorem exec_requant_badShift {k : Int} (w w' lanes : Int) (hk : k < 0) :
    exec (.requant k w w' lanes) s = .fault (.configError .badShift) := by
  change execRequant _ _ _ _ s = _
  exact construct_of_error h0 (by simp [checkShift_of_neg hk])

theorem exec_fft_notPowerOfTwo {n : Int} (h : sizeFormed 4 n = false) :
    exec (.r22TwiddleStage n fmt) s = .fault (.configError .notPowerOfTwo) ∧
    exec (.twiddleStageDirect n fmt tw) s = .fault (.configError .notPowerOfTwo) ∧
    exec (.twiddleStageThreeMult n fmt tw) s = .fault (.configError .notPowerOfTwo) := by
  change execR22TwiddleStage _ _ s = _ ∧ execTwiddleStageDirect _ _ _ s = _ ∧ execTwiddleStageThreeMult _ _ _ s = _
  exact ⟨construct_of_error h0 (by simp [sizeFormed_false h]),
    construct_of_error h0 (by simp [checkTwiddleStage, sizeFormed_false h]),
    construct_of_error h0 (by simp [checkTwiddleStage, sizeFormed_false h])⟩

theorem exec_two_notPowerOfTwo {n : Int} (lanes : Int) (h : sizeFormed 2 n = false) :
    exec (.sdfRadix2Stage n fmt) s = .fault (.configError .notPowerOfTwo) ∧
    exec (.serialBitReversal n fmt lanes) s = .fault (.configError .notPowerOfTwo) := by
  change execSdfRadix2Stage _ _ s = _ ∧ execSerialBitReversal _ _ _ s = _
  exact ⟨construct_of_error h0 (by simp [sizeFormed_false h]), construct_of_error h0 (by simp [sizeFormed_false h])⟩

theorem exec_serialBitExchange_badBitPositions {j k : Int} (lanes : Int) (h : ¬ (k < j ∧ 0 ≤ k)) :
    exec (.serialBitExchange j k fmt lanes) s = .fault (.configError .badBitPositions) := by
  change execSerialBitExchange _ _ _ _ s = _
  exact construct_of_error h0 (by rw [checkPositions_eq, if_neg h, Build.error_bind])

variable {l : LinkFmt}

theorem exec_skidBuffer_mismatch {q : LinkFmt} (hopen : s.openLink = some l) (hq : q.legal = true) (hne : q ≠ l) :
    exec (.skidBuffer q.fmt.param q.lanes) s = .fault (.configError .formatMismatch) := by
  change execSkidBuffer _ _ s = _
  exact construct_of_mismatch h0 hopen (u := (Stage.skidBuffer q false Payload.zero).unit)
    (by simp only [checkLink_param hq, Build.ok_bind]) hne.symm

theorem exec_delays_badDepth {n : Int} (hn : n < 0) :
    exec (.streamDelay n l.fmt.param l.lanes .shiftRegister) s = .fault (.configError .badDepth) ∧
    exec (.delay n ⟨.flagged, l.fmt.param, l.lanes⟩ .shiftRegister) s = .fault (.configError .badDepth) := by
  have hdepth : checkDepth n = .error .badDepth := checkAtLeast_of_lt hn
  change execStreamDelay _ _ _ _ s = _ ∧ execDelay _ _ _ s = _
  exact ⟨construct_of_error h0 (by simp [hdepth]), by simp [execDelay, constructDelay, h0, hdepth, raise]⟩

variable (hl : l.legal = true)
include hl

theorem exec_skidBuffer_badLanes {lanes : Int} (h1 : lanes ≠ 1) (h2 : lanes ≠ 2) :
    exec (.skidBuffer l.fmt.param lanes) s = .fault (.configError .badLanes) := by
  obtain ⟨hf, hs, -⟩ := LinkFmt.legal_iff.1 hl
  change execSkidBuffer _ _ s = _
  exact construct_of_error h0 (by simp [checkLink, hf, hs, checkLanes, h1, h2])

theorem exec_delays_fifo (n : Nat) :
    exec (.streamDelay n l.fmt.param l.lanes .fifo) s = .fault (.configError .unsupportedDelayImpl) ∧
    exec (.delay n ⟨.flagged, l.fmt.param, l.lanes⟩ .fifo) s = .fault (.configError .unsupportedDelayImpl) := by
  change execStreamDelay _ _ _ _ s = _ ∧ execDelay _ _ _ s = _
  exact ⟨construct_of_error h0 (by simp [checkDepth_natCast, hl, checkImpl]),
    by simp [execDelay, constructDelay, h0, checkDepth_natCast, hl, checkImpl, raise]⟩

end

/-- Settles O40, error by error. -/
theorem eachErrorHasItsCause : Obligations.EachErrorHasItsCause := by
  intro s l h0 hl
  exact ⟨fun v h => exec_fixedPointConst_badFormat h,
    fun v h hr => exec_fixedPointConst_out_of_range h hr,
    fun a b ha hb hne => exec_complex_malformed ha hb hne,
    fun x hx hs => exec_cMulnegj_of_unsigned hx hs,
    fun p hp hs => exec_skidBuffer_unsigned h0 hp hs,
    fun v x p policy hv hx hp => ⟨exec_reshape_other s hv hp policy, exec_cReshape_other hx hp policy⟩,
    fun v x n hv hx hn => ⟨exec_rshift_of_neg s hv hn, exec_cRshift_of_neg hx hn⟩,
    fun n r m hn => exec_cicGrowth_badOrder r m hn,
    fun lanes h1 h2 => exec_skidBuffer_badLanes h0 hl h1 h2,
    fun q hopen hq hne => exec_skidBuffer_mismatch h0 hopen hq hne,
    fun n hn => exec_delays_badDepth h0 hn,
    fun n => exec_delays_fifo h0 hl n,
    fun r w hr => ⟨exec_upsampler_badRate h0 w hr, exec_downsampler_badRate h0 w hr⟩,
    fun w hw => exec_cic_badWidth h0 hw,
    fun m hm => exec_comb_badDelay h0 hm,
    fun k w w' lanes hk => exec_requant_badShift h0 w w' lanes hk,
    fun n h => exec_two_notPowerOfTwo h0 l.lanes h,
    fun n tw h => have hfft := exec_fft_notPowerOfTwo h0 h
      ⟨hfft.1, hfft.2.1, hfft.2.2, exec_twiddleTable_notPowerOfTwo h⟩,
    fun tw h => exec_twiddleTable_badFormat h,
    fun j k h => exec_serialBitExchange_badBitPositions h0 l.lanes h⟩

/-! ### After the start (R9) -/

theorem constructDelay_of_started {s : State} {b : Build DelayUnit} (h : s.ticks ≠ 0) :
    constructDelay s b = .refused .constructionAfterStart := if_neg h

/-- Settles O41: every `STAGE` and `COMP` row is a construction. -/
theorem nothingIsBuiltAfterStart : Obligations.NothingIsBuiltAfterStart := by
  intro s i h hlow hnot
  unfold exec
  cases i with
  | fixedPointConst | add | sub | mul | reshape | rshift | neg | complex | cAdd | cSub | cMul | cMul3 | cScale | cRshift
  | cReshape | cMulnegj => simp [selector] at hlow
  | cicGrowth | cicTruncation | twiddleTable => simp [selector] at hnot
  | delay => exact constructDelay_of_started h
  | skidBuffer | streamDelay | pipeReg | integrator | comb | upsampler | downsampler | requant | cicUpsamplingFilter
  | cicDownsamplingFilter | sdfRadix2Stage | r22TwiddleStage | twiddleStageDirect | twiddleStageThreeMult
  | serialBitExchange | serialBitReversal | serialFFT => exact construct_of_started h

end Sys2Proof.Machine
end

section
/-! PROOFS. The tick of each stage (`42_stream_skid_delay.md` to `46_bit_reversal.md`): a stage reads its input's payload
only where it is valid, so its tick is that on the wires' payload; then row by row. -/

namespace Sys2Proof.Machine

/-! ### An invalid payload is not read (R18) -/

section
variable (st : Stage) {x x' : Fwd} (hv : x.valid = false) (hv' : x'.valid = false)
include hv hv'

theorem Stage.forward_valid_of_invalid : (st.forward x).valid = (st.forward x').valid := by
  cases st with
  | sdfRadix2 log fmt c d => cases hm : combineMode log c <;> simp [Stage.forward, sdfForward, hm, hv, hv']
  | streamDelay depth l d => by_cases h : depth = 0 <;> simp [Stage.forward, streamDelayForward, h, hv, hv']
  | upsampler r l c => by_cases h : c = 0 <;> simp [Stage.forward, upsamplerForward, h, hv, hv']
  | bitExchange j k l c d => cases hs : exchangeBit j k c <;> simp [Stage.forward, exchangeForward, hs, hv, hv']
  | _ =>
    simp [Stage.forward, skidForward, pipeRegForward, integratorForward, combForward, downsamplerForward, requantForward,
      r22Forward, twiddleForward, hv, hv']

/-- What a stage offers without a valid input comes from its registers. -/
theorem Stage.forward_payload_of_invalid (h : (st.forward x).valid = true) : (st.forward x).payload = (st.forward x').payload := by
  cases st with
  | sdfRadix2 log fmt c d => cases hm : combineMode log c <;> simp_all [Stage.forward, sdfForward]
  | streamDelay depth l d => by_cases hd : depth = 0 <;> simp_all [Stage.forward, streamDelayForward]
  | upsampler r l c => by_cases hc : c = 0 <;> simp_all [Stage.forward, upsamplerForward]
  | bitExchange j k l c d => cases hs : exchangeBit j k c <;> simp_all [Stage.forward, exchangeForward]
  | _ =>
    simp_all [Stage.forward, skidForward, pipeRegForward, integratorForward, combForward, downsamplerForward, requantForward,
      r22Forward, twiddleForward]

theorem Stage.next_of_invalid (u : Payload) (r : Bool) : st.next u x r = st.next u x' r := by
  cases st with
  | upsampler n l c => by_cases h : c = 0 <;> simp [Stage.next, upsamplerNext, upsamplerForward, consume, h, hv, hv']
  | _ =>
    simp [Stage.next, skidNext, streamDelayNext, pipeRegNext, integratorNext, combNext, downsamplerNext, sdfNext, r22Next,
      twiddleNext, threeMultNext, exchangeNext, PipeSlot.load, consume, hv, hv']

end

section
variable (st : Stage) (l : LinkFmt) (t k : Nat) (x : Fwd)

theorem Stage.forward_showLink_valid : (st.forward (showLink l t k x)).valid = (st.forward x).valid := by
  cases hv : x.valid with
  | true => rw [showLink_of_valid hv]
  | false => exact st.forward_valid_of_invalid hv hv

theorem Stage.forward_showLink_payload (h : (st.forward x).valid = true) :
    (st.forward (showLink l t k x)).payload = (st.forward x).payload := by
  cases hv : x.valid with
  | true => rw [showLink_of_valid hv]
  | false => exact (st.forward_payload_of_invalid (x := x) (x' := showLink l t k x) hv hv h).symm

theorem Stage.next_showLink (u : Payload) (r : Bool) : st.next u (showLink l t k x) r = st.next u x r := by
  cases hv : x.valid with
  | true => rw [showLink_of_valid hv]
  | false => exact st.next_of_invalid (x := showLink l t k x) hv hv u r

end

/-- What the environment's wires carry in the coming tick. -/
def State.wires (s : State) (l : LinkFmt) : Fwd := ⟨s.drive.valid, s.offered l⟩

/-- The step of a machine whose unit is one stage, in terms of the wires' payload whether it is valid or not. -/
theorem StageTick.of_wires {s : State} {st after : Stage} {ready valid : Bool} {payload : Payload} (h : s.runs st)
    (hr : st.ready s.drive.ready = ready) (hv : (st.forward (s.wires st.inLink)).valid = valid)
    (hp : valid = true → (st.forward (s.wires st.inLink)).payload = payload)
    (ha : st.next (undefPayload st.inLink s.ticks 1) (s.wires st.inLink) s.drive.ready = after) :
    StageTick s ready valid payload after := by
  subst hv
  exact StageTick.of_stage h hr (st.forward_showLink_valid ..) (fun hv => (st.forward_showLink_payload _ _ _ _ hv).trans (hp hv))
    ((st.next_showLink ..).trans ha)

/-! ### Links (R128, R131, R132) -/

/-- Settles O42: the branches are those of `armed`, and of a stalled input. -/
theorem skidBufferTick : Obligations.SkidBufferTick := by
  intro s l armed buf h
  refine StageTick.of_wires h rfl rfl (fun _ => ?_) ?_
  · cases armed <;> rfl
  · cases armed with
    | true => rfl
    | false => cases hv : s.drive.valid <;> cases hr : s.drive.ready <;> simp [Stage.next, skidNext, State.wires, hv, Stage.inLink]

/-- Settles O43: what a bubble stores is the undefined payload of the tick. -/
theorem streamDelayTick : Obligations.StreamDelayTick := by
  intro s l depth d h hlen
  refine ⟨?_, fun hpos => ?_⟩
  · rintro rfl
    obtain rfl := List.length_eq_zero_iff.1 hlen
    refine StageTick.of_wires h rfl rfl (fun _ => rfl) ?_
    simp [Stage.next, streamDelayNext, delayShift]
  · have hdepth : depth ≠ 0 := by omega
    obtain ⟨e, he⟩ : ∃ e, d.getLast? = some e :=
      Option.isSome_iff_exists.1 (List.getLast?_isSome.2 (List.ne_nil_of_length_pos (hlen ▸ hpos)))
    refine ⟨e, if s.drive.valid then s.offered l else undefPayload l s.ticks 1, he, fun hv => if_pos hv, ?_⟩
    refine StageTick.of_wires h ?_ ?_ (fun _ => ?_) ?_
    · simp [Stage.ready, streamDelayReady, hdepth, delayRead_of_getLast? he, produce]
    · simp [Stage.forward, streamDelayForward, hdepth, delayRead_of_getLast? he]
    · simp [Stage.forward, streamDelayForward, hdepth, delayRead_of_getLast? he]
    · simp only [Stage.next, streamDelayNext, streamDelayReady, if_neg hdepth, delayRead_of_getLast? he,
        delayShift_of_getLast? he, produce, State.wires, Stage.inLink]
      split <;> rfl

/-- Settles O44. -/
theorem pipeRegTick : Obligations.PipeRegTick := by
  intro s g v p h
  exact StageTick.of_wires h rfl rfl (fun _ => rfl) rfl

/-! ### CIC stages (R151 to R157) -/

section
variable {s : State}

theorem StageTick.integrator {a b : LinkFmt} {acc : Payload} (h : s.runs (.integrator a b acc)) :
    StageTick s s.drive.ready s.drive.valid (integratorOut b acc (s.offered a)) (.integrator a b
      (if s.drive.valid && s.drive.ready then integratorOut b acc (s.offered a) else acc)) :=
  StageTick.of_wires h rfl rfl (fun _ => rfl) rfl

theorem StageTick.comb {a b : LinkFmt} {m : Nat} {d : List Payload} {e : Payload} (h : s.runs (.comb a b m d))
    (he : d.getLast? = some e) :
    StageTick s s.drive.ready s.drive.valid (Payload.map2 (fun u v => wrapS b.fmt.width (u - v)) (s.offered a) e)
      (.comb a b m (if s.drive.valid && s.drive.ready then s.offered a :: d.dropLast else d)) := by
  refine StageTick.of_wires h rfl rfl (fun _ => ?_) ?_
  · simp only [Stage.forward, combForward, combOut, delayRead_of_getLast? he]
    rfl
  · simp only [Stage.next, combNext, delayShift_of_getLast? he]
    rfl

theorem StageTick.requant {k : Nat} {a b : LinkFmt} (h : s.runs (.requant k a b)) :
    StageTick s s.drive.ready s.drive.valid (requantOut k b (s.offered a)) (.requant k a b) :=
  StageTick.of_wires h rfl rfl (fun _ => rfl) rfl

theorem StageTick.upsampler_pass {r : Nat} {l : LinkFmt} (h : s.runs (.upsampler r l 0)) :
    StageTick s s.drive.ready s.drive.valid (s.offered l)
      (.upsampler r l (if s.drive.valid && s.drive.ready then (0 + 1) % r else 0)) :=
  StageTick.of_wires h rfl rfl (fun _ => rfl) rfl

theorem StageTick.upsampler_fill {r c : Nat} {l : LinkFmt} (h : s.runs (.upsampler r l c)) (hc : c ≠ 0) :
    StageTick s false true ⟨0, 0⟩ (.upsampler r l (if s.drive.ready then (c + 1) % r else c)) := by
  refine StageTick.of_wires h ?_ ?_ (fun _ => ?_) ?_
  · simp [Stage.ready, upsamplerReady, hc]
  · simp [Stage.forward, upsamplerForward, hc]
  · simp [Stage.forward, upsamplerForward, hc, Payload.zero]
  · simp [Stage.next, upsamplerNext, upsamplerForward, hc, consume, countUp]

theorem StageTick.downsampler_pass {r : Nat} {l : LinkFmt} (h : s.runs (.downsampler r l 0)) :
    StageTick s s.drive.ready s.drive.valid (s.offered l)
      (.downsampler r l (if s.drive.valid && s.drive.ready then (0 + 1) % r else 0)) := by
  refine StageTick.of_wires h ?_ ?_ (fun _ => rfl) ?_
  · simp [Stage.ready, downsamplerReady]
  · simp [Stage.forward, downsamplerForward, State.wires]
  · simp [Stage.next, downsamplerNext, downsamplerReady, consume, countUp, State.wires]

theorem StageTick.downsampler_drop {r c : Nat} {l : LinkFmt} (h : s.runs (.downsampler r l c)) (hc : c ≠ 0) (p : Payload) :
    StageTick s true false p (.downsampler r l (if s.drive.valid then (c + 1) % r else c)) := by
  refine StageTick.of_wires h ?_ ?_ (fun hv => nomatch hv) ?_
  · simp [Stage.ready, downsamplerReady, hc]
  · simp [Stage.forward, downsamplerForward, hc]
  · simp [Stage.next, downsamplerNext, downsamplerReady, consume, countUp, State.wires, hc]

end

/-- Settles O45, stage by stage, the rate changers by their count. -/
theorem cicStageTicks : Obligations.CicStageTicks := by
  refine fun s => ⟨fun a b => ⟨fun acc h => StageTick.integrator h, fun m d h e he => StageTick.comb h he, fun k h => ?_⟩,
    fun r c l => ⟨fun h => ⟨?_, StageTick.upsampler_fill h⟩, fun h => ⟨?_, fun hc => StageTick.downsampler_drop h hc _⟩⟩⟩
  · simp only [← ashr_eq_div_two_pow]
    exact StageTick.requant h
  · rintro rfl
    exact StageTick.upsampler_pass h
  · rintro rfl
    exact StageTick.downsampler_pass h

/-! ### Rotations (R207, R213, R215) -/

/-- The last quarter of a frame: both of the counter's upper bits are set. -/
theorem rotateBit_iff {log c : Nat} (hlog : 2 ≤ log) (hc : c < 2 ^ log) : rotateBit log c = true ↔ 3 * 2 ^ log ≤ 4 * c := by
  obtain ⟨k, rfl⟩ := Nat.exists_eq_add_of_le' hlog
  have hlog : 2 ^ (k + 2) = 4 * 2 ^ k := by ring
  have hpos : 0 < 2 ^ k := Nat.two_pow_pos k
  have hquarter : c / 2 ^ k < 4 := (Nat.div_lt_iff_lt_mul hpos).2 (hlog ▸ hc)
  have hbits : rotateBit (k + 2) c = true ↔ c / 2 ^ k / 2 % 2 = 1 ∧ c / 2 ^ k % 2 = 1 := by
    simp only [rotateBit, counterBit, Nat.testBit_eq_decide_div_mod_eq, Bool.and_eq_true, decide_eq_true_eq, Nat.add_sub_cancel,
      show k + 2 - 1 = k + 1 from rfl]
    rw [Nat.pow_succ, ← Nat.div_div_eq_div_mul]
  have hlast : 3 * 2 ^ (k + 2) ≤ 4 * c ↔ 3 ≤ c / 2 ^ k := by
    rw [Nat.le_div_iff_mul_le hpos]
    omega
  rw [hbits, hlast]
  generalize c / 2 ^ k = q at hquarter
  omega

theorem mulnegj_payload (fmt : Fmt) (x : Payload) : (x.toCx fmt).mulnegj.payload = quarterTurn fmt x := by
  rw [Cx.mulnegj_eq]
  rfl

theorem toCx_legal {fmt : Fmt} (hf : fmt.legal = true) {x : Payload} (hre : fmt.holds x.re = true) (him : fmt.holds x.im = true) :
    (x.toCx fmt).legal = true := Cx.legal_iff.2 ⟨hf, hre, him⟩

/-- A reshape of a value with `k` fraction bits more drops them. -/
theorem Fx.reshape_raw_of_add {v : Fx} {p : Fmt} {k : Nat} (h : v.fmt.f = p.f + k) :
    (v.reshape p).raw = p.wrap (v.raw / pow2 k) := by
  rw [Fx.reshape_of_ge (by omega), show v.fmt.f - p.f = k by omega]
  rfl

section
variable {fmt tw : Fmt} {t x : Payload} (hf : fmt.legal = true) (hs : fmt.signed = true) (htw : tw.legal = true)
  (ht : tw.holds t.re = true ∧ tw.holds t.im = true) (hx : (LinkFmt.mk fmt 2).holds x = true)
include hf hs htw ht hx

/-- The rotation is that of the exact lane products (R214). -/
theorem rotate_eq_turn : rotate fmt tw t x = turn fmt tw t x := by
  obtain ⟨hre, him⟩ := LinkFmt.holds_two_iff.1 hx
  have hxl := toCx_legal hf hre him
  have htl := toCx_legal htw ht.1 ht.2
  obtain ⟨hpre, hpim⟩ := Cx.wrap_mul_lanes hxl htl hs
  have hmul := Cx.mul_eq hxl htl
  rw [hpre, hpim] at hmul
  have hraw {r : Int} : ((Fx.mk r (fmt.product tw).grow).reshape fmt).raw = fmt.wrap (r / pow2 tw.f) := Fx.reshape_raw_of_add rfl
  unfold rotate
  rw [hmul]
  exact congrArg₂ Payload.mk hraw hraw

end

/-- The sums of substage 3 are in one format, and keep the twiddle's fraction bits more than the sample. -/
theorem rotatedRecord_eq (fmt tw : Fmt) (r : ProductRecord) : rotatedRecord fmt tw r =
    ⟨fmt.wrap ((fmt.product tw).grow.grow.wrap (r.p1 + r.p2) / pow2 tw.f),
      fmt.wrap ((fmt.product tw).grow.grow.wrap (r.p1 + r.p3) / pow2 tw.f)⟩ := by
  obtain ⟨hq1, hq2⟩ := Fmt.product_grow_comm fmt tw
  have hraw {r : Int} : ((Fx.mk r (fmt.product tw).grow.grow).reshape fmt).raw = fmt.wrap (r / pow2 tw.f) :=
    Fx.reshape_raw_of_add rfl
  unfold rotatedRecord
  simp only [Fmt.sum_self, hq1, hq2, Fx.add_same_fmt]
  exact congrArg₂ Payload.mk hraw hraw

theorem sumRecord_eq (fmt tw : Fmt) (t x : Payload) : sumRecord fmt tw t x =
    ⟨x.im, t.re, t.im, tw.grow.wrap (t.re - t.im), fmt.grow.wrap (x.re - x.im), fmt.grow.wrap (x.re + x.im)⟩ := by
  unfold sumRecord
  rw [Fx.sub_same_fmt, Fx.sub_same_fmt, Fx.add_same_fmt]

theorem productRecord_eq (fmt tw : Fmt) (r : SumRecord) : productRecord fmt tw r =
    ⟨(fmt.product tw.grow).wrap (r.b * r.u1), (tw.product fmt.grow).wrap (r.tc * r.u2), (tw.product fmt.grow).wrap (r.td * r.u3)⟩ := by
  unfold productRecord
  rw [Fmt.sum_self, Fmt.sum_self]
  rfl

theorem romRead_of_getElem? {table : List Payload} {c : Nat} {t : Payload} (h : table[c]? = some t) : romRead table c = t := by
  rw [romRead, List.getD_eq_getElem?_getD, h, Option.getD_some]

/-- Settles O47: the counter lies in the frame, so the table has its factor, and the lane products are exact. -/
theorem rotationTicks : Obligations.RotationTicks := by
  intro s log c fmt hinv
  refine ⟨fun h => ?_, fun tw table h => ?_⟩
  · obtain ⟨-, ⟨hlog, -, -⟩, hc⟩ := hinv.stage h
    refine StageTick.of_wires h rfl rfl (fun _ => ?_) rfl
    simp only [Stage.forward, r22Forward, mulnegj_payload, rotateBit_iff hlog hc]
    rfl
  · obtain ⟨hlink, ⟨hlog, hf, hs, hts, hti, rfl⟩, hc⟩ := hinv.stage h
    have hentry := (List.getElem?_eq_getElem (twiddleList_length log tw.f ▸ hc : c < (twiddleList log tw.f).length))
    refine ⟨_, hentry, StageTick.of_wires h rfl rfl (fun _ => ?_) rfl⟩
    have hturn := rotate_eq_turn hf hs (Fmt.legal_of_twiddle hti) (romRead_twiddleList_holds hts hti log c)
      (LinkFmt.clip_holds hlink s.drive.payload)
    rw [romRead_of_getElem? hentry, turn, pow2_eq_two_pow] at hturn
    simp only [Stage.forward, twiddleForward, romRead_of_getElem? hentry]
    exact hturn

/-- Settles O48: three one-slot registers in a row, their arithmetic spelled out. -/
theorem threeMultiplierTick : Obligations.ThreeMultiplierTick := by
  intro s log c fmt tw table s1 s2 s3 t h ht
  refine StageTick.of_wires h rfl rfl (fun _ => rfl) ?_
  simp only [Stage.next, threeMultNext, romRead_of_getElem? ht, sumRecord_eq, productRecord_eq, rotatedRecord_eq,
    pow2_eq_two_pow]
  rfl

/-! ### Bit exchange (R231) -/

section
variable {s : State} {j k c : Nat} {l : LinkFmt} {d : List Slot} {e : Slot} (h : s.runs (.bitExchange j k l c d))
  (he : d.getLast? = some e)
include h he

theorem StageTick.exchange (hs : exchangeBit j k c = true) :
    StageTick s (s.drive.ready || !e.valid) (s.drive.valid && e.valid) e.payload
      (if s.drive.valid && (s.drive.ready || !e.valid) then
        .bitExchange j k l ((c + 1) % 2 ^ (j + 1)) (⟨s.offered l, true⟩ :: d.dropLast) else .bitExchange j k l c d) := by
  refine StageTick.of_wires h ?_ ?_ (fun _ => ?_) ?_
  · simp [Stage.ready, exchangeReady, hs, delayRead_of_getLast? he]
  · simp [Stage.forward, exchangeForward, hs, delayRead_of_getLast? he, State.wires]
  · simp [Stage.forward, exchangeForward, hs, delayRead_of_getLast? he]
  · simp [Stage.next, exchangeNext, exchangeReady, hs, delayRead_of_getLast? he, delayShift_of_getLast? he, consume, countUp,
      State.wires, Stage.inLink]

theorem StageTick.recirculate (hs : exchangeBit j k c = false) :
    StageTick s s.drive.ready s.drive.valid (s.offered l)
      (if s.drive.valid && s.drive.ready then .bitExchange j k l ((c + 1) % 2 ^ (j + 1)) (e :: d.dropLast)
        else .bitExchange j k l c d) := by
  refine StageTick.of_wires h ?_ ?_ (fun _ => ?_) ?_
  · simp [Stage.ready, exchangeReady, hs]
  · simp [Stage.forward, exchangeForward, hs, State.wires]
  · simp [Stage.forward, exchangeForward, hs, State.wires, Stage.inLink]
  · simp [Stage.next, exchangeNext, exchangeReady, hs, delayRead_of_getLast? he, delayShift_of_getLast? he, consume, countUp,
      State.wires]

end

/-- Settles O49, by the control bit. -/
theorem bitExchangeTick : Obligations.BitExchangeTick := by
  intro s j k c l d e h he
  refine ⟨fun hbits => StageTick.exchange h he ?_, fun hj hk => StageTick.recirculate h he ?_⟩
  · obtain hj | hk := hbits
    · simp [exchangeBit, counterBit, hj]
    · simp [exchangeBit, counterBit, hk]
  · simp [exchangeBit, counterBit, hj, hk]

/-! ### Free-standing delays (R130) -/

theorem delayShift_eq_take {α : Type} (d : List α) (e : α) : delayShift d e = (e :: d).take d.length := by
  rw [delayShift, List.dropLast_eq_take, List.length_cons, Nat.add_sub_cancel]

/-- A line holds its newest entries, in front of what it held before. -/
theorem take_append_take {α : Type} (a b : List α) (n : Nat) : (a ++ b.take n).take n = (a ++ b).take n := by
  rw [List.take_append, List.take_append, List.take_take, Nat.min_eq_left (Nat.sub_le _ _)]

theorem DelayUnit.next_of_enabled {u : DelayUnit} {x : DelayDrive} (h : x.en = true) :
    u.next x = { u with d := delayShift u.d (u.entry.normalize x.entry) } := if_pos h

theorem DelayUnit.next_of_disabled {u : DelayUnit} {x : DelayDrive} (h : x.en = false) : u.next x = u := if_neg (by simp [h])

/-- The entries driven on a delay in its active ticks, the earliest first. -/
def DelayUnit.active (u : DelayUnit) (xs : List DelayDrive) : List TaggedEntry :=
  (xs.filter DelayDrive.en).map fun y => u.entry.normalize y.entry

/-- After any ticks the line holds the newest active entries, in front of what it held before. -/
theorem DelayUnit.foldl_next (u : DelayUnit) (xs : List DelayDrive) :
    xs.foldl DelayUnit.next u = { u with d := ((u.active xs).reverse ++ u.d).take u.d.length } := by
  induction xs generalizing u with
  | nil => simp [DelayUnit.active]
  | cons x xs ih =>
    rw [List.foldl_cons, ih]
    cases hx : x.en with
    | false => simp [DelayUnit.next_of_disabled hx, DelayUnit.active, hx]
    | true =>
      simp [DelayUnit.next_of_enabled hx, DelayUnit.active, hx, delayShift_eq_take, take_append_take]

theorem DelayUnit.out_of_depth_zero {u : DelayUnit} (h : u.depth = 0) (x : DelayDrive) : u.out x = u.entry.normalize x.entry :=
  if_pos h

theorem DelayUnit.out_of_getLast? {u : DelayUnit} {e : TaggedEntry} (h : 1 ≤ u.depth) (he : u.d.getLast? = some e)
    (x : DelayDrive) : u.out x = e := by
  rw [DelayUnit.out, if_neg (by omega), delayRead_of_getLast? he]

/-- Once it is filled, a line ends in the entry of the `depth`-th last active tick. -/
theorem DelayUnit.getLast?_foldl_next {u : DelayUnit} (hlen : u.d.length = u.depth) {xs : List DelayDrive} (hpos : 1 ≤ u.depth)
    (hfull : u.depth ≤ (u.active xs).length) :
    (xs.foldl DelayUnit.next u).d.getLast? = (u.active xs)[(u.active xs).length - u.depth]? := by
  have hrev : u.depth ≤ (u.active xs).reverse.length := by rwa [List.length_reverse]
  rw [DelayUnit.foldl_next]
  dsimp only
  rw [hlen, List.take_append_of_le_length hrev, List.getLast?_eq_getElem?, List.length_take_of_le hrev,
    List.getElem?_take_of_lt (by omega), List.getElem?_reverse (by omega)]
  congr 1
  omega

/-- Settles O27: the line after any ticks, and delay number `k` of the tick. -/
theorem delayShowsTheOldestEntry : Obligations.DelayShowsTheOldestEntry := by
  refine ⟨fun u xs x hu => ⟨fun h0 => ?_, fun hpos hfull => ?_⟩, fun s hinv hprog => ?_⟩
  · rw [DelayUnit.foldl_next]
    exact if_pos h0
  · obtain ⟨-, hlen, -⟩ := hu
    have hactive : (u.active xs).length = (xs.filter DelayDrive.en).length := List.length_map ..
    rw [← List.getElem?_map, ← hactive]
    change (u.active xs)[_]? = _
    rw [← hactive] at hfull
    have hlast := DelayUnit.getLast?_foldl_next hlen hpos hfull
    have hlt : (u.active xs).length - u.depth < (u.active xs).length := by omega
    rw [List.getElem?_eq_getElem hlt] at hlast ⊢
    refine congrArg some (DelayUnit.out_of_getLast? ?_ hlast x).symm
    rwa [DelayUnit.foldl_next]
  · obtain ⟨-, hdelays, -, -⟩ := hinv
    refine ⟨tick s, _, delaysOut s.drive 0 s.delays, step_of_program_nil hprog, tick_trace s, delaysNext_length .., delaysOut_length ..,
      fun k u hu => ?_⟩
    obtain ⟨-, hlen, -⟩ := hdelays u (List.mem_of_getElem? hu)
    have hout : (delaysOut s.drive 0 s.delays)[k]? = some (u.out (s.drive.delay k)) := by
      rw [delaysOut_getElem?, hu, Nat.zero_add, Option.map_some]
    have hnext : (tick s).delays[k]? = some (u.next (s.drive.delay k)) := by
      rw [tick_delays, delaysNext_getElem?, hu, Nat.zero_add, Option.map_some]
    rw [hout, hnext]
    dsimp only
    set x := s.drive.delay k
    change (_ → some (u.out x) = some (u.entry.normalize x.entry) ∧ _) ∧
      (_ → _ ∧ _ = some { u with d := if x.en then u.entry.normalize x.entry :: u.d.dropLast else u.d })
    refine ⟨fun h0 => ⟨congrArg some (DelayUnit.out_of_depth_zero h0 _), ?_⟩, fun hpos => ?_⟩
    · have hnil : u.d = [] := List.length_eq_zero_iff.1 (hlen.trans h0)
      cases hen : x.en with
      | false => rw [DelayUnit.next_of_disabled hen]
      | true => rw [DelayUnit.next_of_enabled hen, hnil, delayShift, List.dropLast_singleton, ← hnil]
    · obtain ⟨e, he⟩ : ∃ e, u.d.getLast? = some e :=
        Option.isSome_iff_exists.1 (List.getLast?_isSome.2 (List.ne_nil_of_length_pos (by omega)))
      refine ⟨by rw [DelayUnit.out_of_getLast? hpos he, he], ?_⟩
      cases hen : x.en with
      | false => rw [DelayUnit.next_of_disabled hen]; rfl
      | true => rw [DelayUnit.next_of_enabled hen, delayShift_of_getLast? he]; rfl

end Sys2Proof.Machine
end

section
/-! PROOFS. Streams, stage by stage (`42_stream_skid_delay.md` R127): what a stage's registers remember of what it has
taken, and that each tick keeps the account of what it has taken, given and still holds. -/

namespace Sys2Proof.Machine

/-! ### Sequences that grow by one sample -/

section
variable {x : List Payload} {v : Payload}

theorem sample_append_of_lt {q : Nat} (h : q < x.length) : sample (x ++ [v]) q = sample x q := by
  rw [sample, sample, List.getD_append _ _ _ _ h]

@[simp] theorem sample_append_length : sample (x ++ [v]) x.length = v := by
  rw [sample, List.getD_append_right _ _ _ _ le_rfl, Nat.sub_self, List.getD_cons_zero]

theorem sample_holds {l : LinkFmt} (h : ∀ v ∈ x, l.holds v = true) (q : Nat) : l.holds (sample x q) = true := by
  unfold sample
  rw [List.getD_eq_getElem?_getD]
  cases hq : x[q]? with
  | none => exact LinkFmt.holds_zero l
  | some v => exact h v (List.mem_of_getElem? hq)

/-- A function of the samples so far gets one value more. -/
theorem map_range_append_singleton {α : Type} {f f' : Nat → α} (h : ∀ q < x.length, f' q = f q) :
    (List.range (x ++ [v]).length).map f' = (List.range x.length).map f ++ [f' x.length] := by
  rw [List.length_append, List.length_singleton, List.range_succ, List.map_append, List.map_singleton]
  exact congrArg (· ++ _) (List.map_congr_left fun q hq => h q (List.mem_range.1 hq))

theorem map_range_succ_congr {α : Type} {n : Nat} {f f' : Nat → α} (h : ∀ q < n, f' q = f q) :
    (List.range (n + 1)).map f' = (List.range n).map f ++ [f' n] := by
  rw [List.range_succ, List.map_append, List.map_singleton]
  exact congrArg (· ++ _) (List.map_congr_left fun q hq => h q (List.mem_range.1 hq))

end

/-! ### Delay lines as histories (R16) -/

/-- The last `n` of the entries shifted into a line of depth `n`, the newest first, in front of its reset entries. -/
def lineOf {α : Type} (n : Nat) (z : α) (es : List α) : List α := (es.reverse ++ List.replicate n z).take n

section
variable {α : Type} {n : Nat} {z : α} {es : List α}

@[simp] theorem lineOf_length : (lineOf n z es).length = n := by simp [lineOf]

theorem lineOf_nil : lineOf n z [] = List.replicate n z := by simp [lineOf]

theorem delayShift_lineOf (e : α) : delayShift (lineOf n z es) e = lineOf n z (es ++ [e]) := by
  rw [delayShift_eq_take, lineOf_length, lineOf, lineOf, ← List.singleton_append, take_append_take, List.reverse_append,
    List.reverse_singleton, List.append_assoc]

/-- A line shows the entry shifted in `n` shifts ago. -/
theorem delayRead_lineOf (hn : 1 ≤ n) (w : α) :
    delayRead w (lineOf n z es) = if n ≤ es.length then es.getD (es.length - n) z else z := by
  have hlast : (lineOf n z es).getLast? = (es.reverse ++ List.replicate n z)[n - 1]? := by
    rw [List.getLast?_eq_getElem?, lineOf_length, lineOf, List.getElem?_take_of_lt (by omega)]
  split
  case isTrue h =>
    have hlt : es.length - n < es.length := by omega
    refine delayRead_of_getLast? (hlast.trans ?_) w
    rw [List.getElem?_append_left (by simp; omega), List.getElem?_reverse (by omega), List.getD_eq_getElem _ _ hlt,
      show es.length - 1 - (n - 1) = es.length - n by omega, List.getElem?_eq_getElem hlt]
  case isFalse h =>
    refine delayRead_of_getLast? (hlast.trans ?_) w
    rw [List.getElem?_append_right (by simp; omega), List.getElem?_replicate, if_pos (by simp; omega)]

end

/-! ### What registers remember -/

/-- The lane sums of a sequence. -/
def laneSum (x : List Payload) : Payload := ⟨(x.map Payload.re).sum, (x.map Payload.im).sum⟩

/-- The entry a butterfly of half frame `h` writes for sample `q` (R203). -/
def butterflyEntry (h : Nat) (x : List Payload) (q : Nat) : TaggedEntry :=
  if q % (2 * h) < h then ⟨sample x q, true, false⟩
  else ⟨Payload.map2 (· - ·) (sample x (q - h)) (sample x q), true, true⟩

/-- The entry an exchange writes for sample `q`: the sample, or the one going round (R231). -/
def exchangeEntry (j k : Nat) (x : List Payload) (q : Nat) : Slot :=
  ⟨sample x (if exchangeBit j k q then q else q - exchangeDepth j k), true⟩

/-- What a stage's registers remember of the sequence `x` it has taken, besides what they hold of what is due. -/
def Stage.remembers : Stage → List Payload → Prop
  | .skidBuffer _ _ _, _ => True
  | .streamDelay depth _ d, _ => d.length = depth
  | .pipeReg _ _, _ => True
  | .integrator _ b acc, x => acc = Payload.map (wrapS b.fmt.width) (laneSum x)
  | .comb _ _ m d, x => d = lineOf m Payload.zero x
  | .upsampler r _ c, _ => c < r
  | .downsampler r _ c, x => c = x.length % r
  | .requant _ _ _, _ => True
  | .sdfRadix2 log _ c d, x => c = x.length % 2 ^ log ∧
      d = lineOf (2 ^ (log - 1)) TaggedEntry.empty ((List.range x.length).map (butterflyEntry (2 ^ (log - 1)) x))
  | .r22Twiddle log _ c, x => c = x.length % 2 ^ log
  | .twiddleDirect log _ _ _ c, x => c = x.length % 2 ^ log
  | .twiddleThreeMult log _ _ _ c _ _ _, x => c = x.length % 2 ^ log
  | .bitExchange j k _ c d, x => c = x.length % 2 ^ (j + 1) ∧
      d = lineOf (exchangeDepth j k) Slot.empty ((List.range x.length).map (exchangeEntry j k x))

/-- The account of a stage that has taken `x` and given `z`. -/
def Stage.Follows (st : Stage) (x z : List Payload) : Prop := z ++ st.held = st.stream x ∧ st.remembers x

/-- The payload a link's transfer moves, if there is one. -/
def moved (f : Fwd) (ready : Bool) : List Payload := if consume f.valid ready then [f.payload] else []

@[simp] theorem moved_of_invalid {f : Fwd} (h : f.valid = false) (r : Bool) : moved f r = [] := by simp [moved, consume, h]

@[simp] theorem moved_of_stalled (f : Fwd) : moved f false = [] := by simp [moved, consume]

theorem moved_of_valid {f : Fwd} (h : f.valid = true) : moved f true = [f.payload] := by simp [moved, consume, h]

@[simp] theorem moved_mk_true (p : Payload) (r : Bool) : moved ⟨true, p⟩ r = if r then [p] else [] := by simp [moved, consume]

@[simp] theorem moved_mk_false (p : Payload) (r : Bool) : moved ⟨false, p⟩ r = [] := moved_of_invalid rfl r

/-- A payload nobody reads does not count. -/
theorem moved_showLink (l : LinkFmt) (t k : Nat) (f : Fwd) (r : Bool) : moved (showLink l t k f) r = moved f r := by
  cases h : f.valid with
  | true => rw [showLink_of_valid h]
  | false => rw [moved_of_invalid h, moved_of_invalid (by exact h)]

/-- The stream function is one of the structural parameters only. -/
theorem Stage.cleared_stream (st : Stage) : st.cleared.stream = st.stream := by cases st <;> rfl

theorem Stage.next_stream (u : Payload) (st : Stage) (f : Fwd) (r : Bool) : (st.next u f r).stream = st.stream := by
  rw [← Stage.cleared_stream, Stage.next_cleared, Stage.cleared_stream]

/-- A stage that holds nothing back: what it gives for a sample it gives as it takes it. -/
theorem Stage.Follows.of_immediate {st st' : Stage} {x z : List Payload} {f g : Fwd} {r ready : Bool} (h : st.Follows x z)
    (hheld : st.held = []) (hheld' : st'.held = []) (hstream : st'.stream = st.stream)
    (hidle : consume f.valid ready = false → st' = st ∧ consume g.valid r = false)
    (htake : consume f.valid ready = true →
      st'.remembers (x ++ [f.payload]) ∧ st.stream (x ++ [f.payload]) = st.stream x ++ moved g r) :
    st'.Follows (x ++ moved f ready) (z ++ moved g r) := by
  obtain ⟨haccount, hremembers⟩ := h
  rw [hheld, List.append_nil] at haccount
  unfold Stage.Follows
  rw [hheld', hstream, List.append_nil, haccount]
  cases hc : consume f.valid ready with
  | false =>
    obtain ⟨rfl, hg⟩ := hidle hc
    simp only [moved, hc, hg, Bool.false_eq_true, if_false, List.append_nil, true_and]
    exact hremembers
  | true =>
    obtain ⟨hremembers', hstream⟩ := htake hc
    simp only [moved, hc, if_true] at hstream ⊢
    exact ⟨hstream.symm, hremembers'⟩

/-- A combinational stage: it passes valid and ready through. -/
theorem Stage.Follows.of_combinational {st st' : Stage} {x z : List Payload} {f : Fwd} {y : Payload} {r : Bool}
    (h : st.Follows x z) (hheld : st.held = []) (hheld' : st'.held = []) (hstream : st'.stream = st.stream)
    (hidle : consume f.valid r = false → st' = st)
    (htake : consume f.valid r = true →
      st'.remembers (x ++ [f.payload]) ∧ st.stream (x ++ [f.payload]) = st.stream x ++ [y]) :
    st'.Follows (x ++ moved f r) (z ++ moved ⟨f.valid, y⟩ r) := by
  refine h.of_immediate hheld hheld' hstream (fun hc => ⟨hidle hc, hc⟩) fun hc => ?_
  obtain ⟨hremembers, hstream⟩ := htake hc
  refine ⟨hremembers, hstream.trans ?_⟩
  simp only [moved, hc, if_true]

/-! ### SkidBuffer, StreamDelay, PipeReg -/

section
variable {x z : List Payload} {f : Fwd} {r : Bool} (u : Payload)

theorem Stage.Follows.next_skidBuffer {l : LinkFmt} {armed : Bool} {buf : Payload} (h : (Stage.skidBuffer l armed buf).Follows x z) :
    ((Stage.skidBuffer l armed buf).next u f r).Follows (x ++ moved f ((Stage.skidBuffer l armed buf).ready r))
      (z ++ moved ((Stage.skidBuffer l armed buf).forward f) r) := by
  obtain ⟨haccount, -⟩ := h
  obtain ⟨v, p⟩ := f
  refine ⟨?_, by rw [Stage.next, skidNext]; split <;> [trivial; split <;> trivial]⟩
  cases armed <;> cases v <;> cases r <;>
    simp_all [Stage.next, skidNext, Stage.ready, skidReady, Stage.forward, skidForward, Stage.held, Stage.stream]

/-- What a line shifts in it holds last, and what it shows leaves it. -/
theorem held_streamDelay_shift {depth : Nat} {l : LinkFmt} {d : List Slot} {e : Slot} (he : d.getLast? = some e) (a : Slot) :
    (Stage.streamDelay depth l d).held = (if e.valid then [e.payload] else []) ++ (Stage.streamDelay depth l d.dropLast).held ∧
    (Stage.streamDelay depth l (a :: d.dropLast)).held =
      (Stage.streamDelay depth l d.dropLast).held ++ (if a.valid then [a.payload] else []) := by
  obtain ⟨init, rfl⟩ : ∃ init, d = init ++ [e] := ⟨d.dropLast, (List.dropLast_append_getLast? e he).symm⟩
  rw [List.dropLast_concat]
  constructor
  · cases hv : e.valid <;> simp [Stage.held, hv]
  · cases hv : a.valid <;> simp [Stage.held, hv]

theorem Stage.Follows.next_streamDelay {depth : Nat} {l : LinkFmt} {d : List Slot} (h : (Stage.streamDelay depth l d).Follows x z) :
    ((Stage.streamDelay depth l d).next u f r).Follows (x ++ moved f ((Stage.streamDelay depth l d).ready r))
      (z ++ moved ((Stage.streamDelay depth l d).forward f) r) := by
  obtain ⟨haccount, hlen : d.length = depth⟩ := h
  by_cases h0 : depth = 0
  · subst h0
    obtain rfl := List.length_eq_zero_iff.1 hlen
    have hz : z = x := by simpa [Stage.held, Stage.stream] using haccount
    subst hz
    refine ⟨?_, ?_⟩ <;>
      cases r <;> simp [Stage.next, streamDelayNext, Stage.ready, streamDelayReady, Stage.forward, streamDelayForward, Stage.held,
        Stage.stream, delayShift, Stage.remembers]
  · obtain ⟨e, he⟩ : ∃ e, d.getLast? = some e :=
      Option.isSome_iff_exists.1 (List.getLast?_isSome.2 (List.ne_nil_of_length_pos (by omega)))
    have hforward : (Stage.streamDelay depth l d).forward f = ⟨e.valid, e.payload⟩ := by
      simp [Stage.forward, streamDelayForward, h0, delayRead_of_getLast? he]
    have hready : (Stage.streamDelay depth l d).ready r = (r || !e.valid) := by
      simp [Stage.ready, streamDelayReady, h0, delayRead_of_getLast? he, produce]
    have hnext : (Stage.streamDelay depth l d).next u f r = if r || !e.valid then
        .streamDelay depth l (⟨if f.valid then f.payload else u, f.valid⟩ :: d.dropLast) else .streamDelay depth l d := by
      simp [Stage.next, streamDelayNext, streamDelayReady, h0, delayRead_of_getLast? he, produce, delayShift_of_getLast? he]
    obtain ⟨hheld, hheld'⟩ := held_streamDelay_shift (depth := depth) (l := l) he ⟨if f.valid then f.payload else u, f.valid⟩
    rw [hforward, hready, hnext]
    cases hshift : (r || !e.valid) with
    | false =>
      obtain ⟨rfl, hv⟩ : r = false ∧ e.valid = true := by simpa using hshift
      simpa [Stage.Follows] using ⟨haccount, hlen⟩
    | true =>
      refine ⟨?_, ?_⟩
      · rw [if_pos rfl, hheld']
        rw [hheld] at haccount
        have hgiven : moved ⟨e.valid, e.payload⟩ r = if e.valid then [e.payload] else [] := by
          cases hv : e.valid <;> simp_all
        have htaken : (if f.valid = true then [if f.valid = true then f.payload else u] else []) = moved f true := by
          cases hv : f.valid <;> simp [hv, moved_of_valid]
        rw [hgiven, htaken, List.append_assoc, ← List.append_assoc (if e.valid = true then _ else _), ← List.append_assoc, haccount]
        rfl
      · simp [Stage.remembers]
        omega

theorem Stage.Follows.next_pipeReg {g : PipeFn} {reg : PipeSlot Payload} (h : (Stage.pipeReg g reg).Follows x z) :
    ((Stage.pipeReg g reg).next u f r).Follows (x ++ moved f ((Stage.pipeReg g reg).ready r))
      (z ++ moved ((Stage.pipeReg g reg).forward f) r) := by
  obtain ⟨haccount, -⟩ := h
  obtain ⟨v, p⟩ := f
  obtain ⟨w, q⟩ := reg
  refine ⟨?_, trivial⟩
  cases v <;> cases w <;> cases r <;>
    simp_all [Stage.next, pipeRegNext, PipeSlot.load, PipeSlot.ready, produce, Stage.ready, Stage.forward, pipeRegForward, Stage.held,
      Stage.stream]

end

end Sys2Proof.Machine
end

section
/-! PROOFS. The account of the CIC stages, the FFT stages and the exchange (`43_cic_stages.md`, `45_fft_stages.md`,
`46_bit_reversal.md`), tick by tick. -/

namespace Sys2Proof.Machine

/-! ### CIC stages -/

theorem wrapS_wrapS_add (w : Nat) (a b : Int) : wrapS w (wrapS w a + b) = wrapS w (a + b) := by
  refine wrapS_congr w ?_
  rw [Int.add_emod, wrapS_emod, ← Int.add_emod]

theorem sumUpTo_length (x : List Payload) (v : Payload) : sumUpTo (x ++ [v]) x.length = laneSum (x ++ [v]) := by
  rw [sumUpTo, laneSum, List.take_of_length_le (by simp)]

theorem sumUpTo_append_of_lt {x : List Payload} (v : Payload) {q : Nat} (h : q < x.length) : sumUpTo (x ++ [v]) q = sumUpTo x q := by
  rw [sumUpTo, sumUpTo, List.take_append_of_le_length (by omega)]

/-- The accumulator plus the sample is the next sum, wrapped. -/
theorem integratorOut_laneSum (b : LinkFmt) (x : List Payload) (v : Payload) :
    integratorOut b (Payload.map (wrapS b.fmt.width) (laneSum x)) v = Payload.map (wrapS b.fmt.width) (laneSum (x ++ [v])) := by
  simp [integratorOut, Payload.map2, Payload.map, laneSum, wrapS_wrapS_add]

section
variable {x z : List Payload} {f : Fwd} {r : Bool} (u : Payload)

theorem Stage.Follows.next_integrator {a b : LinkFmt} {acc : Payload} (h : (Stage.integrator a b acc).Follows x z) :
    ((Stage.integrator a b acc).next u f r).Follows (x ++ moved f r) (z ++ moved ((Stage.integrator a b acc).forward f) r) := by
  have hacc : acc = _ := h.2
  have hout := integratorOut_laneSum b x f.payload
  refine h.of_combinational rfl rfl rfl (fun hc => ?_) (fun hc => ⟨?_, ?_⟩)
  · simp [Stage.next, integratorNext, hc]
  · simp only [Stage.next, integratorNext, hc, if_true, Stage.remembers]
    rw [hacc, hout]
  · simp only [Stage.stream]
    rw [map_range_append_singleton fun q hq => by rw [sumUpTo_append_of_lt _ hq], sumUpTo_length, ← hout, ← hacc]

theorem sampleBefore_append_of_lt (v : Payload) {q m : Nat} (h : q < x.length) : sampleBefore (x ++ [v]) q m = sampleBefore x q m := by
  unfold sampleBefore
  split
  · exact sample_append_of_lt (by omega)
  · rfl

/-- The history's oldest entry is the sample `m` before. -/
theorem delayRead_lineOf_zero {m : Nat} (hm : 1 ≤ m) (v : Payload) :
    delayRead Payload.zero (lineOf m Payload.zero x) = sampleBefore (x ++ [v]) x.length m := by
  rw [delayRead_lineOf hm, sampleBefore]
  split
  · rw [sample_append_of_lt (by omega)]
    rfl
  · rfl

theorem Stage.Follows.next_comb {a b : LinkFmt} {m : Nat} {d : List Payload} (hm : 1 ≤ m) (h : (Stage.comb a b m d).Follows x z) :
    ((Stage.comb a b m d).next u f r).Follows (x ++ moved f r) (z ++ moved ((Stage.comb a b m d).forward f) r) := by
  have hd : d = _ := h.2
  refine h.of_combinational rfl rfl rfl (fun hc => ?_) (fun hc => ⟨?_, ?_⟩)
  · simp [Stage.next, combNext, hc]
  · simp only [Stage.next, combNext, hc, if_true, Stage.remembers]
    rw [hd, delayShift_lineOf]
  · simp only [Stage.stream]
    rw [map_range_append_singleton fun q hq => by
      rw [sample_append_of_lt hq, sampleBefore_append_of_lt _ hq], sample_append_length, combOut, hd, delayRead_lineOf_zero hm f.payload]

theorem Stage.Follows.next_requant {k : Nat} {a b : LinkFmt} (h : (Stage.requant k a b).Follows x z) :
    ((Stage.requant k a b).next u f r).Follows (x ++ moved f r) (z ++ moved ((Stage.requant k a b).forward f) r) := by
  refine h.of_combinational rfl rfl rfl (fun _ => rfl) (fun _ => ⟨trivial, ?_⟩)
  rw [Stage.stream, List.map_append, List.map_singleton]
  rfl

theorem held_upsampler (n c : Nat) (l : LinkFmt) :
    (Stage.upsampler n l c).held = if c = 0 then [] else List.replicate (n - c) Payload.zero := rfl

/-- Behind the sample, and behind each zero, one zero less is still to come. -/
theorem held_upsampler_countUp {n c : Nat} (l : LinkFmt) (hc : c < n) :
    (Stage.upsampler n l (countUp c n)).held = List.replicate (n - 1 - c) Payload.zero := by
  obtain hlt | hlast : c + 1 < n ∨ c + 1 = n := by omega
  · rw [show countUp c n = c + 1 from Nat.mod_eq_of_lt hlt, held_upsampler, if_neg (Nat.succ_ne_zero _),
      show n - (c + 1) = n - 1 - c by omega]
  · rw [show countUp c n = 0 by rw [countUp, hlast, Nat.mod_self], held_upsampler, if_pos rfl, show n - 1 - c = 0 by omega,
      List.replicate_zero]

theorem Stage.Follows.next_upsampler {n c : Nat} {l : LinkFmt} (hn : 1 ≤ n) (h : (Stage.upsampler n l c).Follows x z) :
    ((Stage.upsampler n l c).next u f r).Follows (x ++ moved f ((Stage.upsampler n l c).ready r))
      (z ++ moved ((Stage.upsampler n l c).forward f) r) := by
  obtain ⟨haccount, hc : c < n⟩ := h
  have hheld := held_upsampler_countUp l hc
  refine ⟨?_, ?_⟩
  · by_cases h0 : c = 0
    · subst h0
      obtain ⟨v, p⟩ := f
      cases v <;> cases r <;>
        simp_all [Stage.next, upsamplerNext, Stage.ready, upsamplerReady, Stage.forward, upsamplerForward, Stage.held, Stage.stream,
          consume]
    · have hz : (Stage.upsampler n l c).held = Payload.zero :: List.replicate (n - 1 - c) Payload.zero := by
        rw [held_upsampler, if_neg h0, ← List.replicate_succ, show n - c = n - 1 - c + 1 by omega]
      rw [hz] at haccount
      cases r
      · simpa [Stage.next, upsamplerNext, Stage.ready, upsamplerReady, h0, Stage.forward, upsamplerForward, consume, hz] using haccount
      · simpa [Stage.next, upsamplerNext, Stage.ready, upsamplerReady, h0, Stage.forward, upsamplerForward, consume, hheld,
          Stage.stream] using haccount
  · unfold Stage.next upsamplerNext Stage.remembers
    dsimp only
    split
    · exact countUp_lt hn
    · exact hc

/-- Every `r`-th sample is kept. -/
theorem downsampled_length_succ {r n : Nat} (hr : 1 ≤ r) :
    (n + 1 + r - 1) / r = (n + r - 1) / r + (if n % r = 0 then 1 else 0) ∧ (n % r = 0 → (n + r - 1) / r * r = n) := by
  obtain ⟨q, c, rfl, hc⟩ : ∃ q c, n = r * q + c ∧ c < r := ⟨n / r, n % r, (Nat.div_add_mod n r).symm, Nat.mod_lt _ hr⟩
  have hmod : (r * q + c) % r = c := by rw [Nat.mul_add_mod, Nat.mod_eq_of_lt hc]
  have hsucc : (r * q + c + 1 + r - 1) / r = q + 1 := by
    rw [show r * q + c + 1 + r - 1 = c + r * (q + 1) by rw [Nat.mul_succ]; omega, Nat.add_mul_div_left _ _ hr, Nat.div_eq_of_lt hc,
      Nat.zero_add]
  have hn : (r * q + c + r - 1) / r = if c = 0 then q else q + 1 := by
    split
    case isTrue h =>
      rw [show r * q + c + r - 1 = (r - 1) + r * q by omega, Nat.add_mul_div_left _ _ hr, Nat.div_eq_of_lt (by omega), Nat.zero_add]
    case isFalse h =>
      rw [show r * q + c + r - 1 = (c - 1) + r * (q + 1) by rw [Nat.mul_succ]; omega, Nat.add_mul_div_left _ _ hr,
        Nat.div_eq_of_lt (by omega), Nat.zero_add]
  rw [hmod, hsucc, hn]
  refine ⟨by split <;> rfl, fun h => ?_⟩
  rw [if_pos h, h, Nat.add_zero, Nat.mul_comm]

theorem Stage.stream_downsampler_append {n : Nat} {l : LinkFmt} (c : Nat) (hn : 1 ≤ n) (v : Payload) :
    (Stage.downsampler n l c).stream (x ++ [v]) =
      (Stage.downsampler n l c).stream x ++ (if x.length % n = 0 then [v] else []) := by
  obtain ⟨hlen, hlast⟩ := downsampled_length_succ (n := x.length) hn
  have hold : ∀ q < (x.length + n - 1) / n, sample (x ++ [v]) (q * n) = sample x (q * n) := fun q hq => by
    refine sample_append_of_lt ?_
    have := (Nat.le_div_iff_mul_le hn).1 (Nat.succ_le_of_lt hq)
    rw [Nat.succ_mul] at this
    omega
  simp only [Stage.stream]
  rw [List.length_append, List.length_singleton, hlen]
  split
  case isTrue h => rw [map_range_succ_congr hold, hlast h, sample_append_length]
  case isFalse h =>
    rw [Nat.add_zero, List.append_nil]
    exact List.map_congr_left fun q hq => hold q (List.mem_range.1 hq)

theorem countUp_mod (n m : Nat) : countUp (n % m) m = (n + 1) % m := Nat.mod_add_mod n m 1

theorem Stage.Follows.next_downsampler {n c : Nat} {l : LinkFmt} (hn : 1 ≤ n) (h : (Stage.downsampler n l c).Follows x z) :
    ((Stage.downsampler n l c).next u f r).Follows (x ++ moved f ((Stage.downsampler n l c).ready r))
      (z ++ moved ((Stage.downsampler n l c).forward f) r) := by
  have hc : c = _ := h.2
  refine h.of_immediate rfl rfl rfl (fun hidle => ⟨?_, ?_⟩) (fun htake => ⟨?_, ?_⟩)
  · simp only [Stage.ready] at hidle
    simp [Stage.next, downsamplerNext, hidle]
  · cases hv : f.valid <;> cases r <;> simp_all [Stage.ready, downsamplerReady, Stage.forward, downsamplerForward, consume]
  · simp only [Stage.ready] at htake
    simp only [Stage.next, downsamplerNext, htake, if_true, Stage.remembers]
    rw [hc, countUp_mod, List.length_append, List.length_singleton]
  · rw [Stage.stream_downsampler_append c hn, ← hc]
    congr 1
    cases hv : f.valid <;> cases r <;> simp_all [Stage.ready, downsamplerReady, Stage.forward, downsamplerForward, consume, moved]

end

end Sys2Proof.Machine
end

section
/-! PROOFS. The account of the FFT stages and of the exchange (`45_fft_stages.md` R204, R207, R213, R215;
`46_bit_reversal.md` R234), tick by tick. -/

namespace Sys2Proof.Machine

/-! ### The butterfly (R204) -/

section
variable {h : Nat} {x : List Payload} {v : Payload}

/-- The butterfly's output, by the half of the frame its index lies in. -/
theorem butterflySample_eq (h : Nat) (x : List Payload) (q : Nat) : butterflySample h x q =
    if q % (2 * h) < h then Payload.map2 (· + ·) (sample x q) (sample x (q + h))
    else Payload.map2 (· - ·) (sample x (q - h)) (sample x q) := by
  have hq : q / (2 * h) * (2 * h) + q % (2 * h) = q := by rw [Nat.mul_comm]; exact Nat.div_add_mod q (2 * h)
  unfold butterflySample
  dsimp only
  split
  case isTrue hlt => rw [Nat.add_right_comm, hq]
  case isFalse hlt => rw [← Nat.add_sub_assoc (Nat.le_of_not_lt hlt), hq]

theorem butterflySample_append_of_lt {q : Nat} (hq : q + h < x.length) : butterflySample h (x ++ [v]) q = butterflySample h x q := by
  rw [butterflySample_eq, butterflySample_eq, sample_append_of_lt (by omega : q < x.length), sample_append_of_lt hq,
    sample_append_of_lt (by omega : q - h < x.length)]

theorem butterflyEntry_append_of_lt {q : Nat} (hq : q < x.length) : butterflyEntry h (x ++ [v]) q = butterflyEntry h x q := by
  rw [butterflyEntry, butterflyEntry, sample_append_of_lt hq, sample_append_of_lt (by omega : q - h < x.length)]

/-- Half a frame back is in the other half of a frame. -/
theorem sub_half_mod_lt_iff {n : Nat} (hh : 1 ≤ h) (hn : h ≤ n) : (n - h) % (2 * h) < h ↔ ¬ n % (2 * h) < h := by
  obtain ⟨q, c, rfl, hc⟩ : ∃ q c, n = 2 * h * q + c ∧ c < 2 * h :=
    ⟨n / (2 * h), n % (2 * h), (Nat.div_add_mod n _).symm, Nat.mod_lt _ (by omega)⟩
  rw [Nat.mul_add_mod, Nat.mod_eq_of_lt hc]
  by_cases hlt : c < h
  · obtain ⟨q', rfl⟩ : ∃ q', q = q' + 1 := Nat.exists_eq_succ_of_ne_zero fun h0 => by
      rw [h0, Nat.mul_zero] at hn
      omega
    rw [show 2 * h * (q' + 1) + c - h = 2 * h * q' + (c + h) by rw [Nat.mul_succ]; omega, Nat.mul_add_mod,
      Nat.mod_eq_of_lt (by omega)]
    omega
  · rw [show 2 * h * q + c - h = 2 * h * q + (c - h) by omega, Nat.mul_add_mod, Nat.mod_eq_of_lt (by omega)]
    omega

theorem stream_sdfRadix2_append (log : Nat) (fmt : Fmt) (c : Nat) (d : List TaggedEntry) (x : List Payload) (v : Payload) :
    (Stage.sdfRadix2 log fmt c d).stream (x ++ [v]) = (Stage.sdfRadix2 log fmt c d).stream x ++
      (if 2 ^ (log - 1) ≤ x.length then [butterflySample (2 ^ (log - 1)) (x ++ [v]) (x.length - 2 ^ (log - 1))] else []) := by
  simp only [Stage.stream, List.length_append, List.length_singleton]
  have hold : ∀ q < x.length - 2 ^ (log - 1),
      butterflySample (2 ^ (log - 1)) (x ++ [v]) q = butterflySample (2 ^ (log - 1)) x q := fun q hq =>
    butterflySample_append_of_lt (by omega)
  split
  case isTrue hle => rw [show x.length + 1 - 2 ^ (log - 1) = x.length - 2 ^ (log - 1) + 1 by omega, map_range_succ_congr hold]
  case isFalse hlt =>
    rw [show x.length + 1 - 2 ^ (log - 1) = x.length - 2 ^ (log - 1) by omega, List.append_nil]
    exact List.map_congr_left fun q hq => hold q (List.mem_range.1 hq)

theorem map_payload_mk (g : Int → Int → Int) (a b : Payload) : Payload.map2 g a b = ⟨g a.re b.re, g a.im b.im⟩ := rfl

end

section
variable {x z : List Payload} {f : Fwd} {r : Bool} (u : Payload)

theorem remembers_sdfRadix2_append {log : Nat} {fmt : Fmt} {c : Nat} {d : List TaggedEntry} {e : TaggedEntry} {v : Payload}
    (h : (Stage.sdfRadix2 log fmt c d).remembers x) (he : e = butterflyEntry (2 ^ (log - 1)) (x ++ [v]) x.length) :
    (Stage.sdfRadix2 log fmt (countUp c (2 ^ log)) (delayShift d e)).remembers (x ++ [v]) := by
  obtain ⟨rfl, rfl⟩ := h
  refine ⟨by rw [countUp_mod, List.length_append, List.length_singleton], ?_⟩
  rw [delayShift_lineOf, he, map_range_append_singleton fun q hq => butterflyEntry_append_of_lt hq]

theorem Stage.Follows.next_sdfRadix2 {log : Nat} {fmt : Fmt} {c : Nat} {d : List TaggedEntry} (hlog : 1 ≤ log)
    (hf : fmt.legal = true) (hs : fmt.signed = true) (hx : ∀ v ∈ x, (LinkFmt.mk fmt 2).holds v = true)
    (hv : (LinkFmt.mk fmt 2).holds f.payload = true) (h : (Stage.sdfRadix2 log fmt c d).Follows x z) :
    ((Stage.sdfRadix2 log fmt c d).next u f r).Follows (x ++ moved f ((Stage.sdfRadix2 log fmt c d).ready r))
      (z ++ moved ((Stage.sdfRadix2 log fmt c d).forward f) r) := by
  have hframe := two_pow_eq_two_mul hlog
  have hpos : 1 ≤ 2 ^ (log - 1) := Nat.one_le_two_pow
  have hremembers := h.2
  obtain ⟨hc, hd⟩ := h.2
  have hmode : combineMode log c = decide (2 ^ (log - 1) ≤ c) := combineMode_eq hlog (hc ▸ Nat.mod_lt _ (Nat.two_pow_pos log))
  have hstream := stream_sdfRadix2_append log fmt c d x f.payload
  set half := 2 ^ (log - 1)
  rw [hframe] at hc
  have hread : delayRead TaggedEntry.empty d = if half ≤ x.length then butterflyEntry half x (x.length - half) else TaggedEntry.empty := by
    rw [hd, delayRead_lineOf hpos, List.length_map, List.length_range]
    split
    · exact getD_map_range _ _ (by omega)
    · rfl
  have hcle : c ≤ x.length := hc ▸ Nat.mod_le _ _
  by_cases hfill : half ≤ x.length
  case neg =>
    -- the line is still filling: nothing emerges
    have hlow : c < half := by omega
    have hm : combineMode log c = false := by rw [hmode]; simp [hlow]
    rw [if_neg hfill] at hread
    have hdue : due TaggedEntry.empty = false := rfl
    have hready : (Stage.sdfRadix2 log fmt c d).ready r = true := by simp [Stage.ready, sdfReady, hm, hread, hdue]
    have hforward : (Stage.sdfRadix2 log fmt c d).forward f = ⟨false, Payload.zero⟩ := by
      simp only [Stage.forward, sdfForward, hm, hread, hdue, Bool.and_false, Bool.false_eq_true, if_false]
      rfl
    have hnext : (Stage.sdfRadix2 log fmt c d).next u f r = if consume f.valid true then
        .sdfRadix2 log fmt (countUp c (2 ^ log)) (delayShift d ⟨f.payload, true, false⟩) else .sdfRadix2 log fmt c d := by
      simp only [Stage.ready] at hready
      simp [Stage.next, sdfNext, hready, sdfEntry, hm]
    rw [hready, hforward, hnext]
    refine h.of_immediate rfl (by split <;> rfl) (by split <;> rfl) (fun hi => ⟨by rw [hi]; rfl, rfl⟩) (fun ht => ⟨?_, ?_⟩)
    · rw [ht, if_pos rfl]
      refine remembers_sdfRadix2_append hremembers ?_
      rw [butterflyEntry, if_pos (hc ▸ hlow), sample_append_length]
    · rw [hstream, if_neg hfill]
      rfl
  case pos =>
    have hback := sub_half_mod_lt_iff hpos hfill
    rw [if_pos hfill] at hread hstream
    by_cases hcombine : half ≤ c
    case pos =>
      have hm : combineMode log c = true := by rw [hmode]; simp [hcombine]
      have hraw : butterflyEntry half x (x.length - half) = ⟨sample x (x.length - half), true, false⟩ :=
        if_pos (hback.2 (by rw [← hc]; omega))
      rw [hraw] at hread
      have hready : (Stage.sdfRadix2 log fmt c d).ready r = r := sdfReady_combine r hm
      have hsample := sample_holds hx (x.length - half)
      have hforward : (Stage.sdfRadix2 log fmt c d).forward f =
          ⟨f.valid, Payload.map2 (· + ·) (sample x (x.length - half)) f.payload⟩ := by
        simp only [Stage.forward, sdfForward, hm, if_true, hread, sdfSum_eq hf hs hsample hv, map_payload_mk]
      have hnext : (Stage.sdfRadix2 log fmt c d).next u f r = if consume f.valid r then .sdfRadix2 log fmt (countUp c (2 ^ log))
          (delayShift d ⟨Payload.map2 (· - ·) (sample x (x.length - half)) f.payload, true, true⟩) else .sdfRadix2 log fmt c d := by
        simp only [Stage.next, sdfNext, sdfReady, hm, if_true, sdfEntry, hread, sdfDifference_eq hf hs hsample hv, map_payload_mk]
      rw [hready, hforward, hnext]
      refine h.of_combinational rfl (by split <;> rfl) (by split <;> rfl) (fun hi => by rw [hi]; rfl) (fun ht => ⟨?_, ?_⟩)
      · rw [ht, if_pos rfl]
        refine remembers_sdfRadix2_append hremembers ?_
        rw [butterflyEntry, if_neg (by rw [← hc]; omega), sample_append_length, sample_append_of_lt (by omega)]
      · rw [hstream, butterflySample_eq, if_pos (hback.2 (by rw [← hc]; omega)), sample_append_of_lt (by omega),
          Nat.sub_add_cancel hfill, sample_append_length]
    case neg =>
      have hm : combineMode log c = false := by rw [hmode]; simp; omega
      have hdiff : butterflyEntry half x (x.length - half) =
          ⟨butterflySample half (x ++ [f.payload]) (x.length - half), true, true⟩ := by
        have hhigh : ¬ (x.length - half) % (2 * half) < half := fun hlt => hback.1 hlt (by rw [← hc]; omega)
        rw [butterflyEntry, if_neg hhigh, butterflySample_eq, if_neg hhigh, sample_append_of_lt (by omega),
          sample_append_of_lt (by omega)]
      rw [hdiff] at hread
      have hready : (Stage.sdfRadix2 log fmt c d).ready r = r := by simp [Stage.ready, sdfReady, hm, hread, due]
      have hforward : (Stage.sdfRadix2 log fmt c d).forward f =
          ⟨f.valid, butterflySample half (x ++ [f.payload]) (x.length - half)⟩ := by
        simp [Stage.forward, sdfForward, hm, hread, due]
      have hnext : (Stage.sdfRadix2 log fmt c d).next u f r = if consume f.valid r then
          .sdfRadix2 log fmt (countUp c (2 ^ log)) (delayShift d ⟨f.payload, true, false⟩) else .sdfRadix2 log fmt c d := by
        simp [Stage.next, sdfNext, sdfReady, hm, hread, due, sdfEntry]
      rw [hready, hforward, hnext]
      refine h.of_combinational rfl (by split <;> rfl) (by split <;> rfl) (fun hi => by rw [hi]; rfl) (fun ht => ⟨?_, hstream⟩)
      rw [ht, if_pos rfl]
      refine remembers_sdfRadix2_append hremembers ?_
      rw [butterflyEntry, if_pos (by rw [← hc]; omega), sample_append_length]

/-! ### Rotations (R207, R213, R215) -/

theorem length_mod_append (x : List Payload) (v : Payload) (m : Nat) : countUp (x.length % m) m = (x ++ [v]).length % m := by
  rw [countUp_mod, List.length_append, List.length_singleton]

theorem Stage.Follows.next_r22Twiddle {log c : Nat} {fmt : Fmt} (hlog : 2 ≤ log) (h : (Stage.r22Twiddle log fmt c).Follows x z) :
    ((Stage.r22Twiddle log fmt c).next u f r).Follows (x ++ moved f r) (z ++ moved ((Stage.r22Twiddle log fmt c).forward f) r) := by
  have hc : c = x.length % 2 ^ log := h.2
  have hlt : c < 2 ^ log := hc ▸ Nat.mod_lt _ (Nat.two_pow_pos log)
  refine h.of_combinational rfl rfl rfl (fun hi => ?_) (fun ht => ⟨?_, ?_⟩)
  · simp [Stage.next, r22Next, hi]
  · simp only [Stage.next, r22Next, ht, if_true, Stage.remembers]
    rw [hc, length_mod_append]
  · simp only [Stage.stream]
    rw [map_range_append_singleton fun q hq => by rw [sample_append_of_lt hq], sample_append_length]
    simp only [mulnegj_payload, rotateBit_iff hlog hlt]
    rw [hc]

theorem Stage.Follows.next_twiddleDirect {log c : Nat} {fmt tw : Fmt} {table : List Payload} (hf : fmt.legal = true)
    (hs : fmt.signed = true) (hts : tw.signed = true) (hti : 2 ≤ tw.i) (htable : table = twiddleList log tw.f)
    (hv : (LinkFmt.mk fmt 2).holds f.payload = true) (h : (Stage.twiddleDirect log fmt tw table c).Follows x z) :
    ((Stage.twiddleDirect log fmt tw table c).next u f r).Follows (x ++ moved f r)
      (z ++ moved ((Stage.twiddleDirect log fmt tw table c).forward f) r) := by
  have hc : c = x.length % 2 ^ log := h.2
  refine h.of_combinational rfl rfl rfl (fun hi => ?_) (fun ht => ⟨?_, ?_⟩)
  · simp [Stage.next, twiddleNext, hi]
  · simp only [Stage.next, twiddleNext, ht, if_true, Stage.remembers]
    rw [hc, length_mod_append]
  · have hfactor : tw.holds (romRead table c).re = true ∧ tw.holds (romRead table c).im = true :=
      htable ▸ romRead_twiddleList_holds hts hti log c
    simp only [Stage.stream]
    rw [map_range_append_singleton fun q hq => by rw [sample_append_of_lt hq], sample_append_length,
      rotate_eq_turn hf hs (Fmt.legal_of_twiddle hti) hfactor hv, hc]
    rfl

/-- The three substages together are the rotation (R105, R215). -/
theorem rotatedRecord_sumRecord {fmt tw : Fmt} {t v : Payload} (hf : fmt.legal = true) (hs : fmt.signed = true)
    (htw : tw.legal = true) (hts : tw.signed = true) (ht : tw.holds t.re = true ∧ tw.holds t.im = true)
    (hv : (LinkFmt.mk fmt 2).holds v = true) :
    rotatedRecord fmt tw (productRecord fmt tw (sumRecord fmt tw t v)) = turn fmt tw t v := by
  obtain ⟨hre, him⟩ := LinkFmt.holds_two_iff.1 hv
  have hmul3 : rotatedRecord fmt tw (productRecord fmt tw (sumRecord fmt tw t v)) =
      ⟨fmt.wrap (((v.toCx fmt).mul3 (t.toCx tw)).re / pow2 tw.f), fmt.wrap (((v.toCx fmt).mul3 (t.toCx tw)).im / pow2 tw.f)⟩ := by
    obtain ⟨hq1, hq2⟩ := Fmt.product_grow_comm fmt tw
    simp only [rotatedRecord_eq, productRecord, sumRecord, Fmt.sum_self, Cx.mul3, Cx.ofLanes]
    simp only [Fx.sub_same_fmt, Fx.add_same_fmt, Fx.mul, hq1, hq2, Cx.reFx, Cx.imFx, Payload.toCx]
  have hxl := toCx_legal hf hre him
  have htl := toCx_legal htw ht.1 ht.2
  obtain ⟨hlre, hlim⟩ := Cx.mul3_lanes hxl htl hs hts
  obtain ⟨hpre, hpim⟩ := Cx.wrap_mul_lanes hxl htl hs
  rw [hmul3, hlre, hlim, Cx.mul_eq hxl htl, hpre, hpim]
  rfl

/-- The substages move what they hold on, in order. -/
theorem held_twiddleThreeMult_next (log c : Nat) (fmt tw : Fmt) (table : List Payload) (s1 : PipeSlot SumRecord)
    (s2 : PipeSlot ProductRecord) (s3 : PipeSlot Payload) (u : Payload) (f : Fwd) (r : Bool) :
    moved ((Stage.twiddleThreeMult log fmt tw table c s1 s2 s3).forward f) r ++
        ((Stage.twiddleThreeMult log fmt tw table c s1 s2 s3).next u f r).held =
      (Stage.twiddleThreeMult log fmt tw table c s1 s2 s3).held ++ (if consume f.valid (threeMultReady s1 s2 s3 r) then
        [rotatedRecord fmt tw (productRecord fmt tw (sumRecord fmt tw (romRead table c) f.payload))] else []) := by
  obtain ⟨v, p⟩ := f
  obtain ⟨v1, p1⟩ := s1
  obtain ⟨v2, p2⟩ := s2
  obtain ⟨v3, p3⟩ := s3
  cases r
  · cases v <;> cases v1 <;> cases v2 <;> cases v3 <;>
      simp [Stage.next, threeMultNext, threeMultReady, PipeSlot.load, PipeSlot.ready, produce, Stage.held, consume]
  · cases v <;> cases v1 <;> cases v2 <;> cases v3 <;>
      simp [Stage.next, threeMultNext, threeMultReady, PipeSlot.load, PipeSlot.ready, produce, Stage.forward, pipeRegForward,
        Stage.held, consume]

theorem Stage.Follows.next_twiddleThreeMult {log c : Nat} {fmt tw : Fmt} {table : List Payload} {s1 : PipeSlot SumRecord}
    {s2 : PipeSlot ProductRecord} {s3 : PipeSlot Payload} (hf : fmt.legal = true) (hs : fmt.signed = true)
    (hts : tw.signed = true) (hti : 2 ≤ tw.i) (htable : table = twiddleList log tw.f)
    (hv : (LinkFmt.mk fmt 2).holds f.payload = true) (h : (Stage.twiddleThreeMult log fmt tw table c s1 s2 s3).Follows x z) :
    ((Stage.twiddleThreeMult log fmt tw table c s1 s2 s3).next u f r).Follows
      (x ++ moved f ((Stage.twiddleThreeMult log fmt tw table c s1 s2 s3).ready r))
      (z ++ moved ((Stage.twiddleThreeMult log fmt tw table c s1 s2 s3).forward f) r) := by
  obtain ⟨haccount, hc : c = x.length % 2 ^ log⟩ := h
  have hfactor : tw.holds (romRead table c).re = true ∧ tw.holds (romRead table c).im = true :=
    htable ▸ romRead_twiddleList_holds hts hti log c
  have hturn := rotatedRecord_sumRecord hf hs (Fmt.legal_of_twiddle hti) hts hfactor hv
  have hstream : (Stage.twiddleThreeMult log fmt tw table c s1 s2 s3).stream (x ++ [f.payload]) =
      (Stage.twiddleThreeMult log fmt tw table c s1 s2 s3).stream x ++ [turn fmt tw (romRead table c) f.payload] := by
    simp only [Stage.stream]
    rw [map_range_append_singleton fun q hq => by rw [sample_append_of_lt hq], sample_append_length, ← hc]
    rfl
  refine ⟨?_, ?_⟩
  · rw [Stage.next_stream, List.append_assoc, held_twiddleThreeMult_next, ← List.append_assoc, haccount, hturn]
    change _ = (Stage.twiddleThreeMult log fmt tw table c s1 s2 s3).stream (x ++ moved f (threeMultReady s1 s2 s3 r))
    unfold moved
    by_cases htake : consume f.valid (threeMultReady s1 s2 s3 r) = true
    · rw [if_pos htake, if_pos htake, hstream]
    · rw [if_neg htake, if_neg htake, List.append_nil, List.append_nil]
  · simp only [Stage.next, threeMultNext, Stage.remembers, Stage.ready]
    cases ht : consume f.valid (threeMultReady s1 s2 s3 r)
    · simp [moved, ht, hc]
    · simp only [moved, ht, if_true]
      rw [hc, length_mod_append]

end

/-! ### The exchange (R234) -/

/-- Taking a set bit away clears that bit only. -/
theorem testBit_sub_two_pow {q j : Nat} (h : Nat.testBit q j = true) (i : Nat) :
    Nat.testBit (q - 2 ^ j) i = if i = j then false else Nat.testBit q i := by
  obtain ⟨a, b, rfl, hb⟩ : ∃ a b, q = 2 ^ j * (2 * a + 1) + b ∧ b < 2 ^ j := by
    refine ⟨q / 2 ^ j / 2, q % 2 ^ j, ?_, Nat.mod_lt _ (Nat.two_pow_pos j)⟩
    have hodd : q / 2 ^ j % 2 = 1 := by simpa [Nat.testBit_eq_decide_div_mod_eq] using h
    rw [show 2 * (q / 2 ^ j / 2) + 1 = q / 2 ^ j by omega]
    exact (Nat.div_add_mod q _).symm
  rw [show 2 ^ j * (2 * a + 1) + b - 2 ^ j = 2 ^ j * (2 * a) + b by rw [Nat.mul_add, Nat.mul_one]; omega,
    Nat.testBit_two_pow_mul_add _ hb, Nat.testBit_two_pow_mul_add _ hb]
  obtain hlt | rfl | ⟨k, rfl⟩ : i < j ∨ i = j ∨ ∃ k, i = j + (k + 1) := by
    obtain hlt | hle := Nat.lt_or_ge i j
    · exact .inl hlt
    · obtain ⟨k, rfl⟩ := Nat.exists_eq_add_of_le hle
      cases k with
      | zero => exact .inr (.inl rfl)
      | succ k => exact .inr (.inr ⟨k, rfl⟩)
  · simp [hlt, hlt.ne]
  · simp [Nat.testBit_zero]
  · rw [if_neg (by omega), if_neg (by omega), if_neg (by omega), Nat.add_sub_cancel_left, Nat.testBit_succ, Nat.testBit_succ]
    congr 1
    omega

/-- Adding a clear bit sets that bit only. -/
theorem testBit_add_two_pow {q j : Nat} (h : Nat.testBit q j = false) (i : Nat) :
    Nat.testBit (q + 2 ^ j) i = if i = j then true else Nat.testBit q i := by
  have hset : Nat.testBit (q + 2 ^ j) j = true := by rw [Nat.add_comm, Nat.testBit_two_pow_add_eq, h]; rfl
  have hback := testBit_sub_two_pow hset i
  rw [Nat.add_sub_cancel] at hback
  split at hback
  case isTrue hi => rw [if_pos hi, hi, hset]
  case isFalse hi => rw [if_neg hi, hback]

section
variable {j k q : Nat}

theorem two_pow_eq_exchangeDepth_add (hjk : k < j) : 2 ^ j = exchangeDepth j k + 2 ^ k ∧ 0 < 2 ^ k :=
  ⟨(Nat.sub_add_cancel (Nat.pow_le_pow_right (by decide) hjk.le)).symm, Nat.two_pow_pos k⟩

theorem one_le_exchangeDepth (hjk : k < j) : 1 ≤ exchangeDepth j k :=
  Nat.sub_pos_of_lt (Nat.pow_lt_pow_right (by decide) hjk)

theorem swapBits_of_eq (h : Nat.testBit q j = Nat.testBit q k) : swapBits j k q = q := if_pos h

theorem swapBits_of_set (hj : Nat.testBit q j = true) (hk : Nat.testBit q k = false) : swapBits j k q = q - 2 ^ j + 2 ^ k := by
  simp [swapBits, hj, hk]

theorem swapBits_of_clear (hj : Nat.testBit q j = false) (hk : Nat.testBit q k = true) : swapBits j k q = q + 2 ^ j - 2 ^ k := by
  simp [swapBits, hj, hk]

/-- Exchanging two bits of an index moves it by the difference of their weights at most. -/
theorem swapBits_le (hjk : k < j) : swapBits j k q ≤ q + exchangeDepth j k := by
  have hdepth := two_pow_eq_exchangeDepth_add hjk
  unfold swapBits
  split
  · omega
  · split
    case isTrue hj =>
      have hle := Nat.ge_two_pow_of_testBit hj
      omega
    case isFalse => omega

/-- The bits of the index a line's length back, where they differ upward. -/
theorem testBit_add_exchangeDepth (hjk : k < j) (hj : Nat.testBit q j = false) (hk : Nat.testBit q k = true) :
    Nat.testBit (q + exchangeDepth j k) j = true ∧ Nat.testBit (q + exchangeDepth j k) k = false := by
  have hdepth := two_pow_eq_exchangeDepth_add hjk
  have hk' : Nat.testBit (q + 2 ^ j) k = true := by rw [testBit_add_two_pow hj, if_neg hjk.ne, hk]
  have hq : q + exchangeDepth j k = q + 2 ^ j - 2 ^ k := by omega
  rw [hq, testBit_sub_two_pow hk', testBit_sub_two_pow hk', if_neg hjk.ne', if_pos rfl, testBit_add_two_pow hj, if_pos rfl]
  exact ⟨rfl, rfl⟩

theorem testBit_sub_exchangeDepth (hjk : k < j) (hj : Nat.testBit q j = true) (hk : Nat.testBit q k = false) :
    Nat.testBit (q - exchangeDepth j k) j = false ∧ Nat.testBit (q - exchangeDepth j k) k = true := by
  have hdepth := two_pow_eq_exchangeDepth_add hjk
  have hle := Nat.ge_two_pow_of_testBit hj
  have hk' : Nat.testBit (q - 2 ^ j) k = false := by rw [testBit_sub_two_pow hj, if_neg hjk.ne, hk]
  have hq : q - exchangeDepth j k = q - 2 ^ j + 2 ^ k := by omega
  rw [hq, testBit_add_two_pow hk', testBit_add_two_pow hk', if_neg hjk.ne', if_pos rfl, testBit_sub_two_pow hj, if_pos rfl]
  exact ⟨rfl, rfl⟩

theorem exchangeBit_iff : exchangeBit j k q = true ↔ Nat.testBit q j = false ∨ Nat.testBit q k = true := by
  simp [exchangeBit, counterBit]

theorem exchangeBit_eq_false_iff : exchangeBit j k q = false ↔ Nat.testBit q j = true ∧ Nat.testBit q k = false := by
  simp [exchangeBit, counterBit]

/-- The counter's bits are those of the number of samples taken. -/
theorem exchangeBit_mod (hjk : k < j) : exchangeBit j k (q % 2 ^ (j + 1)) = exchangeBit j k q := by
  have hk : k < j + 1 := by omega
  simp [exchangeBit, counterBit, Nat.testBit_mod_two_pow, hk]

/-- What goes round was taken before the line's length. -/
theorem exchangeDepth_le_of_recirculated (h : exchangeBit j k q = false) : exchangeDepth j k ≤ q :=
  (Nat.sub_le _ _).trans (Nat.ge_two_pow_of_testBit (exchangeBit_eq_false_iff.1 h).1)

/-- The sample that passes is the exchanged index of the output it becomes. -/
theorem swapBits_of_passing (hjk : k < j) (h : exchangeBit j k q = false) : swapBits j k (q - exchangeDepth j k) = q := by
  obtain ⟨hj, hk⟩ := exchangeBit_eq_false_iff.1 h
  obtain ⟨hj', hk'⟩ := testBit_sub_exchangeDepth hjk hj hk
  have hdepth := two_pow_eq_exchangeDepth_add hjk
  have hle := Nat.ge_two_pow_of_testBit hj
  rw [swapBits_of_clear hj' hk']
  omega

/-- The entry that emerges holds the exchanged index of the output it becomes. -/
theorem exchangeEntry_emerging (hjk : k < j) (x : List Payload) (hle : exchangeDepth j k ≤ q) (h : exchangeBit j k q = true) :
    exchangeEntry j k x (q - exchangeDepth j k) = ⟨sample x (swapBits j k (q - exchangeDepth j k)), true⟩ := by
  obtain ⟨p, rfl⟩ := Nat.exists_eq_add_of_le' hle
  rw [Nat.add_sub_cancel] at *
  have hdepth := two_pow_eq_exchangeDepth_add hjk
  unfold exchangeEntry
  cases hj : Nat.testBit p j <;> cases hk : Nat.testBit p k
  · rw [if_pos (exchangeBit_iff.2 (.inl hj)), swapBits_of_eq (hj.trans hk.symm)]
  · have hbits := testBit_add_exchangeDepth hjk hj hk
    exact absurd h (by rw [exchangeBit_eq_false_iff.2 hbits]; decide)
  · have hle := Nat.ge_two_pow_of_testBit hj
    have hs := exchangeBit_eq_false_iff.2 ⟨hj, hk⟩
    rw [if_neg (by rw [hs]; decide), swapBits_of_set hj hk, show p - exchangeDepth j k = p - 2 ^ j + 2 ^ k by omega]
  · rw [if_pos (exchangeBit_iff.2 (.inr hk)), swapBits_of_eq (hj.trans hk.symm)]

/-- It was taken before. -/
theorem swapBits_lt_of_emerging (hjk : k < j) (hle : exchangeDepth j k ≤ q) (h : exchangeBit j k q = true) :
    swapBits j k (q - exchangeDepth j k) < q := by
  obtain ⟨p, rfl⟩ := Nat.exists_eq_add_of_le' hle
  rw [Nat.add_sub_cancel]
  have hdepth := two_pow_eq_exchangeDepth_add hjk
  have hpos := one_le_exchangeDepth hjk
  cases hj : Nat.testBit p j <;> cases hk : Nat.testBit p k
  · rw [swapBits_of_eq (hj.trans hk.symm)]
    omega
  · exact absurd h (by rw [exchangeBit_eq_false_iff.2 (testBit_add_exchangeDepth hjk hj hk)]; decide)
  · have hle := Nat.ge_two_pow_of_testBit hj
    rw [swapBits_of_set hj hk]
    omega
  · rw [swapBits_of_eq (hj.trans hk.symm)]
    omega

end

section
variable {x z : List Payload} {f : Fwd} {r : Bool} (u : Payload) {j k c : Nat} {l : LinkFmt} {d : List Slot}

theorem stream_bitExchange_append (hjk : k < j) (v : Payload) : (Stage.bitExchange j k l c d).stream (x ++ [v]) =
    (Stage.bitExchange j k l c d).stream x ++ (if exchangeDepth j k ≤ x.length then
      [sample (x ++ [v]) (swapBits j k (x.length - exchangeDepth j k))] else []) := by
  have hold : ∀ q < x.length - exchangeDepth j k, sample (x ++ [v]) (swapBits j k q) = sample x (swapBits j k q) := fun q hq => by
    have := swapBits_le (q := q) hjk
    exact sample_append_of_lt (by omega)
  have hstream (y : List Payload) : (Stage.bitExchange j k l c d).stream y =
      (List.range (y.length - exchangeDepth j k)).map fun q => sample y (swapBits j k q) := rfl
  rw [hstream, hstream, List.length_append, List.length_singleton]
  split
  case isTrue h => rw [show x.length + 1 - exchangeDepth j k = x.length - exchangeDepth j k + 1 by omega, map_range_succ_congr hold]
  case isFalse h =>
    rw [show x.length + 1 - exchangeDepth j k = x.length - exchangeDepth j k by omega, List.append_nil]
    exact List.map_congr_left fun q hq => hold q (List.mem_range.1 hq)

theorem exchangeEntry_append_of_lt {v : Payload} {q : Nat} (hq : q < x.length) : exchangeEntry j k (x ++ [v]) q = exchangeEntry j k x q := by
  unfold exchangeEntry
  rw [sample_append_of_lt (by split <;> omega)]

theorem remembers_bitExchange_append {e : Slot} {v : Payload} (h : (Stage.bitExchange j k l c d).remembers x)
    (he : e = exchangeEntry j k (x ++ [v]) x.length) :
    (Stage.bitExchange j k l (countUp c (2 ^ (j + 1))) (delayShift d e)).remembers (x ++ [v]) := by
  obtain ⟨rfl, rfl⟩ := h
  refine ⟨by rw [countUp_mod, List.length_append, List.length_singleton], ?_⟩
  rw [delayShift_lineOf, he, map_range_append_singleton fun q hq => exchangeEntry_append_of_lt hq]

theorem Stage.Follows.next_bitExchange (hjk : k < j) (h : (Stage.bitExchange j k l c d).Follows x z) :
    ((Stage.bitExchange j k l c d).next u f r).Follows (x ++ moved f ((Stage.bitExchange j k l c d).ready r))
      (z ++ moved ((Stage.bitExchange j k l c d).forward f) r) := by
  have hremembers := h.2
  obtain ⟨hc, hd⟩ := h.2
  have hbit : exchangeBit j k c = exchangeBit j k x.length := by rw [hc, exchangeBit_mod hjk]
  have hread : delayRead Slot.empty d = if exchangeDepth j k ≤ x.length then
      exchangeEntry j k x (x.length - exchangeDepth j k) else Slot.empty := by
    have hpos := one_le_exchangeDepth hjk
    rw [hd, delayRead_lineOf hpos, List.length_map, List.length_range]
    split
    · exact getD_map_range _ _ (by omega)
    · rfl
  have hstream := stream_bitExchange_append (l := l) (c := c) (d := d) (x := x) hjk f.payload
  cases hs : exchangeBit j k x.length with
  | false =>
    -- the sample passes, the emerging entry goes round
    have hfull := exchangeDepth_le_of_recirculated hs
    rw [if_pos hfull] at hread hstream
    rw [hs] at hbit
    have hready : (Stage.bitExchange j k l c d).ready r = r := by simp [Stage.ready, exchangeReady, hbit]
    have hforward : (Stage.bitExchange j k l c d).forward f = ⟨f.valid, f.payload⟩ := by simp [Stage.forward, exchangeForward, hbit]
    have hnext : (Stage.bitExchange j k l c d).next u f r = if consume f.valid r then .bitExchange j k l (countUp c (2 ^ (j + 1)))
        (delayShift d (exchangeEntry j k x (x.length - exchangeDepth j k))) else .bitExchange j k l c d := by
      simp [Stage.next, exchangeNext, exchangeReady, hbit, hread]
    rw [hready, hforward, hnext]
    refine h.of_combinational rfl (by split <;> rfl) (by split <;> rfl) (fun hi => by rw [hi]; rfl) (fun ht => ⟨?_, ?_⟩)
    · have hpos := one_le_exchangeDepth hjk
      obtain ⟨hj', hk'⟩ := testBit_sub_exchangeDepth hjk (exchangeBit_eq_false_iff.1 hs).1 (exchangeBit_eq_false_iff.1 hs).2
      rw [ht, if_pos rfl]
      refine remembers_bitExchange_append hremembers ?_
      rw [exchangeEntry, exchangeEntry, hs, exchangeBit_iff.2 (.inl hj'), if_pos rfl, if_neg (by decide), sample_append_of_lt (by omega)]
    · rw [hstream, swapBits_of_passing hjk hs, sample_append_length]
  | true =>
    rw [hs] at hbit
    have hentry : (⟨f.payload, true⟩ : Slot) = exchangeEntry j k (x ++ [f.payload]) x.length := by
      rw [exchangeEntry, hs, if_pos rfl, sample_append_length]
    by_cases hfull : exchangeDepth j k ≤ x.length
    · rw [if_pos hfull, exchangeEntry_emerging hjk x hfull hs] at hread
      rw [if_pos hfull] at hstream
      have hready : (Stage.bitExchange j k l c d).ready r = r := by simp [Stage.ready, exchangeReady, hbit, hread]
      have hforward : (Stage.bitExchange j k l c d).forward f =
          ⟨f.valid, sample x (swapBits j k (x.length - exchangeDepth j k))⟩ := by simp [Stage.forward, exchangeForward, hbit, hread]
      have hnext : (Stage.bitExchange j k l c d).next u f r = if consume f.valid r then
          .bitExchange j k l (countUp c (2 ^ (j + 1))) (delayShift d ⟨f.payload, true⟩) else .bitExchange j k l c d := by
        simp [Stage.next, exchangeNext, exchangeReady, hbit, hread]
      rw [hready, hforward, hnext]
      refine h.of_combinational rfl (by split <;> rfl) (by split <;> rfl) (fun hi => by rw [hi]; rfl) (fun ht => ⟨?_, ?_⟩)
      · rw [ht, if_pos rfl]
        exact remembers_bitExchange_append hremembers hentry
      · rw [hstream, sample_append_of_lt (swapBits_lt_of_emerging hjk hfull hs)]
    · rw [if_neg hfull] at hread hstream
      have hbubble : Slot.empty.valid = false := rfl
      have hready : (Stage.bitExchange j k l c d).ready r = true := by simp [Stage.ready, exchangeReady, hbit, hread, hbubble]
      have hforward : (Stage.bitExchange j k l c d).forward f = ⟨false, Payload.zero⟩ := by
        simp only [Stage.forward, exchangeForward, hbit, hread, if_true, hbubble, Bool.and_false]
        rfl
      have hnext : (Stage.bitExchange j k l c d).next u f r = if consume f.valid true then
          .bitExchange j k l (countUp c (2 ^ (j + 1))) (delayShift d ⟨f.payload, true⟩) else .bitExchange j k l c d := by
        simp only [Stage.ready] at hready
        simp [Stage.next, exchangeNext, hready, hbit]
      rw [hready, hforward, hnext]
      refine h.of_immediate rfl (by split <;> rfl) (by split <;> rfl) (fun hi => ⟨by rw [hi]; rfl, rfl⟩) (fun ht => ⟨?_, hstream⟩)
      rw [ht, if_pos rfl]
      exact remembers_bitExchange_append hremembers hentry

end

end Sys2Proof.Machine
end

section
/-! PROOFS. Streams of a chain and of the machine (`42_stream_skid_delay.md` R122, R127): the account kept stage by stage
is kept link by link and tick by tick, from the reset state on. -/

namespace Sys2Proof.Machine

/-! ### A stage -/

/-- Each tick keeps the account of a stage. -/
theorem Stage.Follows.next {st : Stage} {x z : List Payload} {f : Fwd} (h : st.Follows x z) (hs : st.shaped)
    (hx : ∀ v ∈ x, st.inLink.holds v = true) (hv : st.inLink.holds f.payload = true) (u : Payload) (r : Bool) :
    (st.next u f r).Follows (x ++ moved f (st.ready r)) (z ++ moved (st.forward f) r) := by
  cases st with
  | skidBuffer l armed buf => exact h.next_skidBuffer u
  | streamDelay depth l d => exact h.next_streamDelay u
  | pipeReg g reg => exact h.next_pipeReg u
  | integrator a b acc => exact h.next_integrator u
  | comb a b m d => exact Stage.Follows.next_comb u hs.2.2.2 h
  | upsampler n l c => exact Stage.Follows.next_upsampler u hs.2 h
  | downsampler n l c => exact Stage.Follows.next_downsampler u hs.2 h
  | requant k a b => exact h.next_requant u
  | sdfRadix2 log fmt c d =>
    obtain ⟨hlog, hf, hsigned⟩ := hs
    exact Stage.Follows.next_sdfRadix2 u hlog hf hsigned hx hv h
  | r22Twiddle log fmt c => exact Stage.Follows.next_r22Twiddle u hs.1 h
  | twiddleDirect log fmt tw table c =>
    obtain ⟨-, hf, hsigned, hts, hti, htable⟩ := hs
    exact Stage.Follows.next_twiddleDirect u hf hsigned hts hti htable hv h
  | twiddleThreeMult log fmt tw table c s1 s2 s3 =>
    obtain ⟨-, hf, hsigned, hts, hti, htable⟩ := hs
    exact Stage.Follows.next_twiddleThreeMult u hf hsigned hts hti htable hv h
  | bitExchange j k l c d => exact Stage.Follows.next_bitExchange u hs.1 h

/-- At reset nothing has been taken, given or remembered. -/
theorem Stage.Follows.of_fresh {st : Stage} (hs : st.shaped) (h : st.cleared = st) : st.Follows [] [] := by
  rw [← h]
  have hframe (log : Nat) : 0 = ([] : List Payload).length % 2 ^ log := (Nat.zero_mod _).symm
  cases st with
  | skidBuffer l armed buf => exact ⟨rfl, trivial⟩
  | streamDelay depth l d =>
    refine ⟨?_, List.length_replicate ..⟩
    have hnone : (List.replicate depth Slot.empty).reverse.filter Slot.valid = [] := by
      rw [List.reverse_replicate, List.filter_replicate]
      rfl
    simp only [Stage.cleared, Stage.held, Stage.stream, hnone, List.map_nil, List.append_nil]
  | pipeReg g reg => exact ⟨rfl, trivial⟩
  | integrator a b acc =>
    refine ⟨rfl, ?_⟩
    have hzero := wrapS_zero (Fmt.one_le_width (LinkFmt.legal_iff.1 hs.2.1).1)
    simp only [Stage.cleared, freshIntegrator, Stage.remembers, laneSum, List.map_nil, List.sum_nil, Payload.map, hzero]
    rfl
  | comb a b m d => exact ⟨rfl, lineOf_nil.symm⟩
  | upsampler n l c => exact ⟨rfl, hs.2⟩
  | downsampler n l c =>
    refine ⟨?_, (Nat.zero_mod n).symm⟩
    have hn : 0 < n := hs.2
    simp [Stage.cleared, Stage.held, Stage.stream, hn]
  | requant k a b => exact ⟨rfl, trivial⟩
  | sdfRadix2 log fmt c d => exact ⟨by simp [Stage.cleared, freshSdf, Stage.held, Stage.stream], hframe log, lineOf_nil.symm⟩
  | r22Twiddle log fmt c => exact ⟨rfl, hframe log⟩
  | twiddleDirect log fmt tw table c => exact ⟨rfl, hframe log⟩
  | twiddleThreeMult log fmt tw table c s1 s2 s3 => exact ⟨rfl, hframe log⟩
  | bitExchange j k l c d => exact ⟨by simp [Stage.cleared, freshExchange, Stage.held, Stage.stream], hframe _, lineOf_nil.symm⟩

/-- A sample more, and what was due stays due. -/
theorem Stage.stream_append_singleton {st : Stage} (hs : st.shaped) (x : List Payload) (v : Payload) :
    st.stream x <+: st.stream (x ++ [v]) := by
  cases st with
  | skidBuffer l armed buf => exact List.prefix_append ..
  | streamDelay depth l d => exact List.prefix_append ..
  | pipeReg g reg => simp [Stage.stream]
  | integrator a b acc =>
    simp only [Stage.stream]
    rw [map_range_append_singleton fun q hq => by rw [sumUpTo_append_of_lt _ hq]]
    exact List.prefix_append ..
  | comb a b m d =>
    simp only [Stage.stream]
    rw [map_range_append_singleton fun q hq => by rw [sample_append_of_lt hq, sampleBefore_append_of_lt _ hq]]
    exact List.prefix_append ..
  | upsampler n l c => simp [Stage.stream]
  | downsampler n l c =>
    rw [Stage.stream_downsampler_append c hs.2]
    exact List.prefix_append ..
  | requant k a b => simp [Stage.stream]
  | sdfRadix2 log fmt c d =>
    rw [stream_sdfRadix2_append]
    exact List.prefix_append ..
  | r22Twiddle log fmt c =>
    simp only [Stage.stream]
    rw [map_range_append_singleton fun q hq => by rw [sample_append_of_lt hq]]
    exact List.prefix_append ..
  | twiddleDirect log fmt tw table c =>
    simp only [Stage.stream]
    rw [map_range_append_singleton fun q hq => by rw [sample_append_of_lt hq]]
    exact List.prefix_append ..
  | twiddleThreeMult log fmt tw table c s1 s2 s3 =>
    simp only [Stage.stream]
    rw [map_range_append_singleton fun q hq => by rw [sample_append_of_lt hq]]
    exact List.prefix_append ..
  | bitExchange j k l c d =>
    rw [stream_bitExchange_append hs.1]
    exact List.prefix_append ..

/-- The stream function of a longer sequence begins with that of the shorter one. -/
theorem Stage.stream_prefix {st : Stage} (hs : st.shaped) {x y : List Payload} (h : x <+: y) : st.stream x <+: st.stream y := by
  obtain ⟨w, rfl⟩ := h
  induction w using List.reverseRecOn with
  | nil => rw [List.append_nil]
  | append_singleton w v ih => exact ih.trans (List.append_assoc x w [v] ▸ Stage.stream_append_singleton hs (x ++ w) v)

/-! ### A chain -/

/-- The account of a chain that has taken `x` and given `y`, link by link. -/
def chainFollows : List Stage → (x y : List Payload) → Prop
  | [], x, y => y = x
  | st :: rest, x, y => ∃ z, st.Follows x z ∧ (∀ v ∈ x, st.inLink.holds v = true) ∧ chainFollows rest z y

theorem chainStream_prefix {sts : List Stage} (hs : chainGood sts) {x y : List Payload} (h : x <+: y) :
    chainStream sts x <+: chainStream sts y := by
  induction sts generalizing x y with
  | nil => exact h
  | cons st rest ih =>
    obtain ⟨⟨hst, -⟩, hrest⟩ := chainGood_cons.1 hs
    exact ih hrest (Stage.stream_prefix hst h)

theorem chainStream_map_cleared (sts : List Stage) (x : List Payload) : chainStream (sts.map Stage.cleared) x = chainStream sts x := by
  induction sts generalizing x with
  | nil => rfl
  | cons st rest ih => rw [List.map_cons, chainStream, chainStream, ih, Stage.cleared_stream]

theorem chainFollows.accountsFor {sts : List Stage} {x y : List Payload} (h : chainFollows sts x y) : accountsFor sts x y := by
  induction sts generalizing x with
  | nil => exact h
  | cons st rest ih =>
    obtain ⟨z, hst, -, hrest⟩ := h
    exact ⟨z, hst.1, ih hrest⟩

/-- What a chain has given is due of what it has taken. -/
theorem chainFollows.given_isPrefix {sts : List Stage} (hs : chainGood sts) {x y : List Payload} (h : chainFollows sts x y) :
    y <+: chainStream sts x := by
  induction sts generalizing x with
  | nil => exact h ▸ List.prefix_rfl
  | cons st rest ih =>
    obtain ⟨-, hrest⟩ := chainGood_cons.1 hs
    obtain ⟨z, ⟨haccount, -⟩, -, hfollows⟩ := h
    exact (ih hrest hfollows).trans (chainStream_prefix hrest ⟨_, haccount⟩)

theorem Stage.immediate_cleared (st : Stage) : st.cleared.immediate = st.immediate := by cases st <;> rfl

theorem Stage.held_of_immediate {st : Stage} (hr : st.registered) (h : st.immediate = true) : st.held = [] := by
  cases st with
  | streamDelay depth l d =>
    obtain rfl : depth = 0 := by simpa [Stage.immediate] using h
    obtain rfl := List.length_eq_zero_iff.1 hr.1
    rfl
  | upsampler n l c =>
    obtain rfl : n = 1 := by simpa [Stage.immediate] using h
    obtain rfl : c = 0 := Nat.lt_one_iff.1 hr
    rfl
  | skidBuffer => exact absurd h (by simp [Stage.immediate])
  | pipeReg => exact absurd h (by simp [Stage.immediate])
  | twiddleThreeMult => exact absurd h (by simp [Stage.immediate])
  | _ => rfl

/-- Where nothing is held back, what is due has been given. -/
theorem chainFollows.eq_of_immediate {sts : List Stage} (hs : chainGood sts) {x y : List Payload} (h : chainFollows sts x y)
    (hi : ∀ st ∈ sts, st.immediate = true) : y = chainStream sts x := by
  induction sts generalizing x with
  | nil => exact h
  | cons st rest ih =>
    obtain ⟨⟨-, hr⟩, hrest⟩ := chainGood_cons.1 hs
    obtain ⟨hst, hi⟩ := List.forall_mem_cons.1 hi
    obtain ⟨z, ⟨haccount, -⟩, -, hfollows⟩ := h
    rw [Stage.held_of_immediate hr hst, List.append_nil] at haccount
    rw [chainStream, ← haccount]
    exact ih hrest hfollows hi

theorem chainFollows.of_fresh {sts : List Stage} (hs : chainGood sts) (h : ∀ st ∈ sts, st.cleared = st) : chainFollows sts [] [] := by
  induction sts with
  | nil => rfl
  | cons st rest ih =>
    obtain ⟨⟨hst, -⟩, hrest⟩ := chainGood_cons.1 hs
    obtain ⟨hf, h⟩ := List.forall_mem_cons.1 h
    exact ⟨[], Stage.Follows.of_fresh hst hf, (fun _ hv => nomatch hv), ih hrest h⟩

theorem holds_moved {l : LinkFmt} {x : List Payload} (hx : ∀ v ∈ x, l.holds v = true) {f : Fwd} (hv : l.holds f.payload = true)
    (r : Bool) : ∀ v ∈ x ++ moved f r, l.holds v = true := by
  intro v hmem
  obtain h | h := List.mem_append.1 hmem
  · exact hx v h
  · unfold moved at h
    split at h
    · rwa [List.mem_singleton.1 h]
    · cases h

/-- Each tick keeps the account of a chain. -/
theorem chainFollows.next {l : LinkFmt} {sts : List Stage} {x y : List Payload} {f : Fwd} (h : chainFollows sts x y)
    (hj : chainJoined l sts) (hg : chainGood sts) (hf : l.holds f.payload = true) (t k : Nat) (r : Bool) :
    chainFollows (chainNext t k sts f r) (x ++ moved f (chainReady sts r)) (y ++ moved (chainForward t k sts f) r) := by
  induction sts generalizing l k x f with
  | nil => exact congrArg (· ++ moved f r) h
  | cons st rest ih =>
    obtain ⟨rfl, hj⟩ := hj
    obtain ⟨⟨hs, hr⟩, hg⟩ := chainGood_cons.1 hg
    obtain ⟨z, hst, hx, hrest⟩ := h
    refine ⟨_, hst.next hs hx hf _ _, ?_, ?_⟩
    · rw [Stage.next_inLink]
      exact holds_moved hx hf _
    · have hih := ih hrest hj hg (Stage.showLink_forward_holds hs hr hf t (2 * (k + 1))) (k + 1)
      rwa [moved_showLink] at hih

/-! ### The machine -/

theorem transfer_toList (f : Fwd) (r : Bool) : (LinkSignals.transfer ⟨f.valid, f.payload, r⟩).toList = moved f r := by
  unfold LinkSignals.transfer moved
  dsimp only
  split <;> rfl

section
variable {s : State} {p : Pipeline} (h : s.pipeline = some p)
include h

theorem inputs_tick_eq : (tick s).inputs = s.inputs ++ moved (p.input s.ticks s.drive) (p.ready s.drive) := by
  rw [inputs_tick, h, ← transfer_toList]
  rfl

theorem outputs_tick_eq : (tick s).outputs = s.outputs ++ moved (p.output s.ticks s.drive) s.drive.ready := by
  rw [outputs_tick, h, ← transfer_toList]
  rfl

end

/-- The machine has kept its account since the unit `p` was built. -/
def State.KeepsAccount (p : Pipeline) (s : State) : Prop :=
  ∃ stages, s.pipeline = some ⟨p.inLink, stages⟩ ∧ Pipeline.Inv ⟨p.inLink, stages⟩ ∧
    stages.map Stage.cleared = p.stages.map Stage.cleared ∧ chainFollows stages s.inputs s.outputs

theorem State.KeepsAccount.of_started {p : Pipeline} (env : List EnvTick) (hp : p.Inv) (hf : p.fresh) :
    (started p env).KeepsAccount p :=
  ⟨p.stages, rfl, hp, rfl, chainFollows.of_fresh hp.2.2 hf⟩

theorem keepsAccount_tick {p : Pipeline} {s : State} (h : s.KeepsAccount p) : (tick s).KeepsAccount p := by
  obtain ⟨stages, hs, hinv, hcleared, hfollows⟩ := h
  refine ⟨_, by rw [tick_pipeline, hs]; rfl, hinv.next s.ticks s.drive, ?_, ?_⟩
  · rw [chainNext_map_cleared, hcleared]
  · rw [inputs_tick_eq hs, outputs_tick_eq hs]
    exact hfollows.next hinv.2.1 hinv.2.2 (hinv.input_holds s.ticks s.drive) s.ticks 0 s.drive.ready

theorem keepsAccount_ticks {p : Pipeline} (n : Nat) {s : State} (h : s.KeepsAccount p) : (ticks n s).KeepsAccount p := by
  induction n generalizing s with
  | zero => exact h
  | succ n ih => exact ih (keepsAccount_tick h)

theorem State.KeepsAccount.chainStream_eq {p : Pipeline} {stages : List Stage} (h : stages.map Stage.cleared = p.stages.map Stage.cleared)
    (x : List Payload) : chainStream p.stages x = chainStream stages x := by
  rw [← chainStream_map_cleared, ← h, chainStream_map_cleared]

/-- Settles O51. -/
theorem nothingDueIsLost : Obligations.NothingDueIsLost := by
  intro p env n hp hf
  obtain ⟨stages, hs, -, -, hfollows⟩ := keepsAccount_ticks n (State.KeepsAccount.of_started env hp hf)
  exact ⟨stages, hs, hfollows.accountsFor⟩

/-- Settles O50: what is held back is missing at the end only, and stream functions keep prefixes. -/
theorem outputsFollowTheStreamFunction : Obligations.OutputsFollowTheStreamFunction := by
  intro p env n hp hf
  obtain ⟨stages, -, hinv, hcleared, hfollows⟩ := keepsAccount_ticks n (State.KeepsAccount.of_started env hp hf)
  dsimp only
  rw [State.KeepsAccount.chainStream_eq hcleared]
  exact hfollows.given_isPrefix hinv.2.2

/-- Settles O53: stages without a register between their links hold nothing back. -/
theorem immediateChainsGiveAllThatIsDue : Obligations.ImmediateChainsGiveAllThatIsDue := by
  intro p env n hp hf hi
  obtain ⟨stages, -, hinv, hcleared, hfollows⟩ := keepsAccount_ticks n (State.KeepsAccount.of_started env hp hf)
  dsimp only
  rw [State.KeepsAccount.chainStream_eq hcleared]
  refine hfollows.eq_of_immediate hinv.2.2 fun st hst => ?_
  obtain ⟨st', hst', heq⟩ := List.mem_map.1 (hcleared ▸ List.mem_map_of_mem hst)
  rw [← Stage.immediate_cleared, ← heq, Stage.immediate_cleared]
  exact hi st' hst'

end Sys2Proof.Machine
end

section
/-! PROOFS. Every due output leaves (`42_stream_skid_delay.md` R127): each stage gives what it holds within a number of
accepting ticks that its parameters bound, and passes enough of the accepting ticks on to the stage before it. -/

namespace Sys2Proof.Machine

/-! ### What a stage can hold back, in a tick -/

/-- A bound on the elements a stage can hold, and on the bubbles in front of them. -/
def Stage.room : Stage → Nat
  | .skidBuffer _ _ _ => 1
  | .streamDelay depth _ _ => depth
  | .pipeReg _ _ => 1
  | .upsampler n _ _ => n
  | .twiddleThreeMult _ _ _ _ _ _ _ _ => 3
  | _ => 0

/-- How many bubbles are in front of the first element a stage holds. -/
def Stage.lead : Stage → Nat
  | .streamDelay _ _ d => d.reverse.findIdx Slot.valid
  | .twiddleThreeMult _ _ _ _ _ _ s2 s3 => if s3.v then 0 else if s2.v then 1 else 2
  | _ => 0

theorem Stage.cleared_room (st : Stage) : st.cleared.room = st.room := by cases st <;> rfl

theorem Stage.next_room (u : Payload) (st : Stage) (f : Fwd) (r : Bool) : (st.next u f r).room = st.room := by
  rw [← Stage.cleared_room, Stage.next_cleared, Stage.cleared_room]

theorem Stage.held_length_le_room {st : Stage} (hr : st.registered) : st.held.length ≤ st.room := by
  cases st with
  | skidBuffer l armed buf => cases armed <;> simp [Stage.held, Stage.room]
  | streamDelay depth l d =>
    obtain ⟨rfl, -⟩ := hr
    rw [Stage.held, List.length_map]
    exact (List.length_filter_le ..).trans_eq List.length_reverse
  | pipeReg g reg => cases h : reg.v <;> simp [Stage.held, Stage.room, h]
  | upsampler n l c => simp only [Stage.held, Stage.room]; split <;> simp
  | twiddleThreeMult log fmt tw table c s1 s2 s3 =>
    cases h1 : s1.v <;> cases h2 : s2.v <;> cases h3 : s3.v <;> simp [Stage.held, Stage.room, h1, h2, h3]
  | _ => exact Nat.zero_le _

theorem Stage.lead_le_room {st : Stage} (hr : st.registered) : st.lead ≤ st.room := by
  cases st with
  | streamDelay depth l d =>
    obtain ⟨rfl, -⟩ := hr
    exact List.findIdx_le_length.trans_eq List.length_reverse
  | twiddleThreeMult log fmt tw table c s1 s2 s3 => simp only [Stage.lead, Stage.room]; split <;> [omega; (split <;> omega)]
  | _ => exact Nat.zero_le _

/-- A stage that refuses its input while its output is accepted offers something. -/
theorem Stage.forward_valid_of_refusing {st : Stage} {f : Fwd} (h : st.ready true = false) : (st.forward f).valid = true := by
  cases st with
  | skidBuffer l armed buf => cases armed <;> simp_all [Stage.ready, skidReady, Stage.forward, skidForward]
  | upsampler n l c => simp_all [Stage.ready, upsamplerReady, Stage.forward, upsamplerForward]
  | streamDelay depth l d => simp [Stage.ready, streamDelayReady, produce] at h
  | pipeReg g reg => simp [Stage.ready, PipeSlot.ready, produce] at h
  | downsampler n l c => simp [Stage.ready, downsamplerReady] at h
  | sdfRadix2 log fmt c d => simp [Stage.ready, sdfReady] at h
  | twiddleThreeMult log fmt tw table c s1 s2 s3 => simp [Stage.ready, threeMultReady, PipeSlot.ready, produce] at h
  | bitExchange j k l c d => simp [Stage.ready, exchangeReady] at h
  | _ => exact absurd h (by simp [Stage.ready])

/-- A line with a bubble in front moves, and the bubble leaves it. -/
theorem Stage.lead_next_streamDelay {depth : Nat} {l : LinkFmt} {d : List Slot} (hlen : d.length = depth) {u : Payload} {f : Fwd} {r : Bool}
    (hheld : (Stage.streamDelay depth l d).held ≠ []) (hgiven : moved ((Stage.streamDelay depth l d).forward f) r = []) :
    ((Stage.streamDelay depth l d).next u f r).lead + r.toNat ≤ (Stage.streamDelay depth l d).lead := by
  obtain rfl | ⟨init, e, rfl⟩ := List.eq_nil_or_concat' d
  · exact absurd rfl hheld
  have h0 : depth ≠ 0 := by simp at hlen; omega
  have he : (init ++ [e]).getLast? = some e := List.getLast?_concat
  rw [Stage.forward, streamDelayForward, if_neg h0, delayRead_of_getLast? he] at hgiven
  rw [Stage.next, streamDelayNext, streamDelayReady, if_neg h0, delayRead_of_getLast? he, produce, delayShift_of_getLast? he,
    List.dropLast_concat]
  cases hv : e.valid with
  | true =>
    obtain rfl : r = false := by simpa [hv, moved, consume] using hgiven
    simp
  | false =>
    have hsome : ∃ b ∈ init.reverse, b.valid = true := by simpa [Stage.held, hv, List.filter_eq_nil_iff] using hheld
    have hlt := List.findIdx_lt_length.2 hsome
    have hr := Bool.toNat_le r
    simp only [Bool.not_false, Bool.or_true, if_true, Stage.lead, List.reverse_cons, List.reverse_append,
      List.reverse_nil, List.nil_append, List.cons_append, List.findIdx_append, if_pos hlt, List.findIdx_cons, hv, cond_false]
    omega

/-- While the first element a stage holds does not leave it, an accepting tick brings it one place nearer. -/
theorem Stage.lead_next {st : Stage} (hr : st.registered) {u : Payload} {f : Fwd} {r : Bool} (hheld : st.held ≠ [])
    (hgiven : moved (st.forward f) r = []) : (st.next u f r).lead + r.toNat ≤ st.lead := by
  cases st with
  | skidBuffer l armed buf =>
    cases armed <;> cases r <;> simp_all [Stage.held, Stage.forward, skidForward, Stage.next, skidNext, Stage.lead, moved, consume]
  | streamDelay depth l d => exact Stage.lead_next_streamDelay hr.1 hheld hgiven
  | pipeReg g reg =>
    have hv : reg.v = true := by simpa [Stage.held] using hheld
    obtain rfl : r = false := by simpa [Stage.forward, pipeRegForward, moved, consume, hv] using hgiven
    exact le_rfl
  | upsampler n l c =>
    have hc : c ≠ 0 := fun h => hheld (by rw [Stage.held, if_pos h])
    obtain rfl : r = false := by simpa [Stage.forward, upsamplerForward, moved, consume, hc] using hgiven
    simp [Stage.next, upsamplerNext, upsamplerForward, consume, hc, Stage.lead]
  | twiddleThreeMult log fmt tw table c s1 s2 s3 =>
    cases h1 : s1.v <;> cases h2 : s2.v <;> cases h3 : s3.v <;> cases r <;>
      simp_all [Stage.held, Stage.forward, pipeRegForward, Stage.next, threeMultNext, PipeSlot.load, PipeSlot.ready, produce,
        Stage.lead, moved, consume]
  | _ => exact absurd rfl hheld

/-! ### A stage in a run -/

/-- A run of a stage: in tick `i` it shows the forward signals `f i` and the ready `r i` on its two links, and has taken `x i`
and given `z i` before. -/
structure StageRun (st : Nat → Stage) (f : Nat → Fwd) (r : Nat → Bool) (x z : Nat → List Payload) : Prop where
  registered i : (st i).registered
  follows i : (st i).Follows (x i) (z i)
  next i : ∃ u, st (i + 1) = (st i).next u (f i) (r i)
  takes i : x (i + 1) = x i ++ moved (f i) ((st i).ready (r i))
  gives i : z (i + 1) = z i ++ moved ((st i).forward (f i)) (r i)

/-- In how many of the first `n` ticks a link shows ready. -/
def accepts (r : Nat → Bool) (n : Nat) : Nat := Nat.count (fun i => r i = true) n

theorem accepts_succ (r : Nat → Bool) (n : Nat) : accepts r (n + 1) = accepts r n + (r n).toNat := by
  rw [accepts, Nat.count_succ]
  cases r n <;> rfl

theorem accepts_add (r : Nat → Bool) (m n : Nat) : accepts r (m + n) = accepts r m + accepts (fun i => r (m + i)) n := Nat.count_add ..

theorem accepts_succ_left (r : Nat → Bool) (n : Nat) : accepts r (n + 1) = accepts (fun i => r (i + 1)) n + (r 0).toNat := by
  rw [accepts, Nat.count_succ']
  cases r 0 <;> rfl

/-- The number of accepting ticks takes every value below its last. -/
theorem exists_accepts_eq {r : Nat → Bool} {n m : Nat} (h : m ≤ accepts r n) : ∃ i ≤ n, accepts r i = m := by
  induction n with
  | zero => exact ⟨0, le_rfl, (Nat.le_zero.1 h).symm⟩
  | succ n ih =>
    by_cases hm : m ≤ accepts r n
    · obtain ⟨i, hi, heq⟩ := ih hm
      exact ⟨i, hi.trans (Nat.le_succ n), heq⟩
    · have hr := Bool.toNat_le (r n)
      rw [accepts_succ] at h
      exact ⟨n + 1, le_rfl, by rw [accepts_succ]; omega⟩

section
variable {st : Nat → Stage} {f : Nat → Fwd} {r : Nat → Bool} {x z : Nat → List Payload} (h : StageRun st f r x z)
include h

theorem StageRun.room_eq (i : Nat) : (st i).room = (st 0).room := by
  induction i with
  | zero => rfl
  | succ i ih =>
    obtain ⟨u, hu⟩ := h.next i
    rw [hu, Stage.next_room, ih]

theorem StageRun.stream_eq (i : Nat) : (st i).stream = (st 0).stream := by
  induction i with
  | zero => rfl
  | succ i ih =>
    obtain ⟨u, hu⟩ := h.next i
    rw [hu, Stage.next_stream, ih]

theorem StageRun.account (i : Nat) : z i ++ (st i).held = (st 0).stream (x i) := h.stream_eq i ▸ (h.follows i).1

theorem StageRun.taken_prefix (i : Nat) : x 0 <+: x i := by
  induction i with
  | zero => exact List.prefix_rfl
  | succ i ih => exact h.takes i ▸ ih.trans (List.prefix_append ..)

/-- A stage that refuses its input gives up an element for every accepting tick. -/
theorem StageRun.held_length_next (i : Nat) :
    (r i).toNat + (st (i + 1)).held.length ≤ (st i).held.length + ((st 0).room + 1) * ((st i).ready (r i)).toNat := by
  have hroom := (Stage.held_length_le_room (h.registered (i + 1))).trans_eq (h.room_eq (i + 1))
  have hr := Bool.toNat_le (r i)
  cases hready : (st i).ready (r i) with
  | true =>
    rw [Bool.toNat_true]
    omega
  | false =>
    have hlength := congrArg List.length (h.account (i + 1))
    rw [h.takes, hready, moved_of_stalled, List.append_nil, ← h.account i, h.gives, List.length_append, List.length_append,
      List.length_append] at hlength
    have hmoved : (r i).toNat ≤ (moved ((st i).forward (f i)) (r i)).length := by
      cases hacc : r i with
      | false => exact Nat.zero_le _
      | true => rw [moved_of_valid (Stage.forward_valid_of_refusing (hacc ▸ hready))]; rfl
    omega

/-- A stage passes on its accepting ticks, but for a number that its parameters bound. -/
theorem StageRun.accepts_lt (n : Nat) : accepts r n + 1 ≤ ((st 0).room + 1) * (accepts (fun i => (st i).ready (r i)) n + 1) := by
  have hsum : accepts r n + (st n).held.length ≤
      (st 0).held.length + ((st 0).room + 1) * accepts (fun i => (st i).ready (r i)) n := by
    induction n with
    | zero => simp [accepts]
    | succ n ih =>
      have hnext := h.held_length_next n
      rw [accepts_succ, accepts_succ, Nat.mul_add]
      omega
  have hroom := Stage.held_length_le_room (h.registered 0)
  rw [Nat.mul_succ]
  omega

/-- A bound on the accepting ticks until all that was due is given: each missing element, with the bubbles in front of it. -/
theorem StageRun.missing_le (hs : (st 0).shaped) (n : Nat) (hn : (z n).length < ((st 0).stream (x 0)).length) :
    accepts r n + ((((st 0).stream (x 0)).length - (z n).length) * ((st 0).room + 1) + (st n).lead) ≤
      (st 0).held.length * ((st 0).room + 1) + (st 0).lead := by
  induction n with
  | zero =>
    have hlength := congrArg List.length (h.account 0)
    rw [List.length_append] at hlength
    simp [accepts, ← hlength]
  | succ n ih =>
    have hz := congrArg List.length (h.gives n)
    rw [List.length_append] at hz
    have ih := ih (by omega)
    have hheld : (st n).held ≠ [] := fun hnil => by
      have hlength := congrArg List.length (h.account n)
      have hle := (Stage.stream_prefix hs (h.taken_prefix n)).length_le
      rw [hnil, List.append_nil] at hlength
      omega
    rw [accepts_succ]
    cases hgiven : moved ((st n).forward (f n)) (r n) with
    | nil =>
      obtain ⟨u, hu⟩ := h.next n
      have hlead := hu ▸ Stage.lead_next (u := u) (h.registered n) hheld hgiven
      simp only [hgiven, List.length_nil, Nat.add_zero] at hz
      rw [hz]
      omega
    | cons v vs =>
      rw [hgiven, List.length_cons] at hz
      have hlead := (Stage.lead_le_room (h.registered (n + 1))).trans_eq (h.room_eq (n + 1))
      have hr := Bool.toNat_le (r n)
      obtain ⟨m, hm⟩ : ∃ m, ((st 0).stream (x 0)).length - (z n).length = m + 1 + vs.length :=
        ⟨((st 0).stream (x 0)).length - (z (n + 1)).length, by omega⟩
      have hm' : ((st 0).stream (x 0)).length - (z (n + 1)).length = m := by omega
      rw [hm, Nat.add_mul, Nat.succ_mul] at ih
      rw [hm']
      omega

/-- What was due is given within a number of accepting ticks that the parameters bound. -/
theorem StageRun.stream_prefix (hs : (st 0).shaped) {n : Nat} (hn : ((st 0).room + 1) ^ 2 ≤ accepts r n) :
    (st 0).stream (x 0) <+: z n := by
  have hlength : ((st 0).stream (x 0)).length ≤ (z n).length := by
    by_contra hlt
    have hmissing := h.missing_le hs n (not_le.1 hlt)
    have hheld := Nat.mul_le_mul_right ((st 0).room + 1) (Stage.held_length_le_room (h.registered 0))
    have hlead := Stage.lead_le_room (h.registered 0)
    rw [Nat.pow_two, Nat.succ_mul] at hn
    omega
  exact List.prefix_of_prefix_length_le (Stage.stream_prefix hs (h.taken_prefix n)) ⟨_, h.account n⟩ hlength

end

/-! ### A chain in a run -/

/-- A run of a chain whose first link, number `k`, carries `l`: in tick `i` it shows the forward signals `f i` there and the ready
`r i` on its output link, and has taken `x i` and given `y i` before. -/
structure ChainRun (l : LinkFmt) (k : Nat) (sts : Nat → List Stage) (f : Nat → Fwd) (r : Nat → Bool)
    (x y : Nat → List Payload) (t : Nat → Nat) : Prop where
  joined i : chainJoined l (sts i)
  good i : chainGood (sts i)
  holds i : l.holds (f i).payload = true
  follows i : chainFollows (sts i) (x i) (y i)
  next i : sts (i + 1) = chainNext (t i) k (sts i) (f i) (r i)
  takes i : x (i + 1) = x i ++ moved (f i) (chainReady (sts i) (r i))
  gives i : y (i + 1) = y i ++ moved (chainForward (t i) k (sts i) (f i)) (r i)

/-- A chain that is given with its first account keeps it. -/
theorem ChainRun.of_follows {l : LinkFmt} {k : Nat} {sts : Nat → List Stage} {f : Nat → Fwd} {r : Nat → Bool}
    {x y : Nat → List Payload} {t : Nat → Nat} (hj : ∀ i, chainJoined l (sts i)) (hg : ∀ i, chainGood (sts i)) (hh : ∀ i, l.holds (f i).payload = true)
    (hf : chainFollows (sts 0) (x 0) (y 0)) (hn : ∀ i, sts (i + 1) = chainNext (t i) k (sts i) (f i) (r i))
    (hx : ∀ i, x (i + 1) = x i ++ moved (f i) (chainReady (sts i) (r i)))
    (hy : ∀ i, y (i + 1) = y i ++ moved (chainForward (t i) k (sts i) (f i)) (r i)) : ChainRun l k sts f r x y t := by
  refine ⟨hj, hg, hh, fun i => ?_, hn, hx, hy⟩
  induction i with
  | zero => exact hf
  | succ i ih =>
    rw [hn, hx, hy]
    exact ih.next (hj i) (hg i) (hh i) (t i) k (r i)

/-- What a link has carried, after `z` before the run. -/
def carried (z : List Payload) (f : Nat → Fwd) (r : Nat → Bool) : Nat → List Payload
  | 0 => z
  | i + 1 => carried z f r i ++ moved (f i) (r i)

section
variable {l : LinkFmt} {k : Nat} {sts : Nat → List Stage} {f : Nat → Fwd} {r : Nat → Bool}
  {x y : Nat → List Payload} {t : Nat → Nat} (h : ChainRun l k sts f r x y t)
include h

theorem ChainRun.shift (a : Nat) : ChainRun l k (fun i => sts (a + i)) (fun i => f (a + i)) (fun i => r (a + i)) (fun i => x (a + i))
    (fun i => y (a + i)) (fun i => t (a + i)) :=
  ⟨fun i => h.joined (a + i), fun i => h.good (a + i), fun i => h.holds (a + i), fun i => h.follows (a + i), fun i => h.next (a + i),
    fun i => h.takes (a + i), fun i => h.gives (a + i)⟩

theorem ChainRun.map_cleared_eq (i : Nat) : (sts i).map Stage.cleared = (sts 0).map Stage.cleared := by
  induction i with
  | zero => rfl
  | succ i ih => rw [h.next, chainNext_map_cleared, ih]

theorem ChainRun.given_prefix (i : Nat) : y 0 <+: y i := by
  induction i with
  | zero => exact List.prefix_rfl
  | succ i ih => exact h.gives i ▸ ih.trans (List.prefix_append ..)

/-- A run of a chain is a run of its first stage and one of the chain behind it, on the link between them. -/
theorem ChainRun.cons {st : Stage} {rest : List Stage} (h0 : sts 0 = st :: rest) :
    ∃ sts' rests z f', (∀ i, sts i = sts' i :: rests i) ∧ sts' 0 = st ∧ rests 0 = rest ∧ StageRun sts' f (fun i => chainReady (rests i) (r i)) x z ∧
    ChainRun st.outLink (k + 1) rests f' r z y t := by
  have hsplit : ∀ i, ∃ st' rest', sts i = st' :: rest' := fun i => by
    have hlength := congrArg List.length (h.map_cleared_eq i)
    rw [List.length_map, List.length_map, h0] at hlength
    exact List.exists_cons_of_length_eq_add_one hlength
  choose sts' rests hsts using hsplit
  obtain ⟨rfl, rfl⟩ := List.cons.inj ((hsts 0).symm.trans h0)
  have hnext i := List.cons.inj ((hsts (i + 1)).symm.trans (hsts i ▸ h.next i))
  have houtLink (i : Nat) : (sts' i).outLink = (sts' 0).outLink := by
    induction i with
    | zero => rfl
    | succ i ih => rw [(hnext i).1, Stage.next_outLink, ih]
  have hgood i := chainGood_cons.1 (hsts i ▸ h.good i)
  have hjoined i : (sts' i).inLink = l ∧ chainJoined (sts' i).outLink (rests i) := by have := h.joined i; rwa [hsts] at this
  have hholds i : (sts' i).inLink.holds (f i).payload = true := (hjoined i).1 ▸ h.holds i
  obtain ⟨z, hst, hx, hrest⟩ : chainFollows (sts' 0 :: rests 0) (x 0) (y 0) := hsts 0 ▸ h.follows 0
  have htakes i : x (i + 1) = x i ++ moved (f i) ((sts' i).ready (chainReady (rests i) (r i))) := by rw [h.takes, hsts]; rfl
  have hfollows (i : Nat) : (sts' i).Follows (x i) (carried z (fun i => (sts' i).forward (f i)) (fun i => chainReady (rests i) (r i)) i) ∧
      ∀ v ∈ x i, (sts' i).inLink.holds v = true := by
    induction i with
    | zero => exact ⟨hst, hx⟩
    | succ i ih =>
      rw [htakes, (hnext i).1, Stage.next_inLink]
      exact ⟨ih.1.next (hgood i).1.1 ih.2 (hholds i) _ _, holds_moved ih.2 (hholds i) _⟩
  refine ⟨sts', rests, carried z (fun i => (sts' i).forward (f i)) (fun i => chainReady (rests i) (r i)),
    fun i => showLink (sts' i).outLink (t i) (2 * (k + 1)) ((sts' i).forward (f i)), hsts, rfl, rfl,
    ⟨fun i => (hgood i).1.2, fun i => (hfollows i).1, fun i => ⟨_, (hnext i).1⟩, htakes, fun i => rfl⟩,
    ChainRun.of_follows (fun i => houtLink i ▸ (hjoined i).2) (fun i => (hgood i).2)
      (fun i => ?_) hrest (fun i => (hnext i).2) (fun i => ?_) (fun i => ?_)⟩
  · have := Stage.showLink_forward_holds (hgood i).1.1 (hgood i).1.2 (hholds i) (t i) (2 * (k + 1))
    exact (congrArg (LinkFmt.holds · _) (houtLink i)).symm.trans this
  · rw [moved_showLink]
    rfl
  · rw [h.gives, hsts]
    rfl

end

/-- How many accepting ticks of a chain's output link make one of its input link. -/
def chainRoom (sts : List Stage) : Nat := (sts.map fun st => st.room + 1).prod

/-- How many accepting ticks a chain needs to give all that is due. -/
def chainPatience : List Stage → Nat
  | [] => 0
  | st :: rest => chainRoom rest * (st.room + 1) ^ 2 + chainPatience rest

theorem chainRoom_map_cleared (sts : List Stage) : chainRoom (sts.map Stage.cleared) = chainRoom sts := by
  simp [chainRoom, Stage.cleared_room, Function.comp_def]

theorem chainPatience_map_cleared (sts : List Stage) : chainPatience (sts.map Stage.cleared) = chainPatience sts := by
  induction sts with
  | nil => rfl
  | cons st rest ih => rw [List.map_cons, chainPatience, chainPatience, ih, chainRoom_map_cleared, Stage.cleared_room]

/-- A chain passes on its accepting ticks, but for a number that its parameters bound. -/
theorem ChainRun.accepts_lt {l : LinkFmt} {k : Nat} {sts : Nat → List Stage} {f : Nat → Fwd} {r : Nat → Bool}
    {x y : Nat → List Payload} {t : Nat → Nat} (h : ChainRun l k sts f r x y t) (n : Nat) :
    accepts r n + 1 ≤ chainRoom (sts 0) * (accepts (fun i => chainReady (sts i) (r i)) n + 1) := by
  induction h0 : sts 0 generalizing l k sts f x with
  | nil =>
    have hnil (i : Nat) : sts i = [] := by simpa [h0] using h.map_cleared_eq i
    simp [chainRoom, hnil, chainReady]
  | cons st rest ih =>
    obtain ⟨sts', rests, z, f', hsts, rfl, rfl, hst, hrest⟩ := h.cons h0
    have hready : (fun i => chainReady (sts i) (r i)) = fun i => (sts' i).ready (chainReady (rests i) (r i)) := by
      funext i
      rw [hsts]
      rfl
    rw [hready]
    calc accepts r n + 1 ≤ chainRoom (rests 0) * (accepts (fun i => chainReady (rests i) (r i)) n + 1) := ih hrest rfl
      _ ≤ chainRoom (rests 0) * (((sts' 0).room + 1) * (accepts (fun i => (sts' i).ready (chainReady (rests i) (r i))) n + 1)) :=
        Nat.mul_le_mul_left _ (hst.accepts_lt n)
      _ = chainRoom (sts' 0 :: rests 0) * _ := by
        rw [← mul_assoc, chainRoom, chainRoom, List.map_cons, List.prod_cons, mul_comm ((sts' 0).room + 1)]

/-- Once a chain's output has been accepted often enough, all that was due at the beginning has been given. The induction is
on the parameters of the stages, as their registers change on the way. -/
theorem ChainRun.stream_prefix {shape : List Stage} {l : LinkFmt} {k : Nat} {sts : Nat → List Stage} {f : Nat → Fwd} {r : Nat → Bool}
    {x y : Nat → List Payload} {t : Nat → Nat} (h : ChainRun l k sts f r x y t) (hshape : (sts 0).map Stage.cleared = shape) {n : Nat}
    (hn : chainPatience shape ≤ accepts r n) : chainStream (sts 0) (x 0) <+: y n := by
  induction shape generalizing l k sts f x y r t n with
  | nil =>
    have h0 := List.map_eq_nil_iff.1 hshape
    have hxy : chainFollows [] (x 0) (y 0) := h0 ▸ h.follows 0
    rw [h0, chainStream, ← (hxy : y 0 = x 0)]
    exact h.given_prefix n
  | cons st' rest' ih =>
    obtain ⟨st, rest, h0, rfl, rfl⟩ := List.map_eq_cons_iff.1 hshape
    obtain ⟨sts', rests, z, f', hsts, rfl, rfl, hst, hrest⟩ := h.cons h0
    obtain ⟨⟨hs, -⟩, -⟩ := chainGood_cons.1 (h0 ▸ h.good 0)
    rw [chainPatience, chainRoom_map_cleared, Stage.cleared_room] at hn
    obtain ⟨a, ha, hacc⟩ := exists_accepts_eq ((Nat.le_add_right _ _).trans hn)
    obtain ⟨b, rfl⟩ := Nat.exists_eq_add_of_le ha
    have hfirst : (sts' 0).stream (x 0) <+: z a := by
      have hlt := hrest.accepts_lt a
      rw [hacc] at hlt
      exact hst.stream_prefix hs (Nat.le_of_lt_succ (lt_of_mul_lt_mul_left (Nat.lt_of_succ_le hlt) (Nat.zero_le _)))
    have hlater : chainStream (rests a) (z a) <+: y (a + b) := by
      rw [accepts_add, hacc] at hn
      exact ih (hrest.shift a) (hrest.map_cleared_eq a) (Nat.le_of_add_le_add_left hn)
    rw [h0, chainStream, ← chainStream_map_cleared, ← hrest.map_cleared_eq a, chainStream_map_cleared]
    exact (chainStream_prefix (hrest.good a) hfirst).trans hlater

/-! ### The machine -/

theorem ticks_succ' (n : Nat) (s : State) : Machine.ticks (n + 1) s = tick (Machine.ticks n s) := by
  induction n generalizing s with
  | zero => rfl
  | succ n ih => exact ih (tick s)

/-- The stages of the machine's unit. -/
def State.stages (s : State) : List Stage := s.pipeline.elim [] Pipeline.stages

theorem State.KeepsAccount.setEnv {p : Pipeline} {s : State} (h : s.KeepsAccount p) (env : List EnvTick) :
    (s.setEnv env).KeepsAccount p := h

/-- Ticks are a run of the unit. -/
theorem State.KeepsAccount.chainRun {p : Pipeline} {s : State} (h : s.KeepsAccount p) :
    ChainRun p.inLink 0 (fun i => (Machine.ticks i s).stages)
      (fun i => Pipeline.input p (Machine.ticks i s).ticks (Machine.ticks i s).drive) (fun i => (Machine.ticks i s).drive.ready)
      (fun i => (Machine.ticks i s).inputs) (fun i => (Machine.ticks i s).outputs) (fun i => (Machine.ticks i s).ticks) := by
  have hunit (i : Nat) : (Machine.ticks i s).pipeline = some ⟨p.inLink, (Machine.ticks i s).stages⟩ ∧
      Pipeline.Inv ⟨p.inLink, (Machine.ticks i s).stages⟩ ∧
      chainFollows (Machine.ticks i s).stages (Machine.ticks i s).inputs (Machine.ticks i s).outputs := by
    obtain ⟨stages, hs, hinv, -, hfollows⟩ := keepsAccount_ticks i h
    obtain rfl : (Machine.ticks i s).stages = stages := by rw [State.stages, hs]; rfl
    exact ⟨hs, hinv, hfollows⟩
  refine ⟨fun i => (hunit i).2.1.2.1, fun i => (hunit i).2.1.2.2, fun i => (hunit i).2.1.input_holds _ _, fun i => (hunit i).2.2,
    fun i => ?_, fun i => ?_, fun i => ?_⟩
  · rw [ticks_succ', State.stages, tick_pipeline, (hunit i).1]
    rfl
  · rw [ticks_succ', inputs_tick_eq (hunit i).1]
    rfl
  · rw [ticks_succ', outputs_tick_eq (hunit i).1]
    rfl

/-- The environment accepts in the ticks its list says. -/
theorem accepts_drive (s : State) :
    accepts (fun i => (Machine.ticks i s).drive.ready) s.env.length = (s.env.filter EnvTick.ready).length := by
  induction henv : s.env generalizing s with
  | nil => rfl
  | cons e env ih =>
    have htail : accepts (fun i => (Machine.ticks (i + 1) s).drive.ready) env.length = (env.filter EnvTick.ready).length :=
      ih (tick s) (by rw [tick_env, henv]; rfl)
    have hdrive : (Machine.ticks 0 s).drive = e := by rw [Machine.ticks, State.drive, henv]; rfl
    rw [List.length_cons, accepts_succ_left, htail, hdrive, List.filter_cons]
    cases e.ready <;> rfl

/-- Settles O52. -/
theorem dueOutputsAreDelivered : Obligations.DueOutputsAreDelivered := by
  intro p env n hp hf
  have h := keepsAccount_ticks n (State.KeepsAccount.of_started env hp hf)
  refine ⟨chainPatience (p.stages.map Stage.cleared), fun later hlater => ?_⟩
  have hrun := (h.setEnv later).chainRun
  obtain ⟨stages, hs, -, hcleared, -⟩ := h
  have hstages : (Machine.ticks 0 ((Machine.ticks n (started p env)).setEnv later)).stages = stages := by
    rw [Machine.ticks, State.stages, State.setEnv_pipeline, hs]
    rfl
  have hprefix := hrun.stream_prefix (by rw [hstages, hcleared]) (hlater.trans_eq (accepts_drive (State.setEnv _ later)).symm)
  rw [hstages] at hprefix
  dsimp only
  rw [State.KeepsAccount.chainStream_eq hcleared]
  exact hprefix

end Sys2Proof.Machine
end

section
/-! PROOFS. The stream function of the bit-reversal network (`46_bit_reversal.md` R237): each exchange swaps two bits of
the index, and those of the composition reverse it. -/

namespace Sys2Proof.Machine

theorem sample_of_lt {x : List Payload} {q : Nat} (h : q < x.length) : x[q]? = some (sample x q) := by
  rw [sample, List.getD_eq_getElem _ _ h, List.getElem?_eq_getElem h]

/-- `swap_jk` moves bit `j` to place `k` and bit `k` to place `j`. -/
theorem testBit_swapBits {j k : Nat} (hjk : k < j) (q i : Nat) :
    Nat.testBit (swapBits j k q) i = Nat.testBit q (if i = j then k else if i = k then j else i) := by
  cases hj : Nat.testBit q j <;> cases hk : Nat.testBit q k
  case false.false | true.true =>
    rw [swapBits_of_eq (hj.trans hk.symm)]
    split
    case isTrue h => rw [h, hj, hk]
    case isFalse => split <;> [(rename_i h; rw [h, hj, hk]); rfl]
  case true.false =>
    have hk' : Nat.testBit (q - 2 ^ j) k = false := by rw [testBit_sub_two_pow hj, if_neg hjk.ne, hk]
    rw [swapBits_of_set hj hk, testBit_add_two_pow hk', testBit_sub_two_pow hj]
    split
    case isTrue h => rw [h, if_neg hjk.ne, hj]
    case isFalse => split <;> [rw [hk]; rfl]
  case false.true =>
    have hk' : Nat.testBit (q + 2 ^ j) k = true := by rw [testBit_add_two_pow hj, if_neg hjk.ne, hk]
    rw [swapBits_of_clear hj hk, testBit_sub_two_pow hk', testBit_add_two_pow hj]
    split
    case isTrue h => rw [h, if_neg hjk.ne, hj]
    case isFalse => split <;> [rw [hk]; rfl]

section
variable {j k : Nat} {l : LinkFmt} (x : List Payload)

theorem length_stream_freshExchange : ((freshExchange j k l).stream x).length = x.length - exchangeDepth j k := by
  simp only [freshExchange, Stage.stream, List.length_map, List.length_range, exchangeDepth]

theorem getElem?_stream_freshExchange (hjk : k < j) {q : Nat} (hq : q + exchangeDepth j k < x.length) :
    ((freshExchange j k l).stream x)[q]? = x[swapBits j k q]? := by
  have hlt : q < x.length - exchangeDepth j k := by omega
  rw [sample_of_lt ((swapBits_le hjk).trans_lt hq)]
  simp only [freshExchange, Stage.stream, ← exchangeDepth.eq_1]
  rw [List.getElem?_map, List.getElem?_range hlt]
  rfl

end

/-- The place of bit `b` once the outer `m` pairs of bits have been exchanged. -/
def reversedPlace (bits m b : Nat) : Nat := if b < bits ∧ (b < m ∨ bits - m ≤ b) then bits - 1 - b else b

/-- The first `m` exchanges of a bit-reversal network reverse the outer `m` pairs of bits. -/
theorem stream_exchanges (bits : Nat) (l : LinkFmt) (x : List Payload) {m : Nat} (hm : m ≤ bits / 2) :
    let y := chainStream ((List.range m).map fun i => freshExchange (bits - 1 - i) i l) x
    y.length = x.length - ((List.range m).map fun i => exchangeDepth (bits - 1 - i) i).sum ∧
      ∀ q q' : Nat, q < y.length → (∀ b, Nat.testBit q' b = Nat.testBit q (reversedPlace bits m b)) → y[q]? = x[q']? := by
  induction m with
  | zero =>
    refine ⟨by simp [chainStream], fun q q' _ hbits => ?_⟩
    have hq : q' = q := Nat.eq_of_testBit_eq fun b => by
      rw [hbits, reversedPlace]
      split <;> [omega; rfl]
    rw [hq]
    rfl
  | succ m ih =>
    obtain ⟨hlength, hsamples⟩ := ih (by omega)
    have hjk : m < bits - 1 - m := by omega
    dsimp only at hlength hsamples ⊢
    rw [List.range_succ, List.map_append, List.map_append, List.map_singleton, List.map_singleton, chainStream_append, List.sum_append,
      List.sum_singleton, ← Nat.sub_sub, ← hlength]
    refine ⟨length_stream_freshExchange (l := l) _, fun q q' hq hbits => ?_⟩
    rw [chainStream, chainStream, length_stream_freshExchange] at hq
    have hlt := Nat.add_lt_of_lt_sub hq
    rw [chainStream, chainStream, getElem?_stream_freshExchange _ hjk hlt]
    refine hsamples _ _ ((swapBits_le hjk).trans_lt hlt) fun b => ?_
    rw [hbits, testBit_swapBits hjk]
    congr 1
    unfold reversedPlace
    split_ifs <;> omega

/-- Settles O57. -/
theorem bitReversalStream : Obligations.BitReversalStream := by
  intro bits l x
  obtain ⟨hlength, hsamples⟩ := stream_exchanges bits l x le_rfl
  refine ⟨hlength, fun q q' hq hlow hhigh => hsamples q q' hq fun b => ?_⟩
  unfold reversedPlace
  by_cases hb : b < bits
  · rw [hlow b hb]
    congr 1
    split <;> omega
  · rw [hhigh b (not_lt.1 hb), if_neg (fun h => hb h.1)]

end Sys2Proof.Machine
end

section
/-! PROOFS. The transforms of two and of four points (`47_serial_fft.md` R249): a butterfly; and two butterflies with a
quarter turn of the last sample between them. -/

namespace Sys2Proof.Machine

theorem sample_map_range {n q : Nat} (f : Nat → Payload) (h : q < n) : sample ((List.range n).map f) q = f q := by
  rw [sample, List.getD_eq_getElem _ _ (by rwa [List.length_map, List.length_range]), List.getElem_map, List.getElem_range]

section
variable {log : Nat} {fmt : Fmt} (x : List Payload)

theorem length_stream_freshSdf : ((freshSdf log fmt).stream x).length = x.length - 2 ^ (log - 1) := by
  simp only [freshSdf, Stage.stream, List.length_map, List.length_range]

theorem sample_stream_freshSdf {q : Nat} (h : q < x.length - 2 ^ (log - 1)) :
    sample ((freshSdf log fmt).stream x) q = butterflySample (2 ^ (log - 1)) x q := sample_map_range _ h

theorem length_stream_r22Twiddle (c : Nat) : ((Stage.r22Twiddle log fmt c).stream x).length = x.length := by
  simp only [Stage.stream, List.length_map, List.length_range]

theorem sample_stream_r22Twiddle (c : Nat) {q : Nat} (h : q < x.length) : sample ((Stage.r22Twiddle log fmt c).stream x) q =
    if 3 * 2 ^ log ≤ 4 * (q % 2 ^ log) then quarterTurn fmt (sample x q) else sample x q := sample_map_range _ h

end

/-! ### Butterflies, by frames -/

section
variable (h m i : Nat) (x : List Payload)

theorem butterflySample_sum (hi : i < h) : butterflySample h x (2 * h * m + i) =
    Payload.map2 (· + ·) (sample x (2 * h * m + i)) (sample x (2 * h * m + i + h)) := by
  rw [butterflySample_eq, Nat.mul_add_mod, Nat.mod_eq_of_lt (by omega), if_pos hi]

theorem butterflySample_difference (hi : i < h) : butterflySample h x (2 * h * m + (i + h)) =
    Payload.map2 (· - ·) (sample x (2 * h * m + i)) (sample x (2 * h * m + i + h)) := by
  rw [butterflySample_eq, Nat.mul_add_mod, Nat.mod_eq_of_lt (by omega), if_neg (by omega), ← Nat.add_assoc, Nat.add_sub_cancel]

end

theorem butterflySample_one_even (p : Nat) (x : List Payload) :
    butterflySample 1 x (2 * p) = Payload.map2 (· + ·) (sample x (2 * p)) (sample x (2 * p + 1)) :=
  butterflySample_sum 1 p 0 x (by decide)

theorem butterflySample_one_odd (p : Nat) (x : List Payload) :
    butterflySample 1 x (2 * p + 1) = Payload.map2 (· - ·) (sample x (2 * p)) (sample x (2 * p + 1)) :=
  butterflySample_difference 1 p 0 x (by decide)

/-! ### Four points -/

/-- The four values of a frame's transform, in natural order. -/
def fourPoints (a b c d : Payload) : List Payload :=
  [⟨a.re + b.re + c.re + d.re, a.im + b.im + c.im + d.im⟩, ⟨a.re + b.im - c.re - d.im, a.im - b.re - c.im + d.re⟩,
    ⟨a.re - b.re + c.re - d.re, a.im - b.im + c.im - d.im⟩, ⟨a.re - b.im - c.re + d.im, a.im + b.re - c.im - d.re⟩]

/-- The quarter turn of a difference of samples negates without a wrap. -/
theorem quarterTurn_difference {fmt : Fmt} (hf : fmt.legal = true) (hs : fmt.signed = true) {b d : Payload}
    (hb : fmt.holds b.re = true) (hd : fmt.holds d.re = true) :
    quarterTurn fmt.grow (Payload.map2 (· - ·) b d) = ⟨b.im - d.im, d.re - b.re⟩ := by
  simp only [quarterTurn, Payload.map2, neg_sub, Fmt.wrap_grow_sub hf hs hd hb]

section
variable {fmt : Fmt} {x : List Payload} (hf : fmt.legal = true) (hs : fmt.signed = true)
  (hx : ∀ v ∈ x, LinkFmt.holds ⟨fmt, 2⟩ v = true)

/-- The first butterfly of a frame of four and the quarter turn behind it. -/
def rotatedHalf (fmt : Fmt) (x : List Payload) : List Payload :=
  (Stage.r22Twiddle 2 fmt.grow 0).stream ((freshSdf 2 fmt).stream x)

theorem length_rotatedHalf : (rotatedHalf fmt x).length = x.length - 2 := by
  rw [rotatedHalf, length_stream_r22Twiddle, length_stream_freshSdf]
  rfl

include hf hs hx in
theorem sample_rotatedHalf (m : Nat) {q : Nat} (hq : q < 4) (h : 4 * m + q < x.length - 2) :
    let a := sample x (4 * m)
    let b := sample x (4 * m + 1)
    let c := sample x (4 * m + 2)
    let d := sample x (4 * m + 3)
    sample (rotatedHalf fmt x) (4 * m + q) =
      [Payload.map2 (· + ·) a c, Payload.map2 (· + ·) b d, Payload.map2 (· - ·) a c,
        ⟨b.im - d.im, d.re - b.re⟩].getD q Payload.zero := by
  have hre (q : Nat) : fmt.holds (sample x q).re = true := (LinkFmt.holds_iff.1 (sample_holds hx q)).1
  rw [rotatedHalf, sample_stream_r22Twiddle _ _ (by rwa [length_stream_freshSdf]), sample_stream_freshSdf _ h,
    show (4 * m + q) % 2 ^ 2 = q by omega]
  match q, hq with
  | 0, _ => exact butterflySample_sum 2 m 0 x (by decide)
  | 1, _ => exact butterflySample_sum 2 m 1 x (by decide)
  | 2, _ => exact butterflySample_difference 2 m 0 x (by decide)
  | 3, _ =>
    exact (congrArg (quarterTurn fmt.grow) (butterflySample_difference 2 m 1 x (by decide))).trans
      (quarterTurn_difference hf hs (hre _) (hre _))

variable (tw : Fmt) (variant : TwVariant) (skid : Bool)

include hs in
theorem chainStream_four : chainStream (fftStages 2 fmt tw false variant skid) x = (freshSdf 1 fmt.grow).stream (rotatedHalf fmt x) := by
  obtain ⟨i, f, s⟩ := fmt
  obtain rfl : s = true := hs
  rfl

include hs in
theorem length_four : (chainStream (fftStages 2 fmt tw false variant skid) x).length = x.length - 3 := by
  rw [chainStream_four hs, length_stream_freshSdf, length_rotatedHalf]
  rfl

include hf hs hx in
/-- The four-point transform gives its values in bit-reversed order. -/
theorem getElem?_four (m : Nat) {q : Nat} (hq : q < 4) (h : 4 * m + q < x.length - 3) :
    (chainStream (fftStages 2 fmt tw false variant skid) x)[4 * m + q]? =
      (fourPoints (sample x (4 * m)) (sample x (4 * m + 1)) (sample x (4 * m + 2)) (sample x (4 * m + 3)))[[0, 2, 1, 3].getD q 0]? := by
  have hlt : 4 * m + q < (chainStream (fftStages 2 fmt tw false variant skid) x).length := by rwa [length_four hs]
  rw [sample_of_lt hlt, chainStream_four hs, sample_stream_freshSdf _ (by rw [length_rotatedHalf]; omega)]
  have hhalf (i : Nat) (hi : i < 4) (hle : i ≤ q / 2 * 2 + 1) := sample_rotatedHalf hf hs hx m hi (by omega)
  have heven : 4 * m + q / 2 * 2 = 2 * (2 * m + q / 2) := by omega
  have hodd : 4 * m + (q / 2 * 2 + 1) = 2 * (2 * m + q / 2) + 1 := by omega
  have hfirst := hhalf (q / 2 * 2) (by omega) (by omega)
  have hsecond := hhalf (q / 2 * 2 + 1) (by omega) (by omega)
  rw [heven] at hfirst
  rw [hodd] at hsecond
  match q, hq with
  | 0, _ | 2, _ =>
    refine congrArg some ((congrArg (butterflySample 1 _) heven).trans ((butterflySample_one_even _ _).trans ?_))
    rw [hfirst, hsecond]
    simp [Payload.map2]
    omega
  | 1, _ | 3, _ =>
    refine congrArg some ((congrArg (butterflySample 1 _) hodd).trans ((butterflySample_one_odd _ _).trans ?_))
    rw [hfirst, hsecond]
    simp [Payload.map2]
    omega

/-- The exchange behind the four-point transform puts its values in natural order. -/
theorem swapBits_four (m : Nat) {q : Nat} (hq : q < 4) : swapBits 1 0 (4 * m + q) = 4 * m + [0, 2, 1, 3].getD q 0 := by
  have hbit (i : Nat) (hi : i < 2) : Nat.testBit (4 * m + q) i = Nat.testBit q i := by
    rw [show 4 * m = 2 ^ 2 * m from rfl, Nat.testBit_two_pow_mul_add _ hq, if_pos hi]
  unfold swapBits
  rw [hbit 0 (by decide), hbit 1 (by decide)]
  match q, hq with
  | 0, _ | 1, _ | 2, _ | 3, _ => rfl

end

/-- Settles O58. -/
theorem fourPointTransformIsExact : Obligations.FourPointTransformIsExact := by
  intro fmt tw variant skid x hf hs hx
  have hstream : chainStream (fftStages 2 fmt tw true variant skid) x =
      (freshExchange 1 0 ⟨sampleFmt fmt.f (fmt.i + 2), 2⟩).stream (chainStream (fftStages 2 fmt tw false variant skid) x) := rfl
  have htwo (bitrev : Bool) : chainStream (fftStages 1 fmt tw bitrev variant skid) x = (freshSdf 1 fmt).stream x := by
    cases bitrev <;> rfl
  have hdepth : exchangeDepth 1 0 = 1 := rfl
  have hlength := length_four (x := x) hs tw variant skid
  refine ⟨⟨hlength, ?_, fun m q hq => ⟨getElem?_four hf hs hx tw variant skid m hq, fun h => ?_⟩⟩, fun bitrev => ?_⟩
  · dsimp only
    rw [hstream, length_stream_freshExchange, hlength, hdepth]
    rfl
  · dsimp only
    have hdepth_le := swapBits_le (j := 1) (k := 0) (q := 4 * m + q) (by decide)
    rw [swapBits_four m hq, hdepth] at hdepth_le
    have hplace : [0, 2, 1, 3].getD q 0 < 4 ∧ [0, 2, 1, 3].getD ([0, 2, 1, 3].getD q 0) 0 = q := by
      match q, hq with
      | 0, _ | 1, _ | 2, _ | 3, _ => exact ⟨by decide, rfl⟩
    rw [hstream, getElem?_stream_freshExchange _ (by decide) (by rw [hlength, hdepth]; omega), swapBits_four m hq,
      getElem?_four hf hs hx tw variant skid m hplace.1 (by omega), hplace.2]
    rfl
  · dsimp only
    rw [htwo]
    refine ⟨length_stream_freshSdf x, fun m => ⟨fun h => ?_, fun h => ?_⟩⟩
    · rw [sample_of_lt (by rwa [length_stream_freshSdf]), sample_stream_freshSdf _ h]
      exact congrArg some (butterflySample_sum 1 m 0 x (by decide))
    · rw [sample_of_lt (by rwa [length_stream_freshSdf]), sample_stream_freshSdf _ h]
      exact congrArg some (butterflySample_difference 1 m 0 x (by decide))

end Sys2Proof.Machine
end

section
/-! PROOFS. The stream functions of the CIC filters (`44_cic_sizing_filters.md` R174, R182), lane by lane: the stages'
sequence operations, how they commute, and what their values are bounded by. -/

namespace Sys2Proof.Machine

/-! ### Sequences -/

/-- The first `n` values of a sequence. -/
def upTo (n : Nat) (u : Nat → Int) : List Int := (List.range n).map u

/-- The running sums of a sequence. -/
def sums (u : Nat → Int) (q : Nat) : Int := (upTo (q + 1) u).sum

/-- The `m`-sample differences of a sequence with zero history. -/
def diffs (m : Nat) (u : Nat → Int) (q : Nat) : Int := u q - if m ≤ q then u (q - m) else 0

/-- A sequence with `r - 1` zeros after every value. -/
def stuffed (r : Nat) (u : Nat → Int) (q : Nat) : Int := if q % r = 0 then u (q / r) else 0

section
variable (n : Nat) (u v : Nat → Int)

@[simp] theorem upTo_length : (upTo n u).length = n := by simp [upTo]

theorem upTo_congr {u v : Nat → Int} (h : ∀ q < n, u q = v q) : upTo n u = upTo n v :=
  List.map_congr_left fun q hq => h q (List.mem_range.1 hq)

theorem getD_upTo {n q : Nat} (h : q < n) : (upTo n u).getD q 0 = u q := getD_map_range u 0 h

theorem take_upTo {n k : Nat} (h : k ≤ n) : (upTo n u).take k = upTo k u := by
  rw [upTo, ← List.map_take, List.take_range, Nat.min_eq_left h, upTo]

theorem upTo_add (k : Nat) : upTo (n + k) u = upTo n u ++ upTo k fun i => u (n + i) := by
  simp [upTo, List.range_add, Function.comp_def]

@[simp] theorem sums_zero : sums u 0 = u 0 := by simp [sums, upTo]

theorem sums_succ (q : Nat) : sums u (q + 1) = sums u q + u (q + 1) := by
  simp [sums, upTo, List.range_succ (n := q + 1)]

theorem runningSum_upTo : runningSum (upTo n u) = upTo n (sums u) := by
  rw [runningSum, upTo_length]
  exact upTo_congr n fun q hq => by rw [take_upTo u hq]; rfl

theorem difference_upTo (m : Nat) : difference m (upTo n u) = upTo n (diffs m u) := by
  rw [difference, upTo_length]
  exact upTo_congr n fun q hq => by rw [getD_upTo u hq, getD_upTo u ((Nat.sub_le q m).trans_lt hq), diffs]

theorem mul_lt_of_lt_ceil {n r q : Nat} (hr : 1 ≤ r) (hq : q < (n + r - 1) / r) : q * r < n := by
  have hle := (Nat.le_div_iff_mul_le hr).1 (Nat.succ_le_of_lt hq)
  rw [Nat.succ_mul] at hle
  omega

theorem everyNth_upTo {r : Nat} (hr : 1 ≤ r) : everyNth r (upTo n u) = upTo ((n + r - 1) / r) fun q => u (q * r) := by
  rw [everyNth, upTo_length]
  exact upTo_congr _ fun q hq => getD_upTo u (mul_lt_of_lt_ceil hr hq)

theorem zeroStuffed_upTo {r : Nat} (hr : 1 ≤ r) : zeroStuffed r (upTo n u) = upTo (r * n) (stuffed r u) := by
  induction n with
  | zero => rfl
  | succ n ih =>
    have hframe : upTo r (fun i => stuffed r u (r * n + i)) = u n :: List.replicate (r - 1) 0 := by
      obtain ⟨k, rfl⟩ : ∃ k, r = 1 + k := ⟨r - 1, by omega⟩
      rw [upTo_add, Nat.add_sub_cancel_left]
      refine congrArg₂ List.cons ?_ (List.eq_replicate_iff.2 ⟨by simp, fun v hv => ?_⟩)
      · simp [stuffed]
      · obtain ⟨i, hi, rfl⟩ := List.mem_map.1 hv
        have hi := List.mem_range.1 hi
        simp [stuffed, Nat.mod_eq_of_lt (by omega : 1 + i < 1 + k)]
    rw [Nat.mul_succ, upTo_add (r * n), hframe, ← ih, zeroStuffed, zeroStuffed, upTo_add, List.flatMap_append]
    simp [upTo]

end

/-! ### How the operations commute -/

theorem sums_diffs (m : Nat) : Function.Commute sums (diffs m) := by
  intro u
  funext q
  induction q with
  | zero => cases m <;> simp [diffs]
  | succ q ih =>
    rw [sums_succ, ih, diffs, diffs, diffs, sums_succ]
    obtain hle | rfl | hlt : m ≤ q ∨ m = q + 1 ∨ q + 1 < m := by omega
    · rw [if_pos hle, if_pos (by omega), if_pos (by omega), show q + 1 - m = q - m + 1 by omega, sums_succ]
      ring
    · simp
      ring
    · rw [if_neg (by omega), if_neg (by omega), if_neg (by omega)]
      ring

theorem sums_stuffed {r : Nat} (u : Nat → Int) (q : Nat) : sums (stuffed r u) q = sums u (q / r) := by
  induction q with
  | zero => simp [stuffed]
  | succ q ih =>
    rw [sums_succ, ih, stuffed, Nat.succ_div]
    by_cases h : (q + 1) % r = 0
    · rw [if_pos h, if_pos (Nat.dvd_of_mod_eq_zero h), sums_succ]
    · rw [if_neg h, if_neg fun hd => h (Nat.mod_eq_zero_of_dvd hd), Int.add_zero, Nat.add_zero]

theorem stuffed_diffs {r : Nat} (hr : 1 ≤ r) (m : Nat) : Function.Semiconj (stuffed r) (diffs m) (diffs (r * m)) := by
  intro u
  funext q
  have hle : m ≤ q / r ↔ r * m ≤ q := by rw [Nat.le_div_iff_mul_le hr, Nat.mul_comm]
  simp only [diffs, stuffed]
  split
  case isTrue h =>
    by_cases hm : r * m ≤ q
    · rw [if_pos (hle.2 hm), if_pos hm, Nat.sub_mul_div, Nat.sub_mul_mod hm, if_pos h]
    · rw [if_neg (hle.not.2 hm), if_neg hm]
  case isFalse h =>
    by_cases hm : r * m ≤ q
    · rw [if_pos hm, Nat.sub_mul_mod hm, if_neg h, Int.sub_zero]
    · rw [if_neg hm, Int.sub_zero]

theorem stuffed_one (u : Nat → Int) : stuffed 1 u = u := by
  funext q
  simp [stuffed, Nat.mod_one]

/-- The window sum a comb behind an integrator gives. -/
theorem diffs_sums_stuffed {r : Nat} (hr : 1 ≤ r) (m : Nat) (u : Nat → Int) (q : Nat) :
    diffs (r * m) (sums (stuffed r u)) q = diffs m (sums u) (q / r) := by
  have hle : m ≤ q / r ↔ r * m ≤ q := by rw [Nat.le_div_iff_mul_le hr, Nat.mul_comm]
  simp only [diffs, sums_stuffed, Nat.sub_mul_div, hle]

/-- Behind `i + 1` of the integrators, each paired with one of the combs: window sums of held window sums, and the combs that are
left. -/
theorem sums_iterate_stuffed {n r m i : Nat} (hr : 1 ≤ r) (hi : i + 1 ≤ n) (u : Nat → Int) :
    sums^[i + 1] (stuffed r ((diffs m)^[n] u)) =
      (diffs (r * m))^[n - (i + 1)] ((diffs (r * m) ∘ sums)^[i] fun q => diffs m (sums u) (q / r)) := by
  have hcommute := sums_diffs (r * m)
  have hwindow : (fun q => diffs m (sums u) (q / r)) = (diffs (r * m) ∘ sums) (stuffed r u) := by
    funext q
    exact (diffs_sums_stuffed hr m u q).symm
  calc sums^[i + 1] (stuffed r ((diffs m)^[n] u))
      = sums^[i + 1] ((diffs (r * m))^[n] (stuffed r u)) := by rw [(stuffed_diffs hr m).iterate_right n]
    _ = (diffs (r * m))^[n] (sums^[i + 1] (stuffed r u)) := hcommute.iterate_iterate (i + 1) n _
    _ = (diffs (r * m))^[n - (i + 1)] ((diffs (r * m))^[i + 1] (sums^[i + 1] (stuffed r u))) := by
      rw [← Function.iterate_add_apply, Nat.sub_add_cancel hi]
    _ = (diffs (r * m))^[n - (i + 1)] ((diffs (r * m) ∘ sums)^[i + 1] (stuffed r u)) := by
      rw [hcommute.symm.comp_iterate]
      rfl
    _ = _ := by rw [Function.iterate_succ_apply, ← hwindow]

/-! ### Bounds -/

/-- A sequence of values in the range of a signed word of bound `b`. -/
def Bounded (b : Int) (u : Nat → Int) : Prop := ∀ q, -b ≤ u q ∧ u q < b

section
variable {b : Int} {u : Nat → Int} (h : Bounded b u)
include h

theorem Bounded.mono {c : Int} (hc : b ≤ c) : Bounded c u := fun q => by
  obtain ⟨hlow, hhigh⟩ := h q
  omega

theorem Bounded.diffs (m : Nat) : Bounded (2 * b) (diffs m u) := fun q => by
  obtain ⟨hlow, hhigh⟩ := h q
  obtain ⟨hlow', hhigh'⟩ := h (q - m)
  unfold Machine.diffs
  split <;> omega

theorem Bounded.diffs_iterate (m k : Nat) : Bounded (2 ^ k * b) ((Machine.diffs m)^[k] u) := by
  induction k with
  | zero => simpa using h
  | succ k ih =>
    rw [Function.iterate_succ_apply', pow_succ', mul_assoc]
    exact ih.diffs m

/-- The sum of a window of `k` values, the last at `q`. -/
theorem Bounded.window (q k : Nat) : -(k * b) ≤ sums u (q + k) - sums u q ∧ sums u (q + k) - sums u q ≤ k * (b - 1) := by
  induction k with
  | zero => simp
  | succ k ih =>
    obtain ⟨hlow, hhigh⟩ := h (q + k + 1)
    rw [← Nat.add_assoc, sums_succ]
    push_cast
    constructor <;> linarith

theorem Bounded.sums (q : Nat) : -((q + 1 : Nat) * b) ≤ sums u q ∧ sums u q ≤ (q + 1 : Nat) * (b - 1) := by
  obtain ⟨hlow, hhigh⟩ := h 0
  obtain ⟨hlow', hhigh'⟩ := h.window 0 q
  rw [Nat.zero_add, sums_zero] at hlow' hhigh'
  push_cast
  constructor <;> linarith

theorem Bounded.diffs_sums {m : Nat} (hm : 1 ≤ m) : Bounded (m * b) (Machine.diffs m (Machine.sums u)) := fun q => by
  have hb : 1 ≤ b := by
    obtain ⟨hlow, hhigh⟩ := h 0
    omega
  unfold Machine.diffs
  split
  case isTrue hle =>
    obtain ⟨hlow, hhigh⟩ := h.window (q - m) m
    rw [Nat.sub_add_cancel hle] at hlow hhigh
    refine ⟨hlow, hhigh.trans_lt ?_⟩
    have : (1 : Int) ≤ m := by exact_mod_cast hm
    linarith
  case isFalse hlt =>
    obtain ⟨hlow, hhigh⟩ := h.sums q
    have hq : ((q + 1 : Nat) : Int) ≤ m := by exact_mod_cast not_le.1 hlt
    have hmul := mul_le_mul_of_nonneg_right hq (by omega : (0 : Int) ≤ b)
    have hpos : (1 : Int) ≤ (q + 1 : Nat) := by push_cast; omega
    rw [Int.sub_zero]
    constructor <;> linarith

theorem Bounded.windows_iterate {k : Nat} (hk : 1 ≤ k) (i : Nat) : Bounded (k ^ i * b) ((Machine.diffs k ∘ Machine.sums)^[i] u) := by
  induction i with
  | zero => simpa using h
  | succ i ih =>
    rw [Function.iterate_succ_apply', pow_succ', mul_assoc]
    exact ih.diffs_sums hk

/-- What the integrators of an interpolator are bounded by. -/
theorem Bounded.sums_iterate_stuffed {n r m i : Nat} (hr : 1 ≤ r) (hm : 1 ≤ m) (hi : i + 1 ≤ n) :
    Bounded (2 ^ (n - (i + 1)) * (((r * m : Nat) : Int) ^ i * (m * b))) (Machine.sums^[i + 1] (stuffed r ((Machine.diffs m)^[n] u))) := by
  rw [Machine.sums_iterate_stuffed hr hi]
  have hheld : Bounded (m * b) fun q => Machine.diffs m (Machine.sums u) (q / r) := fun q => h.diffs_sums hm (q / r)
  exact (hheld.windows_iterate (Nat.mul_pos hr hm) i).diffs_iterate _ _

end

end Sys2Proof.Machine
end

section
/-! PROOFS. The CIC filters compute the operations of `44_cic_sizing_filters.md` R174 and R182 on each lane: modulo the width
in the decimator, exactly in the interpolator. -/

namespace Sys2Proof.Machine

/-! ### Lanes of the stages' streams -/

/-- A lane of a payload. -/
structure IsLane (π : Payload → Int) : Prop where
  map (f : Int → Int) (p : Payload) : π (Payload.map f p) = f (π p)
  map2 (f : Int → Int → Int) (p q : Payload) : π (Payload.map2 f p q) = f (π p) (π q)
  zero : π Payload.zero = 0
  sumUpTo (x : List Payload) (q : Nat) : π (sumUpTo x q) = ((x.take (q + 1)).map π).sum
  holds (l : LinkFmt) (p : Payload) : l.holds p = true → l.fmt.holds (π p) = true

theorem isLane_re : IsLane Payload.re :=
  ⟨fun _ _ => rfl, fun _ _ _ => rfl, rfl, fun _ _ => rfl, fun _ _ h => (LinkFmt.holds_iff.1 h).1⟩

theorem isLane_im : IsLane Payload.im :=
  ⟨fun _ _ => rfl, fun _ _ _ => rfl, rfl, fun _ _ => rfl, fun _ _ h => (LinkFmt.holds_iff.1 h).2.1⟩

section
variable {π : Payload → Int} (hπ : IsLane π) {x : List Payload} {n : Nat} {u : Nat → Int} (hx : x.map π = upTo n u)

theorem map_eq_upTo (π : Payload → Int) (x : List Payload) : x.map π = upTo x.length fun q => π (sample x q) := by
  refine List.ext_getElem (by simp) fun q hq _ => ?_
  rw [List.length_map] at hq
  simp [upTo, sample, hq]

include hx in
theorem length_of_map_eq_upTo : x.length = n := by simpa using congrArg List.length hx

include hx in
theorem sample_of_map_eq_upTo (q : Nat) (hq : q < n) : π (sample x q) = u q := by
  have hlen := length_of_map_eq_upTo hx
  have h := congrArg (fun l => l.getD q 0) hx
  rwa [getD_upTo u hq, map_eq_upTo, getD_upTo _ (hlen ▸ hq)] at h

include hx in
theorem stream_downsampler_map {r : Nat} (hr : 1 ≤ r) (l : LinkFmt) (c : Nat) :
    ((Stage.downsampler r l c).stream x).map π = upTo ((n + r - 1) / r) fun q => u (q * r) := by
  simp only [Stage.stream, List.map_map, length_of_map_eq_upTo hx]
  exact upTo_congr _ fun q hq => sample_of_map_eq_upTo hx (q * r) (mul_lt_of_lt_ceil hr hq)

include hπ hx

theorem IsLane.stream_integrator (a b : LinkFmt) (acc : Payload) :
    ((Stage.integrator a b acc).stream x).map π = upTo n fun q => wrapS b.fmt.width (sums u q) := by
  simp only [Stage.stream, List.map_map, length_of_map_eq_upTo hx]
  refine upTo_congr n fun q hq => ?_
  rw [Function.comp_apply, hπ.map, hπ.sumUpTo, List.map_take, hx, take_upTo u hq, sums]

theorem IsLane.stream_comb (a b : LinkFmt) (m : Nat) (d : List Payload) :
    ((Stage.comb a b m d).stream x).map π = upTo n fun q => wrapS b.fmt.width (diffs m u q) := by
  simp only [Stage.stream, List.map_map, length_of_map_eq_upTo hx]
  refine upTo_congr n fun q hq => ?_
  rw [Function.comp_apply, hπ.map2, sample_of_map_eq_upTo hx q hq, sampleBefore, apply_ite π,
    sample_of_map_eq_upTo hx _ ((Nat.sub_le q m).trans_lt hq), hπ.zero, diffs]

theorem IsLane.stream_upsampler {r : Nat} (hr : 1 ≤ r) (l : LinkFmt) (c : Nat) :
    ((Stage.upsampler r l c).stream x).map π = upTo (r * n) (stuffed r u) := by
  rw [← zeroStuffed_upTo n u hr, ← hx, zeroStuffed, Stage.stream, List.map_flatMap, List.flatMap_map]
  simp [hπ.zero]

theorem IsLane.stream_requant (k : Nat) (a b : LinkFmt) :
    ((Stage.requant k a b).stream x).map π = upTo n fun q => wrapS b.fmt.width (u q / pow2 k) := by
  have hmap : π ∘ Payload.map (fun v => wrapS b.fmt.width (v / pow2 k)) = (fun v => wrapS b.fmt.width (v / pow2 k)) ∘ π :=
    funext fun p => hπ.map _ p
  rw [Stage.stream, List.map_map, hmap, ← List.map_map, hx, upTo, List.map_map]
  rfl

end

/-! ### Chains built stage by stage -/

/-- A property handed on from stage group to stage group. -/
theorem chainStream_flatMap_range {P : Nat → List Payload → Prop} {g : Nat → List Stage} {n : Nat}
    (h : ∀ j < n, ∀ x, P j x → P (j + 1) (chainStream (g j) x)) {x : List Payload} (h0 : P 0 x) :
    P n (chainStream ((List.range n).flatMap g) x) := by
  induction n with
  | zero => exact h0
  | succ n ih =>
    rw [List.range_succ, List.flatMap_append, List.flatMap_singleton, chainStream_append]
    exact h n (Nat.lt_succ_self n) _ (ih fun j hj => h j (hj.trans (Nat.lt_succ_self n)))

theorem chainStream_map_range {P : Nat → List Payload → Prop} {g : Nat → Stage} {n : Nat}
    (h : ∀ j < n, ∀ x, P j x → P (j + 1) ((g j).stream x)) {x : List Payload} (h0 : P 0 x) :
    P n (chainStream ((List.range n).map g) x) := by
  rw [List.map_eq_flatMap]
  exact chainStream_flatMap_range h h0

/-! ### The operations, iterated on lists -/

theorem runningSum_iterate_upTo (n : Nat) (u : Nat → Int) (k : Nat) : runningSum^[k] (upTo n u) = upTo n (sums^[k] u) :=
  (Function.Semiconj.iterate_right (f := upTo n) (fun u => (runningSum_upTo n u).symm) k u).symm

theorem difference_iterate_upTo (n m : Nat) (u : Nat → Int) (k : Nat) : (difference m)^[k] (upTo n u) = upTo n ((diffs m)^[k] u) :=
  (Function.Semiconj.iterate_right (f := upTo n) (fun u => (difference_upTo n u m).symm) k u).symm

/-! ### The decimator without truncation (R182) -/

/-- A lane carries a sequence modulo the words of a width. -/
def LaneMod (w : Nat) (π : Payload → Int) (n : Nat) (u : Nat → Int) (x : List Payload) : Prop :=
  ∃ v, x.map π = upTo n v ∧ ∀ q, v q ≡ u q [ZMOD pow2 w]

theorem wrapS_modEq (w : Nat) (x : Int) : wrapS w x ≡ x [ZMOD pow2 w] := wrapS_emod w x

theorem sums_modEq {k : Int} {u v : Nat → Int} (h : ∀ q, v q ≡ u q [ZMOD k]) (q : Nat) : sums v q ≡ sums u q [ZMOD k] := by
  induction q with
  | zero => simpa using h 0
  | succ q ih =>
    rw [sums_succ, sums_succ]
    exact ih.add (h _)

theorem diffs_modEq {k : Int} {u v : Nat → Int} (h : ∀ q, v q ≡ u q [ZMOD k]) (m q : Nat) : diffs m v q ≡ diffs m u q [ZMOD k] := by
  unfold diffs
  split
  · exact (h q).sub (h _)
  · exact (h q).sub rfl

section
variable {π : Payload → Int} (hπ : IsLane π) {w n : Nat} {u : Nat → Int} {x : List Payload} (h : LaneMod w π n u x)
include hπ h

theorem LaneMod.integrator {b : LinkFmt} (hb : b.fmt.width = w) (a : LinkFmt) (acc : Payload) :
    LaneMod w π n (sums u) ((Stage.integrator a b acc).stream x) := by
  obtain ⟨v, hx, hv⟩ := h
  exact ⟨_, hπ.stream_integrator hx a b acc, fun q => hb ▸ (wrapS_modEq _ _).trans (hb ▸ sums_modEq hv q)⟩

theorem LaneMod.comb {b : LinkFmt} (hb : b.fmt.width = w) (a : LinkFmt) (m : Nat) (d : List Payload) :
    LaneMod w π n (diffs m u) ((Stage.comb a b m d).stream x) := by
  obtain ⟨v, hx, hv⟩ := h
  exact ⟨_, hπ.stream_comb hx a b m d, fun q => hb ▸ (wrapS_modEq _ _).trans (hb ▸ diffs_modEq hv m q)⟩

theorem LaneMod.requant {b : LinkFmt} (hb : b.fmt.width = w) (a : LinkFmt) :
    LaneMod w π n u ((Stage.requant 0 a b).stream x) := by
  obtain ⟨v, hx, hv⟩ := h
  refine ⟨_, hπ.stream_requant hx 0 a b, fun q => ?_⟩
  rw [hb, show pow2 0 = 1 from rfl, Int.ediv_one]
  exact (wrapS_modEq w _).trans (hv q)

/-- Pairs of a shift by 0 and an integrator. -/
theorem LaneMod.integrators {a b : Nat → LinkFmt} {k : Nat} (hb : ∀ j < k, (b j).fmt.width = w) :
    LaneMod w π n (sums^[k] u)
      (chainStream ((List.range k).flatMap fun j => [Stage.requant 0 (a j) (b j), freshIntegrator (b j) (b j)]) x) := by
  refine chainStream_flatMap_range (P := fun j => LaneMod w π n (sums^[j] u)) (fun j hj x hj' => ?_) h
  rw [Function.iterate_succ_apply']
  exact (hj'.requant hπ (hb j hj) (a j)).integrator hπ (hb j hj) (b j) Payload.zero

/-- Pairs of a shift by 0 and a comb. -/
theorem LaneMod.combs {a b : Nat → LinkFmt} {k : Nat} (m : Nat) (hb : ∀ j < k, (b j).fmt.width = w) :
    LaneMod w π n ((diffs m)^[k] u)
      (chainStream ((List.range k).flatMap fun j => [Stage.requant 0 (a j) (b j), freshComb (b j) (b j) m]) x) := by
  refine chainStream_flatMap_range (P := fun j => LaneMod w π n ((diffs m)^[j] u)) (fun j hj x hj' => ?_) h
  rw [Function.iterate_succ_apply']
  exact (hj'.requant hπ (hb j hj) (a j)).comb hπ (hb j hj) (b j) m (List.replicate m Payload.zero)

omit hπ in
/-- The downsampler, if there is one. -/
theorem LaneMod.decimated {r : Nat} (hr : 1 ≤ r) (l : LinkFmt) : LaneMod w π ((n + r - 1) / r) (fun q => u (q * r))
    (chainStream (if 1 < r then [Stage.downsampler r l 0] else []) x) := by
  split
  case isTrue =>
    obtain ⟨v, hx, hv⟩ := h
    exact ⟨_, stream_downsampler_map hx hr l 0, fun q => hv _⟩
  case isFalse hlt =>
    obtain rfl : r = 1 := by omega
    simp only [Nat.div_one, Nat.add_sub_cancel, Nat.mul_one]
    exact h

end

section
variable (n r m wIn : Nat)

theorem cicTruncate_none_bc : (cicTruncate n r m wIn none).bc = List.replicate (2 * n) 0 := by
  refine List.eq_replicate_iff.2 ⟨cicTruncate_bc_length, fun b hb => ?_⟩
  have hle := cicTruncate_bc_le b hb
  rwa [show (cicTruncate n r m wIn none).bLast = 0 from Nat.sub_self _, Nat.le_zero] at hle

theorem increments_replicate_zero (k : Nat) : increments 0 (List.replicate k 0) = List.replicate k 0 := by
  induction k with
  | zero => rfl
  | succ k ih => rw [List.replicate_succ, increments, ih]

theorem cicTruncate_none_shifts (j : Nat) : (cicTruncate n r m wIn none).shifts.getD j 0 = 0 := by
  rw [show (cicTruncate n r m wIn none).shifts = increments 0 (cicTruncate n r m wIn none).bc from rfl, cicTruncate_none_bc,
    increments_replicate_zero, List.getD_eq_getElem?_getD, List.getElem?_replicate]
  split <;> rfl

theorem cicTruncate_none_sOut : (cicTruncate n r m wIn none).sOut = 0 :=
  Nat.le_zero.1 ((Nat.sub_le ..).trans_eq (Nat.sub_self _))

theorem downWidth_none {j : Nat} (hj : j < 2 * n) : downWidth n r m wIn none (j + 1) = fullWidth n r m wIn := by
  have hwidths : (cicTruncate n r m wIn none).widths = (cicTruncate n r m wIn none).bc.map fun x => fullWidth n r m wIn - x := rfl
  rw [downWidth, if_neg (Nat.succ_ne_zero j), Nat.add_sub_cancel, hwidths, cicTruncate_none_bc, List.map_replicate]
  simp [List.getD_eq_getElem?_getD, hj]

/-- Without truncation no stage shifts. -/
theorem downsamplingStages_none (f lanes : Nat) : downsamplingStages n r m wIn f lanes none =
    (List.range n).flatMap (fun j => [Stage.requant 0 (cicLink f lanes (downWidth n r m wIn none j))
        (cicLink f lanes (downWidth n r m wIn none (j + 1))),
      freshIntegrator (cicLink f lanes (downWidth n r m wIn none (j + 1))) (cicLink f lanes (downWidth n r m wIn none (j + 1)))])
    ++ (if 1 < r then [Stage.downsampler r (cicLink f lanes (downWidth n r m wIn none n)) 0] else [])
    ++ (List.range n).flatMap (fun j => [Stage.requant 0 (cicLink f lanes (downWidth n r m wIn none (n + j)))
        (cicLink f lanes (downWidth n r m wIn none (n + j + 1))),
      freshComb (cicLink f lanes (downWidth n r m wIn none (n + j + 1))) (cicLink f lanes (downWidth n r m wIn none (n + j + 1))) m])
    ++ [Stage.requant 0 (cicLink f lanes (downWidth n r m wIn none (2 * n))) (cicLink f lanes (fullWidth n r m wIn))] := by
  simp only [downsamplingStages, cicTruncate_none_shifts, cicTruncate_none_sOut]
  rfl

/-- Every lane of the decimator is the composition of the operations, wrapped to the full width. -/
theorem IsLane.chainStream_downsamplingStages {π : Payload → Int} (hπ : IsLane π) (f lanes : Nat) {k : Nat} {u : Nat → Int}
    {x : List Payload} (hx : x.map π = upTo k u) (hr : 1 ≤ r) :
    (chainStream (downsamplingStages n r m wIn f lanes none) x).map π =
      upTo ((k + r - 1) / r) fun q => wrapS (fullWidth n r m wIn) ((diffs m)^[n] (fun q => (sums^[n] u) (q * r)) q) := by
  have hwidth {j : Nat} (hj : j < 2 * n) : (cicLink f lanes (downWidth n r m wIn none (j + 1))).fmt.width = fullWidth n r m wIn :=
    (cicLabel_width _ _).trans (downWidth_none n r m wIn hj)
  have hstart : LaneMod (fullWidth n r m wIn) π k u x := ⟨u, hx, fun _ => rfl⟩
  have hsums := hstart.integrators hπ (a := fun j => cicLink f lanes (downWidth n r m wIn none j))
    fun j (hj : j < n) => hwidth (j := j) (by omega)
  have hrate := hsums.decimated hr (cicLink f lanes (downWidth n r m wIn none n))
  obtain ⟨v, hy, hv⟩ := hrate.combs hπ (a := fun j => cicLink f lanes (downWidth n r m wIn none (n + j))) m
    fun j (hj : j < n) => hwidth (j := n + j) (by omega)
  rw [downsamplingStages_none, chainStream_append, chainStream_append, chainStream_append, chainStream, chainStream,
    hπ.stream_requant hy]
  refine upTo_congr _ fun q _ => ?_
  rw [show pow2 0 = 1 from rfl, Int.ediv_one, show (cicLink f lanes (fullWidth n r m wIn)).fmt.width = _ from cicLabel_width _ _]
  exact wrapS_congr _ (hv q)

end

/-- Settles O59. -/
theorem decimatorStream : Obligations.DecimatorStream := by
  intro n r m l x _ hr _ _ _
  have hlane {π : Payload → Int} (hπ : IsLane π) :
      (chainStream (downsamplingStages n r m l.fmt.width l.fmt.f l.lanes none) x).map π =
        ((difference m)^[n] (everyNth r (runningSum^[n] (x.map π)))).map (wrapS (fullWidth n r m l.fmt.width)) := by
    rw [hπ.chainStream_downsamplingStages n r m l.fmt.width l.fmt.f l.lanes (map_eq_upTo π x) hr, map_eq_upTo π x,
      runningSum_iterate_upTo, everyNth_upTo _ _ hr, difference_iterate_upTo, upTo, upTo, List.map_map]
    rfl
  exact ⟨hlane isLane_re, hlane isLane_im⟩

/-! ### The interpolator (R174) -/

theorem pow2_grown {w : Nat} (hw : 1 ≤ w) (g : Nat) : pow2 (w + g - 1) = 2 ^ g * pow2 (w - 1) := by
  rw [show w + g - 1 = g + (w - 1) by omega, pow2_add]
  rfl

/-- Values that fit a width are not changed by its wrap. -/
theorem wrapS_of_bounded {w g : Nat} {u : Nat → Int} (hw : 1 ≤ w) (h : Bounded (2 ^ g * pow2 (w - 1)) u) (q : Nat) :
    wrapS (w + g) (u q) = u q := wrapS_of_range (by omega) (pow2_grown hw g ▸ h q)

/-- The bound of the integrators is the one their widths are chosen for. -/
theorem windowBound_le_growth {n r m i : Nat} (hr : 1 ≤ r) (hi : i + 1 ≤ n) {b : Int} (hb : 0 ≤ b) :
    2 ^ (n - (i + 1)) * (((r * m : Nat) : Int) ^ i * (m * b)) ≤ 2 ^ cicGrowthAt n r m (n + i + 1) * b := by
  have hle : 2 ^ (n - (i + 1)) * (r * m) ^ i * m ≤ 2 ^ cicGrowthAt n r m (n + i + 1) := by
    have hgrowth := (clog2Ratio_le_iff hr).1 (le_refl (clog2Ratio (2 ^ (2 * n - (n + i + 1)) * (r * m) ^ (n + i + 1 - n)) r))
    rw [show 2 * n - (n + i + 1) = n - (i + 1) by omega, show n + i + 1 - n = i + 1 by omega] at hgrowth
    rw [cicGrowthAt, if_neg (by omega), show 2 * n - (n + i + 1) = n - (i + 1) by omega, show n + i + 1 - n = i + 1 by omega]
    refine Nat.le_of_mul_le_mul_right ((Nat.le_of_eq ?_).trans hgrowth) hr
    ring
  calc 2 ^ (n - (i + 1)) * (((r * m : Nat) : Int) ^ i * (m * b))
      = ((2 ^ (n - (i + 1)) * (r * m) ^ i * m : Nat) : Int) * b := by push_cast; ring
    _ ≤ ((2 ^ cicGrowthAt n r m (n + i + 1) : Nat) : Int) * b := mul_le_mul_of_nonneg_right (by exact_mod_cast hle) hb
    _ = _ := by push_cast; ring

/-- What the integrators of an interpolator give fits their widths. -/
theorem bounded_sums_iterate {n r m wIn i : Nat} {u : Nat → Int} (hr : 1 ≤ r) (hm : 1 ≤ m) (hu : Bounded (pow2 (wIn - 1)) u)
    (hi : i + 1 ≤ n) :
    Bounded (2 ^ cicGrowthAt n r m (n + i + 1) * pow2 (wIn - 1)) (sums^[i + 1] (stuffed r ((diffs m)^[n] u))) :=
  (hu.sums_iterate_stuffed hr hm hi).mono (windowBound_le_growth hr hi (pow2_pos _).le)

section
variable {π : Payload → Int} (hπ : IsLane π) {n r m wIn N : Nat} {u : Nat → Int} {x : List Payload}
include hπ

/-- The combs of an interpolator are exact. -/
theorem IsLane.chainStream_combs (hx : x.map π = upTo N u) (hw : 1 ≤ wIn) (hu : Bounded (pow2 (wIn - 1)) u) (f lanes : Nat) :
    (chainStream ((List.range n).map fun j => freshComb (cicLink f lanes (upWidth n r m wIn j))
      (cicLink f lanes (upWidth n r m wIn (j + 1))) m) x).map π = upTo N ((diffs m)^[n] u) := by
  refine chainStream_map_range (P := fun j y => y.map π = upTo N ((diffs m)^[j] u)) (fun j hj y hy => ?_) hx
  have hbound := hu.diffs_iterate m (j + 1)
  rw [Function.iterate_succ_apply'] at hbound ⊢
  refine (hπ.stream_comb hy _ _ m _).trans (upTo_congr N fun q _ => ?_)
  rw [show (cicLink f lanes (upWidth n r m wIn (j + 1))).fmt.width = wIn + cicGrowthAt n r m (j + 1) from cicLabel_width _ _,
    cicGrowthAt, if_pos (Nat.succ_le_of_lt hj)]
  exact wrapS_of_bounded hw hbound q

/-- The upsampler, if there is one. -/
theorem IsLane.chainStream_upsampler (hx : x.map π = upTo N u) (hr : 1 ≤ r) (l : LinkFmt) :
    (chainStream (if 1 < r then [Stage.upsampler r l 0] else []) x).map π = upTo (r * N) (stuffed r u) := by
  split
  case isTrue => exact hπ.stream_upsampler hx hr l 0
  case isFalse h =>
    obtain rfl : r = 1 := by omega
    rw [Nat.one_mul, stuffed_one]
    exact hx

/-- The integrators of an interpolator are exact. -/
theorem IsLane.chainStream_integrators (hx : x.map π = upTo N (stuffed r ((diffs m)^[n] u))) (hw : 1 ≤ wIn)
    (hu : Bounded (pow2 (wIn - 1)) u) (hr : 1 ≤ r) (hm : 1 ≤ m) (f lanes : Nat) :
    (chainStream ((List.range n).map fun j => freshIntegrator (cicLink f lanes (upWidth n r m wIn (n + j)))
      (cicLink f lanes (upWidth n r m wIn (n + j + 1)))) x).map π = upTo N (sums^[n] (stuffed r ((diffs m)^[n] u))) := by
  refine chainStream_map_range (P := fun j y => y.map π = upTo N (sums^[j] (stuffed r ((diffs m)^[n] u)))) (fun j hj y hy => ?_) hx
  have hbound := bounded_sums_iterate hr hm hu hj
  rw [Function.iterate_succ_apply'] at hbound ⊢
  refine (hπ.stream_integrator hy _ _ _).trans (upTo_congr N fun q _ => ?_)
  rw [show (cicLink f lanes (upWidth n r m wIn (n + j + 1))).fmt.width = wIn + cicGrowthAt n r m (n + j + 1) from cicLabel_width _ _]
  exact wrapS_of_bounded hw hbound q

end

/-- A requested width is a last shift. -/
theorem upsamplingStages_some (n r m wIn f lanes o : Nat) : upsamplingStages n r m wIn f lanes (some o) =
    upsamplingStages n r m wIn f lanes none ++ (if o < fullWidthUpsampling n r m wIn then
      [Stage.requant (fullWidthUpsampling n r m wIn - o) (cicLink f lanes (fullWidthUpsampling n r m wIn))
        (cicLink f lanes o)] else []) := by
  simp only [upsamplingStages, List.append_nil]
  rfl

/-- The quotient of a value that fits a width by a power of two fits what is left of the width. -/
theorem wrapS_ediv_pow2 {w o : Nat} (ho : 1 ≤ o) (hle : o ≤ w) {v : Int} (hv : -pow2 (w - 1) ≤ v ∧ v < pow2 (w - 1)) :
    wrapS o (v / pow2 (w - o)) = v / pow2 (w - o) := by
  have hpow : pow2 (w - 1) = pow2 (o - 1) * pow2 (w - o) := by rw [← pow2_add, show o - 1 + (w - o) = w - 1 by omega]
  have hpos := pow2_pos (w - o)
  rw [hpow] at hv
  refine wrapS_of_range ho ⟨?_, ?_⟩
  · rw [Int.le_ediv_iff_mul_le hpos, Int.neg_mul]
    exact hv.1
  · rw [Int.ediv_lt_iff_lt_mul hpos]
    exact hv.2

section
variable {n r m : Nat} {l : LinkFmt} {x : List Payload} (hr : 1 ≤ r) (hm : 1 ≤ m) (hl : l.legal = true)
  (hx : ∀ v ∈ x, l.holds v = true) {π : Payload → Int} (hπ : IsLane π)

include hl hx hπ in
theorem IsLane.bounded_sample : Bounded (pow2 (l.fmt.width - 1)) fun q => π (sample x q) := fun q =>
  (Fmt.holds_iff_of_signed (LinkFmt.legal_iff.1 hl).2.1).1 (hπ.holds l _ (sample_holds hx q))

include hr in
theorem interpolated_eq_upTo (π : Payload → Int) : runningSum^[n] (zeroStuffed r ((difference m)^[n] (x.map π))) =
    upTo (r * x.length) (sums^[n] (stuffed r ((diffs m)^[n] fun q => π (sample x q)))) := by
  rw [map_eq_upTo π x, difference_iterate_upTo, zeroStuffed_upTo _ _ hr, runningSum_iterate_upTo]

include hr hm hl hx hπ

/-- At full width an interpolator is exact. -/
theorem IsLane.chainStream_upsamplingStages : (chainStream (upsamplingStages n r m l.fmt.width l.fmt.f l.lanes none) x).map π =
    upTo (r * x.length) (sums^[n] (stuffed r ((diffs m)^[n] fun q => π (sample x q)))) := by
  have hw := Fmt.one_le_width (LinkFmt.legal_iff.1 hl).1
  have hbounded := hπ.bounded_sample hl hx
  have hcombs := hπ.chainStream_combs (n := n) (r := r) (m := m) (map_eq_upTo π x) hw hbounded l.fmt.f l.lanes
  simp only [upsamplingStages, List.append_nil]
  rw [chainStream_append, chainStream_append]
  exact hπ.chainStream_integrators (hπ.chainStream_upsampler hcombs hr _) hw hbounded hr hm l.fmt.f l.lanes

/-- At a requested width its values are floored. -/
theorem IsLane.chainStream_upsamplingStages_some (hn : 1 ≤ n) {o : Nat} (ho : 1 ≤ o)
    (hle : o ≤ fullWidthUpsampling n r m l.fmt.width) :
    (chainStream (upsamplingStages n r m l.fmt.width l.fmt.f l.lanes (some o)) x).map π = upTo (r * x.length) fun q =>
      (sums^[n] (stuffed r ((diffs m)^[n] fun q => π (sample x q)))) q / 2 ^ (fullWidthUpsampling n r m l.fmt.width - o) := by
  have hw := Fmt.one_le_width (LinkFmt.legal_iff.1 hl).1
  have hfull := hπ.chainStream_upsamplingStages (n := n) hr hm hl hx
  rw [upsamplingStages_some, chainStream_append]
  split
  case isTrue hlt =>
    rw [chainStream, chainStream, hπ.stream_requant hfull]
    refine upTo_congr _ fun q _ => ?_
    have hbound := bounded_sums_iterate hr hm (hπ.bounded_sample hl hx) (Nat.sub_add_cancel hn).le q
    rw [Nat.sub_add_cancel hn, show n + (n - 1) + 1 = 2 * n by omega, ← pow2_grown hw] at hbound
    rw [show (cicLink l.fmt.f l.lanes o).fmt.width = o from cicLabel_width _ _, wrapS_ediv_pow2 ho hle hbound, pow2, Nat.cast_pow]
    rfl
  case isFalse hge =>
    rw [show fullWidthUpsampling n r m l.fmt.width - o = 0 by omega]
    refine hfull.trans (upTo_congr _ fun q _ => ?_)
    rw [pow_zero, Int.ediv_one]

end

/-- Settles O60. -/
theorem interpolatorStream : Obligations.InterpolatorStream := by
  intro n r m l x hn hr hm hl hx
  have hexact {π : Payload → Int} (hπ : IsLane π) := (hπ.chainStream_upsamplingStages (n := n) hr hm hl hx).trans
    (interpolated_eq_upTo hr π).symm
  have hfloored {π : Payload → Int} (hπ : IsLane π) {o : Nat} (ho : 1 ≤ o) (hle : o ≤ fullWidthUpsampling n r m l.fmt.width) :
      (chainStream (upsamplingStages n r m l.fmt.width l.fmt.f l.lanes (some o)) x).map π =
        (runningSum^[n] (zeroStuffed r ((difference m)^[n] (x.map π)))).map
          fun y => y / 2 ^ (fullWidthUpsampling n r m l.fmt.width - o) := by
    rw [hπ.chainStream_upsamplingStages_some hr hm hl hx hn ho hle, interpolated_eq_upTo hr, upTo, upTo, List.map_map]
    rfl
  exact ⟨⟨hexact isLane_re, hexact isLane_im⟩, fun o ho hle => ⟨hfloored isLane_re ho hle, hfloored isLane_im ho hle⟩⟩

end Sys2Proof.Machine
end

section
/-! PROOFS. The functions of `PipeReg` (`42_stream_skid_delay.md` R132): their parts compute what the operations of files 40 and
41 deliver, and multiplexers on the bits of the payload make every function out of constants. -/

namespace Sys2Proof.Machine

/-! ### Any function, as a table read by multiplexers -/

/-- The expression that `sel` picks by its low `k` bits. -/
def LaneExpr.table : (k : Nat) → (sel : LaneExpr) → (g : Int → LaneExpr) → LaneExpr
  | 0, _, g => g 0
  | k + 1, sel, g => .select sel k (table k sel g) (table k sel fun i => g (i + pow2 k))

/-- Bit `k` is what the low `k + 1` bits have and the low `k` bits have not. -/
theorem emod_pow2_succ (a : Int) (k : Nat) : a % pow2 (k + 1) = if ashr a k % 2 = 1 then a % pow2 k + pow2 k else a % pow2 k := by
  have hpos := pow2_pos k
  have hlow := Int.emod_nonneg a hpos.ne'
  have hhigh := Int.emod_lt_of_pos a hpos
  have hbit : a / pow2 k % 2 = 0 ∨ a / pow2 k % 2 = 1 := Int.emod_two_eq _
  have hsplit : a = a % pow2 k + pow2 k * (a / pow2 k % 2) + pow2 (k + 1) * (a / pow2 k / 2) := by
    have hdiv := Int.emod_add_mul_ediv a (pow2 k)
    have hdiv2 := Int.emod_add_mul_ediv (a / pow2 k) 2
    rw [pow2_succ]
    linear_combination -hdiv - pow2 k * hdiv2
  have hemod : a % pow2 (k + 1) = a % pow2 k + pow2 k * (a / pow2 k % 2) := by
    conv_lhs => rw [hsplit, Int.add_mul_emod_self_left]
    refine Int.emod_eq_of_lt ?_ ?_ <;> rw [pow2_succ] at * <;> obtain h | h := hbit <;> rw [h] <;> omega
  rw [hemod, ashr]
  obtain h | h := hbit <;> rw [h] <;> simp

theorem LaneExpr.eval_table (fmt : Fmt) (x : Payload) (k : Nat) (sel : LaneExpr) (g : Int → LaneExpr) :
    (LaneExpr.table k sel g).eval fmt x = (g ((sel.eval fmt x).raw % pow2 k)).eval fmt x := by
  induction k generalizing g with
  | zero => rw [LaneExpr.table, show pow2 0 = 1 from rfl, Int.emod_one]
  | succ k ih =>
    rw [LaneExpr.table, LaneExpr.eval, ih, ih, emod_pow2_succ, Fx.bit]
    simp only [beq_iff_eq]
    split <;> rfl

theorem LaneExpr.table_legal {l : LinkFmt} {p : Fmt} {sel : LaneExpr} (hsel : sel.legal l = true) {k : Nat} {g : Int → LaneExpr}
    (hg : ∀ i, (g i).legal l = true ∧ (g i).resultFmt l.fmt = p) :
    (LaneExpr.table k sel g).legal l = true ∧ (LaneExpr.table k sel g).resultFmt l.fmt = p := by
  induction k generalizing g with
  | zero => exact hg 0
  | succ k ih =>
    obtain ⟨hlegal, hfmt⟩ := ih hg
    obtain ⟨hlegal', hfmt'⟩ := ih fun i => hg (i + pow2 k)
    exact ⟨by simp [LaneExpr.table, LaneExpr.legal, hsel, hlegal, hlegal', hfmt, hfmt'], hfmt⟩

/-- A lane that gives `h` of the payload, from the bits of the payload's lanes. -/
def LaneExpr.ofFunction (l : LinkFmt) (p : Fmt) (h : Payload → Int) : LaneExpr :=
  .table l.fmt.width .inRe fun i =>
    if l.lanes = 2 then .table l.fmt.width .inIm fun j => .const ⟨h (l.clip ⟨i, j⟩), p⟩
    else .const ⟨h (l.clip ⟨i, 0⟩), p⟩

section
variable {l : LinkFmt} {p : Fmt} {h : Payload → Int} (hl : l.legal = true)

include hl in
theorem LaneExpr.ofFunction_legal (hh : ∀ x, l.holds x = true → Fx.legal ⟨h x, p⟩ = true) :
    (LaneExpr.ofFunction l p h).legal l = true ∧ (LaneExpr.ofFunction l p h).resultFmt l.fmt = p := by
  have hconst (x : Payload) : (LaneExpr.const ⟨h (l.clip x), p⟩).legal l = true ∧
      (LaneExpr.const ⟨h (l.clip x), p⟩).resultFmt l.fmt = p := ⟨hh _ (LinkFmt.clip_holds hl x), rfl⟩
  refine LaneExpr.table_legal rfl fun i => ?_
  split
  case isTrue hlanes => exact LaneExpr.table_legal (by simp [LaneExpr.legal, hlanes]) fun j => hconst ⟨i, j⟩
  case isFalse => exact hconst ⟨i, 0⟩

theorem clip_emod (l : LinkFmt) (a b : Int) : l.clip ⟨a % pow2 l.fmt.width, b % pow2 l.fmt.width⟩ = l.clip ⟨a, b⟩ := by
  simp only [LinkFmt.clip, Fmt.wrap_congr l.fmt (Int.emod_emod_of_dvd _ dvd_rfl)]

include hl in
theorem LaneExpr.eval_ofFunction {x : Payload} (hx : l.holds x = true) : (LaneExpr.ofFunction l p h).eval l.fmt x = ⟨h x, p⟩ := by
  have hclip := LinkFmt.clip_of_holds hl hx
  rw [LaneExpr.ofFunction, LaneExpr.eval_table]
  split
  case isTrue hlanes =>
    rw [LaneExpr.eval_table]
    exact congrArg (fun y => (⟨h y, p⟩ : Fx)) ((clip_emod l x.re x.im).trans hclip)
  case isFalse hlanes =>
    have him : x.im = 0 := (LinkFmt.holds_iff.1 hx).2.2 hlanes
    refine congrArg (fun y => (⟨h y, p⟩ : Fx)) (Eq.trans ?_ ((clip_emod l x.re x.im).trans hclip))
    rw [him, Int.zero_emod]
    rfl

/-- The function of a `PipeReg` that is given by what it is to compute. -/
def PipeFn.ofFunction (l out : LinkFmt) (f : Payload → Payload) : PipeFn :=
  ⟨l, some ⟨.ofFunction l out.fmt fun x => (f x).re,
    if out.lanes = 2 then some (.ofFunction l out.fmt fun x => (f x).im) else none⟩, out⟩

variable {out : LinkFmt} {f : Payload → Payload} (hout : out.legal = true) (hf : ∀ x, l.holds x = true → out.holds (f x) = true)
include hl hout hf

theorem PipeFn.ofFunction_legal : (PipeFn.ofFunction l out f).legal = true := by
  obtain ⟨hfmt, -, hlanes⟩ := LinkFmt.legal_iff.1 hout
  have hre := LaneExpr.ofFunction_legal (p := out.fmt) (h := fun x => (f x).re) hl fun x hx => by
    simp [Fx.legal, hfmt, (LinkFmt.holds_iff.1 (hf x hx)).1]
  have him := LaneExpr.ofFunction_legal (p := out.fmt) (h := fun x => (f x).im) hl fun x hx => by
    simp [Fx.legal, hfmt, (LinkFmt.holds_iff.1 (hf x hx)).2.1]
  obtain h1 | h2 := hlanes
  · simp [PipeFn.ofFunction, PipeFn.legal, hl, hout, hre, h1]
  · simp [PipeFn.ofFunction, PipeFn.legal, hl, hout, hre, him, h2]

theorem PipeFn.apply_ofFunction {x : Payload} (hx : l.holds x = true) : (PipeFn.ofFunction l out f).apply x = f x := by
  obtain ⟨-, -, him⟩ := LinkFmt.holds_iff.1 (hf x hx)
  have heval : CombFn.eval l.fmt x ⟨.ofFunction l out.fmt fun x => (f x).re,
      if out.lanes = 2 then some (.ofFunction l out.fmt fun x => (f x).im) else none⟩ = f x := by
    rw [CombFn.eval, LaneExpr.eval_ofFunction hl hx]
    split
    case h_1 hnone =>
      have hlanes : out.lanes ≠ 2 := fun h => by rw [if_pos h] at hnone; cases hnone
      rw [← him hlanes]
    case h_2 im hsome =>
      obtain ⟨-, rfl⟩ : out.lanes = 2 ∧ LaneExpr.ofFunction l out.fmt (fun x => (f x).im) = im := by simpa using hsome
      rw [LaneExpr.eval_ofFunction hl hx]
  exact (congrArg out.clip heval).trans (LinkFmt.clip_of_holds hout (hf x hx))

end

/-! ### The parts of a function -/

/-- A multiplexer tests the bit the spec names. -/
theorem LaneExpr.eval_select (fmt : Fmt) (x : Payload) (c a b : LaneExpr) (k : Nat) : (LaneExpr.select c k a b).eval fmt x =
    if (c.eval fmt x).raw / 2 ^ k % 2 = 1 then b.eval fmt x else a.eval fmt x := by
  rw [LaneExpr.eval, Fx.bit, ashr, pow2, Nat.cast_pow]
  simp

/-- Settles O26. -/
theorem pipeRegTakesAnyFunction : Obligations.PipeRegTakesAnyFunction := by
  refine ⟨fun s l out f hl hout ha hf => ?_, fun l x hl hx => LinkFmt.clip_of_holds hl hx, fun s fmt x a b c ha hb => ?_,
    fun s fmt x a b c d k z w hz hw hza hzb hwc hwd hk => ?_⟩
  · have hlegal := PipeFn.ofFunction_legal hl hout hf
    exact ⟨_, PipeFn.ofFunction l out f, exec_pipeReg_of_accepts (checkPipeFn_param hlegal) ha, rfl, rfl,
      fun x hx => PipeFn.apply_ofFunction hl hout hf hx⟩
  · exact ⟨exec_add_param s ha hb, exec_sub_param s ha hb, exec_mul_param s ha hb, fun p hp => exec_reshape_truncate s ha hp,
      fun n => exec_rshift_natCast s ha n, fun hs => exec_neg_of_signed s ha hs, LaneExpr.eval_select fmt x c a b, rfl, rfl, fun _ => rfl⟩
  · refine ⟨?_, ?_, ?_, ?_, ?_, fun n => ?_, fun p hp => ?_, fun hs => ?_⟩
    · rw [exec_cAdd_param s hz hw, Cx.add, hza, hzb, hwc, hwd]
      rfl
    · rw [exec_cSub_param s hz hw, Cx.sub, hza, hzb, hwc, hwd]
      rfl
    · rw [exec_cMul_param s hz hw, Cx.mul, hza, hzb, hwc, hwd]
      rfl
    · rw [exec_cMul3_param hz hw, Cx.mul3, hza, hzb, hwc, hwd]
      rfl
    · rw [exec_cScale_param s hz hk, Cx.scale, hza, hzb]
      rfl
    · rw [exec_cRshift_natCast s hz, Cx.rshift, hza, hzb]
      rfl
    · rw [exec_cReshape_truncate s hz hp, Cx.reshape, hza, hzb]
      rfl
    · rw [exec_cMulnegj_of_signed s hz hs, Cx.mulnegj, hza, hzb]
      rfl

end Sys2Proof.Machine
end
